-- ==== Sys2Proof/Word.lean ====
section
/-! DEFINITION. The word types of the part: bytes of the line and of the packet RAM, 16-bit words of the host
window, the module slots and the block words (spec/00_scope.md, "Conventions"). -/

namespace Sys2Proof

/-- A byte of a frame or of the packet RAM. -/
abbrev Byte := BitVec 8

/-- A 16-bit word: a window word, a module slot value, a block word. -/
abbrev Word := BitVec 16

/-- The number held by bits `lo` to `lo + len - 1` of a word. -/
def bitField {n : Nat} (w : BitVec n) (lo len : Nat) : Nat := (w.toNat >>> lo) % 2 ^ len

/-- The high byte of a word: it comes first on the line and in an area (13, introduction). -/
def Word.hi (w : Word) : Byte := BitVec.ofNat 8 (w.toNat / 256)

/-- The low byte of a word. -/
def Word.lo (w : Word) : Byte := BitVec.ofNat 8 w.toNat

/-- The word of a high and a low byte. -/
def Word.ofBytes (hi lo : Byte) : Word := BitVec.ofNat 16 (hi.toNat * 256 + lo.toNat)

end Sys2Proof
end

