-- ==== Sys2Proof/Config.lean ====
section
/-! DEFINITION. What is fixed for the part: the names the manual writes in capitals, the ranges of its numbers,
its capacities and its time constants, and the configuration of one station (R186). The manual leaves no result
of a command to the implementation, so there is no free value here. -/

namespace Sys2Proof

/-- A station number, 0-15 (00, Conventions). -/
abbrev Station := Fin 16

/-- A tag, 0-7 (01 §1.1). -/
abbrev Tag := Fin 8

/-- A serial, 0-255, wrapping (R19). -/
abbrev Serial := BitVec 8

/-- A label chosen by the host, 0-65535. -/
abbrev Label := Word

/-- An area of the packet RAM, 0-31 (R58). -/
abbrev AreaNo := Fin 32

/-- A block address, 0 to 2^32-1. -/
abbrev BlockAddr := BitVec 32

/-- The operations of an exchange. -/
inductive Op | read | write | sync
  deriving DecidableEq, Repr

/-- The two mover channels. -/
inductive Channel | a | b
  deriving DecidableEq, Repr

/-- The two roles of a record. -/
inductive Role | initiator | target
  deriving DecidableEq, Repr

/-- What the host does in one acknowledged channel access (R179). -/
inductive Access
  | read
  | write (w : Word)
  deriving DecidableEq, Repr

/-- A rotation position: the place of a sending record in the round-robin (R81). -/
structure Position where
  station : Station
  tag : Tag
  role : Role
  deriving DecidableEq, Repr

/-- The kinds of items (R156). -/
inductive ItemKind | ask | reply | credit | outcome | close | cancel
  deriving DecidableEq, Repr

/-- The outcome codes 1-16 (R96). -/
inductive OutcomeCode
  | done | busy | range | noModule | malformed | notPresent | noReply | moduleFault | moduleStall | starved
  | linkFault | peerLost | peerForgot | expired | cancelled | withdrawn
  deriving DecidableEq, Repr

/-- The refusal reasons of a REPLY (R31, 13 §13.1). -/
inductive Reason | busy | range | noModule | malformed
  deriving DecidableEq, Repr

/-- The line rates of CONFIG_A; code 0 is out of range (R186). -/
inductive LineRate | mbit10 | mbit20 | mbit40
  deriving DecidableEq, Repr

/-- The initiator pool sizes of CONFIG_B (R59). -/
inductive PoolSize | areas8 | areas12 | areas16 | areas24
  deriving DecidableEq, Repr

/-- The number of areas of the initiator pool. -/
def PoolSize.areas : PoolSize → Nat
  | .areas8 => 8
  | .areas12 => 12
  | .areas16 => 16
  | .areas24 => 24

/-- The configuration of a station, fixed by the match of the latch until the next hardware reset (R186, R187). -/
structure Cfg where
  station : Station
  rate : LineRate
  modulePresent : Bool
  pool : PoolSize
  lifetime : BitVec 8
  deriving DecidableEq, Repr

/-- Every station number, rising. -/
def Station.all : List Station := [0, 1, 2, 3, 4, 5, 6, 7, 8, 9, 10, 11, 12, 13, 14, 15]

/-- Every tag, rising. -/
def Tag.all : List Tag := [0, 1, 2, 3, 4, 5, 6, 7]

/-- Every area number, rising. -/
def AreaNo.all : List AreaNo :=
  [0, 1, 2, 3, 4, 5, 6, 7, 8, 9, 10, 11, 12, 13, 14, 15] ++
  [16, 17, 18, 19, 20, 21, 22, 23, 24, 25, 26, 27, 28, 29, 30, 31]

namespace Limit

/-- Initiator records at most (R3). -/
def initiators : Nat := 8
/-- Target records at most, DETACHED included (R3). -/
def targets : Nat := 16
/-- Entries of the Service Queue at most (R46). -/
def service : Nat := 8
/-- Entries of the Request Queue at most (R170). -/
def requests : Nat := 8
/-- Entries of the Outcome Queue at most (R171). -/
def outcomes : Nat := 16
/-- Items of the Pending Item Queue at most (R159). -/
def items : Nat := 32
/-- Items of one CONTROL frame, and of one loopback set, at most (R163). -/
def turnItems : Nat := 16
/-- DATA frames of one own turn: the line budget with no CONTROL frame, and the loopback budget (R81). -/
def turnData : Nat := 4
/-- Slots of a ring at most (R62). -/
def ring : Nat := 4
/-- Words of a block. -/
def blockWords : Nat := 256
/-- Bytes of a block. -/
def blockBytes : Nat := 512
/-- Blocks of an exchange at most. -/
def blocks : Nat := 256
/-- Consecutive rewinds at which an exchange ends (R91, R92). -/
def rewinds : Nat := 8
/-- Own turns without a CREDIT at which a sender rewinds (R90). -/
def stallTurns : Nat := 4
/-- Own turns between two sends of an ASK (R10). -/
def askTurns : Nat := 3
/-- Sends of an ASK at most (R10). -/
def askSends : Nat := 3
/-- Own turns of priming at which the record ends STARVED (R50). -/
def priming : Nat := 32
/-- Own turns between two CREDITs of a priming record (R50). -/
def primingCredit : Nat := 4
/-- Own turns of one wait on the ring at which the record ends STARVED (R126). -/
def starvation : Nat := 64
/-- Own turns between two OUTCOMEs of a SETTLING record (R54). -/
def resend : Nat := 4
/-- Silent turns at which a peer is removed (R149). -/
def misses : Nat := 3
/-- The watchdog, in ticks of the 1 ms timebase (R125). -/
def watchdogMs : Nat := 2000
/-- The wait for READY, in ticks of the 1 ms timebase (R118). -/
def startingMs : Nat := 8000
/-- Milliseconds of one unit of the configured lifetime (R20). -/
def lifetimeUnit : Nat := 10
/-- T_gap in bit times (R141, R186). -/
def gapBits : Nat := 96
/-- The spacing before each frame of a transmission, in bit times (R141). -/
def spacingBits : Nat := 24

end Limit

end Sys2Proof
end

