-- ==== Sys2Proof/Syntax.lean ====
section
/-! DEFINITION. The commands and events of the part: one constructor per row of spec/opcode_table.json, in the
table's order, with the operands the rules give it. -/

namespace Sys2Proof

/-- A command or event that reaches the part. -/
inductive Instr
  /-- HARDWARE_RESET (R183): power-on, or RESET_N goes low. -/
  | hardwareReset
  /-- CONFIG_A_WRITE (R185): the host writes CONFIG_A. -/
  | configAWrite (w : Word)
  /-- CONFIG_B_WRITE (R185): the host writes CONFIG_B. -/
  | configBWrite (w : Word)
  /-- REGISTER_WRITE (R168): the host writes the window word at an offset. -/
  | registerWrite (off : BitVec 7) (w : Word)
  /-- POST (R169). -/
  | post
  /-- OUTCOME_POP (R172). -/
  | outcomePop
  /-- FLAGS_WRITE (R180). -/
  | flagsWrite (w : Word)
  /-- THRESHOLDS_WRITE (R178). -/
  | thresholdsWrite (w : Word)
  /-- MAINT_LOAD (R174): the host writes MAINT_COUNT. -/
  | maintLoad (w : Word)
  /-- JOIN_LINK (R134). -/
  | joinLink
  /-- LEAVE_LINK (R189). -/
  | leaveLink
  /-- STATION_RESET (R188). -/
  | stationReset
  /-- CANCEL (R99): the label is the one COMMAND_ARG holds (13 §13.2). -/
  | cancel
  /-- RUN_MAINT (R174). -/
  | runMaint
  /-- COMMAND_INVALID_CODE (R173, R191): a COMMAND write whose code names no command. -/
  | commandInvalidCode (code : BitVec 3)
  /-- CHANNEL_ACCESS (R179): one acknowledged access on a channel. -/
  | channelAccess (ch : Channel) (acc : Access)
  /-- TAKE_REQUEST (R22). -/
  | takeRequest
  /-- INTACT_FRAME_RECEIVED (R143): the bytes of a frame heard on the line, header to CRC-32. -/
  | intactFrameReceived (bytes : List Byte)
  /-- CORRUPT_FRAME (R142). -/
  | corruptFrame
  /-- SILENCE_EVENT (R145): the silence timer reaches T_gap. -/
  | silenceEvent
  /-- MISSES_REACH_3 (R149): the silence event that is the third consecutive silent turn of a peer. -/
  | missesReach3 (s : Station)
  /-- JOIN_RESEND (R140): the OPEN turn begins at which a JOINING station sends its JOIN again. -/
  | joinResend
  /-- FOUNDING_WAIT_EXPIRY (R136). -/
  | foundingWaitExpiry
  /-- END_OF_TRANSMISSION (R165). -/
  | endOfTransmission
  /-- ASK_RESEND (R28), of the record of a tag. -/
  | askResend (t : Tag)
  /-- NO_REPLY (R29), of the record of a tag. -/
  | noReply (t : Tag)
  /-- LIFETIME_EXPIRY (R20), of the record of a tag. -/
  | lifetimeExpiry (t : Tag)
  /-- STALL_REWIND (R90), of the sending record at a rotation position. -/
  | stallRewind (p : Position)
  /-- REWIND_LIMIT_INITIATOR (R91), of the record of a tag. -/
  | rewindLimitInitiator (t : Tag)
  /-- REWIND_LIMIT_TARGET (R92), of the record on a key. -/
  | rewindLimitTarget (s : Station) (t : Tag)
  /-- PRIMING_CREDIT (R50), of the ACTIVE record. -/
  | primingCredit
  /-- PRIMING_LIMIT (R50), of the ACTIVE record. -/
  | primingLimit
  /-- STARVATION_LIMIT (R126), of the ACTIVE record. -/
  | starvationLimit
  /-- OUTCOME_RESEND (R54), of the record on a key. -/
  | outcomeResend (s : Station) (t : Tag)
  /-- MODULE_GRANT (R121). -/
  | moduleGrant
  /-- SLOT_ACCESS_COMPLETE (R115): the module answers the access in flight; a read yields `v`. -/
  | slotAccessComplete (v : Word)
  /-- BLOCK_TRANSFER_BEGIN (R123). -/
  | blockTransferBegin
  /-- XFER_SHOWN (R122): MXFER reads `level` from now on. -/
  | xferShown (level : Bool)
  /-- ATTN_RISE (R124): ATTN rises while STATUS and DETAIL read so. -/
  | attnRise (status detail : Word)
  /-- WATCHDOG_EXPIRY (R125). -/
  | watchdogExpiry
  /-- MRST_RELEASE (R118): 100 us after the entry to RESETTING. -/
  | mrstRelease
  /-- STARTING_TIMEOUT (R118): 8 s after the release of MRST. -/
  | startingTimeout
  /-- RECEIVED_FRAME_START (R141): the start of a frame is heard. -/
  | receivedFrameStart
  /-- RESET_N_RELEASE (R183): RESET_N returns high. -/
  | resetNRelease
  deriving DecidableEq, Repr

end Sys2Proof
end

