-- ==== Sys2Proof/Decode.lean ====
section
/-! DEFINITION. The table's words. No row of spec/opcode_table.json gives bits (98_reader: rows with "fixed" or
"fields": 0), because the part has no instruction words: its commands are accesses and events. So no word spells
a command. -/

namespace Sys2Proof

/-- The command that a word spells by the table's bits: none of the 44 rows gives bits. -/
def decodeTableWord (_nbits _w : Nat) : Option Instr := none

end Sys2Proof
end

