-- ==== Sys2Proof/Machine/State.lean ====
section
/-! DEFINITION. The state of the station as plain data: the records, queues, registers and pins the manual gives
it, grouped by the block that owns them (spec/00_scope.md, "Ownership of state"), and the state right after a
hardware reset. -/

namespace Sys2Proof.Machine

/-! ### Packet RAM and rings (chapter 4) -/

/-- The packet RAM: bytes by address, addresses strictly rising, no listed byte equal to 00h, which is what an
unlisted address reads as (DESIGN CHOICE, log 5). -/
abbrev Memory := List Host.Cell

/-- The state of a ring slot (R67). FILLING and DRAINING hold the block and the words moved so far. -/
inductive SlotState
  | empty
  | filling (block words : Nat)
  | full (block : Nat)
  | draining (block words : Nat)
  deriving DecidableEq, Repr

/-- A slot of a ring: an area and its state (R62, R67). -/
structure Slot where
  area : AreaNo
  st : SlotState
  deriving DecidableEq, Repr

/-- A ring: its slots, slot 0 first (R62). -/
abbrev Ring := List Slot

/-! ### Items and frames (chapter 9, 13) -/

/-- The fields of its own that an item carries (R156). Operation and counts are held as received, so that a
value outside its range can be judged by the rule that owns it (R190). -/
inductive ItemBody
  | ask (op : Byte) (count : Nat) (addr : BlockAddr)
  | reply (refusal : Option Reason)
  | credit (dir : Role) (next limit : Nat)
  | outcome (code : OutcomeCode) (done : Nat) (status detail : Word)
  | close
  | cancel
  deriving DecidableEq, Repr

/-- A control item (R156). `dest` is its destination; `init`, `tag`, `serial` name the exchange. -/
structure Item where
  dest : Station
  init : Station
  tag : Tag
  serial : Serial
  body : ItemBody
  deriving DecidableEq, Repr

/-- Where a waiting item comes from: it refers to its record (R161); it is complete, its record is gone or never
was; or it is an orphan reply (R112). -/
inductive Origin | record | fixed | orphan
  deriving DecidableEq, Repr

/-- An entry of the Pending Item Queue. -/
structure PendingItem where
  item : Item
  origin : Origin
  deriving DecidableEq, Repr

/-- What a DATA frame carries (R155). -/
structure DataBlock where
  dest : Station
  init : Station
  tag : Tag
  serial : Serial
  index : Nat
  bytes : List Byte
  deriving DecidableEq, Repr

/-- The frame kinds (R155); every other code is reserved. -/
inductive FrameKind | pass | join | leave | control | data | reserved
  deriving DecidableEq, Repr

/-- The usable payload of a frame. -/
inductive Payload
  | none
  | items (l : List Item)
  | data (d : DataBlock)
  deriving DecidableEq, Repr

/-- A frame (R155), header and payload; its CRC-32 is computed when it is laid out. -/
structure Frame where
  kind : FrameKind
  sender : Station
  last : Bool
  ready : Bool
  roster : BitVec 16
  payload : Payload
  deriving DecidableEq, Repr

/-! ### Exchange records (chapter 1) -/

/-- The outcome field of a record (R13). The module pair is present only with MODULE_FAULT. -/
structure Outcome where
  code : OutcomeCode
  done : Nat
  confirmed : Bool
  pair : Option (Word × Word)
  deriving DecidableEq, Repr

/-- The sender counters (R7). -/
structure SendCounters where
  base : Nat
  next : Nat
  limit : Nat
  stall : Nat
  rewinds : Nat
  deriving DecidableEq, Repr

/-- The receiver counters (R8): next-expected and consumed count. -/
structure RecvCounters where
  expected : Nat
  consumed : Nat
  deriving DecidableEq, Repr

/-- The counters a record has: those of its role in the block flow, none for SYNC (R7, R8). -/
inductive Flow
  | none
  | sender (c : SendCounters)
  | receiver (c : RecvCounters)
  deriving DecidableEq, Repr

/-- The initiator states (01 §1.4). ASKING holds the ask watch (R10); DELIVERING holds whether a CLOSE is owed at
the entry into the Outcome Queue (R39). -/
inductive InitState
  | asking (sends turns : Nat)
  | waiting
  | moving
  | awaitOutcome
  | delivering (closeOwed : Bool)
  deriving DecidableEq, Repr

/-- An initiator record (01 §1.3). -/
structure InitRec where
  peer : Station
  tag : Tag
  serial : Serial
  op : Op
  addr : BlockAddr
  count : Nat
  channel : Option Channel
  label : Label
  state : InitState
  ring : Option Ring
  flow : Flow
  moved : Nat
  lifetime : Option Nat
  wanted : List ItemKind
  outcome : Option Outcome
  deriving DecidableEq, Repr

/-- The target states (01 §1.5). SETTLING holds whether its first OUTCOME is still owed, and the resend count
(R53, R54). -/
inductive TargetState
  | queued
  | active
  | finishing
  | settling (firstOwed : Bool) (resend : Nat)
  | detached
  deriving DecidableEq, Repr

/-- The identity of a target record's exchange: initiator station, tag, serial (01 §1.1). -/
structure ExchId where
  peer : Station
  tag : Tag
  serial : Serial
  deriving DecidableEq, Repr

/-- A target record (01 §1.3). Its identity is absent in DETACHED (R17). -/
structure TargetRec where
  id : Option ExchId
  op : Op
  addr : BlockAddr
  count : Nat
  state : TargetState
  ring : Option Ring
  flow : Flow
  moved : Nat
  priming : Option Nat
  starvation : Option Nat
  wanted : List ItemKind
  outcome : Option Outcome
  deriving DecidableEq, Repr

/-! ### Host port and channels (chapter 10, 11) -/

/-- The configuration latch (R185); A values are bits 6-0 and B values bits 15-8, 1-0 of the word written. -/
inductive Latch
  | awaitA1
  | awaitB1 (a : Word)
  | awaitA2 (a b : Word)
  | awaitB2 (a b : Word)
  | matched
  deriving DecidableEq, Repr

/-- The request staging record (R169). -/
structure Staging where
  target : Station
  op : BitVec 3
  chan : BitVec 2
  count : BitVec 9
  addrHi : Word
  addrLo : Word
  label : Label
  deriving DecidableEq, Repr

/-- An entry of the Request Queue (R170). The channel code is carried as written; a SYNC's is disregarded. -/
structure Request where
  target : Station
  op : Op
  chan : BitVec 2
  count : Nat
  addr : BlockAddr
  label : Label
  deriving DecidableEq, Repr

/-- An entry of the Outcome Queue (R171). -/
structure OutcomeRec where
  label : Label
  op : Op
  peer : Station
  outcome : Outcome
  deriving DecidableEq, Repr

/-- POST_STATUS (R169). -/
inductive PostStatus | none | accepted | malformed | queueFull
  deriving DecidableEq, Repr

/-- COMMAND_STATUS (R173). -/
inductive CommandStatus
  | none | taken | wrongState | outcomeFull | noMatch | notAvailable | busy | noScript
  deriving DecidableEq, Repr

/-- The HOST_FAULT causes (R181). -/
inductive FaultCause | none | lateConfig | strayAccess | emptyPop | maintBusy | badScript
  deriving DecidableEq, Repr

/-- The maintenance result (R174). -/
inductive MaintResult | none | posted | running | done | stalled | dataRefused
  deriving DecidableEq, Repr

/-- A staged maintenance step: kind 1 WRITE, 2 READ, 3 WAIT_READY (R174, 13 §13.2). -/
structure StagedStep where
  kind : BitVec 2
  slot : BitVec 3
  value : Word
  deriving DecidableEq, Repr

/-- A step of a held maintenance script (R129). -/
inductive ScriptStep
  | write (slot : BitVec 3) (value : Word)
  | read (slot : BitVec 3)
  | waitReady
  deriving DecidableEq, Repr

/-- What the Host Port owns (chapter 10, 11). -/
structure HostPort where
  config : Option Cfg
  latch : Latch
  staging : Staging
  commandArg : Word
  postStatus : PostStatus
  commandStatus : CommandStatus
  flags : BitVec 8
  enables : BitVec 8
  cause : FaultCause
  repeated : Bool
  requests : List Request
  outcomes : List OutcomeRec
  steps : Vector StagedStep 16
  stepCount : BitVec 5
  hostData : Word
  deriving DecidableEq, Repr

/-- The kind of a channel's last departure (R177). -/
inductive Departure | none | completed | aborted
  deriving DecidableEq, Repr

/-- What a channel owns beside its queue (R177, R178). -/
structure Chan where
  held : Bool
  departure : Departure
  lastLabel : Label
  threshold : BitVec 2
  deriving DecidableEq, Repr

/-! ### Membership controller, link port, transmit scheduler (chapter 8, 9) -/

/-- The link states (R133). -/
inductive LinkState | unconfigured | offline | listening | founding | joining | member | leaving
  deriving DecidableEq, Repr

/-- An entry of the roster table (R147). -/
structure RosterEntry where
  present : Bool
  misses : Nat
  ready : Bool
  deriving DecidableEq, Repr

/-- What the Membership Controller owns. The holder is `none` when it is OPEN. -/
structure Membership where
  link : LinkState
  roster : Vector RosterEntry 16
  generation : BitVec 16
  holder : Option Station
  activity : Bool
  view : BitVec 16
  openTurns : Nat
  deriving DecidableEq, Repr

/-- What a transmission is (R165). -/
inductive TxKind | ownTurn | join | founding | leave
  deriving DecidableEq, Repr

/-- A transmission in progress: its frames as composed. -/
structure Transmission where
  kind : TxKind
  frames : List Frame
  deriving DecidableEq, Repr

/-- What the Link Port owns: whether a frame is being received, and the transmission. -/
structure LinkPort where
  receiving : Bool
  tx : Option Transmission
  deriving DecidableEq, Repr

/-- What the Transmit Scheduler owns: the Pending Item Queue (R159), the loopback set taken at a composition and
not yet delivered (R166; empty between events), and the position served last (R81). -/
structure Scheduler where
  items : List PendingItem
  loopItems : List PendingItem
  rotation : Position
  deriving DecidableEq, Repr

/-- What the Exchange Controller owns. `inits` stands in creation order (R95) and `targets` in order of
acceptance (R46); `delivering` is the order of the records in DELIVERING (R38). -/
structure Exchange where
  inits : List InitRec
  delivering : List Tag
  targets : List TargetRec
  lastTag : Tag
  serials : Vector Serial 8
  deriving DecidableEq, Repr

/-- What the Buffer Manager owns beside the rings, which the records hold: the packet RAM and the free lists. -/
structure Buffers where
  ram : Memory
  initFree : List AreaNo
  servFree : List AreaNo
  deriving DecidableEq, Repr

/-! ### Module port (chapter 7) -/

/-- A slot access in flight: the module slot, and the value of a write (R115). -/
structure SlotAccess where
  slot : BitVec 3
  write : Option Word
  deriving DecidableEq, Repr

/-- Where the description stands (R118): the DESCRIBE write in flight; waiting for ATTN; ATTN already seen while
the write is in flight; reading ADDR_LO; reading ADDR_HI. -/
inductive Describe
  | command
  | await
  | ended
  | readLo
  | readHi (lo : Word)
  deriving DecidableEq, Repr

/-- The phases of SERVING (07 §7.4). `setup i`: write `i` of the built script in flight. `stopping`: the setup of an
abandoned record, its last access in flight (R127). `runOut next count`: a run-out to ATTN, the next block the
module offers and the block count. -/
inductive Serving
  | priming
  | setup (i : Nat)
  | stopping
  | data
  | closing
  | runOut (next count : Nat)
  deriving DecidableEq, Repr

/-- The module state with what belongs to it (07 §7.2). RESETTING: whether its 100 us timer runs. STARTING: the
ticks since its entry. MAINTAINING: the step, the script's length standing for the closing wait. -/
inductive PortState
  | absent
  | resetting (pulse : Bool)
  | starting (ms : Nat)
  | describing (d : Describe)
  | idle
  | serving (p : Serving)
  | maintaining (i : Nat)
  | failed
  deriving DecidableEq, Repr

/-- What the Module Port owns. The watchdog holds the ticks since its restart while it runs. -/
structure Port where
  state : PortState
  access : Option SlotAccess
  transfer : Option Nat
  xfer : Bool
  attention : Option (Word × Word)
  capture : Option (Word × Word)
  capacity : BitVec 32
  watchdog : Option Nat
  script : Option (List ScriptStep)
  spent : Bool
  result : MaintResult
  results : List Word
  deriving DecidableEq, Repr

/-! ### The station -/

/-- The state of the station. -/
structure State where
  /-- The model's own queue of waiting commands, first in first out. -/
  pending : List Instr
  /-- A hardware reset lasts: RESET_N is low (R183). -/
  inReset : Bool
  /-- The 1 ms timebase runs (R187). -/
  timebase : Bool
  host : HostPort
  chanA : Chan
  chanB : Chan
  member : Membership
  line : LinkPort
  sched : Scheduler
  exch : Exchange
  buf : Buffers
  port : Port
  deriving DecidableEq, Repr

/-- The part has no condition that stops it (INVENTORY.md, "Faults"): no command ends in a fault, so there is
no fault to raise. Safe: nothing is assumed of a stopped part. -/
inductive Fault
  deriving DecidableEq, Repr

/-- Why a command has no next state. -/
inductive Refusal
  /-- The command has no meaning in this model yet: raised by an arm of `exec` alone, safe (it stops). -/
  | notModelled (mnemonic : String)
  deriving DecidableEq, Repr

/-- A roster entry that is absent (R147). -/
def RosterEntry.absent : RosterEntry := ⟨false, 0, false⟩

/-- A channel after a reset of the channel state; the threshold is kept by a station reset (R182). -/
def Chan.atReset (threshold : BitVec 2) : Chan := ⟨false, .none, 0, threshold⟩

/-- The Host Port after a hardware reset (R182). -/
def HostPort.reset : HostPort where
  config := none
  latch := .awaitA1
  staging := ⟨0, 0, 0, 0, 0, 0, 0⟩
  commandArg := 0
  postStatus := .none
  commandStatus := .none
  flags := 0
  enables := 0
  cause := .none
  repeated := false
  requests := []
  outcomes := []
  steps := Vector.replicate 16 ⟨0, 0, 0⟩
  stepCount := 0
  hostData := 0

/-- The Membership Controller after a hardware reset (R153). -/
def Membership.reset : Membership where
  link := .unconfigured
  roster := Vector.replicate 16 RosterEntry.absent
  generation := 0
  holder := none
  activity := false
  view := 0
  openTurns := 0

/-- The position served last after a reset (R81). -/
def wrapPosition : Position := ⟨15, 7, .target⟩

/-- The Module Port after a hardware reset (R132): RESETTING with its timer stopped. -/
def Port.reset : Port where
  state := .resetting false
  access := none
  transfer := none
  xfer := false
  attention := none
  capture := none
  capacity := 0
  watchdog := none
  script := none
  spent := false
  result := .none
  results := []

/-- The state of the station right after a hardware reset (R183 and the rules it names). Packet RAM: nothing
listed (log 5). -/
def State.reset : State where
  pending := []
  inReset := false
  timebase := false
  host := HostPort.reset
  chanA := Chan.atReset 0
  chanB := Chan.atReset 0
  member := Membership.reset
  line := ⟨false, none⟩
  sched := ⟨[], [], wrapPosition⟩
  exch := ⟨[], [], [], 7, Vector.replicate 8 0⟩
  buf := ⟨[], [], []⟩
  port := Port.reset

end Sys2Proof.Machine
end

