-- ==== Sys2Proof/Machine/Flags.lean ====
section
/-! DEFINITION. The interrupt flags, their enables and the interrupt line (R180), and host faults (R181). -/

namespace Sys2Proof.Machine

/-- The eight interrupt flags (R180). -/
inductive Flag | outcome | space | roster | maint | module | chanA | chanB | hostFault
  deriving DecidableEq, Repr

/-- The bit of a flag in FLAGS and ENABLES (13 §13.2). -/
def Flag.mask : Flag → BitVec 8
  | .outcome => 1
  | .space => 2
  | .roster => 4
  | .maint => 8
  | .module => 16
  | .chanA => 32
  | .chanB => 64
  | .hostFault => 128

/-- The CHAN flag of a channel. -/
def chanFlag : Channel → Flag
  | .a => .chanA
  | .b => .chanB

/-- A flag is set. -/
def State.flagSet (s : State) (f : Flag) : Bool := s.host.flags &&& f.mask != 0

/-- Setting a flag (R180). -/
def State.setFlag (s : State) (f : Flag) : State :=
  { s with host := { s.host with flags := s.host.flags ||| f.mask } }

/-- The interrupt line: asserted while any flag whose enable is set is itself set (R180). While a hardware reset
lasts it is negated, since every flag is clear (R183). -/
def State.irq (s : State) : Bool := s.host.flags &&& s.host.enables != 0

/-- A host fault (R181): with HOST_FAULT clear it sets the flag, records its cause and clears the repeat mark;
with the flag set it keeps the cause and sets the repeat mark. -/
def State.hostFault (c : FaultCause) (s : State) : State :=
  { s with host := { s.host with flags := s.host.flags ||| Flag.hostFault.mask
                                 cause := if s.flagSet .hostFault then s.host.cause else c
                                 repeated := s.flagSet .hostFault } }

/-- The flags after the host has written `w` to FLAGS (R180): a 1 clears its flag, but for OUTCOME while the
Outcome Queue is not empty. Bits above bit 7 clear nothing (R191). -/
def clearFlags (flags : BitVec 8) (w : Word) (outcomesEmpty : Bool) : BitVec 8 :=
  let ones := w.truncate 8
  flags &&& ~~~ (if outcomesEmpty then ones else ones &&& ~~~ Flag.outcome.mask)

end Sys2Proof.Machine
end

