-- ==== Sys2Proof/Machine/Operands.lean ====
section
/-! DEFINITION. The layouts of chapter 13: the codes carried in frames, items and window words, the CRC-32 of the
line (R157), and how items and frames are laid out in bytes and read back from them (R155, R156, R190). -/

namespace Sys2Proof.Machine

/-! ### Codes -/

/-- Operation codes (13 §13.1). -/
def opCode : Op → Nat
  | .read => 1
  | .write => 2
  | .sync => 3

/-- The operation a code names; 0 and 4 upward name none. -/
def opOfCode : Nat → Option Op
  | 1 => some .read
  | 2 => some .write
  | 3 => some .sync
  | _ => none

/-- Refusal reason codes (13 §13.1). -/
def reasonCode : Reason → Nat
  | .busy => 1
  | .range => 2
  | .noModule => 3
  | .malformed => 4

/-- The refusal reason a code names. -/
def reasonOfCode : Nat → Option Reason
  | 1 => some .busy
  | 2 => some .range
  | 3 => some .noModule
  | 4 => some .malformed
  | _ => none

/-- Outcome codes (R96). -/
def outcomeCode : OutcomeCode → Nat
  | .done => 1
  | .busy => 2
  | .range => 3
  | .noModule => 4
  | .malformed => 5
  | .notPresent => 6
  | .noReply => 7
  | .moduleFault => 8
  | .moduleStall => 9
  | .starved => 10
  | .linkFault => 11
  | .peerLost => 12
  | .peerForgot => 13
  | .expired => 14
  | .cancelled => 15
  | .withdrawn => 16

/-- The outcome code a number names; 0 and 17 upward name none. -/
def outcomeOfCode : Nat → Option OutcomeCode
  | 1 => some .done
  | 2 => some .busy
  | 3 => some .range
  | 4 => some .noModule
  | 5 => some .malformed
  | 6 => some .notPresent
  | 7 => some .noReply
  | 8 => some .moduleFault
  | 9 => some .moduleStall
  | 10 => some .starved
  | 11 => some .linkFault
  | 12 => some .peerLost
  | 13 => some .peerForgot
  | 14 => some .expired
  | 15 => some .cancelled
  | 16 => some .withdrawn
  | _ => none

/-- The outcome code a refusal gives (R31). -/
def refusalOutcome : Reason → OutcomeCode
  | .busy => .busy
  | .range => .range
  | .noModule => .noModule
  | .malformed => .malformed

/-- Frame kind codes (13 §13.1). A reserved kind is never sent; 0 stands for it. -/
def frameKindCode : FrameKind → Nat
  | .pass => 1
  | .join => 2
  | .leave => 3
  | .control => 4
  | .data => 5
  | .reserved => 0

/-- The frame kind a code names. -/
def frameKindOfCode : Nat → FrameKind
  | 1 => .pass
  | 2 => .join
  | 3 => .leave
  | 4 => .control
  | 5 => .data
  | _ => .reserved

/-- The direction bit of an item: used by CREDIT alone, 0 toward the target role (13 §13.1). -/
def roleBit : Role → Nat
  | .target => 0
  | .initiator => 1

/-- The kind of an item. -/
def ItemBody.kind : ItemBody → ItemKind
  | .ask _ _ _ => .ask
  | .reply _ => .reply
  | .credit _ _ _ => .credit
  | .outcome _ _ _ _ => .outcome
  | .close => .close
  | .cancel => .cancel

/-- Item kind codes (13 §13.1). -/
def itemKindCode : ItemKind → Nat
  | .ask => 1
  | .reply => 2
  | .credit => 3
  | .outcome => 4
  | .close => 5
  | .cancel => 6

/-- The direction bit of an item's body. -/
def ItemBody.dirBit : ItemBody → Nat
  | .credit dir _ _ => roleBit dir
  | _ => 0

/-- The role an item is addressed to (R1, R156). -/
def ItemBody.toRole : ItemBody → Role
  | .ask _ _ _ => .target
  | .reply _ => .initiator
  | .credit dir _ _ => dir
  | .outcome _ _ _ _ => .initiator
  | .close => .target
  | .cancel => .target

/-! ### Bytes -/

/-- Two bytes of a number, most significant first. -/
def be16 (n : Nat) : List Byte := [BitVec.ofNat 8 (n / 256), BitVec.ofNat 8 n]

/-- Four bytes of a number, most significant first. -/
def be32 (n : Nat) : List Byte :=
  [BitVec.ofNat 8 (n / 16777216), BitVec.ofNat 8 (n / 65536), BitVec.ofNat 8 (n / 256), BitVec.ofNat 8 n]

/-- The number of two bytes, most significant first. -/
def ofBe16 (a b : Byte) : Nat := a.toNat * 256 + b.toNat

/-- The number of four bytes, most significant first. -/
def ofBe32 (a b c d : Byte) : Nat := ((a.toNat * 256 + b.toNat) * 256 + c.toNat) * 256 + d.toNat

/-- A byte of two fields: `hi` in bits 7-4, `lo` in bits 3-0. -/
def nibbles (hi lo : Nat) : Byte := BitVec.ofNat 8 (hi * 16 + lo)

/-- The high field of a byte. -/
def hiNibble (b : Byte) : Nat := bitField b 4 4

/-- The low field of a byte. -/
def loNibble (b : Byte) : Nat := bitField b 0 4

/-! ### CRC-32 (R157) -/

/-- The generator 04C11DB7h in reflected form, for bytes processed least significant bit first. -/
def crcPolynomial : BitVec 32 := 0xEDB88320

/-- One bit of the CRC. -/
def crcBit (c : BitVec 32) : BitVec 32 := if c.getLsbD 0 then (c >>> 1) ^^^ crcPolynomial else c >>> 1

/-- One byte of the CRC, least significant bit first. -/
def crcByte (c : BitVec 32) (b : Byte) : BitVec 32 :=
  crcBit (crcBit (crcBit (crcBit (crcBit (crcBit (crcBit (crcBit (c ^^^ b.zeroExtend 32))))))))

/-- The CRC-32 of a list of bytes: it starts from FFFFFFFFh and is complemented at the end. -/
def crc32 (l : List Byte) : BitVec 32 := ~~~ (l.foldl crcByte 0xFFFFFFFF)

/-- The four bytes of a CRC on the line, least significant first. -/
def crcBytes (c : BitVec 32) : List Byte :=
  [c.extractLsb' 0 8, c.extractLsb' 8 8, c.extractLsb' 16 8, c.extractLsb' 24 8]

/-! ### Items -/

/-- Bytes 3-11 of an item. -/
def ItemBody.bytes : ItemBody → List Byte
  | .ask op count addr => op :: (be16 count ++ be32 addr.toNat ++ [0, 0])
  | .reply none => List.replicate 9 0
  | .reply (some r) => BitVec.ofNat 8 (reasonCode r) :: List.replicate 8 0
  | .credit _ next limit => be16 next ++ be16 limit ++ List.replicate 5 0
  | .outcome code done status detail =>
    BitVec.ofNat 8 (outcomeCode code) :: (be16 done ++ be16 status.toNat ++ be16 detail.toNat ++ [0, 0])
  | .close => List.replicate 9 0
  | .cancel => List.replicate 9 0

/-- The 12 bytes of an item (13 §13.1). -/
def Item.encode (i : Item) : List Byte :=
  nibbles (itemKindCode i.body.kind) i.dest :: nibbles i.init (i.body.dirBit * 8 + i.tag) :: i.serial :: i.body.bytes

/-- The body of an item of kind code `k` with direction bit `dir` from its bytes 3-11. A reserved kind, a REPLY
reason 5-255 and an OUTCOME code 0 or 17-255 give none: the item is passed over (R190). -/
def itemBodyOf (k : Nat) (dir : Bool) (b3 b4 b5 b6 b7 b8 b9 : Byte) : Option ItemBody :=
  match k with
  | 1 => some (.ask b3 (ofBe16 b4 b5) (BitVec.ofNat 32 (ofBe32 b6 b7 b8 b9)))
  | 2 => if b3 = 0 then some (.reply none) else (reasonOfCode b3.toNat).map (fun r => .reply (some r))
  | 3 => some (.credit (if dir then .initiator else .target) (ofBe16 b3 b4) (ofBe16 b5 b6))
  | 4 => (outcomeOfCode b3.toNat).map
      (fun c => .outcome c (ofBe16 b4 b5) (BitVec.ofNat 16 (ofBe16 b6 b7)) (BitVec.ofNat 16 (ofBe16 b8 b9)))
  | 5 => some .close
  | 6 => some .cancel
  | _ => none

/-- The item of 12 bytes, or none where it is passed over. -/
def decodeItem : List Byte → Option Item
  | [b0, b1, b2, b3, b4, b5, b6, b7, b8, b9, _, _] =>
    (itemBodyOf (hiNibble b0) (b1.getLsbD 3) b3 b4 b5 b6 b7 b8 b9).map fun body =>
      { dest := Fin.ofNat 16 (loNibble b0), init := Fin.ofNat 16 (hiNibble b1),
        tag := Fin.ofNat 8 (bitField b1 0 3), serial := b2, body := body }
  | _ => none

/-- The usable items among `n` items laid out one after another. -/
def decodeItems : Nat → List Byte → List Item
  | 0, _ => []
  | n + 1, l =>
    match decodeItem (l.take 12) with
    | some i => i :: decodeItems n (l.drop 12)
    | none => decodeItems n (l.drop 12)

/-! ### Frames -/

/-- Bytes 4-7 of a frame's header. -/
def Payload.headerBytes : Payload → List Byte
  | .none => [0, 0, 0, 0]
  | .items l => [BitVec.ofNat 8 l.length, 0, 0, 0]
  | .data d => [nibbles d.dest d.init, BitVec.ofNat 8 d.tag, d.serial, BitVec.ofNat 8 d.index]

/-- The payload bytes of a frame. -/
def Payload.bytes : Payload → List Byte
  | .none => []
  | .items l => l.flatMap Item.encode
  | .data d => d.bytes

/-- Byte 1 of a frame's header. -/
def flagByte (last ready : Bool) : Byte :=
  BitVec.ofNat 8 ((if last then 128 else 0) + (if ready then 64 else 0))

/-- A frame's header and payload, without its CRC. -/
def Frame.body (f : Frame) : List Byte :=
  nibbles (frameKindCode f.kind) f.sender :: flagByte f.last f.ready ::
    (be16 f.roster.toNat ++ f.payload.headerBytes ++ f.payload.bytes)

/-- The bytes of a frame on the line (13 §13.1). -/
def Frame.encode (f : Frame) : List Byte := f.body ++ crcBytes (crc32 f.body)

/-- The length of a frame in bit times (R155). -/
def Frame.bits (f : Frame) : Nat := 8 * f.encode.length

/-- The length of a transmission in bit times: a spacing before each frame (R165). -/
def transmissionBits (fs : List Frame) : Nat := (fs.map (fun f => Limit.spacingBits + f.bits)).sum

/-- What the Link Port reports of a frame it has received (R157). -/
inductive LinkReport
  | corrupt
  | intact (f : Frame)
  deriving DecidableEq, Repr

/-- The usable payload of an intact frame of `len` bytes: none for a reserved kind, a CONTROL frame with an item
count of 0 or above 16, or a frame whose length its kind and item count do not call for (R157). -/
def framePayload (kind : FrameKind) (len : Nat) (b4 b5 b6 b7 : Byte) (rest : List Byte) : Payload :=
  match kind with
  | .control =>
    if 1 ≤ b4.toNat ∧ b4.toNat ≤ Limit.turnItems ∧ len = 12 + 12 * b4.toNat then .items (decodeItems b4.toNat rest)
    else .none
  | .data =>
    if len = 12 + Limit.blockBytes then
      .data { dest := Fin.ofNat 16 (hiNibble b4), init := Fin.ofNat 16 (loNibble b4),
              tag := Fin.ofNat 8 (bitField b5 0 3), serial := b6, index := b7.toNat, bytes := rest }
    else .none
  | _ => .none

/-- The frame of a header and payload whose CRC is good. -/
def frameOfBody : List Byte → Option Frame
  | b0 :: b1 :: b2 :: b3 :: b4 :: b5 :: b6 :: b7 :: rest =>
    some { kind := frameKindOfCode (hiNibble b0), sender := Fin.ofNat 16 (loNibble b0),
           last := b1.getLsbD 7, ready := b1.getLsbD 6, roster := BitVec.ofNat 16 (ofBe16 b2 b3),
           payload := framePayload (frameKindOfCode (hiNibble b0)) (rest.length + 12) b4 b5 b6 b7 rest }
  | _ => none

/-- The Link Port's check of a received frame (R157, R142): corrupt when it is shorter than 12 bytes, its CRC-32
differs, or its sender is the own station. -/
def receiveFrame (own : Station) (bytes : List Byte) : LinkReport :=
  let body := bytes.take (bytes.length - 4)
  if bytes.drop (bytes.length - 4) = crcBytes (crc32 body) then
    match frameOfBody body with
    | some f => if f.sender = own then .corrupt else .intact f
    | none => .corrupt
  else .corrupt

end Sys2Proof.Machine
end

