-- ==== Sys2Proof/Machine/Ops.lean ====
section
/-! DEFINITION. The operations shared by the meanings: the packet RAM (R58), pools and rings (chapter 4), the
Exchange Table's lookups (R1), the Pending Item Queue (R159 to R161), the turn order (chapter 8) and the views
that are computed from the state (channel queues, Service Queue, request lines, MRST). -/

namespace Sys2Proof.Machine

/-! ### Packet RAM -/

/-- The byte at an address; an unlisted address reads 00h (log 5). -/
def Memory.read : Memory → Nat → Byte
  | [], _ => 0
  | (x, v) :: m, a => if x = a then v else Memory.read m a

/-- Writing a byte, keeping the canonical form. -/
def Memory.write : Memory → Nat → Byte → Memory
  | [], a, b => if b = 0 then [] else [(a, b)]
  | (x, v) :: m, a, b =>
    if a < x then (if b = 0 then (x, v) :: m else (a, b) :: (x, v) :: m)
    else if a = x then (if b = 0 then m else (a, b) :: m)
    else (x, v) :: Memory.write m a b

/-- Every listed address is above `lo`, the addresses rise and no listed byte is 00h. -/
def Memory.wfFrom : Nat → Memory → Bool
  | _, [] => true
  | lo, (x, v) :: m => decide (lo ≤ x) && decide (v ≠ 0) && Memory.wfFrom (x + 1) m

/-- The canonical form: addresses strictly rising, no listed byte equal to what an unlisted address reads as. -/
def Memory.wf (m : Memory) : Bool := Memory.wfFrom 0 m

/-- The byte address of a word of an area (R58): 512 bytes an area, word 0 first. -/
def wordAddr (a : AreaNo) (w : Nat) : Nat := a.val * 512 + 2 * (w % 256)

/-- A word of an area, high byte first (13, introduction). -/
def Memory.readWord (m : Memory) (a : AreaNo) (w : Nat) : Word :=
  Word.ofBytes (m.read (wordAddr a w)) (m.read (wordAddr a w + 1))

/-- Writing a word of an area. -/
def Memory.writeWord (m : Memory) (a : AreaNo) (w : Nat) (v : Word) : Memory :=
  Memory.write (Memory.write m (wordAddr a w) v.hi) (wordAddr a w + 1) v.lo

/-- Writing bytes from an address on. -/
def Memory.writeBytes : Memory → Nat → List Byte → Memory
  | m, _, [] => m
  | m, a, b :: l => Memory.writeBytes (Memory.write m a b) (a + 1) l

/-- Reading `n` bytes from an address on. -/
def Memory.readBytes (m : Memory) : Nat → Nat → List Byte
  | _, 0 => []
  | a, n + 1 => m.read a :: Memory.readBytes m (a + 1) n

/-- The block an area holds. -/
def Memory.readBlock (m : Memory) (a : AreaNo) : List Byte := m.readBytes (a.val * 512) Limit.blockBytes

/-- Writing a whole block into an area. -/
def Memory.writeBlock (m : Memory) (a : AreaNo) (l : List Byte) : Memory :=
  m.writeBytes (a.val * 512) (l.take Limit.blockBytes)

/-! ### Configuration and groups of the state -/

/-- The part takes host accesses as configured: the latch has matched and no hardware reset lasts (R183, R184). -/
def State.configured (s : State) : Bool := s.host.config.isSome && !s.inReset

/-- The own station number (R186); 0 stands before the match, when nothing reads it. -/
def State.own (s : State) : Station :=
  match s.host.config with
  | some c => c.station
  | none => 0

/-- A channel's own state. -/
def State.chan (s : State) : Channel → Chan
  | .a => s.chanA
  | .b => s.chanB

/-- Replacing a channel's own state. -/
def State.setChan (s : State) (c : Channel) (x : Chan) : State :=
  match c with
  | .a => { s with chanA := x }
  | .b => { s with chanB := x }

/-! ### Rings and slots -/

/-- The length of a ring: min(4, block count) (R62). -/
def ringLen (count : Nat) : Nat := min Limit.ring count

/-- A new ring over areas: every slot EMPTY (R62). -/
def newRing (areas : List AreaNo) : Ring := areas.map (fun a => ⟨a, .empty⟩)

/-- The areas of a ring in ring order. -/
def Ring.areas (r : Ring) : List AreaNo := r.map Slot.area

/-- The slot of block `b`: slot b mod k (R6). -/
def Ring.slot (r : Ring) (b : Nat) : Option Slot := r[b % r.length]?

/-- The state of the slot of block `b`. -/
def Ring.stateOf (r : Ring) (b : Nat) : Option SlotState := (r.slot b).map Slot.st

/-- Moving the slot of block `b` to a state. -/
def Ring.setState (r : Ring) (b : Nat) (st : SlotState) : Ring :=
  r.modify (b % r.length) (fun x => { x with st := st })

/-- The slots after base has risen from `lo` to `hi`: a FULL slot whose block it passed becomes EMPTY (R71). A
FILLING slot is emptied at its completion. -/
def Ring.passBase (r : Ring) (lo hi : Nat) : Ring :=
  r.map fun x =>
    match x.st with
    | .full b => if lo ≤ b ∧ b < hi then { x with st := .empty } else x
    | _ => x

/-- The slots at the event that abandons a READ: every FULL slot becomes EMPTY (R76). -/
def Ring.dropFull (r : Ring) : Ring :=
  r.map fun x =>
    match x.st with
    | .full _ => { x with st := .empty }
    | _ => x

/-- The slots when block transfers end without completion: FILLING and DRAINING become EMPTY (R67, R77, R124). -/
def Ring.cutTransfers (r : Ring) : Ring :=
  r.map fun x =>
    match x.st with
    | .filling _ _ => { x with st := .empty }
    | .draining _ _ => { x with st := .empty }
    | _ => x

/-- Reserving a ring of `k` areas: the first `k` of the free list; none when the list holds fewer (R62). -/
def reserveRing (free : List AreaNo) (k : Nat) : Option (Ring × List AreaNo) :=
  if k ≤ free.length then some (newRing (free.take k), free.drop k) else none

/-- The areas a held ring gives back (R65). -/
def ringAreas : Option Ring → List AreaNo
  | some r => r.areas
  | none => []

/-! ### Counters -/

/-- The sender counters at creation (R7). -/
def SendCounters.zero : SendCounters := ⟨0, 0, 0, 0, 0⟩

/-- The counters at creation of a record of role `role` and operation `op` (R7, R8): the target sends for a READ,
the initiator for a WRITE. -/
def newFlow : Role → Op → Flow
  | _, .sync => .none
  | .initiator, .write => .sender SendCounters.zero
  | .target, .read => .sender SendCounters.zero
  | .initiator, .read => .receiver ⟨0, 0⟩
  | .target, .write => .receiver ⟨0, 0⟩

/-- Base, or 0 where the record has no sender counters. -/
def Flow.base : Flow → Nat
  | .sender c => c.base
  | _ => 0

/-- Next-expected, or 0 where the record has no receiver counters. -/
def Flow.expected : Flow → Nat
  | .receiver c => c.expected
  | _ => 0

/-- Consumed count, or 0 where the record has no receiver counters. -/
def Flow.consumed : Flow → Nat
  | .receiver c => c.consumed
  | _ => 0

/-- The credit limit a receiver advertises: min(consumed + k, block count) while it holds its ring, 0 otherwise
(R8, R74). -/
def advertised (ring : Option Ring) (consumed count : Nat) : Nat :=
  match ring with
  | some _ => min (consumed + ringLen count) count
  | none => 0

/-! ### The Exchange Table -/

/-- The initiator record that holds a tag. -/
def State.initRec (s : State) (t : Tag) : Option InitRec := s.exch.inits.find? (fun r => r.tag = t)

/-- Replacing the initiator record of the same tag. -/
def State.setInit (s : State) (r : InitRec) : State :=
  { s with exch := { s.exch with inits := s.exch.inits.map (fun x => if x.tag = r.tag then r else x) } }

/-- Changing the initiator record of a tag. -/
def State.mapInit (s : State) (t : Tag) (f : InitRec → InitRec) : State :=
  { s with exch := { s.exch with inits := s.exch.inits.map (fun x => if x.tag = t then f x else x) } }

/-- A target record is keyed (station, tag); a DETACHED record has no key (R17). -/
def TargetRec.keyed (r : TargetRec) (p : Station) (t : Tag) : Bool :=
  match r.id with
  | some i => decide (i.peer = p) && decide (i.tag = t)
  | none => false

/-- The target record on a key (R1). -/
def State.targetRec (s : State) (p : Station) (t : Tag) : Option TargetRec :=
  s.exch.targets.find? (fun r => r.keyed p t)

/-- Changing the target record on a key. -/
def State.mapTarget (s : State) (p : Station) (t : Tag) (f : TargetRec → TargetRec) : State :=
  { s with exch := { s.exch with targets := s.exch.targets.map (fun x => if x.keyed p t then f x else x) } }

/-- The serial of a target record, 0 standing for none. -/
def TargetRec.serial (r : TargetRec) : Serial :=
  match r.id with
  | some i => i.serial
  | none => 0

/-- A target record on which the port runs out: DETACHED, or SETTLING with its ring still held (R53, R66). -/
def TargetRec.inRunOut (r : TargetRec) : Bool :=
  match r.state with
  | .detached => true
  | .settling _ _ => r.ring.isSome
  | _ => false

/-- The ACTIVE record, at most one (R16). -/
def State.activeRec (s : State) : Option TargetRec := s.exch.targets.find? (fun r => r.state = .active)

/-- The record the module port works for: the ACTIVE one, or in a run-out the one that is run out. -/
def State.isServed (s : State) (r : TargetRec) : Bool :=
  match s.port.state with
  | .serving (.runOut _ _) => r.inRunOut
  | .serving _ => decide (r.state = .active)
  | _ => false

/-- The record the module mover serves (R68). -/
def State.servedRec (s : State) : Option TargetRec := s.exch.targets.find? s.isServed

/-- Changing the record the module mover serves. -/
def State.mapServed (s : State) (f : TargetRec → TargetRec) : State :=
  { s with exch := { s.exch with targets := s.exch.targets.map (fun x => if s.isServed x then f x else x) } }

/-- The Service Queue: exactly the target records in QUEUED, in acceptance order (R46, log 21). -/
def State.serviceQueue (s : State) : List TargetRec := s.exch.targets.filter (fun r => r.state = .queued)

/-- An initiator record is in its Channel Queue from creation until its data is complete or it ends (R175). -/
def InitRec.inChannel (r : InitRec) (c : Channel) : Bool :=
  decide (r.channel = some c) &&
    match r.state with
    | .asking _ _ => true
    | .waiting => true
    | .moving => true
    | _ => false

/-- The Channel Queue of a channel: its records in order of their take (R175, log 21). -/
def State.channelQueue (s : State) (c : Channel) : List InitRec := s.exch.inits.filter (fun r => r.inChannel c)

/-- The head of a channel (R175). -/
def State.channelHead (s : State) (c : Channel) : Option InitRec := (s.channelQueue c).head?

/-- The record heads its channel. -/
def State.headsChannel (s : State) (r : InitRec) : Bool :=
  match r.channel with
  | some c => decide ((s.channelHead c).map InitRec.tag = some r.tag)
  | none => false

/-- The first free tag after the tag allocated last, wrapping from 7 to 0 (R18). -/
def State.freeTag (s : State) : Option Tag :=
  (Tag.all.map (fun i => s.exch.lastTag + 1 + i)).find? (fun t => (s.initRec t).isNone)

/-! ### The Pending Item Queue -/

/-- Two items are of one exchange: same initiator station, tag and serial (R1). -/
def Item.sameExchange (i j : Item) : Bool :=
  decide (i.init = j.init) && decide (i.tag = j.tag) && decide (i.serial = j.serial)

/-- An item of the same kind and exchange, and of the same origin, already waits (R28, R43, R54, R112). -/
def State.waits (s : State) (i : Item) (o : Origin) : Bool :=
  s.sched.items.any (fun p => p.item.sameExchange i && decide (p.item.body.kind = i.body.kind) && decide (p.origin = o))

/-- A CREDIT of the exchange already waits, whichever record it was of (R160). -/
def State.creditWaits (s : State) (i : Item) : Bool :=
  s.sched.items.any (fun p => p.item.sameExchange i && decide (p.item.body.kind = .credit))

/-- The Pending Item Queue takes an offered item (R160): a CREDIT merges into one of its exchange, any other item
needs a free place. -/
def State.takesItem (s : State) (i : Item) : Bool :=
  (decide (i.body.kind = .credit) && s.creditWaits i) || decide (s.sched.items.length < Limit.items)

/-- The Pending Item Queue after an item is offered to it (R160): a CREDIT merges into one of its exchange, any other
item is placed at the tail while fewer than 32 wait; one that is not taken leaves the queue unchanged. -/
def State.itemsAfter (s : State) (i : Item) (o : Origin) : List PendingItem :=
  if i.body.kind = .credit ∧ s.creditWaits i then s.sched.items
  else if s.sched.items.length < Limit.items then s.sched.items ++ [⟨i, o⟩]
  else s.sched.items

/-- Offering an item (R160). -/
def State.offer (s : State) (i : Item) (o : Origin) : State :=
  { s with sched := { s.sched with items := s.itemsAfter i o } }

/-- An orphan reply: placed unless one of its kind for the same exchange waits, dropped when the queue is full
(R112). -/
def State.offerOrphan (s : State) (i : Item) : State := if s.waits i .orphan then s else s.offer i .orphan

/-- Adding a kind to wanted items, once (R12). -/
def wantKind (l : List ItemKind) (k : ItemKind) : List ItemKind := if l.contains k then l else l ++ [k]

/-- An initiator record's item. The values of a CREDIT are read at its composition (R161). -/
def InitRec.item (own : Station) (r : InitRec) : ItemKind → Item
  | .ask => ⟨r.peer, own, r.tag, r.serial, .ask (BitVec.ofNat 8 (opCode r.op)) r.count (if r.op = .sync then 0 else r.addr)⟩
  | .credit => ⟨r.peer, own, r.tag, r.serial, .credit .target 0 0⟩
  | .cancel => ⟨r.peer, own, r.tag, r.serial, .cancel⟩
  | _ => ⟨r.peer, own, r.tag, r.serial, .close⟩

/-- The code, blocks done and module pair an OUTCOME item carries of a record's outcome (R54). -/
def outcomeBody : Option Outcome → ItemBody
  | some o => .outcome o.code o.done (o.pair.elim 0 Prod.fst) (o.pair.elim 0 Prod.snd)
  | none => .outcome .done 0 0 0

/-- A target record's item. -/
def TargetRec.item (i : ExchId) (r : TargetRec) : ItemKind → Item
  | .credit => ⟨i.peer, i.peer, i.tag, i.serial, .credit .initiator 0 0⟩
  | .outcome => ⟨i.peer, i.peer, i.tag, i.serial, outcomeBody r.outcome⟩
  | _ => ⟨i.peer, i.peer, i.tag, i.serial, .reply none⟩

/-- An initiator record offers an item; one that is not placed becomes wanted (R12). -/
def State.offerInit (s : State) (t : Tag) (k : ItemKind) : State :=
  match s.initRec t with
  | some r =>
    let i := r.item s.own k
    if s.takesItem i then s.offer i .record else s.mapInit t (fun x => { x with wanted := wantKind x.wanted k })
  | none => s

/-- A target record offers an item; one that is not placed becomes wanted (R12). -/
def State.offerTarget (s : State) (p : Station) (t : Tag) (k : ItemKind) : State :=
  match s.targetRec p t with
  | some r =>
    match r.id with
    | some i =>
      let it := r.item i k
      if s.takesItem it then s.offer it .record
      else s.mapTarget p t (fun x => { x with wanted := wantKind x.wanted k })
    | none => s
  | none => s

/-- An item ceases to refer to its record: it keeps the values it would have read at that event, a CREDIT with its
record's next-expected and a credit limit of 0 (R161, R87). -/
def PendingItem.detach (expected : Nat) (p : PendingItem) : PendingItem :=
  match p.item.body with
  | .credit dir _ _ => ⟨{ p.item with body := .credit dir expected 0 }, .fixed⟩
  | _ => ⟨p.item, .fixed⟩

/-- The waiting items that refer to the record of an exchange in a role cease to refer to it. `from` tells the
role that queued an item by the role the item is addressed to. -/
def fixItems (l : List PendingItem) (i : ExchId) (toRole : Role) (expected : Nat) : List PendingItem :=
  l.map fun p =>
    if p.origin = .record ∧ p.item.init = i.peer ∧ p.item.tag = i.tag ∧ p.item.serial = i.serial ∧
        p.item.body.toRole = toRole
    then p.detach expected else p

/-- The items of a record that is freed or detached, in the Pending Item Queue and in a loopback set being
delivered. -/
def State.fixRecord (s : State) (i : ExchId) (toRole : Role) (expected : Nat) : State :=
  { s with sched := { s.sched with items := fixItems s.sched.items i toRole expected,
                                   loopItems := fixItems s.sched.loopItems i toRole expected } }

/-- The item with its fields as read at this moment: a CREDIT that refers to its record carries the record's
next-expected and advertised limit (R87). -/
def State.resolve (s : State) (p : PendingItem) : Item :=
  match p.origin, p.item.body with
  | .record, .credit .target _ _ =>
    match s.initRec p.item.tag with
    | some r => { p.item with body := .credit .target r.flow.expected (advertised r.ring r.flow.consumed r.count) }
    | none => p.item
  | .record, .credit .initiator _ _ =>
    match s.targetRec p.item.init p.item.tag with
    | some r => { p.item with body := .credit .initiator r.flow.expected (advertised r.ring r.flow.consumed r.count) }
    | none => p.item
  | _, _ => p.item

/-! ### The turn order (chapter 8) -/

/-- A station is in a set of stations. -/
def inSet (w : BitVec 16) (n : Station) : Bool := w.getLsbD n.val

/-- The set of the stations for which `p` holds. -/
def stationSet (p : Station → Bool) : BitVec 16 :=
  BitVec.ofNat 16 ((Station.all.map (fun n => if p n then 2 ^ n.val else 0)).sum)

/-- A station is present in the roster. -/
def State.present (s : State) (n : Station) : Bool := s.member.roster[n].present

/-- A station counts in turn tracking: over the roster in MEMBER and LEAVING, over the provisional view in
LISTENING and JOINING (R135). -/
def State.inTurn (s : State) (n : Station) : Bool :=
  match s.member.link with
  | .listening => inSet s.member.view n
  | .joining => inSet s.member.view n
  | _ => s.present n

/-- The next present station after `n` in rising order, or OPEN (R143). -/
def State.nextAfter (s : State) (n : Station) : Option Station :=
  Station.all.find? (fun m => decide (n < m) && s.inTurn m)

/-- The lowest present station, or OPEN (R146). -/
def State.lowest (s : State) : Option Station := Station.all.find? s.inTurn

/-- The station tracks turns: LISTENING, JOINING, MEMBER or LEAVING (R141). -/
def State.tracking (s : State) : Bool :=
  match s.member.link with
  | .listening => true
  | .joining => true
  | .member => true
  | .leaving => true
  | _ => false

/-- The silence timer runs: while turns are tracked, no frame is being received and the station does not drive
the line (R141). -/
def State.silenceTimerRuns (s : State) : Bool := s.tracking && !s.line.receiving && s.line.tx.isNone

/-- The founding wait runs in LISTENING and JOINING (R136). -/
def State.foundingWaitRuns (s : State) : Bool :=
  match s.member.link with
  | .listening => true
  | .joining => true
  | _ => false

/-- The limit of the founding wait in bit times: (8 + station number) x T_gap (R136). -/
def foundingLimit (own : Station) : Nat := (8 + own.val) * Limit.gapBits

/-- The holder changes, which clears the activity mark; a holder that stays keeps it (R142). -/
def State.setHolder (s : State) (h : Option Station) : State :=
  { s with member := { s.member with holder := h, activity := s.member.activity && decide (s.member.holder = h) } }

/-- Setting the activity mark. -/
def State.markActivity (s : State) : State := { s with member := { s.member with activity := true } }

/-! ### The module port's readiness and lines -/

/-- The module is ready: IDLE, SERVING or MAINTAINING (R120). -/
def PortState.ready : PortState → Bool
  | .idle => true
  | .serving _ => true
  | .maintaining _ => true
  | _ => false

/-- MRST is asserted in NONE, RESETTING and FAILED (07 §7.2). -/
def State.mrst (s : State) : Bool :=
  match s.port.state with
  | .absent => true
  | .resetting _ => true
  | .failed => true
  | _ => false

/-- A command of the served record is outstanding, or one is being run out (07 §7.4). -/
def PortState.commandPhase : PortState → Bool
  | .serving .data => true
  | .serving .closing => true
  | .serving (.runOut _ _) => true
  | _ => false

/-- The module state changes; the own roster entry's module ready follows it (R147). -/
def State.withPort (s : State) (p : Port) : State :=
  let e := s.member.roster[s.own]
  { s with
    port := p
    member := { s.member with
      roster := s.member.roster.set s.own { e with ready := e.present && p.state.ready } } }

/-! ### Outcomes and departures at the host -/

/-- An outcome record enters the tail of the Outcome Queue and sets OUTCOME (R38, R96). -/
def State.pushOutcome (s : State) (o : OutcomeRec) : State :=
  ({ s with host := { s.host with outcomes := s.host.outcomes ++ [o] } }).setFlag .outcome

/-- The words the current slot of a channel's head offers (R75). -/
def InitRec.offered (r : InitRec) : Nat :=
  match r.ring, r.op with
  | some ring, .read =>
    match ring.stateOf r.flow.consumed with
    | some (.full _) => Limit.blockWords
    | some (.draining _ w) => Limit.blockWords - w
    | _ => 0
  | some ring, .write =>
    if r.moved < r.count then
      match ring.stateOf r.moved with
      | some .empty => if r.moved < r.flow.base + ringLen r.count then Limit.blockWords else 0
      | some (.filling _ w) => Limit.blockWords - w
      | _ => 0
    else 0
  | _, _ => 0

/-- R of R178: the words the exchange still has to move within its current block; 0 once every block is moved. -/
def InitRec.remaining (r : InitRec) : Nat :=
  let b := if r.op = .read then r.flow.consumed else r.moved
  if b < r.count then
    match r.ring.bind (fun ring => ring.stateOf b) with
    | some (.draining _ w) => Limit.blockWords - w
    | some (.filling _ w) => Limit.blockWords - w
    | _ => Limit.blockWords
  else 0

/-- The burst threshold of a code: 1, 8, 32 or 256 words (13 §13.2). -/
def thresholdWords (c : BitVec 2) : Nat :=
  match c.toNat with
  | 0 => 1
  | 1 => 8
  | 2 => 32
  | _ => 256

/-- The request line of a channel (R178). -/
def State.requestLine (s : State) (c : Channel) : Bool :=
  match s.channelHead c with
  | some r =>
    !(s.chan c).held && decide (0 < r.remaining) &&
      decide (min (thresholdWords (s.chan c).threshold) r.remaining ≤ r.offered)
  | none => false

end Sys2Proof.Machine
end

