-- ==== Sys2Proof/Machine/Initiator.lean ====
section
/-! DEFINITION. The initiator path: channel queues and head succession (R175), endings and the delivery of
outcomes (R15, R38 to R40, R97), the take of the Request Queue head (R22 to R25), and the arrivals addressed to
the initiator role (R30 to R37, R83, R88, R111). -/

namespace Sys2Proof.Machine

/-! ### Channel queues and succession -/

/-- The record at the front of a channel takes its place as head: its ring is reserved, and a READ past ASKING
queues its first CREDIT (R25, R26, R63). Nothing happens with no head or a head that has its ring. -/
def State.becomeHead (s : State) (c : Channel) : State :=
  match s.channelHead c with
  | some r =>
    if r.ring.isSome then s
    else
      match reserveRing s.buf.initFree (ringLen r.count) with
      | some (ring, free) =>
        let s := { s with buf := { s.buf with initFree := free } }
        let s := s.mapInit r.tag (fun x => { x with ring := some ring })
        match r.op, r.state with
        | .read, .waiting => s.offerInit r.tag .credit
        | .read, .moving => s.offerInit r.tag .credit
        | _, _ => s
      | none => s
  | none => s

/-- What a departure leaves in its channel: the channel flag, the channel state word, and the hold when it is
aborted (R175 points 2 and 3, R177). -/
def State.recordDeparture (s : State) (c : Channel) (kind : Departure) (label : Label) : State :=
  (s.setChan c { s.chan c with held := (s.chan c).held || decide (kind = .aborted), departure := kind,
                               lastLabel := label }).setFlag (chanFlag c)

/-- A record leaves its Channel Queue as `f` changes it: its ring goes back to the initiator pool, slot 0 first
(R65), and when it was the head the departure is recorded and the next record becomes head (R175). -/
def State.leaveChannel (s : State) (r : InitRec) (kind : Departure) (f : InitRec → InitRec) : State :=
  let wasHead := s.headsChannel r
  let s := { s with buf := { s.buf with initFree := s.buf.initFree ++ ringAreas r.ring } }
  let s := s.mapInit r.tag (fun x => f { x with ring := none })
  match r.channel with
  | some c => if wasHead then (s.recordDeparture c kind r.label).becomeHead c else s
  | none => s

/-! ### Delivery of outcomes -/

/-- The outcome record of an initiator record (R38). -/
def InitRec.outcomeRec (r : InitRec) (o : Outcome) : OutcomeRec := ⟨r.label, r.op, r.peer, o⟩

/-- An initiator record is freed: its waiting items keep what they would have read (R161, R87). -/
def State.freeInit (s : State) (r : InitRec) : State :=
  let s := s.fixRecord ⟨s.own, r.tag, r.serial⟩ .target r.flow.expected
  { s with exch := { s.exch with inits := s.exch.inits.filter (fun x => decide (x.tag ≠ r.tag)),
                                 delivering := s.exch.delivering.filter (fun t => decide (t ≠ r.tag)) } }

/-- The outcome of a record enters the Outcome Queue, the record is freed, and its CLOSE is queued when one is
owed; a CLOSE that finds the Pending Item Queue full is dropped (R38, R39). -/
def State.enterQueue (s : State) (r : InitRec) (o : Outcome) (closeOwed : Bool) : State :=
  let s := (s.pushOutcome (r.outcomeRec o)).freeInit r
  if closeOwed then s.offer (r.item s.own .close) .fixed else s

/-- A decided outcome enters the Outcome Queue, or its record waits in DELIVERING (R38). -/
def State.deliver (s : State) (t : Tag) (o : Outcome) (closeOwed : Bool) : State :=
  match s.initRec t with
  | some r =>
    if s.host.outcomes.length < Limit.outcomes then s.enterQueue r o closeOwed
    else { s with exch := { s.exch with delivering := s.exch.delivering ++ [t] } }
  | none => s

/-- The oldest record in DELIVERING enters the Outcome Queue after a pop (R40). -/
def State.admitDelivering (s : State) : State :=
  match s.exch.delivering with
  | t :: _ =>
    match s.initRec t with
    | some r =>
      match r.state, r.outcome with
      | .delivering closeOwed, some o => s.enterQueue r o closeOwed
      | _, _ => s
    | none => s
  | [] => s

/-- The outcome of an initiator record is decided (R15): it leaves its Channel Queue and releases its ring, its
watches and wanted items go, a CANCEL is queued or wanted where one is owed, and the outcome is delivered. -/
def State.endInit (s : State) (r : InitRec) (o : Outcome) (owesCancel closeOwed : Bool) : State :=
  let ended (x : InitRec) : InitRec :=
    { x with state := .delivering closeOwed, lifetime := none, wanted := [], outcome := some o }
  let s := s.leaveChannel r .aborted ended
  let s := if owesCancel then s.offerInit r.tag .cancel else s
  s.deliver r.tag o closeOwed

/-- The record may still be ended: its outcome is not decided (R13). -/
def InitRec.live (r : InitRec) : Bool :=
  match r.state with
  | .delivering _ => false
  | _ => true

/-- The record is in ASKING. -/
def InitRec.asking (r : InitRec) : Bool :=
  match r.state with
  | .asking _ _ => true
  | _ => false

/-- The outcome of a refusing REPLY or a local ending (R97). -/
def InitRec.localOutcome (r : InitRec) (code : OutcomeCode) : Outcome :=
  match r.op with
  | .read => ⟨code, r.moved, true, none⟩
  | .sync => ⟨code, 0, true, none⟩
  | .write => if r.asking then ⟨code, 0, true, none⟩ else ⟨code, r.flow.base, false, none⟩

/-- The outcome of a matching OUTCOME item (R35, R97); blocks done above the block count are taken as the block
count (R190), and the module pair is copied with MODULE_FAULT alone. -/
def InitRec.itemOutcome (r : InitRec) (code : OutcomeCode) (done : Nat) (status detail : Word) : Outcome :=
  let pair := if code = .moduleFault then some (status, detail) else none
  match r.op with
  | .read => ⟨code, r.moved, true, pair⟩
  | .sync => ⟨code, 0, true, pair⟩
  | .write => if code = .peerForgot then ⟨code, r.flow.base, r.asking, pair⟩ else ⟨code, min done r.count, true, pair⟩

/-- The data of an initiator record is complete: it leaves its Channel Queue for AWAIT_OUTCOME (R36). -/
def State.completeInit (s : State) (r : InitRec) : State :=
  s.leaveChannel r .completed (fun x => { x with state := .awaitOutcome })

/-! ### The take (R22 to R25) -/

/-- The channel a READ or WRITE request names; a SYNC's is disregarded (R24). -/
def Request.channel (q : Request) : Option Channel :=
  match q.op with
  | .sync => none
  | _ => if q.chan = 0 then some .a else some .b

/-- The record the take of a request makes (R24, R20). -/
def newInit (q : Request) (t : Tag) (serial : Serial) (lifetime : BitVec 8) : InitRec where
  peer := q.target
  tag := t
  serial := serial
  op := q.op
  addr := q.addr
  count := q.count
  channel := q.channel
  label := q.label
  state := .asking 1 0
  ring := none
  flow := newFlow .initiator q.op
  moved := 0
  lifetime := if lifetime = 0 then none else some (lifetime.toNat * Limit.lifetimeUnit)
  wanted := []
  outcome := none

/-- The configured exchange lifetime (R20). -/
def State.lifetimeUnits (s : State) : BitVec 8 :=
  match s.host.config with
  | some c => c.lifetime
  | none => 0

/-- An entry leaves the Request Queue, `rest` standing afterward; leaving a full queue sets SPACE (R170). -/
def State.setRequests (s : State) (rest : List Request) : State :=
  { s with host := { s.host with
    requests := rest
    flags := if s.host.requests.length = Limit.requests then s.host.flags ||| Flag.space.mask else s.host.flags } }

/-- The outcome record of a request that ends without an exchange record (R23, R101). -/
def Request.outcomeRec (q : Request) (code : OutcomeCode) : OutcomeRec := ⟨q.label, q.op, q.target, ⟨code, 0, true, none⟩⟩

/-- The initiator record of a taken request, its ASK and its place in its Channel Queue (R24). -/
def State.createInit (s : State) (q : Request) (t : Tag) : State :=
  let serial := s.exch.serials[t]
  let s := { s with exch := { s.exch with
    inits := s.exch.inits ++ [newInit q t serial s.lifetimeUnits]
    lastTag := t
    serials := s.exch.serials.set t (serial + 1) } }
  let s := s.offerInit t .ask
  match q.channel with
  | some c => s.becomeHead c
  | none => s

/-- The take of the Request Queue head, where its conditions hold (R22, R23). -/
def State.takeHead (s : State) : Option State :=
  if s.member.link = .member then
    match s.host.requests, s.freeTag with
    | q :: rest, some t =>
      if s.present q.target then some ((s.setRequests rest).createInit q t)
      else if s.host.outcomes.length < Limit.outcomes then
        some ((s.setRequests rest).pushOutcome (q.outcomeRec .notPresent))
      else none
    | _, _ => none
  else none

/-- At most `n` takes in succession. -/
def State.takes : Nat → State → State
  | 0, s => s
  | n + 1, s =>
    match s.takeHead with
    | some s' => s'.takes n
    | none => s

/-- The take conditions are read, and heads are taken until one of them fails (R22). -/
def State.retake (s : State) : State := s.takes s.host.requests.length

/-- The take conditions are read at an event that has freed an initiator record, and its tag, since the state `before`;
an ended record that waits in DELIVERING frees nothing (R22). -/
def State.retakeIfFreed (s before : State) : State :=
  if s.exch.inits.length < before.exch.inits.length then s.retake else s

/-- An initiator record ends, and where that frees it the take conditions are read (R15, R22). -/
def State.endAndTake (s : State) (r : InitRec) (o : Outcome) (owesCancel closeOwed : Bool) : State :=
  (s.endInit r o owesCancel closeOwed).retakeIfFreed s

/-! ### Sender counters at a CREDIT (R88, R89) -/

/-- The sender counters after a CREDIT: steps 1 to 4 of R88, and the gap test of R89. The second part says that the
consecutive rewinds reached their limit, where the rewind is not carried out. R89 is done for a self exchange too, for
which R2 and R94 say that it never fires: a CREDIT whose receiver has settled or been freed since the last own turn can
lie below next-to-send there, and then rewinds (DESIGN CHOICE, log 32). -/
def SendCounters.credit (c : SendCounters) (count nextExpected limit : Nat) : SendCounters × Bool :=
  let ne := min nextExpected count
  let c1 := { c with stall := 0, limit := max c.limit (min limit count) }
  let c2 := if c.base < ne then { c1 with base := ne, rewinds := 0, next := max c.next ne } else c1
  if c.base ≤ ne ∧ ne < c2.next then
    if c2.rewinds + 1 < Limit.rewinds then ({ c2 with next := ne, rewinds := c2.rewinds + 1 }, false)
    else ({ c2 with rewinds := Limit.rewinds }, true)
  else (c2, false)

/-- The stall watch of one own turn (R90): the counters afterward, and whether the rewind limit is reached. -/
def SendCounters.stallTurn (c : SendCounters) : SendCounters × Bool :=
  if c.base < c.next then
    if c.stall + 1 < Limit.stallTurns then ({ c with stall := c.stall + 1 }, false)
    else if c.rewinds + 1 < Limit.rewinds then
      ({ c with next := c.base, rewinds := c.rewinds + 1, stall := 0 }, false)
    else ({ c with rewinds := Limit.rewinds }, true)
  else (c, false)

/-! ### Arrivals at the initiator role -/

/-- The acceptance of an exchange (R30): the ask watch goes with ASKING, and so does a wanted ASK (R12). A READ that
heads its channel queues its first CREDIT (R26). -/
def State.accept (s : State) (r : InitRec) : State :=
  let s := s.mapInit r.tag (fun x =>
    { x with state := if x.op = .sync then .awaitOutcome else .waiting, wanted := x.wanted.filter (fun k => decide (k ≠ .ask)) })
  if r.op = .read ∧ r.ring.isSome then s.offerInit r.tag .credit else s

/-- An eighth consecutive rewind ends an initiator WRITE with LINK_FAULT (R91). -/
def State.rewindLimitInit (s : State) (r : InitRec) : State :=
  s.endAndTake r (r.localOutcome .linkFault) true false

/-- The initiator record that matches an arrival (R1): its tag, its peer the sender, its serial. -/
def State.matchInit (s : State) (sender : Station) (t : Tag) (serial : Serial) : Option InitRec :=
  (s.initRec t).filter (fun r => decide (r.peer = sender) && decide (r.serial = serial))

/-- The answer to an orphan at the initiator role (R111, R112): addressed to the frame's sender, with the own
station, the tag and the serial of the arrival. Where the arrival names another initiator station than the own,
R111 gives the answer the own station and R112 the arrival's: the answer takes the own (DESIGN CHOICE, log 16). -/
def State.answerSender (s : State) (sender : Station) (t : Tag) (serial : Serial) (body : ItemBody) : State :=
  s.offerOrphan ⟨sender, s.own, t, serial, body⟩

/-- A matching REPLY (R30, R31, R32). -/
def State.replyArrives (s : State) (r : InitRec) (refusal : Option Reason) : State :=
  if r.asking then
    match refusal with
    | none => s.accept r
    | some why => s.endAndTake r (r.localOutcome (refusalOutcome why)) false false
  else s

/-- A CREDIT is applied to the sender counters of an initiator WRITE past ASKING (R88, R89, R34, R36). -/
def State.creditAtInit (s : State) (t : Tag) (nextExpected limit : Nat) : State :=
  match s.initRec t with
  | some r =>
    match r.flow with
    | .sender c =>
      let (c', limitHit) := c.credit r.count nextExpected limit
      let r' := { r with
        flow := .sender c'
        ring := r.ring.map (fun g => g.passBase c.base c'.base)
        state := if r.state = .waiting ∧ 0 < c'.limit then .moving else r.state }
      let s := s.setInit r'
      if limitHit then s.rewindLimitInit r'
      else if c'.base = r.count ∧ (r'.state = .moving ∨ r'.state = .waiting) then s.completeInit r'
      else s
    | _ => s
  | none => s

/-- A matching CREDIT or DATA counts as acceptance at a record in ASKING, whatever its operation (R33). -/
def State.acceptIfAsking (s : State) (r : InitRec) : State := if r.asking then s.accept r else s

/-- A matching CREDIT addressed to the initiator role: in ASKING it is first taken as acceptance (R33), in DELIVERING it
has no effect (R40). Only a WRITE is a sender there, and takes its values (R88, log 23). -/
def State.creditArrivesInit (s : State) (r : InitRec) (nextExpected limit : Nat) : State :=
  if r.live then
    if r.op = .write then (s.acceptIfAsking r).creditAtInit r.tag nextExpected limit else s.acceptIfAsking r
  else s

/-- A DATA frame reaches an initiator READ past ASKING (R83, R72): the next-expected block is written into an EMPTY
slot of a held ring; every arrival queues a CREDIT (R85). -/
def State.dataAtInit (s : State) (t : Tag) (d : DataBlock) : State :=
  match s.initRec t with
  | some r =>
    match r.flow, r.ring with
    | .receiver c, some ring =>
      match ring.slot d.index with
      | some slot =>
        if d.index = c.expected ∧ d.index < r.count ∧ slot.st = .empty then
          let s := { s with buf := { s.buf with ram := s.buf.ram.writeBlock slot.area d.bytes } }
          let s := s.setInit { r with
            ring := some (ring.setState d.index (.full d.index))
            flow := .receiver { c with expected := c.expected + 1 }
            state := if r.state = .waiting then .moving else r.state }
          s.offerInit t .credit
        else s.offerInit t .credit
      | none => s.offerInit t .credit
    | _, _ => s.offerInit t .credit
  | none => s

/-- A matching DATA frame at the initiator role: in ASKING it is first taken as acceptance (R33, R82), in DELIVERING it
has no effect (R40); a WRITE or SYNC discards its block (R84). -/
def State.dataArrivesInit (s : State) (r : InitRec) (d : DataBlock) : State :=
  if r.live then
    if r.op = .read then (s.acceptIfAsking r).dataAtInit r.tag d else s.acceptIfAsking r
  else s

/-- A matching OUTCOME (R35), but for a DONE that finds a READ not yet drained (R37) and a record in DELIVERING
(R40). -/
def State.outcomeArrives (s : State) (r : InitRec) (code : OutcomeCode) (done : Nat) (status detail : Word) : State :=
  if r.live ∧ ¬ (code = .done ∧ r.op = .read ∧ r.flow.consumed < r.count) then
    s.endAndTake r (r.itemOutcome code done status detail) false true
  else s

/-- A DATA frame addressed to the initiator role (R82, R111). -/
def State.dataToInit (s : State) (sender : Station) (d : DataBlock) : State :=
  match s.matchInit sender d.tag d.serial with
  | some r => s.dataArrivesInit r d
  | none => s.answerSender sender d.tag d.serial .cancel

/-- An item addressed to the initiator role (R1, R111). -/
def State.itemToInit (s : State) (sender : Station) (i : Item) : State :=
  match s.matchInit sender i.tag i.serial, i.body with
  | some r, .reply refusal => s.replyArrives r refusal
  | some r, .credit _ ne limit => s.creditArrivesInit r ne limit
  | some r, .outcome code done status detail => s.outcomeArrives r code done status detail
  | none, .reply none => s.answerSender sender i.tag i.serial .cancel
  | none, .credit _ _ _ => s.answerSender sender i.tag i.serial .cancel
  | none, .outcome _ _ _ _ => s.answerSender sender i.tag i.serial .close
  | _, _ => s

end Sys2Proof.Machine
end

