-- ==== Sys2Proof/Machine/TargetRecords.lean ====
section
/-! DEFINITION. What becomes of a target record: it settles (R53), is freed (R57) or is detached (R17). The
work of the module port on it is stopped first, where there is any (Port.lean, Target.lean). -/

namespace Sys2Proof.Machine

/-- A ring goes back to the service pool, slot 0 first (R65). -/
def State.releaseServ (s : State) (ring : Option Ring) : State :=
  { s with buf := { s.buf with servFree := s.buf.servFree ++ ringAreas ring } }

/-- A record as it stands after its entry to SETTLING (R53): REPLY and CREDIT leave its wanted items, its watches are
removed, its first OUTCOME is owed; its ring is kept only while the port still works on it. -/
def TargetRec.settled (r : TargetRec) (o : Outcome) (keepRing : Bool) : TargetRec :=
  { r with
    state := .settling true 0
    ring := if keepRing then r.ring else none
    priming := none
    starvation := none
    wanted := r.wanted.filter (fun k => decide (k ≠ .reply) && decide (k ≠ .credit))
    outcome := some o }

/-- A record settles (R16, R53). -/
def State.settle (s : State) (r : TargetRec) (o : Outcome) (keepRing : Bool) : State :=
  match r.id with
  | some i =>
    (if keepRing then s else s.releaseServ r.ring).mapTarget i.peer i.tag (fun x => x.settled o keepRing)
  | none => s

/-- A record with a key is freed: its ring is released, and its waiting items keep what they would have read (R57,
R161). -/
def State.freeTarget (s : State) (r : TargetRec) : State :=
  match r.id with
  | some i =>
    let s := (s.releaseServ r.ring).fixRecord i .initiator r.flow.expected
    { s with exch := { s.exch with targets := s.exch.targets.filter (fun x => !x.keyed i.peer i.tag) } }
  | none => s

/-- A record enters DETACHED: its peer, tag, serial and wanted items are removed and it keeps its ring (R17). -/
def State.detach (s : State) (r : TargetRec) : State :=
  match r.id with
  | some i =>
    (s.fixRecord i .initiator r.flow.expected).mapTarget i.peer i.tag
      (fun x => { x with id := none, state := .detached, wanted := [], priming := none, starvation := none })
  | none => s

/-- The end of a run-out: the ring of the record that was run out is released; a DETACHED record is freed, a SETTLING
one stays without a ring (R66). -/
def State.endRunOut (s : State) : State :=
  let held := s.exch.targets.filter TargetRec.inRunOut
  let s := { s with buf := { s.buf with servFree := s.buf.servFree ++ held.flatMap (fun (r : TargetRec) => ringAreas r.ring) } }
  { s with exch := { s.exch with
    targets := (s.exch.targets.filter (fun (r : TargetRec) => decide (r.state ≠ .detached))).map
      (fun (r : TargetRec) => if r.inRunOut then { r with ring := none } else r) } }

end Sys2Proof.Machine
end

