-- ==== Sys2Proof/Machine/Port.lean ====
section
/-! DEFINITION. The module port (chapter 7): its slot accesses (R115), the reset cycle (R118, R119), the grant
(R121, R48, R49), the setup, data and closing phases (R122 to R124), run-outs (R127, R128) and maintenance scripts
(R129 to R131), with the module mover's view of its ring (R76). -/

namespace Sys2Proof.Machine

/-! ### Slots, commands and flags of the module -/

/-- The eight module slots (R115). -/
def slotData : BitVec 3 := 0
def slotCount : BitVec 3 := 1
def slotAddrLo : BitVec 3 := 2
def slotAddrHi : BitVec 3 := 3
def slotOption : BitVec 3 := 4
def slotCommand : BitVec 3 := 5
def slotStatus : BitVec 3 := 6

/-- The module command of an operation: READ_BLOCKS 1, WRITE_BLOCKS 2, SYNC 3 (13 §13.3). -/
def commandWord : Op → Word
  | .read => 1
  | .write => 2
  | .sync => 3

/-- The module command DESCRIBE (13 §13.3). -/
def describeWord : Word := 4

/-- READY of a STATUS word (13 §13.3). -/
def statusReady (w : Word) : Bool := w.getLsbD 0
/-- ENGAGED of a STATUS word. -/
def statusEngaged (w : Word) : Bool := w.getLsbD 1
/-- FAULT of a STATUS word. -/
def statusFault (w : Word) : Bool := w.getLsbD 3

/-- The attention shows a module fit to go on: READY set and FAULT clear (R124). -/
def attentionGood (status : Word) : Bool := statusReady status && !statusFault status

/-- The slot writes of the built script of a record (R122). -/
def builtScript (r : TargetRec) : List SlotAccess :=
  match r.op with
  | .sync => [⟨slotCommand, some (commandWord .sync)⟩]
  | op =>
    [⟨slotCount, some (BitVec.ofNat 16 (r.count % 256))⟩, ⟨slotAddrLo, some (r.addr.extractLsb' 0 16)⟩,
     ⟨slotAddrHi, some (r.addr.extractLsb' 16 16)⟩, ⟨slotOption, some 0⟩, ⟨slotCommand, some (commandWord op)⟩]

/-- The slot access of step `i` of a maintenance script; WAIT_READY and the closing wait after the last step read
STATUS (R129, R130). -/
def stepAccess (script : List ScriptStep) (i : Nat) : SlotAccess :=
  match script[i]? with
  | some (.write slot v) => ⟨slot, some v⟩
  | some (.read slot) => ⟨slot, none⟩
  | _ => ⟨slotStatus, none⟩

/-! ### Entries to states -/

/-- The port works for no one: IDLE, with no access, transfer, attention or watchdog. -/
def State.enterIdle (s : State) : State :=
  s.withPort { s.port with state := .idle, access := none, transfer := none, attention := none, watchdog := none }

/-- Changing the ring of the record the module mover serves. -/
def State.mapServedRing (s : State) (f : Ring → Ring) : State := s.mapServed (fun r => { r with ring := r.ring.map f })

/-- Entry to RESETTING: MRST is asserted, which ends a block transfer and a slot access without completion and the
outstanding command (R116, R128, R77), and the 100 us timer starts (R118). -/
def State.assertReset (s : State) : State :=
  let s := s.mapServedRing Ring.cutTransfers
  s.withPort { s.port with state := .resetting true, access := none, transfer := none, attention := none,
                           watchdog := none }

/-- Entry to RESETTING for every cause but a station reset: it sets MODULE (R120). -/
def State.enterResetting (s : State) : State := s.assertReset.setFlag .module

/-- A maintenance script ends with a result: it is spent and MAINT is set (R130, R174). -/
def State.endScript (s : State) (result : MaintResult) : State :=
  (s.withPort { s.port with result := result, spent := true }).setFlag .maint

/-- The script begins step `i`, or its closing wait (R130). The beginning of a step is no restart of the watchdog
(R125). -/
def State.beginStep (s : State) (script : List ScriptStep) (i : Nat) : State :=
  s.withPort { s.port with state := .maintaining i, access := some (stepAccess script i) }

/-- Every QUEUED record settles with NO_MODULE and blocks done 0; none of them holds a ring (R47). -/
def State.settleQueued (s : State) : State :=
  { s with exch := { s.exch with targets := s.exch.targets.map (fun r =>
      if r.state = .queued then r.settled ⟨.noModule, 0, true, none⟩ false else r) } }

/-- Entry to FAILED (R119): every QUEUED record settles with NO_MODULE, a posted script ends STALLED, MODULE is set. -/
def State.enterFailed (s : State) : State :=
  let s := s.withPort { s.port with state := .failed, access := none, transfer := none, attention := none,
                                    watchdog := none }
  let s := s.settleQueued
  let s := if s.port.result = .posted then s.endScript .stalled else s
  s.setFlag .module

/-! ### The grant (R121) -/

/-- The built script of a record starts (R122). -/
def State.startSetup (s : State) (r : TargetRec) : State :=
  s.withPort { s.port with state := .serving (.setup 0), access := (builtScript r).head?, watchdog := some 0 }

/-- The activation of the Service Queue head `r` with its ring (R49). -/
def State.activate (s : State) (r : TargetRec) (ring : Option Ring) (free : List AreaNo) : State :=
  match r.id with
  | some i =>
    let s := { s with buf := { s.buf with servFree := free } }
    let s := s.mapTarget i.peer i.tag (fun x =>
      { x with state := .active, ring := ring, priming := if x.op = .write then some 0 else none })
    if r.op = .write then
      (s.withPort { s.port with state := .serving .priming, access := none, watchdog := none }).offerTarget i.peer i.tag .credit
    else s.startSetup r
  | none => s

/-- The arbiter decides (R121): only while the port is IDLE; a posted script first, then the Service Queue head when
the service pool holds its ring (R48). -/
def State.grant (s : State) : State :=
  if s.port.state = .idle then
    if s.port.result = .posted then
      match s.port.script with
      | some script => (s.withPort { s.port with result := .running, watchdog := some 0 }).beginStep script 0
      | none => s
    else
      match s.serviceQueue with
      | r :: _ =>
        if r.op = .sync then s.activate r none s.buf.servFree
        else
          match reserveRing s.buf.servFree (ringLen r.count) with
          | some (ring, free) => s.activate r (some ring) free
          | none => s
      | [] => s
  else s

/-! ### The module mover (R76, R123) -/

/-- The block the module mover moves next for the ACTIVE record (R68). -/
def TargetRec.nextBlock (r : TargetRec) : Nat := if r.op = .read then r.moved else r.flow.consumed

/-- The ring slot of the mover's next block is ready (R76): EMPTY and allowed by the fill rule for a READ, FULL for a
WRITE. -/
def TargetRec.slotReady (r : TargetRec) : Bool :=
  match r.ring, r.op with
  | some ring, .read =>
    decide (r.moved < r.count) && decide (r.moved < r.flow.base + ringLen r.count) &&
      decide (ring.stateOf r.moved = some .empty)
  | some ring, .write =>
    decide (r.flow.consumed < r.count) && decide (ring.stateOf r.flow.consumed = some (.full r.flow.consumed))
  | _, _ => false

/-- The DATA access of word `w` of a block of a record: a read for a READ, a write of the word in the slot for a
WRITE (R122). -/
def State.dataAccess (s : State) (r : TargetRec) (block w : Nat) : SlotAccess :=
  match r.op, r.ring.bind (fun ring => ring.slot block) with
  | .write, some slot => ⟨slotData, some (s.buf.ram.readWord slot.area w)⟩
  | _, _ => ⟨slotData, none⟩

/-- A block transfer may begin (R122, R123, R127): XFER is shown, no transfer or access is in flight, and in the data
phase the slot of the next block is ready; in a run-out every slot is, while blocks are left. -/
def State.transferMayBegin (s : State) : Bool :=
  s.port.xfer && s.port.transfer.isNone && s.port.access.isNone &&
    match s.port.state, s.servedRec with
    | .serving .data, some r => r.slotReady
    | .serving (.runOut next count), some r => decide (next < count) && r.ring.isSome
    | _, _ => false

/-- The block a transfer would begin with. -/
def State.transferBlock (s : State) (r : TargetRec) : Nat :=
  match s.port.state with
  | .serving (.runOut next _) => next
  | _ => r.nextBlock

/-- A block transfer begins: the slot goes to FILLING for a READ and to DRAINING for a WRITE, the watchdog restarts and
a wait on the ring ends (R76, R125, R126). -/
def State.beginTransfer (s : State) : State :=
  match s.servedRec with
  | some r =>
    let b := s.transferBlock r
    let s := s.mapServed (fun x =>
      { x with ring := x.ring.map (fun g => g.setState b (if x.op = .write then .draining b 0 else .filling b 0)),
               starvation := none })
    s.withPort { s.port with transfer := some b, access := some (s.dataAccess r b 0), watchdog := some 0 }
  | none => s

/-- The waits of the data phase while no transfer is in flight (R123): on the module while XFER is not shown, under
the watchdog; on the ring otherwise, under the starvation count. The watch of the other wait stops. -/
def State.waitForTransfer (s : State) : State :=
  if s.port.xfer then
    let s := s.mapServed (fun r => { r with starvation := some (r.starvation.getD 0) })
    s.withPort { s.port with watchdog := none }
  else
    let s := s.mapServed (fun r => { r with starvation := none })
    s.withPort { s.port with watchdog := some (s.port.watchdog.getD 0) }

/-- The mover looks at its next slot afresh (R75, R76): a transfer begins when it may, else the wait of the data phase
is told. -/
def State.moverCheck (s : State) : State :=
  if s.transferMayBegin then s.beginTransfer
  else if s.port.state = .serving .data ∧ s.port.transfer.isNone then s.waitForTransfer
  else s

/-- The data phase begins at the completion of the COMMAND write (R122). -/
def State.enterData (s : State) : State :=
  (s.withPort { s.port with state := .serving .data, access := none, transfer := none, watchdog := some 0 }).moverCheck

/-- The closing phase begins (R122). -/
def State.enterClosing (s : State) : State :=
  s.withPort { s.port with state := .serving .closing, access := none, transfer := none, watchdog := some 0 }

/-! ### Run-out (R127, R128) -/

/-- A run-out to ATTN of the ACTIVE record begins: its FULL slots become EMPTY, the mover goes on at the block in flight
or the next one, and a wait on the ring ends (R76, R127). -/
def State.startRunOut (s : State) (r : TargetRec) : State :=
  let s := s.mapServedRing Ring.dropFull
  s.withPort { s.port with state := .serving (.runOut r.moved r.count), watchdog := some (s.port.watchdog.getD 0) }

/-- The port stops serving the ACTIVE record by an abandonment or by the eighth rewind (R127). The second part says
whether the record keeps its ring for a run-out. A setup whose COMMAND write has not begun stops at the completion of
the access in flight. -/
def State.stopServing (s : State) (r : TargetRec) : State × Bool :=
  let byOperation : State × Bool :=
    match r.op with
    | .read => (s.startRunOut r, true)
    | .write => (s.enterResetting, true)
    | .sync => (s.startRunOut r, false)
  match s.port.state with
  | .serving .priming => (s.enterIdle, false)
  | .serving (.setup i) =>
    if i + 1 = (builtScript r).length then byOperation
    else (s.withPort { s.port with state := .serving .stopping }, false)
  | .serving .data => byOperation
  | .serving .closing => byOperation
  | _ => (s, false)

/-- After the stop the mover begins the next block of a run-out at once when the module already shows XFER (R76). It
is called when the record has left ACTIVE. -/
def State.continueRunOut (s : State) : State :=
  match s.port.state with
  | .serving (.runOut _ _) => s.moverCheck
  | _ => s

/-- The ACTIVE record ends by a watch of the port while its command may be outstanding (R125, R126): it settles with
blocks moved locally, and the port enters RESETTING with the ring held (R128). -/
def State.endByWatch (s : State) (code : OutcomeCode) : State :=
  match s.activeRec with
  | some r => s.enterResetting.settle r ⟨code, r.moved, true, none⟩ true
  | none => s

/-- The port becomes IDLE at the end of its own work, and the arbiter decides (R51, R121). -/
def State.idleAndGrant (s : State) : State := s.enterIdle.grant

/-! ### Completion of a slot access (R115) -/

/-- An attention is acted on (R124): a good one is passed over; a bad one takes the port to RESETTING, and ends an
ACTIVE record with MODULE_FAULT, the pair read and blocks done 0. -/
def State.moduleAttention (s : State) (status detail : Word) : State :=
  if attentionGood status then s
  else
    match s.activeRec with
    | some r => s.enterResetting.settle r ⟨.moduleFault, 0, true, some (status, detail)⟩ false
    | none => s.enterResetting

/-- A slot write of the built script completes (R122): the next one begins, or the data or closing phase. -/
def State.setupStepDone (s : State) (i : Nat) : State :=
  match s.activeRec with
  | some r =>
    match (builtScript r)[i + 1]? with
    | some a => s.withPort { s.port with state := .serving (.setup (i + 1)), access := some a, watchdog := some 0 }
    | none => if r.op = .sync then s.enterClosing else s.enterData
  | none => s

/-- The last word of a block of the ACTIVE record has moved: the slot, the counts, a WRITE's CREDIT, and the next block
or the closing phase (R69, R71, R73, R76, R85, R122). -/
def State.blockDone (s : State) (r : TargetRec) (block : Nat) : State :=
  let s := s.withPort { s.port with transfer := none, access := none, watchdog := some 0 }
  let s := s.mapServed (fun x =>
    match x.flow with
    | .receiver c =>
      { x with ring := x.ring.map (fun g => g.setState block .empty), moved := x.moved + 1,
               flow := .receiver { c with consumed := c.consumed + 1 } }
    | _ =>
      { x with ring := x.ring.map (fun g => g.setState block (if block < x.flow.base then .empty else .full block)),
               moved := x.moved + 1 })
  let s := match r.op, r.id with
    | .write, some i => s.offerTarget i.peer i.tag .credit
    | _, _ => s
  if r.moved + 1 < r.count then s.moverCheck else s.enterClosing

/-- The last word of a block of a run-out has moved: the slot is emptied and nothing is counted (R76, R127). -/
def State.runOutBlockDone (s : State) (block next count : Nat) : State :=
  let s := s.mapServedRing (fun g => g.setState block .empty)
  (s.withPort { s.port with state := .serving (.runOut (next + 1) count), transfer := none, access := none,
                            watchdog := some 0 }).moverCheck

/-- A DATA access of the block transfer in flight completes (R76): the word moves, and the next access begins or the
block is complete. -/
def State.dataWordDone (s : State) (r : TargetRec) (block : Nat) (v : Word) : State :=
  match r.ring.bind (fun ring => ring.slot block) with
  | some slot =>
    match slot.st with
    | .filling _ w =>
      let s := { s with buf := { s.buf with ram := s.buf.ram.writeWord slot.area w v } }
      if w + 1 < Limit.blockWords then
        let s := s.mapServedRing (fun g => g.setState block (.filling block (w + 1)))
        s.withPort { s.port with access := some (s.dataAccess r block (w + 1)), watchdog := some 0 }
      else
        match s.port.state with
        | .serving (.runOut next count) => s.runOutBlockDone block next count
        | _ => s.blockDone r block
    | .draining _ w =>
      if w + 1 < Limit.blockWords then
        let s := s.mapServedRing (fun g => g.setState block (.draining block (w + 1)))
        s.withPort { s.port with access := some (s.dataAccess r block (w + 1)), watchdog := some 0 }
      else s.blockDone r block
    | _ => s
  | none => s

/-- A STATUS read of STARTING completes: READY ends the wait, and DESCRIBE is written; else STATUS is read again
(R118). -/
def State.startingRead (s : State) (v : Word) : State :=
  if statusReady v then
    s.withPort { s.port with state := .describing .command, access := some ⟨slotCommand, some describeWord⟩,
                             watchdog := some 0 }
  else s.withPort { s.port with access := some ⟨slotStatus, none⟩ }

/-- A slot access of the description completes (R118). -/
def State.describeStep (s : State) (d : Describe) (v : Word) : State :=
  match d with
  | .command => s.withPort { s.port with state := .describing .await, access := none, watchdog := some 0 }
  | .await => s
  | .ended =>
    s.withPort { s.port with state := .describing .readLo, access := some ⟨slotAddrLo, none⟩, watchdog := some 0 }
  | .readLo =>
    s.withPort { s.port with state := .describing (.readHi v), access := some ⟨slotAddrHi, none⟩, watchdog := some 0 }
  | .readHi lo =>
    ((s.withPort { s.port with capacity := v ++ lo }).enterIdle.setFlag .module).grant

/-- A slot access of a maintenance step or of the closing wait completes (R129, R130). The access of a WRITE or READ step
restarts the watchdog; the STATUS reads of a wait do not, nor does the read that ends it, so the watchdog of a wait runs
on into the step after it (R125, log 18). -/
def State.maintStep (s : State) (i : Nat) (v : Word) : State :=
  match s.port.script with
  | some script =>
    let waitRead (after : State) : State :=
      if statusReady v && !statusEngaged v then after
      else s.withPort { s.port with access := some ⟨slotStatus, none⟩ }
    match script[i]? with
    | some (.write _ _) => (s.withPort { s.port with watchdog := some 0 }).beginStep script (i + 1)
    | some (.read _) =>
      (s.withPort { s.port with results := s.port.results ++ [v], watchdog := some 0 }).beginStep script (i + 1)
    | some .waitReady => waitRead (s.beginStep script (i + 1))
    | none => waitRead (s.endScript .done).idleAndGrant
  | none => s

/-- The slot access in flight completes; a read yields `v` (R115). -/
def State.slotDone (s : State) (v : Word) : State :=
  match s.port.state with
  | .starting _ => s.startingRead v
  | .describing d => s.describeStep d v
  | .maintaining i => s.maintStep i v
  | .serving (.setup i) =>
    match s.port.attention with
    | some (status, detail) =>
      let s := s.withPort { s.port with attention := none }
      if attentionGood status then s.setupStepDone i else s.moduleAttention status detail
    | none => s.setupStepDone i
  | .serving .stopping =>
    match s.port.attention with
    | some (status, _) => if attentionGood status then s.idleAndGrant else s.enterResetting
    | none => s.idleAndGrant
  | .serving .data =>
    match s.servedRec, s.port.transfer with
    | some r, some block => s.dataWordDone r block v
    | _, _ => s
  | .serving (.runOut _ _) =>
    match s.port.transfer, s.servedRec with
    | some block, some r => s.dataWordDone r block v
    | some _, none => s
    | none, _ =>
      match s.port.attention with
      | some (status, _) =>
        let s := s.withPort { s.port with access := none, attention := none, watchdog := some 0 }
        if attentionGood status then s.moverCheck else s.enterResetting
      | none => (s.withPort { s.port with access := none, watchdog := some 0 }).moverCheck
  | _ => s

/-! ### ATTN, XFER and the watchdog -/

/-- ATTN ends the command of the ACTIVE record in the data phase, before every block has been moved (R124). -/
def State.earlyAttn (s : State) (r : TargetRec) (status detail : Word) : State :=
  let s := s.mapServedRing Ring.cutTransfers
  let s := s.withPort { s.port with capture := some (status, detail) }
  (s.enterIdle.settle r ⟨.moduleFault, r.moved, true, some (status, detail)⟩ false).grant

/-- ATTN ends the command of the ACTIVE record in the closing phase (R51). -/
def State.closingAttn (s : State) (r : TargetRec) (status detail : Word) : State :=
  let s := (s.withPort { s.port with capture := some (status, detail) }).enterIdle
  let s :=
    if statusFault status then s.settle r ⟨.moduleFault, r.moved, true, some (status, detail)⟩ false
    else if r.op = .read ∧ r.flow.base < r.count then
      match r.id with
      | some i => s.mapTarget i.peer i.tag (fun x => { x with state := .finishing, starvation := none })
      | none => s
    else s.settle r ⟨.done, r.moved, true, none⟩ false
  s.grant

/-- ATTN during the description (R118): FAULT sends the port to FAILED; else the description ends when its COMMAND write
has, and the capacity is read (log 19). -/
def State.describeAttn (s : State) (d : Describe) (status : Word) : State :=
  if statusFault status then s.enterFailed
  else
    match d with
    | .command => s.withPort { s.port with state := .describing .ended, watchdog := some 0 }
    | .await =>
      s.withPort { s.port with state := .describing .readLo, access := some ⟨slotAddrLo, none⟩, watchdog := some 0 }
    | _ => s.withPort { s.port with watchdog := some 0 }

/-- An attention whose STATUS and DETAIL are read at the completion of the step in flight (R124, log 8). -/
def State.deferAttention (s : State) (status detail : Word) : State :=
  s.withPort { s.port with attention := some (status, detail), watchdog := some 0 }

/-- A rise of ATTN (R124). -/
def State.attn (s : State) (status detail : Word) : State :=
  match s.port.state with
  | .absent => s
  | .resetting _ => s
  | .starting _ => s
  | .failed => s
  | .describing d => s.describeAttn d status
  | .idle => s.moduleAttention status detail
  | .maintaining _ => s.withPort { s.port with watchdog := some 0 }
  | .serving .priming => s.moduleAttention status detail
  | .serving (.setup _) => s.deferAttention status detail
  | .serving .stopping => s.deferAttention status detail
  | .serving .data =>
    match s.activeRec with
    | some r => s.earlyAttn r status detail
    | none => s
  | .serving .closing =>
    match s.activeRec with
    | some r => s.closingAttn r status detail
    | none => s
  | .serving (.runOut _ _) =>
    match s.port.access, s.port.transfer with
    | some _, none => s.deferAttention status detail
    | _, _ => s.endRunOut.idleAndGrant

/-- MXFER reads `level` from now on: the port follows it at all times (R116), and acts on it in the data phase, in a
run-out and in MAINTAINING (R122, R123, R131, log 7). -/
def State.xferLevel (s : State) (level : Bool) : State :=
  let s := s.withPort { s.port with xfer := level }
  match s.port.state with
  | .maintaining _ => if level then (s.endScript .dataRefused).enterResetting else s
  | _ => s.moverCheck

/-- The watchdog expires (R125). -/
def State.watchdogExpires (s : State) : State :=
  match s.port.state with
  | .describing _ => s.enterFailed
  | .maintaining _ => (s.endScript .stalled).enterResetting
  | .serving (.setup _) => s.endByWatch .moduleStall
  | .serving .data => s.endByWatch .moduleStall
  | .serving .closing => s.endByWatch .moduleStall
  | .serving .stopping => s.enterResetting
  | .serving (.runOut _ _) => s.enterResetting
  | _ => s

/-- MRST is released (R118, R128): a reset run-out ends, and STARTING begins to read STATUS. -/
def State.releaseReset (s : State) : State :=
  let s := s.endRunOut
  s.withPort { s.port with state := .starting 0, access := some ⟨slotStatus, none⟩ }

end Sys2Proof.Machine
end

