-- ==== Sys2Proof/Machine/Target.lean ====
section
/-! DEFINITION. The target path: the arrivals addressed to the target role (R41 to R45, R55, R56, R83, R88, R102,
R109, R110), the endings of target records (R17, R92), and the hand-over of items and DATA frames to the role they
are addressed to (R1, R82, R158). -/

namespace Sys2Proof.Machine

/-! ### Endings -/

/-- A target record is given up without an outcome (R17, R44, R105, R110): a QUEUED or FINISHING one is freed; an ACTIVE
one is abandoned at the port and freed, or detached while its ring is run out; a SETTLING one is freed, or detached
while its ring is still run out. A DETACHED record has no identity left to take away and stays as it is. -/
def State.dropTarget (s : State) (r : TargetRec) : State :=
  match r.state with
  | .queued => s.freeTarget r
  | .finishing => s.freeTarget r
  | .active =>
    let (s, keep) := s.stopServing r
    (if keep then s.detach r else s.freeTarget r).continueRunOut
  | .settling _ _ => if r.ring.isSome then s.detach r else s.freeTarget r
  | .detached => s.detach r

/-- A target record in QUEUED, ACTIVE or FINISHING settles by a cause of its own: a matching CANCEL, or the eighth
rewind of a READ (R92, R98, R102). -/
def State.settleStopped (s : State) (r : TargetRec) (code : OutcomeCode) : State :=
  match r.state with
  | .queued => s.settle r ⟨code, 0, true, none⟩ false
  | .finishing => s.settle r ⟨code, r.count, true, none⟩ false
  | .active =>
    let (s, keep) := s.stopServing r
    (s.settle r ⟨code, r.moved, true, none⟩ keep).continueRunOut
  | _ => s

/-- A matching CANCEL (R102). -/
def State.cancelArrives (s : State) (r : TargetRec) : State := (s.settleStopped r .cancelled).grant

/-- The eighth consecutive rewind of a target READ (R92). -/
def State.rewindLimitTarget (s : State) (r : TargetRec) : State := (s.settleStopped r .linkFault).grant

/-- A matching CLOSE frees a SETTLING record, or detaches it while its ring is run out (R55); it has no effect on
another (R56). -/
def State.closeArrives (s : State) (r : TargetRec) : State :=
  match r.state with
  | .settling _ _ => (s.dropTarget r).grant
  | _ => s

/-! ### ASK (R41 to R45) -/

/-- The check of an ASK that is not a duplicate, in the order of R42. -/
def State.askCheck (s : State) (op : Byte) (count : Nat) (addr : BlockAddr) : Option Reason :=
  match opOfCode op.toNat with
  | none => some .malformed
  | some .sync => if count ≠ 0 then some .malformed else if s.port.state.ready then none else some .noModule
  | some _ =>
    if count = 0 ∨ Limit.blocks < count then some .malformed
    else if !s.port.state.ready then some .noModule
    else if s.port.capacity.toNat < addr.toNat + count then some .range
    else none

/-- The ASK repeats the request of a record (R41): same serial, operation, count and, for READ and WRITE, address. -/
def TargetRec.repeats (r : TargetRec) (serial : Serial) (op : Byte) (count : Nat) (addr : BlockAddr) : Bool :=
  decide (r.serial = serial) && decide (op.toNat = opCode r.op) && decide (r.count = count) &&
    (decide (r.op = .sync) || decide (r.addr = addr))

/-- A refusing REPLY is complete when placed, and is dropped when the Pending Item Queue is full (R45, R160, R161). -/
def State.refuse (s : State) (i : Item) (why : Reason) : State :=
  s.offer ⟨i.init, i.init, i.tag, i.serial, .reply (some why)⟩ .fixed

/-- A target record offers an item unless one of its kind waits in the Pending Item Queue or is wanted (R43, R54). -/
def State.offerTargetOnce (s : State) (p : Station) (t : Tag) (k : ItemKind) : State :=
  match s.targetRec p t with
  | some r =>
    match r.id with
    | some i => if s.waits (r.item i k) .record || r.wanted.contains k then s else s.offerTarget p t k
    | none => s
  | none => s

/-- The record a valid ASK makes (R45). -/
def newTarget (i : Item) (op : Op) (count : Nat) (addr : BlockAddr) : TargetRec where
  id := some ⟨i.init, i.tag, i.serial⟩
  op := op
  addr := if op = .sync then 0 else addr
  count := count
  state := .queued
  ring := none
  flow := newFlow .target op
  moved := 0
  priming := none
  starvation := none
  wanted := []
  outcome := none

/-- A valid ASK that has no record on its key is refused with BUSY or accepted (R45); the grant may follow (R48). -/
def State.takeAsk (s : State) (i : Item) (op : Op) (count : Nat) (addr : BlockAddr) : State :=
  if s.serviceQueue.length < Limit.service ∧ s.exch.targets.length < Limit.targets then
    let s := { s with exch := { s.exch with targets := s.exch.targets ++ [newTarget i op count addr] } }
    (s.offerTarget i.init i.tag .reply).grant
  else s.refuse i .busy

/-- An ASK of the station's peer or of itself (R41): a duplicate is answered (R43), another is checked (R42), ends the
record on its key (R44) and is taken (R45). -/
def State.askArrives (s : State) (i : Item) (op : Byte) (count : Nat) (addr : BlockAddr) : State :=
  let taken (s : State) : State :=
    match opOfCode op.toNat with
    | some o => s.takeAsk i o count addr
    | none => s
  match s.targetRec i.init i.tag with
  | some r =>
    if r.repeats i.serial op count addr then s.offerTargetOnce i.init i.tag .reply
    else
      match s.askCheck op count addr with
      | some why => s.refuse i why
      | none => taken (s.dropTarget r).grant
  | none =>
    match s.askCheck op count addr with
    | some why => s.refuse i why
    | none => taken s

/-! ### CREDIT and DATA -/

/-- A matching CREDIT reaches a target READ that takes it (R88, R89); base may end a wait of the mover (R69) or the
record (R52), and the eighth rewind ends it (R92). -/
def State.creditAtTarget (s : State) (r : TargetRec) (c : SendCounters) (nextExpected limit : Nat) : State :=
  let (c', limitHit) := c.credit r.count nextExpected limit
  let r' := { r with flow := .sender c', ring := r.ring.map (fun g => g.passBase c.base c'.base) }
  match r.id with
  | some i =>
    let s := s.mapTarget i.peer i.tag (fun _ => r')
    if limitHit then s.rewindLimitTarget r'
    else
      match r.state with
      | .active => s.moverCheck
      | .finishing => if c'.base = r.count then (s.settle r' ⟨.done, r.count, true, none⟩ false).grant else s
      | _ => s
  | none => s

/-- A matching CREDIT addressed to the target role: only a READ in QUEUED, ACTIVE or FINISHING takes it (R88, R109). -/
def State.creditArrivesTarget (s : State) (r : TargetRec) (nextExpected limit : Nat) : State :=
  match r.state, r.flow with
  | .queued, .sender c => s.creditAtTarget r c nextExpected limit
  | .active, .sender c => s.creditAtTarget r c nextExpected limit
  | .finishing, .sender c => s.creditAtTarget r c nextExpected limit
  | _, _ => s

/-- The block of a DATA frame is accepted into the ring of a target WRITE (R72, R83); block 0 ends its priming and starts
the built script (R50); a wait of the mover may end (R73). -/
def State.acceptBlock (s : State) (r : TargetRec) (c : RecvCounters) (ring : Ring) (slot : Slot) (d : DataBlock) : State :=
  match r.id with
  | some i =>
    let s := { s with buf := { s.buf with ram := s.buf.ram.writeBlock slot.area d.bytes } }
    let r' := { r with ring := some (ring.setState d.index (.full d.index)),
                       flow := .receiver { c with expected := c.expected + 1 }, priming := none }
    let s := s.mapTarget i.peer i.tag (fun _ => r')
    let s := if r.priming.isSome then s.startSetup r' else s.moverCheck
    s.offerTarget i.peer i.tag .credit
  | none => s

/-- A matching DATA frame at the target role (R83, R84): a WRITE in QUEUED or ACTIVE is in a receiving state, and every
arrival there queues a CREDIT. -/
def State.dataArrivesTarget (s : State) (r : TargetRec) (d : DataBlock) : State :=
  match r.flow, r.id with
  | .receiver c, some i =>
    if r.state = .queued ∨ r.state = .active then
      match r.ring.bind (fun ring => (ring.slot d.index).map (fun slot => (ring, slot))) with
      | some (ring, slot) =>
        if d.index = c.expected ∧ d.index < r.count ∧ slot.st = .empty then s.acceptBlock r c ring slot d
        else s.offerTarget i.peer i.tag .credit
      | none => s.offerTarget i.peer i.tag .credit
    else s
  | _, _ => s

/-! ### Orphans at the target role (R109, R110, R112) -/

/-- The OUTCOME with code PEER_FORGOT that answers an arrival of an exchange (R109, R112). -/
def State.answerForgot (s : State) (i : ExchId) : State :=
  s.offerOrphan ⟨i.peer, i.peer, i.tag, i.serial, .outcome .peerForgot 0 0 0⟩

/-- An arrival for the target role that is looked up by key: the matching record takes it as `f` says; a key with no
record earns PEER_FORGOT (R109); a record under another serial is ended, and the arrival earns PEER_FORGOT unless that
record was SETTLING (R110). The answer is queued before the grant that the ending allows, so it stands ahead of the CREDIT
of an activation; the rules give no order (DESIGN CHOICE, log 24). -/
def State.atTarget (s : State) (i : ExchId) (f : State → TargetRec → State) : State :=
  match s.targetRec i.peer i.tag with
  | some r =>
    if r.serial = i.serial then f s r
    else
      match r.state with
      | .settling _ _ => (s.dropTarget r).grant
      | _ => ((s.dropTarget r).answerForgot i).grant
  | none => s.answerForgot i

/-! ### Hand-over to the roles -/

/-- An item addressed to the target role (R1). An ASK, CANCEL or CREDIT whose initiator station is not the sender is
discarded (R41, R102, R109). -/
def State.itemToTarget (s : State) (sender : Station) (i : Item) : State :=
  match i.body with
  | .ask op count addr => if i.init = sender then s.askArrives i op count addr else s
  | .cancel => if i.init = sender then s.atTarget ⟨i.init, i.tag, i.serial⟩ State.cancelArrives else s
  | .credit _ ne limit =>
    if i.init = sender then s.atTarget ⟨i.init, i.tag, i.serial⟩ (fun s r => s.creditArrivesTarget r ne limit) else s
  | .close =>
    match s.targetRec i.init i.tag with
    | some r => if r.serial = i.serial then s.closeArrives r else s
    | none => s
  | _ => s

/-- An item is applied at the role its kind and direction give (R1, R158). -/
def State.itemArrives (s : State) (sender : Station) (i : Item) : State :=
  match i.body.toRole with
  | .target => s.itemToTarget sender i
  | .initiator => s.itemToInit sender i

/-- A DATA frame addressed to the target role; one whose sender is not its initiator station is discarded (R82). -/
def State.dataToTarget (s : State) (sender : Station) (d : DataBlock) : State :=
  if d.init = sender then s.atTarget ⟨d.init, d.tag, d.serial⟩ (fun s r => s.dataArrivesTarget r d) else s

/-- A DATA frame of a peer: the initiator station it names tells its role (R82). -/
def State.dataArrives (s : State) (sender : Station) (d : DataBlock) : State :=
  if d.init = s.own then s.dataToInit sender d else s.dataToTarget sender d

end Sys2Proof.Machine
end

