-- ==== Sys2Proof/Machine/Turn.lean ====
section
/-! DEFINITION. The own turn (R144): the counts of the watches and the offers (R162), the composition of the turn
(R163, R164), the picks of DATA frames (R81), and the delivery of loopback (R166). -/

namespace Sys2Proof.Machine

/-! ### Positions -/

/-- The number of a rotation position, 0 to 255 (R81): initiator station, tag, initiator role before target role. -/
def positionNumber (p : Position) : Nat :=
  p.station.val * 16 + p.tag.val * 2 + (match p.role with | .initiator => 0 | .target => 1)

/-- How far a position lies after the one served last: 0 for the next one, 255 for that one itself (R81). -/
def positionDistance (last p : Position) : Nat := (positionNumber p + 255 - positionNumber last) % 256

/-- Every position that a record holds, in rotation order (R162). -/
def State.positions (s : State) : List Position :=
  Station.all.flatMap fun p => Tag.all.flatMap fun t =>
    (if p = s.own ∧ (s.initRec t).isSome then [⟨p, t, .initiator⟩] else []) ++
    (if (s.targetRec p t).isSome then [⟨p, t, .target⟩] else [])

/-! ### The watches of an own turn (R162) -/

/-- An initiator record offers its ASK unless one waits in the Pending Item Queue or is wanted (R28). -/
def State.offerAskOnce (s : State) (t : Tag) : State :=
  match s.initRec t with
  | some r => if s.waits (r.item s.own .ask) .record || r.wanted.contains .ask then s else s.offerInit t .ask
  | none => s

/-- The ask watch of an own turn (R10, R29): the state afterward, and whether an ASK is ordered. -/
def State.askWatch (s : State) (r : InitRec) (sends turns : Nat) : State × Bool :=
  if turns + 1 < Limit.askTurns then (s.mapInit r.tag (fun x => { x with state := .asking sends (turns + 1) }), false)
  else if sends < Limit.askSends then (s.mapInit r.tag (fun x => { x with state := .asking (sends + 1) 0 }), true)
  else (s.endAndTake r (r.localOutcome .noReply) true false, false)

/-- An initiator WRITE is under the stall watch (R90): WAITING or MOVING as head, toward another station. -/
def State.initStallRuns (s : State) (r : InitRec) : Bool :=
  (decide (r.state = .waiting) || decide (r.state = .moving)) && s.headsChannel r && decide (r.peer ≠ s.own)

/-- The stall watch of an initiator record at an own turn (R90, R91). -/
def State.initStallWatch (s : State) (r : InitRec) : State :=
  match r.flow with
  | .sender c =>
    if s.initStallRuns r then
      let (c', limitHit) := c.stallTurn
      let r' := { r with flow := .sender c' }
      let s := s.setInit r'
      if limitHit then s.rewindLimitInit r' else s
    else s
  | _ => s

/-- A target READ is under the stall watch (R90): ACTIVE or FINISHING, toward another station. -/
def State.targetStallRuns (s : State) (r : TargetRec) : Bool :=
  (decide (r.state = .active) || decide (r.state = .finishing)) &&
    match r.id with
    | some i => decide (i.peer ≠ s.own)
    | none => false

/-- The stall watch of a target record at an own turn (R90, R92). -/
def State.targetStallWatch (s : State) (r : TargetRec) : State :=
  match r.flow, r.id with
  | .sender c, some i =>
    if s.targetStallRuns r then
      let (c', limitHit) := c.stallTurn
      let r' := { r with flow := .sender c' }
      let s := s.mapTarget i.peer i.tag (fun _ => r')
      if limitHit then s.rewindLimitTarget r' else s
    else s
  | _, _ => s

/-- The end of priming without a block (R50): the record settles STARVED with blocks done 0, its ring is released and
the port becomes IDLE. -/
def State.primingEnds (s : State) (r : TargetRec) : State :=
  (s.enterIdle.settle r ⟨.starved, 0, true, none⟩ false).grant

/-- The priming count of an own turn (R50): the state afterward, and whether a CREDIT is ordered. -/
def State.primingWatch (s : State) (r : TargetRec) (i : ExchId) (n : Nat) : State × Bool :=
  if n + 1 < Limit.priming then
    (s.mapTarget i.peer i.tag (fun x => { x with priming := some (n + 1) }), decide ((n + 1) % Limit.primingCredit = 0))
  else (s.primingEnds r, false)

/-- The starvation count of an own turn (R126). -/
def State.starvationWatch (s : State) (i : ExchId) (n : Nat) : State :=
  if n + 1 < Limit.starvation then s.mapTarget i.peer i.tag (fun x => { x with starvation := some (n + 1) })
  else s.endByWatch .starved

/-- The resend count of a SETTLING record at an own turn (R54): the state afterward, and whether an OUTCOME is
ordered. -/
def State.resendWatch (s : State) (i : ExchId) (firstOwed : Bool) (n : Nat) : State × Bool :=
  let due := firstOwed || decide (Limit.resend ≤ n + 1)
  (s.mapTarget i.peer i.tag (fun x => { x with state := .settling false (if due then 0 else n + 1) }), due)

/-- The credit refresh of an initiator READ (R86). -/
def InitRec.refreshes (r : InitRec) : Bool :=
  decide (r.op = .read) && (decide (r.state = .waiting) || decide (r.state = .moving)) && r.ring.isSome &&
    decide (r.flow.expected < advertised r.ring r.flow.consumed r.count)

/-- The credit refresh of a target WRITE (R86). -/
def TargetRec.refreshes (r : TargetRec) : Bool :=
  decide (r.op = .write) && decide (r.state = .active) && r.priming.isNone && r.ring.isSome &&
    decide (r.flow.expected < advertised r.ring r.flow.consumed r.count)

/-! ### The offers of an own turn (R162) -/

/-- An initiator record offers its wanted items, in the order in which they became wanted (R12). -/
def State.offerWantedInit (s : State) (t : Tag) : State :=
  match s.initRec t with
  | some r => r.wanted.foldl (fun s k => s.offerInit t k) (s.mapInit t (fun x => { x with wanted := [] }))
  | none => s

/-- A target record offers its wanted items (R12). -/
def State.offerWantedTarget (s : State) (p : Station) (t : Tag) : State :=
  match s.targetRec p t with
  | some r => r.wanted.foldl (fun s k => s.offerTarget p t k) (s.mapTarget p t (fun x => { x with wanted := [] }))
  | none => s

/-- The own turn of an initiator record: its watches, its wanted items, its ordered items (R162). A record ended by its
watch offers nothing more, nor does one that a take has made on its tag (log 14). -/
def State.initTurn (s : State) (t : Tag) : State :=
  match s.initRec t with
  | some r =>
    let (s, askDue) : State × Bool :=
      match r.state with
      | .asking sends turns => s.askWatch r sends turns
      | _ => (s.initStallWatch r, false)
    match (s.initRec t).filter (fun x => decide (x.serial = r.serial)) with
    | some x =>
      let s := s.offerWantedInit t
      let s := if askDue then s.offerAskOnce t else s
      if x.refreshes then s.offerInit t .credit else s
    | none => s
  | none => s

/-- The watches of a target record at an own turn: the state afterward, and the kind of item they order. Of a READ that
waits on the ring with blocks outstanding the starvation count is taken before the stall watch, so where both reach their
limits at one own turn the record ends STARVED; R162 names the watches without an order (DESIGN CHOICE, log 31). -/
def State.targetWatches (s : State) (r : TargetRec) (i : ExchId) : State × Option ItemKind :=
  match r.state with
  | .settling firstOwed n =>
    let (s, due) := s.resendWatch i firstOwed n
    (s, if due then some .outcome else none)
  | .active =>
    match r.priming, r.starvation with
    | some n, _ =>
      let (s, due) := s.primingWatch r i n
      (s, if due then some .credit else none)
    | none, some n =>
      let s := s.starvationWatch i n
      match s.targetRec i.peer i.tag with
      | some x => (s.targetStallWatch x, none)
      | none => (s, none)
    | none, none => (s.targetStallWatch r, none)
  | _ => (s.targetStallWatch r, none)

/-- The own turn of a target record: its watches, its wanted items, its ordered items (R162). -/
def State.targetTurn (s : State) (p : Station) (t : Tag) : State :=
  match s.targetRec p t with
  | some r =>
    match r.id with
    | some i =>
      let (s, ordered) := s.targetWatches r i
      let s := s.offerWantedTarget p t
      let s :=
        match ordered with
        | some .outcome => s.offerTargetOnce p t .outcome
        | some k => s.offerTarget p t k
        | none => s
      match s.targetRec p t with
      | some x => if x.refreshes then s.offerTarget p t .credit else s
      | none => s
    | none => s
  | none => s

/-- The offers of an own turn, over the records present at the event, in rotation order (R162, log 14). Each record is
counted as it stands when the walk comes to it: a WRITE that a grant within the walk activates counts this own turn for its
priming where its position lies later in the walk, and not where it lies earlier (DESIGN CHOICE, log 14). -/
def State.turnOffers (s : State) : State :=
  s.positions.foldl (fun s p =>
    match p.role with
    | .initiator => s.initTurn p.tag
    | .target => s.targetTurn p.station p.tag) s

/-! ### The composition (R163, R164) -/

/-- What a walk of the Pending Item Queue takes into the line set and the loopback set, and what it leaves. -/
structure ItemSets where
  line : List PendingItem
  loop : List PendingItem
  left : List PendingItem
  deriving DecidableEq, Repr

/-- One item of the walk (R163). -/
def ItemSets.take (own : Station) (x : ItemSets) (p : PendingItem) : ItemSets :=
  if p.item.dest = own then
    if x.loop.length < Limit.turnItems then { x with loop := x.loop ++ [p] } else { x with left := x.left ++ [p] }
  else
    if x.line.length < Limit.turnItems then { x with line := x.line ++ [p] } else { x with left := x.left ++ [p] }

/-- The walk of the Pending Item Queue (R163). -/
def walkItems (own : Station) (l : List PendingItem) : ItemSets := l.foldl (ItemSets.take own) ⟨[], [], []⟩

/-! ### DATA frames (R79 to R81) -/

/-- A block that a record may send: its position, its frame, and its sender counters after the sending. -/
structure Sendable where
  position : Position
  data : DataBlock
  deriving DecidableEq, Repr

/-- The FULL slot that holds block `b` of a ring (R79). -/
def Ring.fullSlot (r : Ring) (b : Nat) : Option Slot := (r.slot b).filter (fun x => decide (x.st = .full b))

/-- The sendable block of an initiator record (R79, R80). -/
def State.initSendable (s : State) (r : InitRec) : Option Sendable :=
  match r.flow, r.ring with
  | .sender c, some ring =>
    if (r.state = .waiting ∨ r.state = .moving) ∧ s.headsChannel r ∧ c.next < c.limit then
      (ring.fullSlot c.next).map fun slot =>
        ⟨⟨s.own, r.tag, .initiator⟩, ⟨r.peer, s.own, r.tag, r.serial, c.next, s.buf.ram.readBlock slot.area⟩⟩
    else none
  | _, _ => none

/-- The sendable block of a target record (R79, R80). -/
def State.targetSendable (s : State) (r : TargetRec) : Option Sendable :=
  match r.flow, r.ring, r.id with
  | .sender c, some ring, some i =>
    if (r.state = .active ∨ r.state = .finishing) ∧ c.next < c.limit then
      (ring.fullSlot c.next).map fun slot =>
        ⟨⟨i.peer, i.tag, .target⟩, ⟨i.peer, i.peer, i.tag, i.serial, c.next, s.buf.ram.readBlock slot.area⟩⟩
    else none
  | _, _, _ => none

/-- Every sendable block of the station. -/
def State.sendables (s : State) : List Sendable :=
  s.exch.inits.filterMap s.initSendable ++ s.exch.targets.filterMap s.targetSendable

/-- The nearest of a list of sendable blocks after a position (R81). -/
def nearest (last : Position) : List Sendable → Option Sendable
  | [] => none
  | x :: l =>
    match nearest last l with
    | some y => if positionDistance last x.position ≤ positionDistance last y.position then some x else some y
    | none => some x

/-- Sending rises next-to-send by one (R80). -/
def Flow.sent : Flow → Flow
  | .sender c => .sender { c with next := c.next + 1 }
  | f => f

/-- The block of a position has been composed: next-to-send rises and the position is served last (R80, R81). -/
def State.markSent (s : State) (p : Position) : State :=
  let s := { s with sched := { s.sched with rotation := p } }
  match p.role with
  | .initiator => s.mapInit p.tag (fun x => { x with flow := x.flow.sent })
  | .target => s.mapTarget p.station p.tag (fun x => { x with flow := x.flow.sent })

/-- At most `fuel` picks against a line budget and a loopback budget (R81): the state afterward and the frames picked,
in order. -/
def State.picks : Nat → Nat → Nat → State → State × List Sendable
  | 0, _, _, s => (s, [])
  | fuel + 1, line, loop, s =>
    match nearest s.sched.rotation
        (s.sendables.filter (fun x => if x.data.dest = s.own then decide (0 < loop) else decide (0 < line))) with
    | some x =>
      let toSelf := decide (x.data.dest = s.own)
      let (s', l) := (s.markSent x.position).picks fuel (if toSelf then line else line - 1) (if toSelf then loop - 1 else loop)
      (s', x :: l)
    | none => (s, [])

/-! ### Frames of the station -/

/-- The roster bitmap of the station's own headers (R135). -/
def State.bitmap (s : State) : BitVec 16 :=
  match s.member.link with
  | .member => stationSet s.present
  | .leaving => stationSet (fun n => s.present n && decide (n ≠ s.own))
  | _ => 0

/-- A frame of the station as composed now (R155, R164). -/
def State.frame (s : State) (kind : FrameKind) (last : Bool) (payload : Payload) : Frame :=
  ⟨kind, s.own, last, s.port.state.ready, s.bitmap, payload⟩

/-- The last-in-turn flag falls on the last frame (R164). -/
def markLast : List Frame → List Frame
  | [] => []
  | [f] => [{ f with last := true }]
  | f :: l => f :: markLast l

/-- The frames on the line of an own turn in MEMBER (R164). -/
def State.lineFrames (s : State) (items : List Item) (blocks : List DataBlock) : List Frame :=
  let control := if items.isEmpty then [] else [s.frame .control false (.items items)]
  let data := blocks.map (fun d => s.frame .data false (.data d))
  if (control ++ data).isEmpty then [s.frame .pass true .none] else markLast (control ++ data)

/-- A transmission begins (R165). The Link Port receives nothing while it drives the line, so a frame that is being
received is given up (R157, R141). -/
def State.transmit (s : State) (kind : TxKind) (frames : List Frame) : State :=
  { s with line := ⟨false, some ⟨kind, frames⟩⟩ }

/-! ### Loopback (R93, R94, R166) -/

/-- A loopback DATA frame is delivered to the role that receives it: the other role than its sender's (R82). -/
def State.deliverBlock (s : State) (x : Sendable) : State :=
  match x.position.role with
  | .initiator => s.dataToTarget s.own x.data
  | .target => s.dataToInit s.own x.data

/-- The loopback set is delivered in queue order; a CREDIT reads its values at its delivery (R94, R166). -/
def State.deliverItems : Nat → State → State
  | 0, s => s
  | n + 1, s =>
    match s.sched.loopItems with
    | p :: rest =>
      let i := s.resolve p
      (({ s with sched := { s.sched with loopItems := rest } }).itemArrives s.own i).deliverItems n
    | [] => s

/-- The composition of an own turn in MEMBER (R163, R164): the frames are fixed and their transmission begins; the
loopback DATA frames picked are the second part. -/
def State.composeTurn (s : State) : State × List Sendable :=
  let sets := walkItems s.own s.sched.items
  let items := sets.line.map s.resolve
  let s := { s with sched := { s.sched with items := sets.left, loopItems := sets.loop } }
  let lineBudget := if items.isEmpty then Limit.turnData else Limit.turnData - 1
  let (s, picked) := s.picks (Limit.turnData + Limit.turnData) lineBudget Limit.turnData
  let toLine := picked.filter (fun x => decide (x.data.dest ≠ s.own))
  let toSelf := picked.filter (fun x => decide (x.data.dest = s.own))
  (s.transmit .ownTurn (s.lineFrames items (toLine.map Sendable.data)), toSelf)

/-- The own turn of a MEMBER (R144): watches and offers, composition, loopback. -/
def State.memberTurn (s : State) : State :=
  let (s, toSelf) := s.turnOffers.composeTurn
  let s := toSelf.foldl State.deliverBlock s
  s.deliverItems s.sched.loopItems.length

/-- An own turn begins (R144): in LEAVING it is the LEAVE frame alone (R148). -/
def State.ownTurn (s : State) : State :=
  match s.member.link with
  | .leaving => s.transmit .leave [s.frame .leave true .none]
  | _ => s.memberTurn

end Sys2Proof.Machine
end

