-- ==== Sys2Proof/Machine/Membership.lean ====
section
/-! DEFINITION. The Membership Controller (chapter 8): the roster and its changes (R147 to R152), the removal and the
restart of a peer (R104 to R107), the turn holder (R143 to R146), joining and founding (R135 to R140), and the frames
the station hears and sends. -/

namespace Sys2Proof.Machine

/-! ### The roster -/

/-- Changing the roster entry of a station. -/
def State.mapEntry (s : State) (n : Station) (f : RosterEntry → RosterEntry) : State :=
  { s with member := { s.member with roster := s.member.roster.set n (f s.member.roster[n]) } }

/-- The roster generation rises, and ROSTER is set (R152, R180). -/
def State.countChanges (s : State) (n : Nat) : State :=
  ({ s with member := { s.member with generation := s.member.generation + BitVec.ofNat 16 n } }).setFlag .roster

/-- A peer is added with misses 0 and the module ready of a frame's header (R150). -/
def State.addPeer (s : State) (n : Station) (ready : Bool) : State :=
  (s.mapEntry n (fun _ => ⟨true, 0, ready⟩)).countChanges 1

/-- Every item whose destination is `n` is purged from the Pending Item Queue (R106, R167). -/
def State.purge (s : State) (n : Station) : State :=
  { s with sched := { s.sched with items := s.sched.items.filter (fun p => decide (p.item.dest ≠ n)) } }

/-- The initiator records toward a lost peer end PEER_LOST, in creation order (R104). -/
def State.losePeer (s : State) (n : Station) : State :=
  (s.exch.inits.filter (fun r => decide (r.peer = n) && r.live)).foldl (fun s r =>
    match s.initRec r.tag with
    | some x => s.endInit x (x.localOutcome .peerLost) false false
    | none => s) s

/-- The exchanges whose target records are keyed to an initiator station. -/
def State.keyedTo (s : State) (n : Station) : List ExchId :=
  (s.exch.targets.filterMap TargetRec.id).filter (fun i => decide (i.peer = n))

/-- The target records keyed to a lost peer are dropped (R105), one after another in acceptance order: R57 and R105 give
none, and the order of the service free list (R60) follows it (DESIGN CHOICE, log 29). -/
def State.dropPeer (s : State) (n : Station) : State :=
  (s.keyedTo n).foldl (fun s i =>
    match s.targetRec i.peer i.tag with
    | some r => s.dropTarget r
    | none => s) s

/-- The records in DELIVERING toward a lost peer lose a wanted CANCEL (R106). -/
def State.dropWantedCancel (s : State) (n : Station) : State :=
  { s with exch := { s.exch with inits := s.exch.inits.map (fun r =>
      if r.peer = n then { r with wanted := r.wanted.filter (fun k => decide (k ≠ .cancel)) } else r) } }

/-- Peer `n` leaves the roster, with the effects on its exchanges and items (R149, R104, R105, R106). The endings come
first and the purge of the items last, where the rules put both at one event: an item that an ending queues can still find
the queue full of items about to be purged, and becomes wanted (DESIGN CHOICE, log 30). The grants and takes that the event
allows follow by `State.resume`. -/
def State.forgetPeer (s : State) (n : Station) : State :=
  let s := (s.mapEntry n (fun _ => RosterEntry.absent)).countChanges 1
  (((s.losePeer n).dropPeer n).dropWantedCancel n).purge n

/-- The grants and takes that a removal since the state `before` has made possible (R22, R48, R104, R105). -/
def State.resume (s before : State) : State := s.grant.retakeIfFreed before

/-- The removal of a peer (R149). -/
def State.removePeer (s : State) (n : Station) : State := (s.forgetPeer n).resume s

/-- The restart of a peer: it is removed and added again (R151, R107). -/
def State.restartPeer (s : State) (n : Station) (ready : Bool) : State := ((s.forgetPeer n).addPeer n ready).resume s

/-! ### JOIN frames and OPEN turns -/

/-- A JOIN frame (R137, R138). -/
def State.joinFrame (s : State) : Frame := s.frame .join true .none

/-- A LISTENING station sends its first JOIN at its first OPEN turn (R138). -/
def State.firstJoin (s : State) : State :=
  let s := { s with member := { s.member with link := .joining } }
  s.transmit .join [s.joinFrame]

/-- The OPEN turn after its last JOIN at which a JOINING station sends again (R140). -/
def joinResendTurn (own : Station) : Nat := own.val % 4 + 3

/-- A JOINING station counts an OPEN turn, and sends its JOIN again when it is due (R140). -/
def State.joiningOpenTurn (s : State) : State :=
  let n := s.member.openTurns + 1
  let s := { s with member := { s.member with openTurns := n } }
  if n = joinResendTurn s.own then s.transmit .join [s.joinFrame] else s

/-- An OPEN turn begins: the holder has changed to OPEN (R138, R140). -/
def State.openTurn (s : State) : State :=
  match s.member.link with
  | .listening => s.firstJoin
  | .joining => s.joiningOpenTurn
  | _ => s

/-! ### The holder -/

/-- The holder moves: an own turn begins when it becomes the own station in MEMBER or LEAVING (R144), an OPEN turn when it
changes to OPEN (R138). -/
def State.moveHolder (s : State) (h : Option Station) : State :=
  let moved := s.setHolder h
  match h with
  | some n =>
    if n = s.own ∧ (s.member.link = .member ∨ s.member.link = .leaving) then moved.ownTurn else moved
  | none => if s.member.holder.isSome then moved.openTurn else moved

/-- Silence while a station number holds the turn (R145): a wholly silent turn is a miss, and the third removes the
station (R149); then the holder passes on. -/
def State.silentTurn (s : State) (n : Station) : State :=
  let counts := decide (s.member.link = .member) || decide (s.member.link = .leaving)
  let s :=
    if counts && !s.member.activity && decide (n ≠ s.own) && s.present n then
      if s.member.roster[n].misses + 1 < Limit.misses then s.mapEntry n (fun e => { e with misses := e.misses + 1 })
      else s.removePeer n
    else s
  s.moveHolder (s.nextAfter n)

/-- A silence event (R145, R146). -/
def State.silence (s : State) : State :=
  match s.member.holder with
  | some n => s.silentTurn n
  | none => s.moveHolder s.lowest

/-! ### Entry to MEMBER -/

/-- The own roster entry: present, misses 0, module ready from the own port (R137, R139, R147). -/
def State.ownEntry (s : State) : RosterEntry := ⟨true, 0, s.port.state.ready⟩

/-- The station enters MEMBER with a roster, and the take conditions are read (R22, R133, R152). -/
def State.enterMember (s : State) (roster : Vector RosterEntry 16) (added : Nat) : State :=
  let s := { s with member := { s.member with link := .member, roster := roster, view := 0, openTurns := 0 } }
  (s.countChanges added).retake

/-- The roster of a confirming frame (R139): the stations of its bitmap and its sender, each with misses 0; the sender's
module ready is the header's, the own entry's is the own port's, every other's is no. -/
def State.confirmedRoster (s : State) (f : Frame) : Vector RosterEntry 16 :=
  Vector.ofFn (fun n : Fin 16 =>
    if n = s.own then s.ownEntry
    else if n = f.sender then ⟨true, 0, f.ready⟩
    else if inSet f.roster n then ⟨true, 0, false⟩
    else RosterEntry.absent)

/-- The number of stations present in a roster. -/
def presentCount (v : Vector RosterEntry 16) : Nat := (Station.all.filter (fun n => v[n].present)).length

/-- A JOINING station becomes MEMBER by a confirming frame (R139). -/
def State.confirm (s : State) (f : Frame) : State :=
  let roster := s.confirmedRoster f
  s.enterMember roster (presentCount roster)

/-- The founding JOIN has left: the roster is the own station alone, the holder becomes OPEN (R137). -/
def State.completeFounding (s : State) : State :=
  let roster := (Vector.replicate 16 RosterEntry.absent).set s.own s.ownEntry
  (s.setHolder none).enterMember roster 1

/-- The founding wait expires (R136, R137): FOUNDING, with the founding JOIN in transmission; a JOIN still on the line
goes out before it (log 11). -/
def State.found (s : State) : State :=
  let earlier := match s.line.tx with
    | some t => t.frames
    | none => []
  let s := { s with member := { s.member with link := .founding, view := 0, openTurns := 0 } }
  s.transmit .founding (earlier ++ [s.joinFrame])

/-! ### Return to OFFLINE -/

/-- The Membership Controller off the link (R153): OFFLINE, roster and view empty, holder OPEN, mark clear, timers and
join bookkeeping stopped; the generation is kept. -/
def Membership.offline (m : Membership) : Membership :=
  { Membership.reset with link := .offline, generation := m.generation }

/-- The LEAVE frame has left (R148): OFFLINE, the roster emptied, and ROSTER set (R147). -/
def State.completeLeave (s : State) : State := ({ s with member := s.member.offline }).setFlag .roster

/-! ### Received frames (R143) -/

/-- The roster effect of an intact frame in MEMBER or LEAVING (R143 step 1, R149, R150, R151). -/
def State.rosterEffect (s : State) (f : Frame) : State :=
  let s :=
    match f.kind, s.present f.sender with
    | .leave, true => s.removePeer f.sender
    | .leave, false => s
    | .join, true => s.restartPeer f.sender f.ready
    | _, true => s
    | _, false => s.addPeer f.sender f.ready
  if s.present f.sender then s.mapEntry f.sender (fun e => { e with misses := 0, ready := f.ready }) else s

/-- The items and DATA of an intact frame in MEMBER (R158). -/
def State.takePayload (s : State) (f : Frame) : State :=
  match f.payload with
  | .none => s
  | .items l => (l.filter (fun i => decide (i.dest = s.own))).foldl (fun s i => s.itemArrives f.sender i) s
  | .data d => if d.dest = s.own then s.dataArrives f.sender d else s

/-- The holder after an intact frame (R143 step 3): its sender, but for a JOIN in an OPEN turn, which leaves it OPEN
(R146); then the last-in-turn flag moves it on. -/
def State.frameHolder (s : State) (f : Frame) : State :=
  if f.kind = .join ∧ s.member.holder = none then s.markActivity
  else
    let s := (s.setHolder (some f.sender)).markActivity
    if f.last then s.moveHolder (s.nextAfter f.sender) else s

/-- An intact frame as a MEMBER or a LEAVING station takes it (R143). -/
def State.memberFrame (s : State) (f : Frame) : State :=
  let s := s.rosterEffect f
  (if s.member.link = .member then s.takePayload f else s).frameHolder f

/-- An intact frame as a LISTENING or JOINING station takes it (R135, R139): the confirming frame is then taken as a
MEMBER takes a frame. -/
def State.hearingFrame (s : State) (f : Frame) : State :=
  if s.member.link = .joining ∧ f.kind ≠ .join ∧ inSet f.roster s.own then (s.confirm f).memberFrame f
  else
    (if f.kind = .join then s else { s with member := { s.member with view := f.roster } }).frameHolder f

/-- An intact frame (R143); in the other link states it is discarded (R134). -/
def State.intactFrame (s : State) (f : Frame) : State :=
  match s.member.link with
  | .listening => s.hearingFrame f
  | .joining => s.hearingFrame f
  | .member => s.memberFrame f
  | .leaving => s.memberFrame f
  | _ => s

/-- The receiver is done with a frame. -/
def State.receiverIdle (s : State) : State := { s with line := { s.line with receiving := false } }

/-- A corrupt frame: activity alone (R142). -/
def State.corrupt (s : State) : State := if s.tracking then s.markActivity else s

/-- The bytes of a whole frame have been heard (R157): an intact one is taken, a corrupt one is activity. Nothing is
received while the station drives the line. -/
def State.frameHeard (s : State) (bytes : List Byte) : State :=
  if s.line.tx.isSome then s
  else
    match receiveFrame s.own bytes with
    | .corrupt => s.receiverIdle.corrupt
    | .intact f => s.receiverIdle.intactFrame f

/-- The end of the station's own transmission (R165, R144, R137, R140, R148). -/
def State.endTransmission (s : State) : State :=
  match s.line.tx with
  | none => s
  | some t =>
    let s := { s with line := { s.line with tx := none } }
    match t.kind with
    | .ownTurn => s.moveHolder (s.nextAfter s.own)
    | .join => if s.member.link = .joining then { s with member := { s.member with openTurns := 0 } } else s
    | .founding => s.completeFounding
    | .leave => s.completeLeave

end Sys2Proof.Machine
end

