-- ==== Sys2Proof/Machine/Window.lean ====
section
/-! DEFINITION. The register window (13 §13.2): the value of every offset at a read (R168), and what a write of each
writable word does but for the commands (R169, R172, R174, R178, R180, R185). -/

namespace Sys2Proof.Machine

/-! ### Codes of the window -/

/-- Link state codes (13 §13.2). -/
def linkCode : LinkState → Nat
  | .unconfigured => 0
  | .offline => 1
  | .listening => 2
  | .founding => 3
  | .joining => 4
  | .member => 5
  | .leaving => 6

/-- Module state codes. -/
def moduleCode : PortState → Nat
  | .absent => 0
  | .resetting _ => 1
  | .starting _ => 2
  | .describing _ => 3
  | .idle => 4
  | .serving _ => 5
  | .maintaining _ => 6
  | .failed => 7

/-- COMMAND_STATUS codes. -/
def commandStatusCode : CommandStatus → Nat
  | .none => 0
  | .taken => 1
  | .wrongState => 2
  | .outcomeFull => 3
  | .noMatch => 4
  | .notAvailable => 5
  | .busy => 6
  | .noScript => 7

/-- POST_STATUS codes. -/
def postStatusCode : PostStatus → Nat
  | .none => 0
  | .accepted => 1
  | .malformed => 2
  | .queueFull => 3

/-- HOST_FAULT cause codes. -/
def faultCauseCode : FaultCause → Nat
  | .none => 0
  | .lateConfig => 1
  | .strayAccess => 2
  | .emptyPop => 3
  | .maintBusy => 4
  | .badScript => 5

/-- Maintenance result codes. -/
def maintResultCode : MaintResult → Nat
  | .none => 0
  | .posted => 1
  | .running => 2
  | .done => 3
  | .stalled => 4
  | .dataRefused => 5

/-- Last departure codes. -/
def departureCode : Departure → Nat
  | .none => 0
  | .completed => 1
  | .aborted => 2

/-! ### Reads (R168, R184) -/

/-- A flag as a number. -/
def bitOf (b : Bool) : Nat := if b then 1 else 0

/-- CHAN_STATE of a channel (R177, 13 §13.2). -/
def State.chanStateWord (s : State) (c : Channel) : Word :=
  let head := s.channelHead c
  BitVec.ofNat 16 (bitOf head.isSome + 2 * bitOf (s.chan c).held + 4 * (head.elim 0 (fun r => opCode r.op)) +
    16 * departureCode (s.chan c).departure)

/-- OUT_CODE of the Outcome Queue head; zeros while the queue is empty (R171). -/
def outCodeWord (o : OutcomeRec) : Word :=
  BitVec.ofNat 16 (outcomeCode o.outcome.code + 32 * opCode o.op + 128 * bitOf o.outcome.confirmed + 256 * o.peer.val)

/-- A word of the outcome head, 0 while the queue is empty (R171). -/
def State.headWord (s : State) (f : OutcomeRec → Word) : Word := s.host.outcomes.head?.elim 0 f

/-- The word of a staged step at an even offset: kind and module slot. -/
def StagedStep.word (x : StagedStep) : Word := BitVec.ofNat 16 (x.kind.toNat + 16 * x.slot.toNat)

/-- A word of the step staging list, `k` from its first offset 40h (13 §13.2). -/
def State.stagingWord (s : State) (k : Nat) : Word :=
  match s.host.steps[k / 2]? with
  | some x => if k % 2 = 0 then x.word else x.value
  | none => 0

/-- The value of a window offset once the latch has matched (13 §13.2). -/
def State.windowWord (s : State) (off : BitVec 7) : Word :=
  match off.toNat with
  | 0x02 => s.host.commandArg
  | 0x04 => BitVec.ofNat 16 (commandStatusCode s.host.commandStatus)
  | 0x05 => s.host.flags.zeroExtend 16
  | 0x06 => s.host.enables.zeroExtend 16
  | 0x07 => BitVec.ofNat 16 (faultCauseCode s.host.cause + 32768 * bitOf s.host.repeated)
  | 0x08 => BitVec.ofNat 16 (s.host.staging.target.val + 16 * s.host.staging.op.toNat + 256 * s.host.staging.chan.toNat)
  | 0x09 => s.host.staging.count.zeroExtend 16
  | 0x0A => s.host.staging.addrHi
  | 0x0B => s.host.staging.addrLo
  | 0x0C => s.host.staging.label
  | 0x0E => BitVec.ofNat 16 (postStatusCode s.host.postStatus)
  | 0x0F => BitVec.ofNat 16 (s.host.requests.length + 256 * s.host.outcomes.length)
  | 0x10 => s.headWord outCodeWord
  | 0x11 => s.headWord (fun o => BitVec.ofNat 16 o.outcome.done)
  | 0x12 => s.headWord OutcomeRec.label
  | 0x13 => s.headWord (fun o => o.outcome.pair.elim 0 Prod.fst)
  | 0x14 => s.headWord (fun o => o.outcome.pair.elim 0 Prod.snd)
  | 0x18 => s.chanStateWord .a
  | 0x19 => (s.channelHead .a).elim 0 InitRec.label
  | 0x1A => s.chanA.lastLabel
  | 0x1B => s.chanStateWord .b
  | 0x1C => (s.channelHead .b).elim 0 InitRec.label
  | 0x1D => s.chanB.lastLabel
  | 0x1E => BitVec.ofNat 16 (s.chanA.threshold.toNat + 4 * s.chanB.threshold.toNat)
  | 0x20 => BitVec.ofNat 16 (linkCode s.member.link + 16 * s.own.val)
  | 0x21 => stationSet s.present
  | 0x22 => stationSet (fun n => s.member.roster[n].ready)
  | 0x23 => s.member.generation
  | 0x24 => BitVec.ofNat 16 (moduleCode s.port.state)
  | 0x25 => s.port.capacity.extractLsb' 16 16
  | 0x26 => s.port.capacity.extractLsb' 0 16
  | 0x28 => s.host.stepCount.zeroExtend 16
  | 0x29 => BitVec.ofNat 16 (maintResultCode s.port.result)
  | 0x2A => BitVec.ofNat 16 s.port.results.length
  | n => if 0x30 ≤ n ∧ n ≤ 0x3F then s.port.results.getD (n - 0x30) 0
         else if 0x40 ≤ n ∧ n ≤ 0x5F then s.stagingWord (n - 0x40)
         else 0

/-- A read of a window word: 0 while UNCONFIGURED and while a hardware reset lasts (R183, R184). It changes nothing. -/
def State.windowRead (s : State) (off : BitVec 7) : Word := if s.configured then s.windowWord off else 0

/-! ### The configuration latch (R185 to R187) -/

/-- The bits of CONFIG_A that carry a field. -/
def maskA (w : Word) : Word := w &&& 0x007F

/-- The bits of CONFIG_B that carry a field. -/
def maskB (w : Word) : Word := w &&& 0xFF03

/-- The line rate of a CONFIG_A word; code 0 is out of range (R186). -/
def rateOf (a : Word) : Option LineRate :=
  match bitField a 4 2 with
  | 1 => some .mbit10
  | 2 => some .mbit20
  | 3 => some .mbit40
  | _ => none

/-- The initiator pool size of a CONFIG_B word. -/
def poolOf (b : Word) : PoolSize :=
  match bitField b 0 2 with
  | 0 => .areas8
  | 1 => .areas12
  | 2 => .areas16
  | _ => .areas24

/-- The configuration two words carry, or none when a field is out of range (R186). -/
def configOf (a b : Word) : Option Cfg :=
  (rateOf a).map fun rate =>
    { station := Fin.ofNat 16 (bitField a 0 4), rate := rate, modulePresent := a.getLsbD 6, pool := poolOf b,
      lifetime := BitVec.ofNat 8 (bitField b 8 8) }

/-- The areas of the initiator pool, rising (R59). -/
def initPool (c : Cfg) : List AreaNo := AreaNo.all.take c.pool.areas

/-- The areas of the service pool, rising (R59). -/
def servPool (c : Cfg) : List AreaNo := AreaNo.all.drop c.pool.areas

/-- The match (R187): the configuration is fixed, the station is OFFLINE, the pools are formed, the timebase starts, and
the module port enters RESETTING or NONE. -/
def State.matchConfig (s : State) (c : Cfg) : State :=
  let s := { s with
    host := { s.host with config := some c, latch := .matched }
    member := { s.member with link := .offline }
    buf := { s.buf with initFree := initPool c, servFree := servPool c }
    timebase := true }
  if c.modulePresent then (s.withPort { s.port with state := .resetting true }).setFlag .module
  else s.withPort { s.port with state := .absent }

/-- The latch takes a new position. -/
def State.setLatch (s : State) (l : Latch) : State := { s with host := { s.host with latch := l } }

/-- A write of CONFIG_A (R185). -/
def State.writeConfigA (s : State) (w : Word) : State :=
  match s.host.latch with
  | .awaitA1 => s.setLatch (.awaitB1 (maskA w))
  | .awaitB1 _ => s.setLatch (.awaitB1 (maskA w))
  | .awaitA2 a b => s.setLatch (if maskA w = a then .awaitB2 a b else .awaitA1)
  | .awaitB2 _ _ => s.setLatch .awaitA1
  | .matched => s.hostFault .lateConfig

/-- A write of CONFIG_B (R185). -/
def State.writeConfigB (s : State) (w : Word) : State :=
  match s.host.latch with
  | .awaitA1 => s
  | .awaitB1 a => s.setLatch (.awaitA2 a (maskB w))
  | .awaitA2 _ _ => s.setLatch .awaitA1
  | .awaitB2 a b =>
    if maskB w = b then
      match configOf a b with
      | some c => s.matchConfig c
      | none => s.setLatch .awaitA1
    else s.setLatch .awaitA1
  | .matched => s.hostFault .lateConfig

/-! ### Requests and outcomes -/

/-- The address of a staged record. -/
def Staging.addr (x : Staging) : BlockAddr := x.addrHi ++ x.addrLo

/-- The request of a staged record, or none when it is MALFORMED (R169). -/
def Staging.request (x : Staging) : Option Request :=
  match opOfCode x.op.toNat with
  | some op =>
    if (op = .sync ∧ x.count = 0) ∨
        (op ≠ .sync ∧ 1 ≤ x.count.toNat ∧ x.count.toNat ≤ Limit.blocks ∧ x.chan.toNat ≤ 1) then
      some ⟨x.target, op, x.chan, x.count.toNat, x.addr, x.label⟩
    else none
  | none => none

/-- POST_STATUS shows the result of a post. -/
def State.setPostStatus (s : State) (p : PostStatus) : State := { s with host := { s.host with postStatus := p } }

/-- A post (R169); one that is accepted into an empty Request Queue is an event at which the take conditions are read
(R22). -/
def State.postRequest (s : State) : State :=
  match s.host.staging.request with
  | none => s.setPostStatus .malformed
  | some q =>
    if s.host.requests.length < Limit.requests then
      let u := ({ s with host := { s.host with requests := s.host.requests ++ [q] } }).setPostStatus .accepted
      if s.host.requests.isEmpty then u.retake else u
    else s.setPostStatus .queueFull

/-- A write of OUTCOME_POP (R172, R40). -/
def State.popOutcome (s : State) : State :=
  match s.host.outcomes with
  | [] => s.hostFault .emptyPop
  | _ :: rest => (({ s with host := { s.host with outcomes := rest } }).admitDelivering).retake

/-- A write of FLAGS (R180, R181, R177): ones clear flags; CHAN flags end holds, HOST_FAULT clears its cause. -/
def State.writeFlags (s : State) (w : Word) : State :=
  let host := { s.host with flags := clearFlags s.host.flags w s.host.outcomes.isEmpty }
  let host := if w.getLsbD 7 then { host with cause := .none, repeated := false } else host
  { s with host := host
           chanA := if w.getLsbD 5 then { s.chanA with held := false } else s.chanA
           chanB := if w.getLsbD 6 then { s.chanB with held := false } else s.chanB }

/-- A write of THRESHOLDS (R178). -/
def State.writeThresholds (s : State) (w : Word) : State :=
  { s with chanA := { s.chanA with threshold := w.extractLsb' 0 2 }
           chanB := { s.chanB with threshold := w.extractLsb' 2 2 } }

/-! ### Maintenance load (R174) -/

/-- The step a staged step stands for; kind 0 names none (R191). -/
def StagedStep.step (x : StagedStep) : Option ScriptStep :=
  match x.kind.toNat with
  | 1 => some (.write x.slot x.value)
  | 2 => some (.read x.slot)
  | 3 => some .waitReady
  | _ => none

/-- The script of the first `n` staged steps, or none with a count outside 1-16 or an invalid kind (R174). -/
def scriptOf (steps : Vector StagedStep 16) (n : Nat) : Option (List ScriptStep) :=
  if 1 ≤ n ∧ n ≤ 16 then (steps.toList.take n).mapM StagedStep.step else none

/-- A script is posted or running (R174). -/
def Port.scriptBusy (p : Port) : Bool := decide (p.result = .posted) || decide (p.result = .running)

/-- A write of MAINT_COUNT (R174). -/
def State.loadScript (s : State) (w : Word) : State :=
  if s.port.scriptBusy then s.hostFault .maintBusy
  else
    match scriptOf s.host.steps (bitField w 0 5) with
    | some script =>
      let s := { s with host := { s.host with stepCount := w.extractLsb' 0 5 } }
      s.withPort { s.port with script := some script, spent := false, result := .none, results := [] }
    | none => s.hostFault .badScript

/-! ### Plain words -/

/-- A write into the step staging list, `k` from its first offset 40h (R174). -/
def State.writeStaging (s : State) (k : Nat) (w : Word) : State :=
  let f (x : StagedStep) : StagedStep :=
    if k % 2 = 0 then { x with kind := w.extractLsb' 0 2, slot := w.extractLsb' 4 3 } else { x with value := w }
  if h : k / 2 < 16 then { s with host := { s.host with steps := s.host.steps.set (k / 2) (f s.host.steps[k / 2]) } } else s

/-- A write of a window word that does nothing but keep its value (R168); writes to read-only and unlisted offsets are
ignored. -/
def State.writePlain (s : State) (off : Nat) (w : Word) : State :=
  let setStaging (x : Staging) : State := { s with host := { s.host with staging := x } }
  match off with
  | 0x02 => { s with host := { s.host with commandArg := w } }
  | 0x06 => { s with host := { s.host with enables := w.truncate 8 } }
  | 0x08 => setStaging { s.host.staging with target := Fin.ofNat 16 (bitField w 0 4), op := w.extractLsb' 4 3,
                                             chan := w.extractLsb' 8 2 }
  | 0x09 => setStaging { s.host.staging with count := w.extractLsb' 0 9 }
  | 0x0A => setStaging { s.host.staging with addrHi := w }
  | 0x0B => setStaging { s.host.staging with addrLo := w }
  | 0x0C => setStaging { s.host.staging with label := w }
  | n => if 0x40 ≤ n ∧ n ≤ 0x5F then s.writeStaging (n - 0x40) w else s

end Sys2Proof.Machine
end

