-- ==== Sys2Proof/Machine/HostCommands.lean ====
section
/-! DEFINITION. The meanings of the host's rows: configuration writes, register writes, posts and pops, the commands
of R173, and the channel accesses of R179. -/

namespace Sys2Proof.Machine

/-! ### Gates -/

/-- A host access of a configured part; any other is ignored (R183, R184). -/
def State.hosted (s : State) (f : State → State) : State := if s.configured then f s else s

/-- COMMAND_STATUS shows the result of a command (R173). -/
def State.setCommandStatus (s : State) (c : CommandStatus) : State :=
  { s with host := { s.host with commandStatus := c } }

/-! ### Commands (R173) -/

/-- JOIN_LINK (R134, R173): OFFLINE goes to LISTENING with an empty provisional view and the holder OPEN. -/
def State.joinLink (s : State) : State :=
  match s.member.link with
  | .offline =>
    { s with host := { s.host with commandStatus := .taken }
             member := { s.member with link := .listening, view := 0, openTurns := 0, holder := none, activity := false } }
  | _ => s.setCommandStatus .wrongState

/-- Every record ends WITHDRAWN, in creation order (R108). -/
def State.withdrawAll (s : State) : State :=
  s.exch.inits.foldl (fun s r =>
    match s.initRec r.tag with
    | some x => if x.live then s.endInit x (x.localOutcome .withdrawn) false false else s
    | none => s) s

/-- Each free list holds every area of its pool, rising (R78). -/
def State.fullPools (s : State) : Buffers :=
  match s.host.config with
  | some c => { s.buf with initFree := initPool c, servFree := servPool c }
  | none => s.buf

/-- The module port's work for exchange records ends at entry to LEAVING (R132). -/
def State.portLeaves (s : State) : State :=
  match s.port.state with
  | .serving .priming => s.enterIdle
  | .serving _ => s.enterResetting
  | _ => s

/-- Entry to LEAVING (R108, R189): outcomes WITHDRAWN, the Exchange Table and the Pending Item Queue emptied, every area
free, the port's exchange work ended. -/
def State.enterLeaving (s : State) : State :=
  let s := s.withdrawAll.portLeaves
  ({ s with
    member := { s.member with link := .leaving }
    sched := { s.sched with items := [], loopItems := [] }
    exch := { s.exch with inits := [], delivering := [], targets := [] }
    buf := s.fullPools }).grant

/-- LEAVE_LINK (R173, R189). -/
def State.leaveLink (s : State) : State :=
  match s.member.link with
  | .listening => ({ s with member := s.member.offline }).setCommandStatus .taken
  | .joining => ({ s with member := s.member.offline }).setCommandStatus .taken
  | .member =>
    if s.host.outcomes.length + s.exch.inits.length ≤ Limit.outcomes then s.enterLeaving.setCommandStatus .taken
    else s.setCommandStatus .outcomeFull
  | _ => s.setCommandStatus .wrongState

/-- The module state after a station reset (R132). -/
def PortState.stationReset : PortState → PortState
  | .absent => .absent
  | .idle => .idle
  | .resetting pulse => .resetting pulse
  | .starting ms => .starting ms
  | .serving .priming => .idle
  | _ => .resetting true

/-- The module port after a station reset (R132): script, result, result list and capture go, the capacity stays; work in
flight ends where the port enters RESETTING, and an access of STARTING goes on. -/
def Port.stationReset (p : Port) : Port :=
  let st := p.state.stationReset
  { p with
    state := st
    access := match st with
      | .starting _ => p.access
      | _ => none
    transfer := none
    attention := none
    capture := none
    watchdog := none
    script := none
    spent := false
    result := .none
    results := [] }

/-- The Host Port after a station reset (R182). -/
def HostPort.stationReset (h : HostPort) : HostPort :=
  { h with requests := [], outcomes := [], postStatus := .none, commandStatus := .taken, flags := 0, cause := .none,
           repeated := false }

/-- STATION_RESET (R188). -/
def State.stationReset (s : State) : State :=
  { s with
    host := s.host.stationReset
    chanA := Chan.atReset s.chanA.threshold
    chanB := Chan.atReset s.chanB.threshold
    member := s.member.offline
    line := { s.line with tx := none }
    sched := ⟨[], [], wrapPosition⟩
    exch := { s.exch with inits := [], delivering := [], targets := [], lastTag := 7 }
    buf := s.fullPools
    port := s.port.stationReset }

/-- CANCEL of a queued request (R101): it leaves the Request Queue, its outcome enters the Outcome Queue, and when it was
the head the take conditions are read again behind that outcome (log 13). -/
def State.cancelRequest (s : State) (q : Request) : State :=
  let removed := (s.setRequests (s.host.requests.eraseP (fun x => decide (x.label = q.label)))).pushOutcome
    (q.outcomeRec .cancelled)
  if s.host.requests.head? = some q then removed.retake else removed

/-- CANCEL of a label (R99): the oldest live record, else the Request Queue entry nearest the head (R100, R101). -/
def State.cancelLabel (s : State) (label : Label) : State :=
  match s.exch.inits.find? (fun r => decide (r.label = label) && r.live) with
  | some r => (s.endAndTake r (r.localOutcome .cancelled) true false).setCommandStatus .taken
  | none =>
    match s.host.requests.find? (fun q => decide (q.label = label)) with
    | some q =>
      if s.host.outcomes.length < Limit.outcomes then (s.cancelRequest q).setCommandStatus .taken
      else s.setCommandStatus .outcomeFull
    | none => s.setCommandStatus .noMatch

/-- RUN_MAINT, judged in the order of R174; a taken one posts the script for the grant (R121). -/
def State.runMaint (s : State) : State :=
  if s.port.state = .absent ∨ s.port.state = .failed then s.setCommandStatus .notAvailable
  else if s.port.scriptBusy then s.setCommandStatus .busy
  else if s.port.script.isNone ∨ s.port.spent then s.setCommandStatus .noScript
  else ((s.withPort { s.port with result := .posted }).grant).setCommandStatus .taken

/-- A write of COMMAND with a code (13 §13.2); 0, 6 and 7 name no command and are refused WRONG_STATE (R173, R191). -/
def State.writeCommand (s : State) (code : BitVec 3) : State :=
  match code.toNat with
  | 1 => s.joinLink
  | 2 => s.leaveLink
  | 3 => s.stationReset
  | 4 => s.cancelLabel s.host.commandArg
  | 5 => s.runMaint
  | _ => s.setCommandStatus .wrongState

/-- A write of the window word at an offset (R168, 13 §13.2), offsets 02h upward. -/
def State.writeWindow (s : State) (off : BitVec 7) (w : Word) : State :=
  match off.toNat with
  | 0x03 => s.writeCommand (w.extractLsb' 0 3)
  | 0x05 => s.writeFlags w
  | 0x0D => s.postRequest
  | 0x15 => s.popOutcome
  | 0x1E => s.writeThresholds w
  | 0x28 => s.loadScript w
  | n => s.writePlain n w

/-! ### Channel accesses (R75, R179) -/

/-- The word a read access gives the host. -/
def State.giveWord (s : State) (w : Word) : State := { s with host := { s.host with hostData := w } }

/-- A stray access (R179): a read returns 0, a write is ignored, and HOST_FAULT is set (R181). -/
def State.strayAccess (s : State) (acc : Access) : State :=
  match acc with
  | .read => (s.giveWord 0).hostFault .strayAccess
  | .write _ => s.hostFault .strayAccess

/-- The last word of a block of a READ head has reached the host (R73): the slot is EMPTY, the counts rise, a CREDIT is
queued (R85), and the data may be complete (R36). -/
def State.drainDone (s : State) (r : InitRec) (block : Nat) : State :=
  let r' := { r with
    ring := r.ring.map (fun g => g.setState block .empty)
    flow := match r.flow with
      | .receiver c => .receiver { c with consumed := c.consumed + 1 }
      | f => f
    moved := r.moved + 1 }
  let s := (s.setInit r').offerInit r.tag .credit
  if r'.flow.consumed = r.count then
    match s.initRec r.tag with
    | some x => s.completeInit x
    | none => s
  else s

/-- A read access of a READ head whose current slot holds words: word `w` of the block is given (R75, R179). -/
def State.drainWord (s : State) (r : InitRec) (slot : Slot) (block w : Nat) : State :=
  let s := s.giveWord (s.buf.ram.readWord slot.area w)
  if w + 1 < Limit.blockWords then
    s.setInit { r with ring := r.ring.map (fun g => g.setState block (.draining block (w + 1))) }
  else s.drainDone r block

/-- A write access of a WRITE head whose current slot has room: word `w` of the block is stored (R75, R179); the 256th
completes it, its slot FULL, or EMPTY when base has passed it (R69, R71). -/
def State.fillWord (s : State) (r : InitRec) (slot : Slot) (block w : Nat) (v : Word) : State :=
  let s := { s with buf := { s.buf with ram := s.buf.ram.writeWord slot.area w v } }
  if w + 1 < Limit.blockWords then
    s.setInit { r with ring := r.ring.map (fun g => g.setState block (.filling block (w + 1))) }
  else
    s.setInit { r with
      ring := r.ring.map (fun g => g.setState block (if block < r.flow.base then .empty else .full block))
      moved := r.moved + 1 }

/-- The block a channel mover works on (R75). -/
def InitRec.currentBlock (r : InitRec) : Nat := if r.op = .read then r.flow.consumed else r.moved

/-- One acknowledged access on a channel: it moves one word, or it is stray, also where the current slot offers words but
no block remains (R75, R179). -/
def State.accessChannel (s : State) (c : Channel) (acc : Access) : State :=
  match s.channelHead c with
  | some r =>
    if (s.chan c).held ∨ r.offered = 0 ∨ r.remaining = 0 then s.strayAccess acc
    else
      match r.ring.bind (fun g => g.slot r.currentBlock), r.op, acc with
      | some slot, .read, .read =>
        match slot.st with
        | .draining _ w => s.drainWord r slot r.currentBlock w
        | _ => s.drainWord r slot r.currentBlock 0
      | some slot, .write, .write v =>
        match slot.st with
        | .filling _ w => s.fillWord r slot r.currentBlock w v
        | _ => s.fillWord r slot r.currentBlock 0 v
      | _, _, _ => s.strayAccess acc
  | none => s.strayAccess acc

/-! ### Meanings -/

/-- CONFIG_A_WRITE (R185). -/
def execConfigAWrite (w : Word) (s : State) : Host.Outcome State Fault Refusal :=
  .next (if s.inReset then s else s.writeConfigA w)

/-- CONFIG_B_WRITE (R185, R187). -/
def execConfigBWrite (w : Word) (s : State) : Host.Outcome State Fault Refusal :=
  .next (if s.inReset then s else s.writeConfigB w)

/-- REGISTER_WRITE (R168): an offset whose write is a row of its own acts as that row (log 26). -/
def execRegisterWrite (off : BitVec 7) (w : Word) (s : State) : Host.Outcome State Fault Refusal :=
  if off = 0 then .next (if s.inReset then s else s.writeConfigA w)
  else if off = 1 then .next (if s.inReset then s else s.writeConfigB w)
  else .next (s.hosted fun s => s.writeWindow off w)

/-- POST (R169). -/
def execPost (s : State) : Host.Outcome State Fault Refusal := .next (s.hosted State.postRequest)

/-- OUTCOME_POP (R172). -/
def execOutcomePop (s : State) : Host.Outcome State Fault Refusal := .next (s.hosted State.popOutcome)

/-- FLAGS_WRITE (R180). -/
def execFlagsWrite (w : Word) (s : State) : Host.Outcome State Fault Refusal := .next (s.hosted fun s => s.writeFlags w)

/-- THRESHOLDS_WRITE (R178). -/
def execThresholdsWrite (w : Word) (s : State) : Host.Outcome State Fault Refusal :=
  .next (s.hosted fun s => s.writeThresholds w)

/-- MAINT_LOAD (R174). -/
def execMaintLoad (w : Word) (s : State) : Host.Outcome State Fault Refusal := .next (s.hosted fun s => s.loadScript w)

/-- JOIN_LINK (R133, R134). -/
def execJoinLink (s : State) : Host.Outcome State Fault Refusal := .next (s.hosted State.joinLink)

/-- LEAVE_LINK (R189). -/
def execLeaveLink (s : State) : Host.Outcome State Fault Refusal := .next (s.hosted State.leaveLink)

/-- STATION_RESET (R188). -/
def execStationReset (s : State) : Host.Outcome State Fault Refusal := .next (s.hosted State.stationReset)

/-- CANCEL (R99): the label is the one COMMAND_ARG holds. -/
def execCancel (s : State) : Host.Outcome State Fault Refusal :=
  .next (s.hosted fun s => s.cancelLabel s.host.commandArg)

/-- RUN_MAINT (R174). -/
def execRunMaint (s : State) : Host.Outcome State Fault Refusal := .next (s.hosted State.runMaint)

/-- COMMAND_INVALID_CODE (R173, R191): a code that names a command acts as that command (log 26). -/
def execCommandInvalidCode (code : BitVec 3) (s : State) : Host.Outcome State Fault Refusal :=
  .next (s.hosted fun s => s.writeCommand code)

/-- CHANNEL_ACCESS (R179): while UNCONFIGURED, and while a hardware reset lasts, a read gives 0 and a write is ignored,
with no flag (R183, R184). -/
def execChannelAccess (c : Channel) (acc : Access) (s : State) : Host.Outcome State Fault Refusal :=
  .next (if s.configured then s.accessChannel c acc
    else match acc with
      | .read => s.giveWord 0
      | .write _ => s)

/-- TAKE_REQUEST (R22): the head is taken where its conditions hold, and the next heads after it. -/
def execTakeRequest (s : State) : Host.Outcome State Fault Refusal := .next (s.hosted State.retake)

end Sys2Proof.Machine
end

