-- ==== Sys2Proof/Machine/LinkEvents.lean ====
section
/-! DEFINITION. The meanings of the line's rows: frames, silences, the founding wait and the end of the station's own
transmission (chapter 8, 9). -/

namespace Sys2Proof.Machine

/-- INTACT_FRAME_RECEIVED (R143): the bytes heard; bytes that fail a check of R157 are a corrupt frame (log 10). -/
def execIntactFrameReceived (bytes : List Byte) (s : State) : Host.Outcome State Fault Refusal :=
  .next (if s.configured then s.frameHeard bytes else s)

/-- CORRUPT_FRAME (R142). -/
def execCorruptFrame (s : State) : Host.Outcome State Fault Refusal :=
  .next (if s.configured ∧ s.line.tx.isNone then s.receiverIdle.corrupt else s)

/-- RECEIVED_FRAME_START (R141, R142): the silence timer stops until the frame ends, and the mark is set. -/
def execReceivedFrameStart (s : State) : Host.Outcome State Fault Refusal :=
  .next (if s.configured ∧ s.line.tx.isNone then ({ s with line := { s.line with receiving := true } }).corrupt else s)

/-- SILENCE_EVENT (R145, R146), while the silence timer runs (R141). -/
def execSilenceEvent (s : State) : Host.Outcome State Fault Refusal :=
  .next (if s.silenceTimerRuns then s.silence else s)

/-- The next silence event is the third miss of station `n` in a row (R145, R149). -/
def State.thirdMissDue (s : State) (n : Station) : Bool :=
  s.silenceTimerRuns && decide (s.member.holder = some n) && decide (n ≠ s.own) && !s.member.activity &&
    (decide (s.member.link = .member) || decide (s.member.link = .leaving)) && s.present n &&
    decide (Limit.misses ≤ s.member.roster[n].misses + 1)

/-- MISSES_REACH_3 (R149): the silence event that is the third miss of a peer removes it, and the holder passes on. -/
def execMissesReach3 (n : Station) (s : State) : Host.Outcome State Fault Refusal :=
  .next (if s.thirdMissDue n then s.silence else s)

/-- The OPEN turn that is about to begin is the one at which a JOINING station sends its JOIN again (R140). -/
def State.joinResendDue (s : State) : Bool :=
  decide (s.member.link = .joining) && s.line.tx.isNone && s.member.holder.isSome &&
    decide (s.member.openTurns + 1 = joinResendTurn s.own)

/-- JOIN_RESEND (R140): that OPEN turn begins. -/
def execJoinResend (s : State) : Host.Outcome State Fault Refusal :=
  .next (if s.joinResendDue then s.moveHolder none else s)

/-- FOUNDING_WAIT_EXPIRY (R136, R137). -/
def execFoundingWaitExpiry (s : State) : Host.Outcome State Fault Refusal :=
  .next (if s.foundingWaitRuns then s.found else s)

/-- END_OF_TRANSMISSION (R165). -/
def execEndOfTransmission (s : State) : Host.Outcome State Fault Refusal := .next s.endTransmission

end Sys2Proof.Machine
end

