-- ==== Sys2Proof/Machine/ModuleEvents.lean ====
section
/-! DEFINITION. The meanings of the module's rows: the grant, the completion of slot accesses, XFER, ATTN, the
watchdog, and the timers of the reset cycle (chapter 7). -/

namespace Sys2Proof.Machine

/-- MODULE_GRANT (R121). -/
def execModuleGrant (s : State) : Host.Outcome State Fault Refusal := .next s.grant

/-- SLOT_ACCESS_COMPLETE (R115): the module answers the slot access in flight. -/
def execSlotAccessComplete (v : Word) (s : State) : Host.Outcome State Fault Refusal :=
  .next (if s.port.access.isSome then s.slotDone v else s)

/-- BLOCK_TRANSFER_BEGIN (R122, R123): where a block transfer may begin. -/
def execBlockTransferBegin (s : State) : Host.Outcome State Fault Refusal :=
  .next (if s.transferMayBegin then s.beginTransfer else s)

/-- XFER_SHOWN (R122, R131). -/
def execXferShown (level : Bool) (s : State) : Host.Outcome State Fault Refusal := .next (s.xferLevel level)

/-- ATTN_RISE (R124). -/
def execAttnRise (status detail : Word) (s : State) : Host.Outcome State Fault Refusal := .next (s.attn status detail)

/-- WATCHDOG_EXPIRY (R125), while the watchdog runs. -/
def execWatchdogExpiry (s : State) : Host.Outcome State Fault Refusal :=
  .next (if s.port.watchdog.isSome then s.watchdogExpires else s)

/-- MRST_RELEASE (R118, R128), while the 100 us timer runs. -/
def execMrstRelease (s : State) : Host.Outcome State Fault Refusal :=
  .next (if s.port.state = .resetting true then s.releaseReset else s)

/-- STARTING_TIMEOUT (R118, R119): 8 s in STARTING without READY. -/
def execStartingTimeout (s : State) : Host.Outcome State Fault Refusal :=
  match s.port.state with
  | .starting _ => .next s.enterFailed
  | _ => .next s

end Sys2Proof.Machine
end

