-- ==== Sys2Proof/Machine/ResetEvents.lean ====
section
/-! DEFINITION. The meanings of the rows of RESET_N (R183). -/

namespace Sys2Proof.Machine

/-- HARDWARE_RESET (R183): every block takes its initial state and the reset lasts; the words of the packet RAM are not
cleared (R58), MXFER stays at the level the module shows, which the port follows at all times (R116), and the queue of
waiting commands is the model's own. -/
def execHardwareReset (s : State) : Host.Outcome State Fault Refusal :=
  .next { State.reset with pending := s.pending, inReset := true, buf := { State.reset.buf with ram := s.buf.ram }
                           port := { State.reset.port with xfer := s.port.xfer } }

/-- RESET_N_RELEASE (R183): the part stands in its initial state. -/
def execResetNRelease (s : State) : Host.Outcome State Fault Refusal := .next { s with inReset := false }

end Sys2Proof.Machine
end

