-- ==== Sys2Proof/Machine/WatchEvents.lean ====
section
/-! DEFINITION. The meanings of the rows that stand for one watch of a record: its count comes to its limit at an own
turn, or its lifetime runs out. Each does that part of the larger event alone, where its condition holds (log 4). -/

namespace Sys2Proof.Machine

/-- A record in ASKING whose count of own turns comes to the send of an ASK (R10). -/
def InitRec.askDue (r : InitRec) : Option Nat :=
  match r.state with
  | .asking sends turns => if Limit.askTurns ≤ turns + 1 then some sends else none
  | _ => none

/-- ASK_RESEND (R28): the third own turn since the last send, with sends left. -/
def execAskResend (t : Tag) (s : State) : Host.Outcome State Fault Refusal :=
  match s.initRec t with
  | some r =>
    match r.askDue with
    | some sends =>
      if sends < Limit.askSends then
        .next ((s.mapInit t (fun x => { x with state := .asking (sends + 1) 0 })).offerAskOnce t)
      else .next s
    | none => .next s
  | none => .next s

/-- NO_REPLY (R29): the third own turn since the third send. -/
def execNoReply (t : Tag) (s : State) : Host.Outcome State Fault Refusal :=
  match s.initRec t with
  | some r =>
    match r.askDue with
    | some sends =>
      if Limit.askSends ≤ sends then .next (s.endAndTake r (r.localOutcome .noReply) true false) else .next s
    | none => .next s
  | none => .next s

/-- The lifetime of a record expires (R20). -/
def State.expire (s : State) (t : Tag) : State :=
  match s.initRec t with
  | some r => if r.live ∧ r.lifetime.isSome then s.endAndTake r (r.localOutcome .expired) true false else s
  | none => s

/-- LIFETIME_EXPIRY (R20). -/
def execLifetimeExpiry (t : Tag) (s : State) : Host.Outcome State Fault Refusal := .next (s.expire t)

/-- The stall watch is at its limit (R90). -/
def SendCounters.stallDue (c : SendCounters) : Bool := decide (c.base < c.next) && decide (Limit.stallTurns ≤ c.stall + 1)

/-- STALL_REWIND (R90): the fourth own turn without a CREDIT, with rewinds left. -/
def execStallRewind (p : Position) (s : State) : Host.Outcome State Fault Refusal :=
  match p.role with
  | .initiator =>
    match s.initRec p.tag with
    | some r =>
      match r.flow with
      | .sender c =>
        if p.station = s.own ∧ c.stallDue ∧ c.rewinds + 1 < Limit.rewinds then .next (s.initStallWatch r) else .next s
      | _ => .next s
    | none => .next s
  | .target =>
    match s.targetRec p.station p.tag with
    | some r =>
      match r.flow with
      | .sender c => if c.stallDue ∧ c.rewinds + 1 < Limit.rewinds then .next (s.targetStallWatch r) else .next s
      | _ => .next s
    | none => .next s

/-- The next rewind of a sender is its eighth in a row (R91, R92). -/
def SendCounters.lastRewindDue (c : SendCounters) : Bool := decide (c.base < c.next) && decide (Limit.rewinds ≤ c.rewinds + 1)

/-- REWIND_LIMIT_INITIATOR (R91): the eighth rewind of an initiator WRITE. -/
def execRewindLimitInitiator (t : Tag) (s : State) : Host.Outcome State Fault Refusal :=
  match s.initRec t with
  | some r =>
    match r.flow with
    | .sender c =>
      if c.lastRewindDue ∧ (r.state = .waiting ∨ r.state = .moving) then
        let r' := { r with flow := .sender { c with rewinds := Limit.rewinds } }
        .next ((s.setInit r').rewindLimitInit r')
      else .next s
    | _ => .next s
  | none => .next s

/-- REWIND_LIMIT_TARGET (R92): the eighth rewind of a target READ. -/
def execRewindLimitTarget (p : Station) (t : Tag) (s : State) : Host.Outcome State Fault Refusal :=
  match s.targetRec p t with
  | some r =>
    match r.flow with
    | .sender c =>
      if c.lastRewindDue ∧ (r.state = .active ∨ r.state = .finishing) then
        let r' := { r with flow := .sender { c with rewinds := Limit.rewinds } }
        .next ((s.mapTarget p t (fun _ => r')).rewindLimitTarget r')
      else .next s
    | _ => .next s
  | none => .next s

/-- PRIMING_CREDIT (R50): an own turn at which the priming count reaches 4, 8, 12, 16, 20, 24 or 28. -/
def execPrimingCredit (s : State) : Host.Outcome State Fault Refusal :=
  match s.activeRec with
  | some r =>
    match r.priming, r.id with
    | some n, some i =>
      if n + 1 < Limit.priming ∧ (n + 1) % Limit.primingCredit = 0 then
        .next ((s.mapTarget i.peer i.tag (fun x => { x with priming := some (n + 1) })).offerTarget i.peer i.tag .credit)
      else .next s
    | _, _ => .next s
  | none => .next s

/-- PRIMING_LIMIT (R50): the own turn at which the priming count reaches 32. -/
def execPrimingLimit (s : State) : Host.Outcome State Fault Refusal :=
  match s.activeRec with
  | some r =>
    match r.priming with
    | some n => if Limit.priming ≤ n + 1 then .next (s.primingEnds r) else .next s
    | none => .next s
  | none => .next s

/-- STARVATION_LIMIT (R126): the own turn at which the starvation count reaches 64. -/
def execStarvationLimit (s : State) : Host.Outcome State Fault Refusal :=
  match s.activeRec with
  | some r =>
    match r.starvation with
    | some n => if Limit.starvation ≤ n + 1 then .next (s.endByWatch .starved) else .next s
    | none => .next s
  | none => .next s

/-- OUTCOME_RESEND (R54): an own turn at which a SETTLING record queues its OUTCOME. -/
def execOutcomeResend (p : Station) (t : Tag) (s : State) : Host.Outcome State Fault Refusal :=
  match s.targetRec p t with
  | some r =>
    match r.state, r.id with
    | .settling firstOwed n, some i =>
      if firstOwed ∨ Limit.resend ≤ n + 1 then
        .next (((s.resendWatch i firstOwed n).1).offerTargetOnce p t .outcome)
      else .next s
    | _, _ => .next s
  | none => .next s

end Sys2Proof.Machine
end

