-- ==== Sys2Proof/Machine/Dispatch.lean ====
section
/-! DEFINITION. One arm per command or event of spec/opcode_table.json, in the table's order. -/

namespace Sys2Proof.Machine

/-- The effect of a command or event on everything but the queue of waiting commands. -/
def exec (i : Instr) (s : State) : Host.Outcome State Fault Refusal :=
  match i with
  | .hardwareReset => Sys2Proof.Machine.execHardwareReset s
  | .configAWrite w => Sys2Proof.Machine.execConfigAWrite w s
  | .configBWrite w => Sys2Proof.Machine.execConfigBWrite w s
  | .registerWrite off w => Sys2Proof.Machine.execRegisterWrite off w s
  | .post => Sys2Proof.Machine.execPost s
  | .outcomePop => Sys2Proof.Machine.execOutcomePop s
  | .flagsWrite w => Sys2Proof.Machine.execFlagsWrite w s
  | .thresholdsWrite w => Sys2Proof.Machine.execThresholdsWrite w s
  | .maintLoad w => Sys2Proof.Machine.execMaintLoad w s
  | .joinLink => Sys2Proof.Machine.execJoinLink s
  | .leaveLink => Sys2Proof.Machine.execLeaveLink s
  | .stationReset => Sys2Proof.Machine.execStationReset s
  | .cancel => Sys2Proof.Machine.execCancel s
  | .runMaint => Sys2Proof.Machine.execRunMaint s
  | .commandInvalidCode code => Sys2Proof.Machine.execCommandInvalidCode code s
  | .channelAccess ch acc => Sys2Proof.Machine.execChannelAccess ch acc s
  | .takeRequest => Sys2Proof.Machine.execTakeRequest s
  | .intactFrameReceived bytes => Sys2Proof.Machine.execIntactFrameReceived bytes s
  | .corruptFrame => Sys2Proof.Machine.execCorruptFrame s
  | .silenceEvent => Sys2Proof.Machine.execSilenceEvent s
  | .missesReach3 n => Sys2Proof.Machine.execMissesReach3 n s
  | .joinResend => Sys2Proof.Machine.execJoinResend s
  | .foundingWaitExpiry => Sys2Proof.Machine.execFoundingWaitExpiry s
  | .endOfTransmission => Sys2Proof.Machine.execEndOfTransmission s
  | .askResend t => Sys2Proof.Machine.execAskResend t s
  | .noReply t => Sys2Proof.Machine.execNoReply t s
  | .lifetimeExpiry t => Sys2Proof.Machine.execLifetimeExpiry t s
  | .stallRewind p => Sys2Proof.Machine.execStallRewind p s
  | .rewindLimitInitiator t => Sys2Proof.Machine.execRewindLimitInitiator t s
  | .rewindLimitTarget n t => Sys2Proof.Machine.execRewindLimitTarget n t s
  | .primingCredit => Sys2Proof.Machine.execPrimingCredit s
  | .primingLimit => Sys2Proof.Machine.execPrimingLimit s
  | .starvationLimit => Sys2Proof.Machine.execStarvationLimit s
  | .outcomeResend n t => Sys2Proof.Machine.execOutcomeResend n t s
  | .moduleGrant => Sys2Proof.Machine.execModuleGrant s
  | .slotAccessComplete v => Sys2Proof.Machine.execSlotAccessComplete v s
  | .blockTransferBegin => Sys2Proof.Machine.execBlockTransferBegin s
  | .xferShown level => Sys2Proof.Machine.execXferShown level s
  | .attnRise status detail => Sys2Proof.Machine.execAttnRise status detail s
  | .watchdogExpiry => Sys2Proof.Machine.execWatchdogExpiry s
  | .mrstRelease => Sys2Proof.Machine.execMrstRelease s
  | .startingTimeout => Sys2Proof.Machine.execStartingTimeout s
  | .receivedFrameStart => Sys2Proof.Machine.execReceivedFrameStart s
  | .resetNRelease => Sys2Proof.Machine.execResetNRelease s

end Sys2Proof.Machine
end

