-- ==== Sys2Proof/Machine/Time.lean ====
section
/-! DEFINITION. One tick of the 1 ms timebase (R20, R118, R125, log 1): the lifetimes count down, the watchdog and the
wait of STARTING count up. -/

namespace Sys2Proof.Machine

/-- A record whose lifetime runs out at the coming tick (R20). -/
def InitRec.lastMs (r : InitRec) : Bool :=
  match r.lifetime with
  | some n => decide (n ≤ 1)
  | none => false

/-- The lifetimes count down; those that run out expire in creation order (R20, log 20). -/
def State.tickLifetimes (s : State) : State :=
  let due := s.exch.inits.filter InitRec.lastMs
  let s := { s with exch := { s.exch with
    inits := s.exch.inits.map (fun r => { r with lifetime := r.lifetime.map (fun n => n - 1) }) } }
  due.foldl (fun s r => s.expire r.tag) s

/-- The watchdog counts, and expires at 2 s (R125). -/
def State.tickWatchdog (s : State) : State :=
  match s.port.watchdog with
  | some n =>
    let s := s.withPort { s.port with watchdog := some (n + 1) }
    if n + 1 < Limit.watchdogMs then s else s.watchdogExpires
  | none => s

/-- The wait for READY counts, and ends at 8 s (R118). -/
def State.tickStarting (s : State) : State :=
  match s.port.state with
  | .starting n =>
    let s := s.withPort { s.port with state := .starting (n + 1) }
    if n + 1 < Limit.startingMs then s else s.enterFailed
  | _ => s

/-- A tick of the 1 ms timebase. -/
def State.tick (s : State) : State := if s.timebase then s.tickLifetimes.tickWatchdog.tickStarting else s

end Sys2Proof.Machine
end

