-- ==== Sys2Proof/Safety.lean ====
section
/-! DEFINITION. What every step of the station keeps: the canonical form of the packet RAM, the limits of the queues and of
the Exchange Table, the sound roster, and the account of the areas; and
which frames can be laid out on the line. -/

namespace Sys2Proof.Machine

/-! ### Packet RAM and queues -/

/-- The packet RAM stands in its canonical form (log 5). -/
def State.ramCanonical (s : State) : Prop := s.buf.ram.wf = true

/-- The queues hold no more than their capacities (R159, R170, R171). -/
def State.queuesBounded (s : State) : Prop :=
  s.host.requests.length ≤ 8 ∧ s.host.outcomes.length ≤ 16 ∧ s.sched.items.length ≤ 32

/-! ### Exchange Table -/

/-- The key of a target record (01 §1.1); none in DETACHED. -/
def TargetRec.key (r : TargetRec) : Option (Station × Tag) := r.id.map (fun i => (i.peer, i.tag))

/-- The limits of the Exchange Table (R3, R17): at most 8 initiator records with distinct tags, at most 16 target records
with distinct keys, and no key in DETACHED alone. -/
def State.recordsLimited (s : State) : Prop :=
  s.exch.inits.length ≤ 8 ∧ (s.exch.inits.map InitRec.tag).Nodup ∧
  s.exch.targets.length ≤ 16 ∧ (s.exch.targets.filterMap TargetRec.key).Nodup ∧
  ∀ r ∈ s.exch.targets, r.state = .detached ↔ r.id = none

/-- The link state and what depends on it: records exist and items wait only while the station is MEMBER (R4, R159); a LEAVE
frame is on the line only in LEAVING (R148); before the latch has matched the station is UNCONFIGURED and transmits nothing
(R184), and there is a configuration from the match on (R187). -/
def State.linkSound (s : State) : Prop :=
  (s.member.link ≠ .member → s.exch.inits = [] ∧ s.exch.targets = [] ∧ s.sched.items = []) ∧
  (s.line.tx.map Transmission.kind = some .leave → s.member.link = .leaving) ∧
  (s.host.latch ≠ .matched → s.member.link = .unconfigured ∧ s.line.tx.map Transmission.kind = none) ∧
  (s.host.config = none ↔ s.host.latch ≠ .matched)

/-! ### Roster -/

/-- An entry of the roster is within its ranges (R147): misses 0 to 2, and an absent entry is clear. -/
def RosterEntry.sound (e : RosterEntry) : Prop := e.misses ≤ 2 ∧ (e.present = false → e.misses = 0 ∧ e.ready = false)

/-- Every entry of the roster is sound. -/
def State.rosterSound (s : State) : Prop := ∀ n : Station, s.member.roster[n].sound

/-! ### Areas -/

/-- The areas in the rings of the initiator records. -/
def State.initRingAreas (s : State) : List AreaNo := s.exch.inits.flatMap (fun r => ringAreas r.ring)

/-- The areas in the rings of the target records. -/
def State.targetRingAreas (s : State) : List AreaNo := s.exch.targets.flatMap (fun r => ringAreas r.ring)

/-- The account of the areas (R61): free list and rings of a role hold together each area of its pool once; before the
match there is neither (R59). -/
def State.areasAccounted (s : State) : Prop :=
  match s.host.config with
  | some c =>
    (s.buf.initFree ++ s.initRingAreas).Perm (initPool c) ∧ (s.buf.servFree ++ s.targetRingAreas).Perm (servPool c)
  | none => s.buf.initFree = [] ∧ s.initRingAreas = [] ∧ s.buf.servFree = [] ∧ s.targetRingAreas = []

/-- Records that hold no ring (R65), and the latch that has matched once the part is configured (R185): what the account of
the areas rests on beside the limits of the Exchange Table. -/
def State.ringsHeld (s : State) : Prop :=
  (∀ r ∈ s.exch.inits, r.live = false → r.ring = none) ∧ (∀ r ∈ s.exch.targets, r.state = .queued → r.ring = none) ∧
  (s.host.config = none ↔ s.host.latch ≠ .matched)

/-- The areas of the packet RAM are accounted for, with what that rests on (R61, R65, R3). -/
def State.areasSafe (s : State) : Prop := s.recordsLimited ∧ s.ringsHeld ∧ s.areasAccounted

/-! ### What can be laid out on the line -/

/-- The numbers of an item fit their fields (13 §13.1). -/
def ItemBody.fits : ItemBody → Prop
  | .ask _ count _ => count < 65536
  | .credit _ next limit => next < 65536 ∧ limit < 65536
  | .outcome _ done _ _ => done < 65536
  | _ => True

/-- A frame that can be laid out: a kind that is sent, with the payload that its kind calls for, and numbers that fit their fields
(R155, R156). -/
def Frame.fits (f : Frame) : Prop :=
  match f.kind, f.payload with
  | .pass, .none => True
  | .join, .none => True
  | .leave, .none => True
  | .control, .items l => 1 ≤ l.length ∧ l.length ≤ Limit.turnItems ∧ ∀ i ∈ l, i.body.fits
  | .data, .data d => d.index < 256 ∧ d.bytes.length = Limit.blockBytes
  | _, _ => False

end Sys2Proof.Machine
end

