-- ==== Sys2Proof/Certificates/Slice0/Obligations.lean ====
section
/-! DEFINITION. The statements for the provers: what each row of the table does, from the numbered rules of spec/, and what every step
keeps. -/

open Sys2Proof Sys2Proof.Machine

/-! ### Steps -/

/-- A step takes the command at the front of the queue and runs it on the queue's rest. The queue of waiting commands is the model's own
(log 28, DESIGN CHOICE). -/
def Obligations.StepRunsFrontCommand : Prop :=
  ∀ (c : Instr) (rest : List Instr) (s : State),
    step { s with pending := c :: rest } = exec c { s with pending := rest }

/-- No command stops the part, and none touches the queue of waiting commands. -/
def Obligations.CommandsCompleteAndKeepTheQueue : Prop :=
  ∀ (c : Instr) (s : State), ∃ t, exec c s = .next t ∧ t.pending = s.pending

/-- What a step does on an empty queue: one tick of the 1 ms timebase (log 1, DESIGN CHOICE). Nothing while the timebase is
stopped; lifetimes fall by one and the one that runs out expires (R20); the watchdog rises by one and expires at 2000 (R125);
the wait of STARTING rises by one and ends at 8000 (R118). The whole tick, whatever records stand and whatever else runs: every
lifetime falls by one; those that have reached 0 expire one after another in creation order, each as by LIFETIME_EXPIRY, and none of
them touches the module port; then a running watchdog rises, and at 2000 expires as by WATCHDOG_EXPIRY; then the wait of STARTING
rises, and at 8000 ends as by STARTING_TIMEOUT. That order is the model's (log 20, DESIGN CHOICE). -/
def Obligations.EmptyQueueTicks : Prop :=
  ∀ s : State, s.pending = [] →
    (s.timebase = false → step s = .next s) ∧
    (s.timebase = true →
      (∀ r ∈ s.exch.inits, ∀ n, r.lifetime = some n → 2 ≤ n) → s.port.watchdog = none → (∀ n, s.port.state ≠ .starting n) →
        step s = .next { s with exch := { s.exch with
          inits := s.exch.inits.map (fun r => { r with lifetime := r.lifetime.map (fun n => n - 1) }) } }) ∧
    (∀ (r : InitRec) (n : Nat), s.timebase = true → s.exch.inits = [r] → r.lifetime = some n → n ≤ 1 → s.port.watchdog = none →
      (∀ n, s.port.state ≠ .starting n) →
        step s = exec (.lifetimeExpiry r.tag) { s with exch := { s.exch with inits := [{ r with lifetime := some (n - 1) }] } }) ∧
    (∀ n : Nat, s.timebase = true → s.exch.inits = [] → s.port.watchdog = some n → (∀ n, s.port.state ≠ .starting n) →
      (n + 1 < 2000 → step s = .next (s.withPort { s.port with watchdog := some (n + 1) })) ∧
      (2000 ≤ n + 1 → step s = exec .watchdogExpiry (s.withPort { s.port with watchdog := some (n + 1) }))) ∧
    (∀ n : Nat, s.timebase = true → s.exch.inits = [] → s.port.watchdog = none → s.port.state = .starting n →
      (n + 1 < 8000 → step s = .next (s.withPort { s.port with state := .starting (n + 1) })) ∧
      (8000 ≤ n + 1 → step s = exec .startingTimeout (s.withPort { s.port with state := .starting (n + 1) }))) ∧
    (s.timebase = true →
      let fallen : State := { s with exch := { s.exch with
        inits := s.exch.inits.map (fun r => { r with lifetime := r.lifetime.map (fun n => n - 1) }) } }
      let due : List Tag := (fallen.exch.inits.filter (fun r => decide (r.lifetime = some 0))).map InitRec.tag
      ∃ u v : State,
        due.foldl (fun (o : Host.Outcome State Fault Refusal) t => match o with
          | .next x => exec (.lifetimeExpiry t) x
          | x => x) (.next fallen) = .next u ∧
        u.port = s.port ∧
        (s.port.watchdog = none → v = u) ∧
        (∀ n, s.port.watchdog = some n →
          let w : State := u.withPort { u.port with watchdog := some (n + 1) }
          (n + 1 < 2000 → v = w) ∧ (2000 ≤ n + 1 → exec .watchdogExpiry w = .next v)) ∧
        ((∀ n, v.port.state ≠ .starting n) → step s = .next v) ∧
        (∀ n, v.port.state = .starting n →
          let w : State := v.withPort { v.port with state := .starting (n + 1) }
          (n + 1 < 8000 → step s = .next w) ∧ (8000 ≤ n + 1 → step s = exec .startingTimeout w)))

/-! ### Resets, configuration -/

/-- The state a hardware reset leaves (R183), value by value; the words of the packet RAM are not cleared, the queue of waiting
commands is the model's own, and the reset lasts until RESET_N returns high. MXFER stays at the level the module shows (R116). The
values of hostData, openTurns, receiving and spent are the model's (log 6, DESIGN CHOICE). -/
def Obligations.HardwareResetState : Prop :=
  ∀ s : State, ∃ t, exec .hardwareReset s = .next t ∧
    t = { pending := s.pending, inReset := true, timebase := false,
          host := { config := none, latch := .awaitA1, staging := ⟨0, 0, 0, 0, 0, 0, 0⟩, commandArg := 0, postStatus := .none,
                    commandStatus := .none, flags := 0, enables := 0, cause := .none, repeated := false, requests := [],
                    outcomes := [], steps := Vector.replicate 16 ⟨0, 0, 0⟩, stepCount := 0, hostData := 0 },
          chanA := ⟨false, .none, 0, 0⟩, chanB := ⟨false, .none, 0, 0⟩,
          member := { link := .unconfigured, roster := Vector.replicate 16 ⟨false, 0, false⟩, generation := 0, holder := none,
                      activity := false, view := 0, openTurns := 0 },
          line := { receiving := false, tx := none },
          sched := { items := [], loopItems := [], rotation := ⟨15, 7, .target⟩ },
          exch := { inits := [], delivering := [], targets := [], lastTag := 7, serials := Vector.replicate 8 0 },
          buf := { ram := s.buf.ram, initFree := [], servFree := [] },
          port := { state := .resetting false, access := none, transfer := none, xfer := s.port.xfer, attention := none, capture := none,
                    capacity := 0, watchdog := none, script := none, spent := false, result := .none, results := [] } } ∧
    t.mrst = true ∧ t.irq = false ∧ (∀ c, t.requestLine c = false) ∧ t.serviceQueue = [] ∧
    exec .resetNRelease s = .next { s with inReset := false }

/-- A part that is UNCONFIGURED, or in a hardware reset, takes no host access but a configuration write: nothing changes, a channel
read gives 0 and sets no flag, every window word reads 0, and nothing is taken from the line (R183, R184, R134). In a hardware reset
the configuration writes are ignored too. -/
def Obligations.GateIgnoresHostAndLine : Prop :=
  ∀ s : State, s.configured = false →
    (∀ c ∈ [Instr.post, .outcomePop, .joinLink, .leaveLink, .stationReset, .cancel, .runMaint, .takeRequest, .corruptFrame,
        .receivedFrameStart], exec c s = .next s) ∧
    (∀ w : Word, exec (.flagsWrite w) s = .next s ∧ exec (.thresholdsWrite w) s = .next s ∧ exec (.maintLoad w) s = .next s) ∧
    (∀ code, exec (.commandInvalidCode code) s = .next s) ∧
    (∀ (off : BitVec 7) (w : Word), off ≠ 0 → off ≠ 1 → exec (.registerWrite off w) s = .next s) ∧
    (∀ (ch : Channel) (w : Word), exec (.channelAccess ch (.write w)) s = .next s) ∧
    (∀ ch : Channel, exec (.channelAccess ch .read) s = .next { s with host := { s.host with hostData := 0 } }) ∧
    (∀ bytes, exec (.intactFrameReceived bytes) s = .next s) ∧ (∀ off, s.windowRead off = 0) ∧
    (s.inReset = true → ∀ w : Word, exec (.configAWrite w) s = .next s ∧ exec (.configBWrite w) s = .next s ∧
      exec (.registerWrite 0 w) s = .next s ∧ exec (.registerWrite 1 w) s = .next s)

/-- The configuration latch (R185): what each position makes of each configuration write. Words are compared in the bits that carry a
field (log 17, DEDUCED); a line rate code of 0 is out of range (R186). -/
def Obligations.ConfigurationLatch : Prop :=
  ∀ (s : State) (w : Word), s.inReset = false →
    let moved (l : Latch) : State := { s with host := { s.host with latch := l } }
    (s.host.latch = .awaitA1 →
      exec (.configAWrite w) s = .next (moved (.awaitB1 (w &&& 0x007F))) ∧ exec (.configBWrite w) s = .next s) ∧
    (∀ a, s.host.latch = .awaitB1 a →
      exec (.configAWrite w) s = .next (moved (.awaitB1 (w &&& 0x007F))) ∧
      exec (.configBWrite w) s = .next (moved (.awaitA2 a (w &&& 0xFF03)))) ∧
    (∀ a b, s.host.latch = .awaitA2 a b →
      (w &&& 0x007F = a → exec (.configAWrite w) s = .next (moved (.awaitB2 a b))) ∧
      (w &&& 0x007F ≠ a → exec (.configAWrite w) s = .next (moved .awaitA1)) ∧
      exec (.configBWrite w) s = .next (moved .awaitA1)) ∧
    (∀ a b, s.host.latch = .awaitB2 a b →
      exec (.configAWrite w) s = .next (moved .awaitA1) ∧
      (w &&& 0xFF03 ≠ b ∨ bitField a 4 2 = 0 → exec (.configBWrite w) s = .next (moved .awaitA1)))

/-- The match (R187): the fourth write agrees with the second, in the bits that carry a field alone (log 17, DEDUCED), and is in range, so the two words become the configuration (R186); the station is
OFFLINE, the pools are formed rising (R59), the timebase starts, and the port begins its reset cycle with MODULE set, or enters NONE. -/
def Obligations.MatchConfigures : Prop :=
  ∀ (s : State) (a b w : Word), s.inReset = false → s.host.latch = .awaitB2 a b → w &&& 0xFF03 = b → bitField a 4 2 ≠ 0 →
    ∃ c : Cfg, c.station.val = bitField a 0 4 ∧ c.modulePresent = a.getLsbD 6 ∧ c.lifetime.toNat = bitField b 8 8 ∧
      c.pool.areas = [8, 12, 16, 24].getD (bitField b 0 2) 0 ∧
      [LineRate.mbit10, .mbit20, .mbit40][bitField a 4 2 - 1]? = some c.rate ∧
      let u : State := { s with
        timebase := true
        host := { s.host with config := some c, latch := .matched }
        member := { s.member with link := .offline }
        buf := { s.buf with initFree := AreaNo.all.take c.pool.areas, servFree := AreaNo.all.drop c.pool.areas } }
      (c.modulePresent = true →
        exec (.configBWrite w) s = .next ((u.withPort { s.port with state := .resetting true }).setFlag .module)) ∧
      (c.modulePresent = false → exec (.configBWrite w) s = .next (u.withPort { s.port with state := .absent }))

/-- Once the latch has matched, no command but a hardware reset changes the latch or the configuration (R185, R187). -/
def Obligations.ConfigurationFixedUntilReset : Prop :=
  ∀ (c : Instr) (s t : State), c ≠ .hardwareReset → s.host.latch = .matched → exec c s = .next t →
    t.host.latch = .matched ∧ t.host.config = s.host.config

/-- The own roster entry follows the module port (R147), and nothing else changes with a change of the port. -/
def Obligations.PortChangeSetsOwnReadiness : Prop :=
  ∀ (s : State) (p : Port),
    s.withPort p = { s with port := p, member := (s.withPort p).member } ∧
    (s.withPort p).member = { s.member with roster := (s.withPort p).member.roster } ∧
    (∀ n : Station, n ≠ s.own → (s.withPort p).member.roster[n] = s.member.roster[n]) ∧
    (s.withPort p).member.roster[s.own] =
      { s.member.roster[s.own] with ready := s.member.roster[s.own].present && p.state.ready } ∧
    (p.state.ready = true ↔ p.state = .idle ∨ (∃ x, p.state = .serving x) ∨ ∃ i, p.state = .maintaining i)

/-- STATION_RESET in a configured part (R188): every group of the state afterward. MXFER stays at the level the module shows (R116). That
a frame being received stands is the model's reading (log 27, DESIGN CHOICE), and that COMMAND_INVALID_CODE with the code of a command
acts as that command is the model's too (log 26, DESIGN CHOICE). -/
def Obligations.StationResetState : Prop :=
  ∀ (s : State) (c : Cfg), s.configured = true → s.host.config = some c →
    ∃ t, exec .stationReset s = .next t ∧ exec (.commandInvalidCode 3) s = .next t ∧
      t.pending = s.pending ∧ t.inReset = s.inReset ∧ t.timebase = s.timebase ∧
      t.host = { s.host with requests := [], outcomes := [], postStatus := .none, commandStatus := .taken, flags := 0,
                             cause := .none, repeated := false } ∧
      t.chanA = ⟨false, .none, 0, s.chanA.threshold⟩ ∧ t.chanB = ⟨false, .none, 0, s.chanB.threshold⟩ ∧
      t.member = { link := .offline, roster := Vector.replicate 16 ⟨false, 0, false⟩, generation := s.member.generation,
                   holder := none, activity := false, view := 0, openTurns := 0 } ∧
      t.line = { s.line with tx := none } ∧
      t.sched = { items := [], loopItems := [], rotation := ⟨15, 7, .target⟩ } ∧
      t.exch = { inits := [], delivering := [], targets := [], lastTag := 7, serials := s.exch.serials } ∧
      t.buf = { s.buf with initFree := AreaNo.all.take c.pool.areas, servFree := AreaNo.all.drop c.pool.areas } ∧
      t.irq = false ∧ (∀ ch, t.requestLine ch = false) ∧
      t.port.capacity = s.port.capacity ∧ t.port.capture = none ∧ t.port.script = none ∧ t.port.spent = false ∧
      t.port.result = .none ∧ t.port.results = [] ∧ t.port.transfer = none ∧ t.port.attention = none ∧ t.port.watchdog = none ∧
      t.port.xfer = s.port.xfer ∧
      (s.port.state = .absent → t.port.state = .absent) ∧ (s.port.state = .idle → t.port.state = .idle) ∧
      (∀ p, s.port.state = .resetting p → t.port.state = .resetting p) ∧
      (∀ n, s.port.state = .starting n → t.port.state = .starting n ∧ t.port.access = s.port.access) ∧
      (∀ d, s.port.state = .describing d → t.port.state = .resetting true) ∧
      (s.port.state = .serving .priming → t.port.state = .idle) ∧
      (∀ x, s.port.state = .serving x → x ≠ .priming → t.port.state = .resetting true) ∧
      (∀ i, s.port.state = .maintaining i → t.port.state = .resetting true) ∧
      (s.port.state = .failed → t.port.state = .resetting true) ∧
      ((∀ n, s.port.state ≠ .starting n) → t.port.access = none)

/-! ### The register window -/

/-- Writes of the words that only keep a value (R168, 13 §13.2): what each changes, and nothing else; a write to a read-only or an
unlisted offset is ignored. A write of a window word that has a row of its own acts as that row (log 26, DESIGN CHOICE). -/
def Obligations.RegisterWrites : Prop :=
  (∀ (s : State) (w : Word), s.configured = true →
      let x := s.host.staging
      let staged (x : Staging) : State := { s with host := { s.host with staging := x } }
      exec (.registerWrite 0x02 w) s = .next { s with host := { s.host with commandArg := w } } ∧
      exec (.registerWrite 0x06 w) s = .next { s with host := { s.host with enables := w.truncate 8 } } ∧
      exec (.registerWrite 0x08 w) s = .next (staged { x with target := Fin.ofNat 16 w.toNat, op := w.extractLsb' 4 3,
                                                              chan := w.extractLsb' 8 2 }) ∧
      exec (.registerWrite 0x09 w) s = .next (staged { x with count := w.truncate 9 }) ∧
      exec (.registerWrite 0x0A w) s = .next (staged { x with addrHi := w }) ∧
      exec (.registerWrite 0x0B w) s = .next (staged { x with addrLo := w }) ∧
      exec (.registerWrite 0x0C w) s = .next (staged { x with label := w }) ∧
      (∀ j : Fin 16,
        exec (.registerWrite (BitVec.ofNat 7 (0x40 + 2 * j)) w) s = .next { s with host := { s.host with
          steps := s.host.steps.set j { s.host.steps[j] with kind := w.truncate 2, slot := w.extractLsb' 4 3 } } } ∧
        exec (.registerWrite (BitVec.ofNat 7 (0x41 + 2 * j)) w) s = .next { s with host := { s.host with
          steps := s.host.steps.set j { s.host.steps[j] with value := w } } }) ∧
      (∀ off : BitVec 7, off ∉ [0x00, 0x01, 0x02, 0x03, 0x05, 0x06, 0x08, 0x09, 0x0A, 0x0B, 0x0C, 0x0D, 0x15, 0x1E, 0x28] →
        (off.toNat < 0x40 ∨ 0x5F < off.toNat) → exec (.registerWrite off w) s = .next s)) ∧
  (∀ (s : State) (w : Word),
      exec (.registerWrite 0x00 w) s = exec (.configAWrite w) s ∧ exec (.registerWrite 0x01 w) s = exec (.configBWrite w) s ∧
      exec (.registerWrite 0x03 w) s = exec (.commandInvalidCode (w.truncate 3)) s ∧
      exec (.registerWrite 0x05 w) s = exec (.flagsWrite w) s ∧ exec (.registerWrite 0x0D w) s = exec .post s ∧
      exec (.registerWrite 0x15 w) s = exec .outcomePop s ∧ exec (.registerWrite 0x1E w) s = exec (.thresholdsWrite w) s ∧
      exec (.registerWrite 0x28 w) s = exec (.maintLoad w) s ∧
      exec (.commandInvalidCode 1) s = exec .joinLink s ∧ exec (.commandInvalidCode 2) s = exec .leaveLink s ∧
      exec (.commandInvalidCode 3) s = exec .stationReset s ∧ exec (.commandInvalidCode 4) s = exec .cancel s ∧
      exec (.commandInvalidCode 5) s = exec .runMaint s)

/-- A word that is read and written gives back the bits it holds, and every write-only or unlisted word reads 0 (R168, 13 §13.2). For
MAINT_COUNT the write is a load (R174): one that is taken shows its count, one that is ignored changes it not. What the read-only words
show (R168, R171, R177, R181, 13 §13.2): the status codes, the flags, the fault cause and its repeat mark, the queue levels, the Outcome
Queue head with zeros while the queue is empty, each channel, the link view, the module view, and the maintenance result with its list.
-/
def Obligations.WrittenWordsReadBack : Prop :=
  (∀ (s t : State) (w : Word), s.configured = true →
      (exec (.registerWrite 0x02 w) s = .next t → t.windowRead 0x02 = w) ∧
      (exec (.registerWrite 0x06 w) s = .next t → t.windowRead 0x06 = w &&& 0x00FF) ∧
      (exec (.registerWrite 0x08 w) s = .next t → t.windowRead 0x08 = w &&& 0x037F) ∧
      (exec (.registerWrite 0x09 w) s = .next t → t.windowRead 0x09 = w &&& 0x01FF) ∧
      (exec (.registerWrite 0x0A w) s = .next t → t.windowRead 0x0A = w) ∧
      (exec (.registerWrite 0x0B w) s = .next t → t.windowRead 0x0B = w) ∧
      (exec (.registerWrite 0x0C w) s = .next t → t.windowRead 0x0C = w) ∧
      (exec (.thresholdsWrite w) s = .next t → t.windowRead 0x1E = w &&& 0x000F) ∧
      (∀ j : Fin 16,
        (exec (.registerWrite (BitVec.ofNat 7 (0x40 + 2 * j)) w) s = .next t →
          t.windowRead (BitVec.ofNat 7 (0x40 + 2 * j)) = w &&& 0x0073) ∧
        (exec (.registerWrite (BitVec.ofNat 7 (0x41 + 2 * j)) w) s = .next t → t.windowRead (BitVec.ofNat 7 (0x41 + 2 * j)) = w)) ∧
      (s.port.result ≠ .posted → s.port.result ≠ .running → 1 ≤ (w.truncate 5 : BitVec 5).toNat → (w.truncate 5 : BitVec 5).toNat ≤ 16 →
        (∀ j : Fin 16, j.val < (w.truncate 5 : BitVec 5).toNat → s.host.steps[j].kind ≠ 0) →
        exec (.maintLoad w) s = .next t → t.windowRead 0x28 = w &&& 0x001F) ∧
      (s.port.result = .posted ∨ s.port.result = .running ∨ (w.truncate 5 : BitVec 5).toNat = 0 ∨ 16 < (w.truncate 5 : BitVec 5).toNat ∨
          (∃ j : Fin 16, j.val < (w.truncate 5 : BitVec 5).toNat ∧ s.host.steps[j].kind = 0) →
        exec (.maintLoad w) s = .next t → t.windowRead 0x28 = s.windowRead 0x28) ∧
      (∀ off : BitVec 7, off.toNat ∈ [0x00, 0x01, 0x03, 0x0D, 0x15, 0x16, 0x17, 0x1F, 0x27] ∨ (0x2B ≤ off.toNat ∧ off.toNat < 0x30) ∨
        0x60 ≤ off.toNat → s.windowRead off = 0)) ∧
  (∀ s : State, s.configured = true →
      let word (n : Nat) : Word := BitVec.ofNat 16 n
      let bit (b : Bool) (n : Nat) : Nat := if b then n else 0
      let opcode (o : Op) : Nat := match o with
        | .read => 1
        | .write => 2
        | .sync => 3
      s.windowRead 0x04 = word (match s.host.commandStatus with
        | .none => 0
        | .taken => 1
        | .wrongState => 2
        | .outcomeFull => 3
        | .noMatch => 4
        | .notAvailable => 5
        | .busy => 6
        | .noScript => 7) ∧
      (∀ n : Fin 16, (s.windowRead 0x05).getLsbD n = s.host.flags.getLsbD n) ∧
      s.windowRead 0x07 = word ((match s.host.cause with
        | .none => 0
        | .lateConfig => 1
        | .strayAccess => 2
        | .emptyPop => 3
        | .maintBusy => 4
        | .badScript => 5) + bit s.host.repeated 32768) ∧
      s.windowRead 0x0E = word (match s.host.postStatus with
        | .none => 0
        | .accepted => 1
        | .malformed => 2
        | .queueFull => 3) ∧
      s.windowRead 0x0F = word (s.host.requests.length + 256 * s.host.outcomes.length) ∧
      (s.host.outcomes = [] → s.windowRead 0x10 = 0 ∧ s.windowRead 0x11 = 0 ∧ s.windowRead 0x12 = 0 ∧ s.windowRead 0x13 = 0 ∧
        s.windowRead 0x14 = 0) ∧
      (∀ (o : OutcomeRec) (rest : List OutcomeRec), s.host.outcomes = o :: rest →
        s.windowRead 0x10 = word ((match o.outcome.code with
          | .done => 1
          | .busy => 2
          | .range => 3
          | .noModule => 4
          | .malformed => 5
          | .notPresent => 6
          | .noReply => 7
          | .moduleFault => 8
          | .moduleStall => 9
          | .starved => 10
          | .linkFault => 11
          | .peerLost => 12
          | .peerForgot => 13
          | .expired => 14
          | .cancelled => 15
          | .withdrawn => 16) + 32 * opcode o.op + bit o.outcome.confirmed 128 + 256 * o.peer.val) ∧
        s.windowRead 0x11 = word o.outcome.done ∧ s.windowRead 0x12 = o.label ∧
        (o.outcome.pair = none → s.windowRead 0x13 = 0 ∧ s.windowRead 0x14 = 0) ∧
        ∀ p, o.outcome.pair = some p → s.windowRead 0x13 = p.1 ∧ s.windowRead 0x14 = p.2) ∧
      (∀ ch : Channel,
        let state : Word := s.windowRead (if ch = .a then 0x18 else 0x1B)
        let label : Word := s.windowRead (if ch = .a then 0x19 else 0x1C)
        let last : Nat := bit (s.chan ch).held 2 + 16 * (match (s.chan ch).departure with
          | .none => 0
          | .completed => 1
          | .aborted => 2)
        (s.channelHead ch = none → state = word last ∧ label = 0) ∧
        (∀ r, s.channelHead ch = some r → state = word (1 + 4 * opcode r.op + last) ∧ label = r.label) ∧
        s.windowRead (if ch = .a then 0x1A else 0x1D) = (s.chan ch).lastLabel) ∧
      s.windowRead 0x20 = word ((match s.member.link with
        | .unconfigured => 0
        | .offline => 1
        | .listening => 2
        | .founding => 3
        | .joining => 4
        | .member => 5
        | .leaving => 6) + 16 * s.own.val) ∧
      (∀ n : Station, (s.windowRead 0x21).getLsbD n.val = s.member.roster[n].present ∧
        (s.windowRead 0x22).getLsbD n.val = s.member.roster[n].ready) ∧
      s.windowRead 0x23 = s.member.generation ∧
      s.windowRead 0x24 = word (match s.port.state with
        | .absent => 0
        | .resetting _ => 1
        | .starting _ => 2
        | .describing _ => 3
        | .idle => 4
        | .serving _ => 5
        | .maintaining _ => 6
        | .failed => 7) ∧
      s.windowRead 0x25 ++ s.windowRead 0x26 = s.port.capacity ∧
      s.windowRead 0x29 = word (match s.port.result with
        | .none => 0
        | .posted => 1
        | .running => 2
        | .done => 3
        | .stalled => 4
        | .dataRefused => 5) ∧
      s.windowRead 0x2A = word s.port.results.length ∧
      (∀ j : Fin 16, s.windowRead (BitVec.ofNat 7 (0x30 + j)) = s.port.results.getD j 0))

/-- POST (R169): the staged record is judged in the order MALFORMED, QUEUE_FULL, ACCEPTED, and is not changed; an accepted copy joins
the tail, and a post into an empty queue is an event at which the take conditions are read (R22). The staging record is zeros after a
hardware reset and kept across a station reset, and a write of a staging word changes nothing beside it. -/
def Obligations.PostJudgesTheStagedRecord : Prop :=
  ∀ s : State, s.configured = true →
    let x := s.host.staging
    let malformed : Prop := x.op.toNat = 0 ∨ 4 ≤ x.op.toNat ∨
      (x.op.toNat ≠ 3 ∧ (x.count.toNat = 0 ∨ 256 < x.count.toNat ∨ 2 ≤ x.chan.toNat)) ∨ (x.op.toNat = 3 ∧ x.count.toNat ≠ 0)
    (malformed → exec .post s = .next { s with host := { s.host with postStatus := .malformed } }) ∧
    (¬ malformed → 8 ≤ s.host.requests.length → exec .post s = .next { s with host := { s.host with postStatus := .queueFull } }) ∧
    (¬ malformed → s.host.requests.length < 8 → ∃ q : Request,
      q.target = x.target ∧ opCode q.op = x.op.toNat ∧ q.chan = x.chan ∧ q.count = x.count.toNat ∧ q.addr = x.addrHi ++ x.addrLo ∧
      q.label = x.label ∧
      let u : State := { s with host := { s.host with requests := s.host.requests ++ [q], postStatus := .accepted } }
      (s.host.requests = [] → exec .post s = .next u.retake) ∧ (s.host.requests ≠ [] → exec .post s = .next u) ∧
      (s.member.link ≠ .member → exec .post s = .next u) ∧
      u.retake.host.staging = s.host.staging) ∧
    State.reset.host.staging = ⟨0, 0, 0, 0, 0, 0, 0⟩ ∧
    (∃ t, exec .stationReset s = .next t ∧ t.host.staging = s.host.staging) ∧
    (∀ off ∈ ([0x08, 0x09, 0x0A, 0x0B, 0x0C] : List (BitVec 7)), ∀ w : Word, ∃ y : Staging,
      exec (.registerWrite off w) s = .next { s with host := { s.host with staging := y } })

/-- OUTCOME_POP (R172): an empty queue changes no queue and sets HOST_FAULT with cause EMPTY_POP; otherwise the head goes, the oldest
record in DELIVERING enters the tail, sets OUTCOME, is freed and queues its CLOSE where one is owed, or drops it on a full queue (R39,
R40), its waiting items keep their values (R161), and the take conditions are read again. That the CLOSE stands ahead of the ASKs of the takes
is log 24 (DESIGN CHOICE). -/
def Obligations.PopRemovesTheHead : Prop :=
  ∀ s : State, s.configured = true →
    (s.host.outcomes = [] → exec .outcomePop s = .next { s with host := { s.host with
      flags := s.host.flags ||| 128, cause := if s.flagSet .hostFault then s.host.cause else .emptyPop,
      repeated := s.flagSet .hostFault } }) ∧
    (∀ o rest, s.host.outcomes = o :: rest → s.exch.delivering = [] →
      exec .outcomePop s = .next (({ s with host := { s.host with outcomes := rest } } : State).retake)) ∧
    (∀ o rest t l r x closeOwed, s.host.outcomes = o :: rest → s.exch.delivering = t :: l → s.initRec t = some r →
      r.state = .delivering closeOwed → r.outcome = some x →
      ∃ u : State, exec .outcomePop s = .next u.retake ∧
        u.host = { s.host with outcomes := rest ++ [⟨r.label, r.op, r.peer, x⟩], flags := s.host.flags ||| 1 } ∧
        u.exch = { s.exch with inits := s.exch.inits.filter (fun y => decide (y.tag ≠ t)),
                               delivering := s.exch.delivering.filter (fun y => decide (y ≠ t)) } ∧
        (let kept := s.fixRecord ⟨s.own, t, r.serial⟩ .target r.flow.expected
         u.sched = { kept.sched with items := if closeOwed = true ∧ s.sched.items.length < 32
           then kept.sched.items ++ [⟨⟨r.peer, s.own, t, r.serial, .close⟩, .fixed⟩] else kept.sched.items }) ∧
        u.member = s.member ∧ u.port = s.port ∧ u.buf = s.buf ∧ u.line = s.line ∧ u.chanA = s.chanA ∧ u.chanB = s.chanB)

/-- A write of FLAGS (R180, R181, R177): a 1 clears its flag, but for OUTCOME while the Outcome Queue is not empty; a 1 to HOST_FAULT
clears cause and repeat mark; a 1 to a CHAN flag ends that channel's hold; bits above bit 7 clear nothing; nothing else changes. The
interrupt line is asserted exactly while a flag whose enable is set is itself set (R180). -/
def Obligations.FlagsAndInterruptLine : Prop :=
  (∀ (s : State) (w : Word), s.configured = true → ∃ t, exec (.flagsWrite w) s = .next t ∧
      (∀ i : Fin 8, t.host.flags.getLsbD i =
        (s.host.flags.getLsbD i && !(w.getLsbD i && !(decide (i.val = 0) && !s.host.outcomes.isEmpty)))) ∧
      t.host = { s.host with flags := t.host.flags,
                             cause := if w.getLsbD 7 then .none else s.host.cause,
                             repeated := if w.getLsbD 7 then false else s.host.repeated } ∧
      t = { s with host := t.host
                   chanA := { s.chanA with held := s.chanA.held && !w.getLsbD 5 }
                   chanB := { s.chanB with held := s.chanB.held && !w.getLsbD 6 } }) ∧
  (∀ s : State, s.irq = true ↔ ∃ i : Fin 8, s.host.flags.getLsbD i = true ∧ s.host.enables.getLsbD i = true)

/-- A write of THRESHOLDS takes effect at the write, and the request line (R178) compares the words offered with min(threshold, R).
The words offered (R75) by the current slot, the slot of block consumed count at a READ and of block blocks moved locally at a WRITE: at
a READ 256 in FULL, 256 less the words read in DRAINING, none in EMPTY; at a WRITE with blocks left to fill 256 in EMPTY where the fill
rule (R69) allows the block, 256 less the words written in FILLING, none in EMPTY where it does not, nor in a slot that still holds
another block; none once all blocks are filled, and none without a ring. R (R178) is 256 less the words already moved in the current
block, and 0 once every block of the exchange has been moved. -/
def Obligations.ThresholdsAndRequestLine : Prop :=
  (∀ (s : State) (w : Word), s.configured = true → exec (.thresholdsWrite w) s = .next { s with
    chanA := { s.chanA with threshold := w.truncate 2 }, chanB := { s.chanB with threshold := w.extractLsb' 2 2 } }) ∧
  (∀ (s : State) (c : Channel), s.requestLine c = true ↔ ∃ r, s.channelHead c = some r ∧ (s.chan c).held = false ∧
    0 < r.remaining ∧ min ([1, 8, 32, 256].getD (s.chan c).threshold.toNat 0) r.remaining ≤ r.offered) ∧
  (∀ r : InitRec, r.ring = none → r.offered = 0) ∧
  (∀ (r : InitRec) (c : RecvCounters), r.op = .read → r.flow = .receiver c →
    (r.count ≤ c.consumed → r.remaining = 0) ∧
    (c.consumed < r.count → r.ring = none → r.remaining = 256) ∧
    ∀ (ring : Ring) (slot : Slot), r.ring = some ring → ring[c.consumed % ring.length]? = some slot →
      (∀ b, slot.st = .full b → r.offered = 256 ∧ (c.consumed < r.count → r.remaining = 256)) ∧
      (∀ b w, slot.st = .draining b w → r.offered = 256 - w ∧ (c.consumed < r.count → r.remaining = 256 - w)) ∧
      (slot.st = .empty → r.offered = 0 ∧ (c.consumed < r.count → r.remaining = 256))) ∧
  (∀ r : InitRec, r.op = .write →
    (r.count ≤ r.moved → r.offered = 0 ∧ r.remaining = 0) ∧
    (r.moved < r.count → r.ring = none → r.remaining = 256) ∧
    ∀ (ring : Ring) (slot : Slot) (c : SendCounters), r.moved < r.count → r.ring = some ring → r.flow = .sender c →
      ring[r.moved % ring.length]? = some slot →
      (slot.st = .empty → r.remaining = 256 ∧
        (r.moved < c.base + min 4 r.count → r.offered = 256) ∧ (c.base + min 4 r.count ≤ r.moved → r.offered = 0)) ∧
      (∀ b w, slot.st = .filling b w → r.offered = 256 - w ∧ r.remaining = 256 - w) ∧
      (∀ b, slot.st = .full b → r.offered = 0 ∧ r.remaining = 256))

/-- Host misuse (R181): each cause; a fault with HOST_FAULT clear sets the flag, records its cause and clears the repeat mark; one
with the flag set keeps the cause and sets the repeat mark; nothing else changes, and a stray read returns 0 (R179). An access is stray
with no head, while held, where the current slot offers no word, where no block remains to be moved, and in the wrong direction (R75,
R179). A write of 1 clears flag, cause and mark. -/
def Obligations.HostMisuse : Prop :=
  ∀ s : State, s.configured = true →
    let fault (k : FaultCause) (d : Word) : State := { s with host := { s.host with
      flags := s.host.flags ||| 128, cause := if s.flagSet .hostFault then s.host.cause else k,
      repeated := s.flagSet .hostFault, hostData := d } }
    let d := s.host.hostData
    (∀ w, s.host.latch = .matched → exec (.configAWrite w) s = .next (fault .lateConfig d) ∧
      exec (.configBWrite w) s = .next (fault .lateConfig d)) ∧
    (∀ ch, (s.channelHead ch = none ∨ (s.chan ch).held = true ∨ ∃ r, s.channelHead ch = some r ∧ (r.offered = 0 ∨ r.remaining = 0)) →
      exec (.channelAccess ch .read) s = .next (fault .strayAccess 0) ∧
      ∀ v, exec (.channelAccess ch (.write v)) s = .next (fault .strayAccess d)) ∧
    (∀ ch r, s.channelHead ch = some r → r.op ≠ .read → exec (.channelAccess ch .read) s = .next (fault .strayAccess 0)) ∧
    (∀ ch r v, s.channelHead ch = some r → r.op ≠ .write → exec (.channelAccess ch (.write v)) s = .next (fault .strayAccess d)) ∧
    (s.host.outcomes = [] → exec .outcomePop s = .next (fault .emptyPop d)) ∧
    (∀ w, s.port.result = .posted ∨ s.port.result = .running → exec (.maintLoad w) s = .next (fault .maintBusy d)) ∧
    (∀ w : Word, s.port.result ≠ .posted → s.port.result ≠ .running →
      (w.truncate 5 : BitVec 5).toNat = 0 ∨ 16 < (w.truncate 5 : BitVec 5).toNat ∨
        (∃ j : Fin 16, j.val < (w.truncate 5 : BitVec 5).toNat ∧ s.host.steps[j].kind = 0) →
      exec (.maintLoad w) s = .next (fault .badScript d)) ∧
    (∀ w : Word, w.getLsbD 7 = true → ∃ t, exec (.flagsWrite w) s = .next t ∧ t.flagSet .hostFault = false ∧ t.host.cause = .none ∧
      t.host.repeated = false)

/-- A host write whose field holds a code that names nothing (R191): a COMMAND code of 0, 6 or 7 is refused WRONG_STATE; a REQ_TARGET
operation code of 0 or 4 to 7, or a channel code of 2 or 3 for READ or WRITE, makes the next POST MALFORMED; a step kind of 0 among
the first count steps makes the load BAD_SCRIPT; a 1 to a FLAGS bit above bit 7 clears nothing; every code of THRESHOLDS and of the
pool field names a valid choice; a line rate code of 0 makes the fourth write a mismatch. -/
def Obligations.InvalidCodes : Prop :=
  ∀ s : State, s.configured = true →
    (∀ code ∈ ([0, 6, 7] : List (BitVec 3)),
      exec (.commandInvalidCode code) s = .next { s with host := { s.host with commandStatus := .wrongState } }) ∧
    ((s.host.staging.op.toNat = 0 ∨ 4 ≤ s.host.staging.op.toNat ∨
        (s.host.staging.op.toNat ≠ 3 ∧ 2 ≤ s.host.staging.chan.toNat)) →
      exec .post s = .next { s with host := { s.host with postStatus := .malformed } }) ∧
    (∀ (w : Word) (j : Fin 16), s.port.scriptBusy = false → j.val < (w.truncate 5 : BitVec 5).toNat → s.host.steps[j].kind = 0 →
      exec (.maintLoad w) s = .next (s.hostFault .badScript)) ∧
    (∀ w : Word, exec (.flagsWrite w) s = exec (.flagsWrite (w &&& 0x00FF)) s) ∧
    (∀ k : BitVec 2, thresholdWords k ∈ [1, 8, 32, 256]) ∧ (∀ b : Word, (poolOf b).areas ∈ [8, 12, 16, 24]) ∧
    (∀ (u : State) (a b w : Word), u.inReset = false → u.host.latch = .awaitB2 a b → bitField a 4 2 = 0 →
      exec (.configBWrite w) u = .next { u with host := { u.host with latch := .awaitA1 } })

/-- A load of a maintenance script that is not refused (R174): the first count staged steps become the held script, unspent, the
result reads NONE and the result list is emptied. -/
def Obligations.MaintenanceLoad : Prop :=
  ∀ (s : State) (w : Word), s.configured = true → s.port.result ≠ .posted → s.port.result ≠ .running →
    1 ≤ (w.truncate 5 : BitVec 5).toNat → (w.truncate 5 : BitVec 5).toNat ≤ 16 →
    (∀ j : Fin 16, j.val < (w.truncate 5 : BitVec 5).toNat → s.host.steps[j].kind ≠ 0) →
    ∃ script : List ScriptStep, script.length = (w.truncate 5 : BitVec 5).toNat ∧
      (∀ j : Fin 16, j.val < (w.truncate 5 : BitVec 5).toNat → script[j.val]? =
        some (if s.host.steps[j].kind = 1 then .write s.host.steps[j].slot s.host.steps[j].value
              else if s.host.steps[j].kind = 2 then .read s.host.steps[j].slot else .waitReady)) ∧
      exec (.maintLoad w) s = .next (({ s with host := { s.host with stepCount := w.truncate 5 } } : State).withPort
        { s.port with script := some script, spent := false, result := .none, results := [] })

/-! ### Commands -/

/-- JOIN_LINK (R173, R134, R153): OFFLINE goes to LISTENING, with an empty view, the holder OPEN and the mark clear; in every other link
state it is refused WRONG_STATE and changes nothing else. LEAVE_LINK off the link (R189, R153, R173): LISTENING and JOINING go OFFLINE
at once, without a roster change counted; OFFLINE, FOUNDING and LEAVING refuse it WRONG_STATE; MEMBER refuses it OUTCOME_FULL when the
free entries of the Outcome Queue are fewer than the initiator records. A JOIN that is still on the line goes out (log 12, DESIGN
CHOICE). LEAVE_LINK in MEMBER (R189, R108, R78, R132): with room in the Outcome Queue the station enters LEAVING; the Exchange Table and
the Pending Item Queue are empty, the areas are all free, rising; what the rule keeps is kept; and with no record at all and the port
IDLE with no script posted, nothing else changes. LEAVE_LINK in MEMBER, with room for every outcome (R108, R189, R97, R175, R177, R182):
each record whose outcome is not yet decided ends WITHDRAWN, in creation order, with blocks done and confirmed by R97; each channel that
had a record is held, its last departure aborted with the label of the record that was last in its queue, and its flag set; a channel
without records stays as it was. That the records end one by one, so that the last one gives the label, is log 15 (DESIGN CHOICE). What
LEAVE_LINK in MEMBER keeps, with any records (R132, R189): the port in every state but SERVING, MAINTAINING included, and everywhere the
script, posted or not, with its results; SERVING beyond priming is reset; priming becomes IDLE, where a posted script is granted (R121);
the roster, the generation, the holder and the window words stand. -/
def Obligations.JoinAndLeaveCommands : Prop :=
  (∀ s : State, s.configured = true →
      (s.member.link = .offline → exec .joinLink s = .next { s with
        host := { s.host with commandStatus := .taken }
        member := { s.member with link := .listening, view := 0, openTurns := 0, holder := none, activity := false } }) ∧
      (s.member.link ≠ .offline → exec .joinLink s = .next { s with host := { s.host with commandStatus := .wrongState } })) ∧
  (∀ s : State, s.configured = true →
      (s.member.link = .listening ∨ s.member.link = .joining → exec .leaveLink s = .next { s with
        host := { s.host with commandStatus := .taken }
        member := { link := .offline, roster := Vector.replicate 16 ⟨false, 0, false⟩, generation := s.member.generation,
                    holder := none, activity := false, view := 0, openTurns := 0 } }) ∧
      (s.member.link = .offline ∨ s.member.link = .founding ∨ s.member.link = .leaving →
        exec .leaveLink s = .next { s with host := { s.host with commandStatus := .wrongState } }) ∧
      (s.member.link = .member → 16 < s.host.outcomes.length + s.exch.inits.length →
        exec .leaveLink s = .next { s with host := { s.host with commandStatus := .outcomeFull } })) ∧
  (∀ (s : State) (c : Cfg), s.configured = true → s.host.config = some c → s.member.link = .member →
      s.host.outcomes.length + s.exch.inits.length ≤ 16 →
      ∃ t, exec .leaveLink s = .next t ∧ t.host.commandStatus = .taken ∧ t.member.link = .leaving ∧
        t.exch.inits = [] ∧ t.exch.targets = [] ∧ t.exch.delivering = [] ∧ t.sched.items = [] ∧
        t.buf.initFree = AreaNo.all.take c.pool.areas ∧ t.buf.servFree = AreaNo.all.drop c.pool.areas ∧ t.buf.ram = s.buf.ram ∧
        t.host.requests = s.host.requests ∧ t.sched.rotation = s.sched.rotation ∧ t.exch.lastTag = s.exch.lastTag ∧
        t.exch.serials = s.exch.serials ∧ t.port.script = s.port.script ∧ t.line = s.line ∧
        (s.exch.inits = [] → s.exch.targets = [] → s.exch.delivering = [] → s.port.state = .idle → s.port.result ≠ .posted → t = { s with
          host := { s.host with commandStatus := .taken }
          member := { s.member with link := .leaving }
          sched := { s.sched with items := [], loopItems := [] }
          buf := { s.buf with initFree := AreaNo.all.take c.pool.areas, servFree := AreaNo.all.drop c.pool.areas } }) ∧
        ((∃ x, s.port.state = .serving x ∧ x ≠ .priming) → t.port.state = .resetting true ∧ t.flagSet .module = true) ∧
        (s.port.state = .serving .priming → s.port.result ≠ .posted → t.port.state = .idle)) ∧
  (∀ s : State, s.configured = true → s.member.link = .member → s.host.outcomes.length + s.exch.inits.length ≤ 16 → s.recordsLimited →
      ∃ t, exec .leaveLink s = .next t ∧
        t.host.outcomes = s.host.outcomes ++ (s.exch.inits.filter InitRec.live).map (fun r => ⟨r.label, r.op, r.peer, match r.op with
          | .read => ⟨.withdrawn, r.moved, true, none⟩
          | .sync => ⟨.withdrawn, 0, true, none⟩
          | .write => ⟨.withdrawn, if r.asking then 0 else r.flow.base, r.asking, none⟩⟩) ∧
        ((∃ r ∈ s.exch.inits, r.live = true) → t.flagSet .outcome = true) ∧
        ∀ ch, (s.channelQueue ch = [] → t.chan ch = s.chan ch) ∧ ∀ pre r, s.channelQueue ch = pre ++ [r] →
          t.chan ch = { s.chan ch with held := true, departure := .aborted, lastLabel := r.label } ∧ t.flagSet (chanFlag ch) = true) ∧
  (∀ s : State, s.configured = true → s.member.link = .member → s.host.outcomes.length + s.exch.inits.length ≤ 16 →
      ∃ t, exec .leaveLink s = .next t ∧
        t.pending = s.pending ∧ t.inReset = s.inReset ∧ t.timebase = s.timebase ∧ t.line = s.line ∧
        t.host = { s.host with commandStatus := .taken, outcomes := t.host.outcomes, flags := t.host.flags } ∧
        t.exch = { s.exch with inits := [], delivering := [], targets := [] } ∧ t.sched = { s.sched with items := [], loopItems := [] } ∧
        t.member = { (if t.port = s.port then s else s.withPort t.port).member with link := .leaving } ∧
        let idle : Port := { s.port with state := .idle, access := none, transfer := none, attention := none, watchdog := none }
        let begun (p : Port) (script : List ScriptStep) : Port := { p with
          state := .maintaining 0, result := .running, watchdog := some 0
          access := some (match (script[0]? : Option ScriptStep) with
            | some (.write k v) => ⟨k, some v⟩
            | some (.read k) => ⟨k, none⟩
            | _ => ⟨6, none⟩) }
        ((∀ x, s.port.state ≠ .serving x) → s.port.state ≠ .idle ∨ s.port.result ≠ .posted → t.port = s.port) ∧
        (∀ script, s.port.state = .idle → s.port.result = .posted → s.port.script = some script → t.port = begun s.port script) ∧
        (s.port.state = .serving .priming → (s.port.result ≠ .posted → t.port = idle) ∧
          ∀ script, s.port.result = .posted → s.port.script = some script → t.port = begun idle script) ∧
        (∀ x, s.port.state = .serving x → x ≠ .priming →
          t.port = { idle with state := .resetting true } ∧ t.flagSet .module = true))

/-- CANCEL (R99, R100, R101), in every configured state: the oldest live record of the label ends CANCELLED with a CANCEL owed; else the
first queued request of the label ends CANCELLED with blocks done 0 and confirmed yes, the take conditions being read again behind that
outcome when it was the head of the Request Queue (R22; the order is log 13, DESIGN CHOICE), or is refused OUTCOME_FULL; else NO_MATCH.
-/
def Obligations.CancelResolvesTheLabel : Prop :=
  ∀ s : State, s.configured = true →
    let l := s.host.commandArg
    (∀ (pre post : List InitRec) (r : InitRec), s.exch.inits = pre ++ r :: post → (∀ x ∈ pre, x.label ≠ l ∨ x.live = false) →
      r.label = l → r.live = true →
        let u : State := s.endAndTake r (if r.op = .write then (if r.asking then ⟨.cancelled, 0, true, none⟩
                                                                else ⟨.cancelled, r.flow.base, false, none⟩)
                                         else ⟨.cancelled, if r.op = .read then r.moved else 0, true, none⟩) true false
        exec .cancel s = .next { u with host := { u.host with commandStatus := .taken } }) ∧
    ((∀ x ∈ s.exch.inits, x.label ≠ l ∨ x.live = false) →
      (∀ (pre post : List Request) (q : Request), s.host.requests = pre ++ q :: post → (∀ x ∈ pre, x.label ≠ l) → q.label = l →
        (16 ≤ s.host.outcomes.length → exec .cancel s = .next { s with host := { s.host with commandStatus := .outcomeFull } }) ∧
        (s.host.outcomes.length < 16 →
          let u : State := ({ s with host := { s.host with
            requests := pre ++ post
            outcomes := s.host.outcomes ++ [⟨q.label, q.op, q.target, ⟨.cancelled, 0, true, none⟩⟩]
            flags := (if s.host.requests.length = 8 then s.host.flags ||| 2 else s.host.flags) ||| 1 } } : State)
          (pre = [] → exec .cancel s = .next { u.retake with host := { u.retake.host with commandStatus := .taken } }) ∧
          (pre ≠ [] → exec .cancel s = .next { u with host := { u.host with commandStatus := .taken } }))) ∧
      ((∀ x ∈ s.host.requests, x.label ≠ l) → exec .cancel s = .next { s with host := { s.host with commandStatus := .noMatch } }))

/-- RUN_MAINT (R174, R121): judged in the order NOT_AVAILABLE, BUSY, NO_SCRIPT; a taken one waits as POSTED, or, with the port IDLE, is
granted at the event and its first step begins. -/
def Obligations.RunMaint : Prop :=
  ∀ s : State, s.configured = true →
    let told (k : CommandStatus) : State := { s with host := { s.host with commandStatus := k } }
    (s.port.state = .absent ∨ s.port.state = .failed → exec .runMaint s = .next (told .notAvailable)) ∧
    (s.port.state ≠ .absent → s.port.state ≠ .failed →
      (s.port.result = .posted ∨ s.port.result = .running → exec .runMaint s = .next (told .busy)) ∧
      (s.port.result ≠ .posted → s.port.result ≠ .running →
        (s.port.script = none ∨ s.port.spent = true → exec .runMaint s = .next (told .noScript)) ∧
        (∀ script, s.port.script = some script → s.port.spent = false →
          (s.port.state ≠ .idle → exec .runMaint s = .next ((told .taken).withPort { s.port with result := .posted })) ∧
          (s.port.state = .idle → exec .runMaint s = .next ((told .taken).withPort { s.port with
            result := .running, state := .maintaining 0, watchdog := some 0, access := some (match script with
              | .write slot v :: _ => ⟨slot, some v⟩
              | .read slot :: _ => ⟨slot, none⟩
              | _ => ⟨6, none⟩) })))))

/-! ### Channel accesses -/

/-- A read access of a READ head with blocks left (R179, R75, R73): the next word of the current block goes to the host and the slot stands in DRAINING;
nothing else changes. A write access of a WRITE head (R179, R75, R69): the word is stored as the next word of the current block, its
high byte first, and the slot stands in FILLING (the byte address 512 x area + 2 x word and the place of the high byte are log 5, DESIGN
CHOICE); every other byte of the packet RAM and everything else is unchanged. The last word of a block (R179, R69, R71): at a WRITE head
the slot becomes FULL, or EMPTY when base has passed the block, and blocks moved locally rises by one. At a READ head whose exchange has
more blocks (R73, R85), the slot becomes EMPTY, consumed count and blocks moved locally rise by one and a CREDIT is offered. The last
word of the last block of a READ head (R36, R73, R85, R175, R176, R177): the slot is EMPTY, the counts rise and a CREDIT is offered as
at every block; then the data is complete: the record is in AWAIT_OUTCOME, its ring is given back slot 0 first (R65), the channel
records a completed departure with the label and its flag, no hold is added, and the next record becomes head, its CREDIT behind this
one (log 24, DESIGN CHOICE). -/
def Obligations.ChannelAccesses : Prop :=
  (∀ (s : State) (ch : Channel) (r : InitRec) (ring : Ring) (slot : Slot) (w : Nat), s.configured = true →
      s.channelHead ch = some r → (s.chan ch).held = false → r.op = .read → r.ring = some ring →
      r.flow.consumed < r.count → ring[r.flow.consumed % ring.length]? = some slot →
      ((∃ b, slot.st = .full b) ∧ w = 0 ∨ ∃ b, slot.st = .draining b w) → w < 255 →
      exec (.channelAccess ch .read) s = .next { s with
        host := { s.host with hostData := Word.ofBytes (s.buf.ram.read (slot.area.val * 512 + 2 * w))
                                                       (s.buf.ram.read (slot.area.val * 512 + 2 * w + 1)) }
        exch := { s.exch with inits := s.exch.inits.map (fun x => if x.tag = r.tag then
          { r with ring := some (ring.modify (r.flow.consumed % ring.length) (fun y => { y with
            st := .draining r.flow.consumed (w + 1) })) } else x) } }) ∧
  (∀ (s : State) (ch : Channel) (r : InitRec) (ring : Ring) (slot : Slot) (w : Nat) (v : Word), s.configured = true →
      s.channelHead ch = some r → (s.chan ch).held = false → r.op = .write → r.ring = some ring → r.moved < r.count →
      ring[r.moved % ring.length]? = some slot →
      (slot.st = .empty ∧ w = 0 ∧ r.moved < r.flow.base + min 4 r.count ∨ ∃ b, slot.st = .filling b w) → w < 255 →
      s.buf.ram.wf = true →
      ∃ m : Memory, m.wf = true ∧
        m.read (slot.area.val * 512 + 2 * w) = v.extractLsb' 8 8 ∧ m.read (slot.area.val * 512 + 2 * w + 1) = v.extractLsb' 0 8 ∧
        (∀ a, a ≠ slot.area.val * 512 + 2 * w → a ≠ slot.area.val * 512 + 2 * w + 1 → m.read a = s.buf.ram.read a) ∧
        exec (.channelAccess ch (.write v)) s = .next { s with
          buf := { s.buf with ram := m }
          exch := { s.exch with inits := s.exch.inits.map (fun x => if x.tag = r.tag then
            { r with ring := some (ring.modify (r.moved % ring.length) (fun y => { y with st := .filling r.moved (w + 1) })) }
            else x) } }) ∧
  (∀ (s : State) (ch : Channel) (r : InitRec) (ring : Ring) (slot : Slot), s.configured = true →
      s.channelHead ch = some r → (s.chan ch).held = false → r.ring = some ring →
      (∀ v b, r.op = .write → r.moved < r.count → ring[r.moved % ring.length]? = some slot → slot.st = .filling b 255 →
        exec (.channelAccess ch (.write v)) s = .next { s with
          buf := { s.buf with ram := s.buf.ram.writeWord slot.area 255 v }
          exch := { s.exch with inits := s.exch.inits.map (fun x => if x.tag = r.tag then
            { r with moved := r.moved + 1, ring := some (ring.modify (r.moved % ring.length) (fun y => { y with
              st := if r.moved < r.flow.base then .empty else .full r.moved })) } else x) } }) ∧
      (∀ b c, r.op = .read → r.flow = .receiver c → ring[c.consumed % ring.length]? = some slot → slot.st = .draining b 255 →
        c.consumed + 1 < r.count →
        exec (.channelAccess ch .read) s = .next (({ s with
          host := { s.host with hostData := s.buf.ram.readWord slot.area 255 }
          exch := { s.exch with inits := s.exch.inits.map (fun x => if x.tag = r.tag then
            { r with moved := r.moved + 1, flow := .receiver { c with consumed := c.consumed + 1 },
                     ring := some (ring.modify (c.consumed % ring.length) (fun y => { y with st := .empty })) } else x) } } :
          State).offerInit r.tag .credit))) ∧
  (∀ (s : State) (ch : Channel) (r : InitRec) (ring : Ring) (slot : Slot) (b : Nat) (c : RecvCounters), s.configured = true →
      s.channelHead ch = some r → (s.chan ch).held = false → r.op = .read → r.ring = some ring → r.flow = .receiver c →
      ring[c.consumed % ring.length]? = some slot → slot.st = .draining b 255 → c.consumed + 1 = r.count →
      let v : State := ({ s with
        host := { s.host with hostData := s.buf.ram.readWord slot.area 255 }
        exch := { s.exch with inits := s.exch.inits.map (fun x => if x.tag = r.tag then
          { r with moved := r.moved + 1, flow := .receiver { c with consumed := c.consumed + 1 },
                   ring := some (ring.modify (c.consumed % ring.length) (fun y => { y with st := .empty })) } else x) } } :
        State).offerInit r.tag .credit
      let w : State := { v with
        host := { v.host with flags := v.host.flags ||| (if ch = .a then 32 else 64) }
        exch := { v.exch with inits := v.exch.inits.map (fun x => if x.tag = r.tag then
          { x with ring := none, state := .awaitOutcome } else x) }
        buf := { v.buf with initFree := s.buf.initFree ++ ring.map Slot.area } }
      exec (.channelAccess ch .read) s =
        .next ((w.setChan ch { s.chan ch with held := false, departure := .completed, lastLabel := r.label }).becomeHead ch))

/-! ### The take -/

/-- Tag allocation (R18): the first free tag upward from the one after the tag allocated last, wrapping from 7 to 0; none exactly when
every tag is held; the tag allocated last is 7 after a hardware reset and after a station reset, and entry to LEAVING leaves it. -/
def Obligations.TagAllocation : Prop :=
  (∀ (s : State) (t : Tag), s.freeTag = some t ↔ ∃ k : Fin 8, t = s.exch.lastTag + 1 + k ∧ s.initRec t = none ∧
    ∀ j : Fin 8, j < k → s.initRec (s.exch.lastTag + 1 + j) ≠ none) ∧
  (∀ s : State, s.freeTag = none ↔ ∀ t, s.initRec t ≠ none) ∧
  (∀ (s : State) (t : Tag), s.initRec t = none ↔ ∀ r ∈ s.exch.inits, r.tag ≠ t) ∧
  (∀ s : State, ∃ t, exec .hardwareReset s = .next t ∧ t.exch.lastTag = 7 ∧ t.freeTag = some 0) ∧
  (∀ s : State, s.configured = true → ∃ t, exec .stationReset s = .next t ∧ t.exch.lastTag = 7 ∧ t.freeTag = some 0) ∧
  (∀ s u : State, s.configured = true → exec .leaveLink s = .next u → u.exch.lastTag = s.exch.lastTag) ∧
  (∀ (s : State) (q : Request) (rest : List Request) (t : Tag), s.configured = true → s.member.link = .member →
    s.host.requests = q :: rest → rest = [] → s.freeTag = some t → s.present q.target = true →
    ∃ u, exec .takeRequest s = .next u ∧ u.exch.lastTag = t ∧ u.initRec t ≠ none) ∧
  (∀ s : State, s.configured = true → s.freeTag = none → exec .takeRequest s = .next s)

/-- The take of a SYNC head toward a present station (R22, R24, R19, R20): the record in ASKING at the tail, the tag, the serial
counter, the ASK at the tail of the Pending Item Queue or wanted, SPACE when the queue was full; then the next heads. The take of a READ
or WRITE head that finds its channel empty (R24, R25, R62, R63): the record is head at once and holds a ring of min(4, block count)
areas from the head of the initiator free list, every slot EMPTY. The take of a head whose target is absent (R23), and when no head is
taken (R22). The take of a READ or WRITE head onto any Channel Queue and Pending Item Queue (R24, R25, R12, R63). Onto an empty channel
it is head and holds its ring, as above, with the ASK wanted when the queue is full; behind another record it holds none, and the head
keeps its place and ring. -/
def Obligations.TakesOfRequests : Prop :=
  (∀ (s : State) (c : Cfg) (q : Request) (rest : List Request) (t : Tag), s.configured = true → s.host.config = some c →
      s.member.link = .member → s.host.requests = q :: rest → s.freeTag = some t → s.member.roster[q.target].present = true →
      q.op = .sync →
      let lifetime := if c.lifetime.toNat = 0 then none else some (c.lifetime.toNat * 10)
      let r (wanted : List ItemKind) : InitRec :=
        { peer := q.target, tag := t, serial := s.exch.serials[t], op := .sync, addr := q.addr, count := q.count, channel := none,
          label := q.label, state := .asking 1 0, ring := none, flow := .none, moved := 0, lifetime := lifetime, wanted := wanted,
          outcome := none }
      let u (wanted : List ItemKind) (items : List PendingItem) : State := { s with
        host := { s.host with requests := rest
                              flags := if s.host.requests.length = 8 then s.host.flags ||| 2 else s.host.flags }
        exch := { s.exch with inits := s.exch.inits ++ [r wanted], lastTag := t,
                              serials := s.exch.serials.set t (s.exch.serials[t] + 1) }
        sched := { s.sched with items := items } }
      (s.sched.items.length < 32 → exec .takeRequest s = .next ((u [] (s.sched.items ++
        [⟨⟨q.target, c.station, t, s.exch.serials[t], .ask 3 q.count 0⟩, .record⟩])).takes rest.length)) ∧
      (32 ≤ s.sched.items.length → exec .takeRequest s = .next ((u [.ask] s.sched.items).takes rest.length)) ∧
      ∀ x : State, x.takes 0 = x) ∧
  (∀ (s : State) (c : Cfg) (q : Request) (rest : List Request) (t : Tag) (ch : Channel), s.configured = true → s.host.config = some c →
      s.member.link = .member → s.host.requests = q :: rest → s.freeTag = some t → s.member.roster[q.target].present = true →
      q.op ≠ .sync → q.chan = (if ch = .a then 0 else 1) → s.channelQueue ch = [] → s.sched.items.length < 32 →
      min 4 q.count ≤ s.buf.initFree.length →
      let flow : Flow := if q.op = .write then .sender ⟨0, 0, 0, 0, 0⟩ else .receiver ⟨0, 0⟩
      let ring : Ring := (s.buf.initFree.take (min 4 q.count)).map (fun a => ⟨a, .empty⟩)
      exec .takeRequest s = .next (({ s with
        host := { s.host with requests := rest
                              flags := if s.host.requests.length = 8 then s.host.flags ||| 2 else s.host.flags }
        exch := { s.exch with
          inits := s.exch.inits ++ [{ peer := q.target, tag := t, serial := s.exch.serials[t], op := q.op, addr := q.addr,
                                      count := q.count, channel := some ch, label := q.label, state := .asking 1 0,
                                      ring := some ring, flow := flow, moved := 0,
                                      lifetime := if c.lifetime.toNat = 0 then none else some (c.lifetime.toNat * 10),
                                      wanted := [], outcome := none }]
          lastTag := t
          serials := s.exch.serials.set t (s.exch.serials[t] + 1) }
        sched := { s.sched with items := s.sched.items ++
          [⟨⟨q.target, c.station, t, s.exch.serials[t], .ask (if q.op = .write then 2 else 1) q.count q.addr⟩, .record⟩] }
        buf := { s.buf with initFree := s.buf.initFree.drop (min 4 q.count) } } : State).takes rest.length)) ∧
  (∀ s : State, s.configured = true →
      (∀ (q : Request) (rest : List Request) (t : Tag), s.member.link = .member → s.host.requests = q :: rest → s.freeTag = some t →
        s.member.roster[q.target].present = false →
        (s.host.outcomes.length < 16 → exec .takeRequest s = .next (({ s with host := { s.host with
          requests := rest
          outcomes := s.host.outcomes ++ [⟨q.label, q.op, q.target, ⟨.notPresent, 0, true, none⟩⟩]
          flags := (if s.host.requests.length = 8 then s.host.flags ||| 2 else s.host.flags) ||| 1 } } : State).takes rest.length)) ∧
        (16 ≤ s.host.outcomes.length → exec .takeRequest s = .next s)) ∧
      (s.member.link ≠ .member ∨ s.host.requests = [] ∨ s.freeTag = none → exec .takeRequest s = .next s)) ∧
  (∀ (s : State) (c : Cfg) (q : Request) (rest : List Request) (t : Tag) (ch : Channel), s.configured = true → s.host.config = some c →
      s.member.link = .member → s.host.requests = q :: rest → s.freeTag = some t → s.member.roster[q.target].present = true →
      q.op ≠ .sync → q.chan = (if ch = .a then 0 else 1) →
      let full : Prop := 32 ≤ s.sched.items.length
      let ask : PendingItem :=
        ⟨⟨q.target, c.station, t, s.exch.serials[t], .ask (if q.op = .write then 2 else 1) q.count q.addr⟩, .record⟩
      let made (ring : Option Ring) (free : List AreaNo) : State := { s with
        host := { s.host with requests := rest
                              flags := if s.host.requests.length = 8 then s.host.flags ||| 2 else s.host.flags }
        exch := { s.exch with
          inits := s.exch.inits ++ [{ peer := q.target, tag := t, serial := s.exch.serials[t], op := q.op, addr := q.addr,
                                      count := q.count, channel := some ch, label := q.label, state := .asking 1 0, ring := ring,
                                      flow := if q.op = .write then .sender ⟨0, 0, 0, 0, 0⟩ else .receiver ⟨0, 0⟩, moved := 0,
                                      lifetime := if c.lifetime.toNat = 0 then none else some (c.lifetime.toNat * 10),
                                      wanted := if full then [.ask] else [], outcome := none }]
          lastTag := t
          serials := s.exch.serials.set t (s.exch.serials[t] + 1) }
        sched := { s.sched with items := if full then s.sched.items else s.sched.items ++ [ask] }
        buf := { s.buf with initFree := free } }
      let k := min 4 q.count
      (s.channelQueue ch = [] → k ≤ s.buf.initFree.length → exec .takeRequest s =
        .next ((made (some ((s.buf.initFree.take k).map (fun a => ⟨a, .empty⟩))) (s.buf.initFree.drop k)).takes rest.length)) ∧
      (∀ h, s.channelHead ch = some h →
        (made none s.buf.initFree).channelHead ch = some h ∧
        exec .takeRequest s = .next (((made none s.buf.initFree).becomeHead ch).takes rest.length) ∧
        (h.ring ≠ none → (made none s.buf.initFree).becomeHead ch = made none s.buf.initFree)))

/-! ### How exchanges end -/

/-- Blocks done and confirmed of an initiator outcome (R97): a local ending or a refusing REPLY, and a matching OUTCOME, for each
operation; the pair is present with MODULE_FAULT alone, and blocks done above the block count are taken as the block count (R190). -/
def Obligations.OutcomeTable : Prop :=
  ∀ (r : InitRec) (code : OutcomeCode),
    (r.op = .read → r.localOutcome code = ⟨code, r.moved, true, none⟩) ∧
    (r.op = .sync → r.localOutcome code = ⟨code, 0, true, none⟩) ∧
    (r.op = .write → (∃ n k, r.state = .asking n k) → r.localOutcome code = ⟨code, 0, true, none⟩) ∧
    (r.op = .write → (∀ n k, r.state ≠ .asking n k) → r.localOutcome code = ⟨code, r.flow.base, false, none⟩) ∧
    (∀ (done : Nat) (status detail : Word),
      let pair := if code = .moduleFault then some (status, detail) else none
      (r.op = .read → r.itemOutcome code done status detail = ⟨code, r.moved, true, pair⟩) ∧
      (r.op = .sync → r.itemOutcome code done status detail = ⟨code, 0, true, pair⟩) ∧
      (r.op = .write → code ≠ .peerForgot → done ≤ r.count → r.itemOutcome code done status detail = ⟨code, done, true, pair⟩) ∧
      (r.op = .write → code ≠ .peerForgot → r.count ≤ done → r.itemOutcome code done status detail = ⟨code, r.count, true, pair⟩) ∧
      (r.op = .write → code = .peerForgot → (∀ n k, r.state ≠ .asking n k) →
        r.itemOutcome code done status detail = ⟨code, r.flow.base, false, none⟩) ∧
      (r.op = .write → code = .peerForgot → (∃ n k, r.state = .asking n k) →
        r.itemOutcome code done status detail = ⟨code, r.flow.base, true, none⟩))

/-- The ending of an initiator record (R15, R38, R39, R65, R175, R177): the record leaves its channel, which is held when the record was
its head; with a free entry the outcome enters the tail of the Outcome Queue and the record is freed, else it waits in DELIVERING; the
CANCEL or CLOSE it owes is queued. Head succession (R175, R25, R26, R63, R65). The record at the front of a channel that holds no ring
takes the first min(4, block count) areas of the initiator free list, every slot EMPTY, and a READ past ASKING offers its first CREDIT;
with a ring, with fewer free areas, or with no record in the channel nothing happens. A head that completes its data, or ends, has first
given its ring back to the tail of that list, and has told the channel its departure. Where the ending frees the record the takes follow
(R22), their ASKs behind its CANCEL or CLOSE (log 24, DESIGN CHOICE). The ending of an initiator record, step by step (R15, R38, R39,
R175), whether or not it heads its channel. It leaves its channel and its ring goes back; for a head the channel takes the aborted
departure and the next record becomes head. The CANCEL it owes is placed, or is wanted on a full queue (R12). With a free entry the
outcome enters the tail, the record is freed with its wanted items, its waiting items keep their values (R161), and the CLOSE it owes is
placed behind them, or dropped on a full queue; else the record waits in DELIVERING. The CREDIT of the next head before the CANCEL is
log 24 (DESIGN CHOICE). -/
def Obligations.InitiatorEnds : Prop :=
  (∀ (s : State) (r : InitRec) (o : Outcome) (cancelOwed closeOwed : Bool), s.initRec r.tag = some r →
      let u := s.endInit r o cancelOwed closeOwed
      let filed := s.host.outcomes.length < 16
      (filed → u.host.outcomes = s.host.outcomes ++ [⟨r.label, r.op, r.peer, o⟩] ∧ u.initRec r.tag = none ∧ u.flagSet .outcome = true) ∧
      (¬ filed → u.host.outcomes = s.host.outcomes ∧ u.exch.delivering = s.exch.delivering ++ [r.tag] ∧
        ∃ w, u.initRec r.tag = some { r with ring := none, state := .delivering closeOwed, lifetime := none, wanted := w,
                                             outcome := some o } ∧ (cancelOwed = false → w = [])) ∧
      (∀ c, r.channel = some c → s.headsChannel r = true →
        (u.chan c).held = true ∧ (u.chan c).departure = .aborted ∧ (u.chan c).lastLabel = r.label ∧ u.flagSet (chanFlag c) = true) ∧
      (s.headsChannel r = false → u.chanA = s.chanA ∧ u.chanB = s.chanB ∧
        u.buf.initFree = s.buf.initFree ++ r.ring.elim [] (List.map Slot.area) ∧
        (filed → u.exch.inits = s.exch.inits.filter (fun x => decide (x.tag ≠ r.tag))) ∧
        (filed → s.sched.items.length < 32 →
          (∀ p ∈ s.sched.items, ¬ (p.item.init = s.own ∧ p.item.tag = r.tag ∧ p.item.serial = r.serial)) →
          (cancelOwed = false → closeOwed = false → u.sched.items = s.sched.items) ∧
          (cancelOwed = true → closeOwed = false →
            u.sched.items = s.sched.items ++ [⟨⟨r.peer, s.own, r.tag, r.serial, .cancel⟩, .fixed⟩]) ∧
          (cancelOwed = false → closeOwed = true →
            u.sched.items = s.sched.items ++ [⟨⟨r.peer, s.own, r.tag, r.serial, .close⟩, .fixed⟩]))) ∧
      u = { s with host := { s.host with outcomes := u.host.outcomes, flags := u.host.flags }
                   chanA := u.chanA
                   chanB := u.chanB
                   sched := { s.sched with items := u.sched.items, loopItems := u.sched.loopItems }
                   exch := { s.exch with inits := u.exch.inits, delivering := u.exch.delivering }
                   buf := { s.buf with initFree := u.buf.initFree } }) ∧
  ((∀ (s : State) (ch : Channel), s.channelHead ch = none → s.becomeHead ch = s) ∧
    (∀ (s : State) (ch : Channel) (x : InitRec), s.channelHead ch = some x →
      let k := min 4 x.count
      let u : State := { s with
        buf := { s.buf with initFree := s.buf.initFree.drop k }
        exch := { s.exch with inits := s.exch.inits.map (fun y => if y.tag = x.tag then
          { y with ring := some ((s.buf.initFree.take k).map (fun a => ⟨a, .empty⟩)) } else y) } }
      (x.ring ≠ none ∨ s.buf.initFree.length < k → s.becomeHead ch = s) ∧
      (x.ring = none → k ≤ s.buf.initFree.length →
        (x.op = .read → x.state = .waiting ∨ x.state = .moving → s.becomeHead ch = u.offerInit x.tag .credit) ∧
        (x.op ≠ .read ∨ (x.state ≠ .waiting ∧ x.state ≠ .moving) → s.becomeHead ch = u))) ∧
    (∀ (s : State) (r : InitRec) (ch : Channel) (o : Outcome), s.initRec r.tag = some r → r.channel = some ch → s.headsChannel r = true →
      let left (kind : Departure) (hold : Bool) (f : InitRec → InitRec) : State := (({ s with
        host := { s.host with flags := s.host.flags ||| (if ch = .a then 32 else 64) }
        exch := { s.exch with inits := s.exch.inits.map (fun x => if x.tag = r.tag then f x else x) }
        buf := { s.buf with initFree := s.buf.initFree ++ r.ring.elim [] (List.map Slot.area) } } : State).setChan ch
          { s.chan ch with held := (s.chan ch).held || hold, departure := kind, lastLabel := r.label }).becomeHead ch
      let gone : State := left .aborted true (fun x =>
        { x with ring := none, state := .delivering false, lifetime := none, wanted := [], outcome := some o })
      s.completeInit r = left .completed false (fun x => { x with ring := none, state := .awaitOutcome }) ∧
      (16 ≤ s.host.outcomes.length → s.endInit r o false false = { gone with
        exch := { gone.exch with delivering := gone.exch.delivering ++ [r.tag] } }) ∧
      (s.host.outcomes.length < 16 →
        let v := gone.fixRecord ⟨s.own, r.tag, r.serial⟩ .target r.flow.expected
        s.endInit r o false false = { v with
          host := { gone.host with outcomes := s.host.outcomes ++ [⟨r.label, r.op, r.peer, o⟩], flags := gone.host.flags ||| 1 }
          exch := { gone.exch with inits := gone.exch.inits.filter (fun x => decide (x.tag ≠ r.tag))
                                   delivering := gone.exch.delivering.filter (fun t => decide (t ≠ r.tag)) } })) ∧
    (∀ (s : State) (r : InitRec) (o : Outcome) (a b : Bool), s.initRec r.tag = some r →
      s.endAndTake r o a b = if s.host.outcomes.length < 16 then (s.endInit r o a b).retake else s.endInit r o a b) ∧
    (∀ (s : State) (i : ExchId) (role : Role) (n : Nat),
      let kept (p : PendingItem) : PendingItem :=
        if p.origin = .record ∧ p.item.init = i.peer ∧ p.item.tag = i.tag ∧ p.item.serial = i.serial ∧ p.item.body.toRole = role then
          ⟨{ p.item with body := match p.item.body with
            | .credit d _ _ => .credit d n 0
            | b => b }, .fixed⟩
        else p
      s.fixRecord i role n = { s with sched := { s.sched with
        items := s.sched.items.map kept, loopItems := s.sched.loopItems.map kept } })) ∧
  (∀ (s : State) (r : InitRec) (o : Outcome) (cancelOwed closeOwed : Bool), s.initRec r.tag = some r →
      let left : State := { s with
        exch := { s.exch with inits := s.exch.inits.map (fun x => if x.tag = r.tag then
          { x with ring := none, state := .delivering closeOwed, lifetime := none, wanted := [], outcome := some o } else x) }
        buf := { s.buf with initFree := s.buf.initFree ++ r.ring.elim [] (List.map Slot.area) } }
      let owe (gone : State) : Prop :=
        let asked : State :=
          if cancelOwed = false then gone
          else if gone.sched.items.length < 32 then { gone with sched := { gone.sched with
            items := gone.sched.items ++ [⟨⟨r.peer, s.own, r.tag, r.serial, .cancel⟩, .record⟩] } }
          else { gone with exch := { gone.exch with
            inits := gone.exch.inits.map (fun x => if x.tag = r.tag then { x with wanted := [.cancel] } else x) } }
        let kept : State := asked.fixRecord ⟨s.own, r.tag, r.serial⟩ .target r.flow.expected
        (16 ≤ s.host.outcomes.length → s.endInit r o cancelOwed closeOwed = { asked with
          exch := { asked.exch with delivering := s.exch.delivering ++ [r.tag] } }) ∧
        (s.host.outcomes.length < 16 → s.endInit r o cancelOwed closeOwed = { kept with
          host := { gone.host with outcomes := s.host.outcomes ++ [⟨r.label, r.op, r.peer, o⟩], flags := gone.host.flags ||| 1 }
          exch := { gone.exch with inits := gone.exch.inits.filter (fun x => decide (x.tag ≠ r.tag))
                                   delivering := s.exch.delivering.filter (fun t => decide (t ≠ r.tag)) }
          sched := { kept.sched with items := if closeOwed = true ∧ asked.sched.items.length < 32
            then kept.sched.items ++ [⟨⟨r.peer, s.own, r.tag, r.serial, .close⟩, .fixed⟩] else kept.sched.items } })
      (s.headsChannel r = false → owe left) ∧
      (∀ ch, r.channel = some ch → s.headsChannel r = true →
        owe ((({ left with host := { s.host with flags := s.host.flags ||| (if ch = .a then 32 else 64) } } : State).setChan ch
          { s.chan ch with held := true, departure := .aborted, lastLabel := r.label }).becomeHead ch)))

/-! ### The watches of an initiator record -/

/-- ASK_RESEND (R10, R28): at the third own turn since the last send, with fewer than three sends, ask sends rises and the turns go back
to 0; the ASK is placed at the tail unless one of the record waits or is wanted. Each of these rows does its part of an own turn alone
(log 4, DESIGN CHOICE). NO_REPLY (R29): the third own turn since the third send ends the record with blocks done 0 and confirmed yes, a
CANCEL owed and no CLOSE; then the take conditions are read (R22). LIFETIME_EXPIRY (R20): a live record that carries a lifetime ends
EXPIRED, in whichever of its states, a CANCEL owed and no CLOSE; a record whose outcome is decided, or that carries none, is left as it
is. The rule has a lifetime expire when it reaches 0; that the row may come at any count that is left is the model's (log 1, DESIGN
CHOICE). -/
def Obligations.WatchesOfAnInitiatorRecord : Prop :=
  (∀ (s : State) (r : InitRec) (n k : Nat), s.initRec r.tag = some r → r.state = .asking n k → n < 3 → 3 ≤ k + 1 →
      let ask : Item := ⟨r.peer, s.own, r.tag, r.serial,
        .ask (if r.op = .read then 1 else if r.op = .write then 2 else 3) r.count (if r.op = .sync then 0 else r.addr)⟩
      let sent (w : List ItemKind) : List InitRec :=
        s.exch.inits.map (fun x => if x.tag = r.tag then { x with state := .asking (n + 1) 0, wanted := w } else x)
      (r.wanted = [] → (∀ p ∈ s.sched.items, ¬ (p.item.init = s.own ∧ p.item.tag = r.tag ∧ p.item.serial = r.serial)) →
        (s.sched.items.length < 32 → (s.exch.inits.filter (fun x => decide (x.tag = r.tag))).length = 1 →
          exec (.askResend r.tag) s = .next { s with
            exch := { s.exch with inits := sent [] }
            sched := { s.sched with items := s.sched.items ++ [⟨ask, .record⟩] } }) ∧
        (32 ≤ s.sched.items.length → (s.exch.inits.filter (fun x => decide (x.tag = r.tag))).length = 1 →
          exec (.askResend r.tag) s = .next { s with exch := { s.exch with inits := sent [.ask] } })) ∧
      ((⟨ask, .record⟩ ∈ s.sched.items ∨ ItemKind.ask ∈ r.wanted) → exec (.askResend r.tag) s = .next { s with
        exch := { s.exch with inits := s.exch.inits.map (fun x => if x.tag = r.tag then { x with state := .asking (n + 1) 0 } else x) } })) ∧
  (∀ (s : State) (r : InitRec) (n k : Nat), s.initRec r.tag = some r → r.state = .asking n k → 3 ≤ n → 3 ≤ k + 1 →
      (r.op = .read → r.moved = 0) →
      exec (.noReply r.tag) s = .next (s.endAndTake r ⟨.noReply, 0, true, none⟩ true false)) ∧
  (∀ (s : State) (r : InitRec), s.initRec r.tag = some r →
      (∀ n, r.lifetime = some n → (∀ b, r.state ≠ .delivering b) →
        exec (.lifetimeExpiry r.tag) s = .next (s.endAndTake r (r.localOutcome .expired) true false)) ∧
      (r.lifetime = none ∨ (∃ b, r.state = .delivering b) → exec (.lifetimeExpiry r.tag) s = .next s))

/-! ### The sender's watches -/

/-- STALL_REWIND (R90): the fourth own turn without a CREDIT takes next-to-send back to base, counts a rewind and sets stall turns to 0,
for an initiator WRITE in WAITING or MOVING as head and for a target READ in ACTIVE or FINISHING, toward another station. The row does
its part of an own turn alone (log 4, DESIGN CHOICE). The eighth rewind in a row is not carried out. REWIND_LIMIT_INITIATOR (R91): an
initiator WRITE ends LINK_FAULT with its base, confirmed no, a CANCEL owed. REWIND_LIMIT_TARGET (R92): a FINISHING target READ settles
LINK_FAULT with the block count and gives its ring back; an ACTIVE one in the data or closing phase keeps its ring, runs out, and
settles with blocks moved locally. -/
def Obligations.RewindsAndTheirLimits : Prop :=
  (∀ (s : State) (c : SendCounters), c.base < c.next → c.stall = 3 → c.rewinds < 7 →
      let back : SendCounters := { c with next := c.base, rewinds := c.rewinds + 1, stall := 0 }
      (∀ r : InitRec, s.initRec r.tag = some r → r.flow = .sender c → r.state = .waiting ∨ r.state = .moving → s.headsChannel r = true →
        r.peer ≠ s.own → exec (.stallRewind ⟨s.own, r.tag, .initiator⟩) s = .next { s with exch := { s.exch with
          inits := s.exch.inits.map (fun x => if x.tag = r.tag then { r with flow := .sender back } else x) } }) ∧
      (∀ (r : TargetRec) (i : ExchId), s.targetRec i.peer i.tag = some r → r.id = some i → r.flow = .sender c →
        r.state = .active ∨ r.state = .finishing → i.peer ≠ s.own →
        exec (.stallRewind ⟨i.peer, i.tag, .target⟩) s = .next { s with exch := { s.exch with
          targets := s.exch.targets.map (fun x => if x.keyed i.peer i.tag then { r with flow := .sender back } else x) } })) ∧
  (∀ (s : State) (c : SendCounters), c.base < c.next → 7 ≤ c.rewinds →
      let last : SendCounters := { c with rewinds := 8 }
      (∀ r : InitRec, s.initRec r.tag = some r → r.flow = .sender c → r.op = .write → r.state = .waiting ∨ r.state = .moving →
        let r' : InitRec := { r with flow := .sender last }
        exec (.rewindLimitInitiator r.tag) s = .next ((({ s with exch := { s.exch with
          inits := s.exch.inits.map (fun x => if x.tag = r.tag then r' else x) } } : State).endAndTake r' ⟨.linkFault, c.base, false, none⟩
            true false))) ∧
      (∀ (r : TargetRec) (i : ExchId), s.targetRec i.peer i.tag = some r → r.id = some i → r.flow = .sender c → r.state = .finishing →
        ∃ u : State, u = { s with
            exch := { s.exch with targets := s.exch.targets.map (fun x => if x.keyed i.peer i.tag then
              { r with flow := .sender last, state := .settling true 0, ring := none, priming := none, starvation := none,
                       wanted := r.wanted.filter (fun k => decide (k ≠ .reply) && decide (k ≠ .credit)),
                       outcome := some ⟨.linkFault, r.count, true, none⟩ } else x) }
            buf := { s.buf with servFree := s.buf.servFree ++ r.ring.elim [] (List.map Slot.area) } } ∧
          exec (.rewindLimitTarget i.peer i.tag) s = .next u.grant) ∧
      (∀ (r : TargetRec) (i : ExchId), s.targetRec i.peer i.tag = some r → r.id = some i → r.flow = .sender c → r.state = .active →
        r.op = .read → s.port.state = .serving .data ∨ s.port.state = .serving .closing → s.port.xfer = false →
        ∃ t x, exec (.rewindLimitTarget i.peer i.tag) s = .next t ∧ t.targetRec i.peer i.tag = some x ∧
          x.state = .settling true 0 ∧ x.outcome = some ⟨.linkFault, r.moved, true, none⟩ ∧
          t.port.state = .serving (.runOut r.moved r.count) ∧ x.ring.map (List.map Slot.area) = r.ring.map (List.map Slot.area) ∧
          t.buf = s.buf))

/-! ### The watches of a target record -/

/-- Priming (R50): PRIMING_CREDIT counts the own turn and orders a CREDIT; PRIMING_LIMIT settles the record STARVED with blocks done 0,
gives its ring back and makes the port IDLE, and the arbiter decides (R48, R121). Each of these rows does its part of an own turn alone
(log 4, DESIGN CHOICE). STARVATION_LIMIT (R126, R128): the 64th own turn of one wait on the ring takes the port to RESETTING with MODULE
set, and the record settles STARVED with blocks moved locally, its ring still held. OUTCOME_RESEND (R54): the first own turn after the
entry, and every fourth after it, queues the OUTCOME of the record, wanted on a full queue (R12), unless one of it waits or is wanted,
whatever other items of the exchange wait (R159); the resend count goes back to 0. An ACTIVE target READ with blocks outstanding at an
own turn, State.targetTurn (R90, R92, R126, R162). While it waits on the ring both counts rise, and the stall watch rewinds at its
limit, where the starvation count goes on; toward the own station only the starvation count rises. The eighth rewind ends it as
REWIND_LIMIT_TARGET does, with a wait on the ring or without. That the starvation count comes first is log 31 (DESIGN CHOICE). -/
def Obligations.WatchesOfATargetRecord : Prop :=
  (∀ (s : State) (r : TargetRec) (i : ExchId) (n : Nat), s.activeRec = some r → r.id = some i → r.priming = some n →
      (n + 1 ∈ [4, 8, 12, 16, 20, 24, 28] → exec .primingCredit s = .next (({ s with exch := { s.exch with
        targets := s.exch.targets.map (fun x => if x.keyed i.peer i.tag then { x with priming := some (n + 1) } else x) } } :
          State).offerTarget i.peer i.tag .credit)) ∧
      (n + 1 = 32 → exec .primingLimit s = .next (({ (s.withPort { s.port with
          state := .idle, access := none, transfer := none, attention := none, watchdog := none }) with
        exch := { s.exch with targets := s.exch.targets.map (fun x => if x.keyed i.peer i.tag then
          { x with state := .settling true 0, ring := none, priming := none, starvation := none,
                   wanted := x.wanted.filter (fun k => decide (k ≠ .reply) && decide (k ≠ .credit)),
                   outcome := some ⟨.starved, 0, true, none⟩ } else x) }
        buf := { s.buf with servFree := s.buf.servFree ++ r.ring.elim [] (List.map Slot.area) } } : State).grant)) ∧
      (n + 1 < 32 → exec .primingLimit s = .next s)) ∧
  (∀ (s : State) (r : TargetRec) (i : ExchId) (n : Nat), s.activeRec = some r → r.id = some i → r.starvation = some n →
      (n + 1 < 64 → exec .starvationLimit s = .next s) ∧
      (64 ≤ n + 1 → s.targetRec i.peer i.tag = some r → ∃ t x, exec .starvationLimit s = .next t ∧ t.targetRec i.peer i.tag = some x ∧
        x.state = .settling true 0 ∧ x.outcome = some ⟨.starved, r.moved, true, none⟩ ∧
        x.ring.map (List.map Slot.area) = r.ring.map (List.map Slot.area) ∧ x.starvation = none ∧
        t.port = { s.port with state := .resetting true, access := none, transfer := none, attention := none,
                               watchdog := none } ∧
        t.host = { s.host with flags := s.host.flags ||| 16 } ∧ t.buf = s.buf ∧ t.exch.inits = s.exch.inits ∧ t.sched = s.sched)) ∧
  (∀ (s : State) (r : TargetRec) (i : ExchId) (owed : Bool) (n : Nat) (o : Outcome), s.targetRec i.peer i.tag = some r →
      r.id = some i → r.state = .settling owed n → owed = true ∨ 3 ≤ n → r.outcome = some o →
      let out : Item := ⟨i.peer, i.peer, i.tag, i.serial,
        .outcome o.code o.done (o.pair.elim 0 Prod.fst) (o.pair.elim 0 Prod.snd)⟩
      let sent : State := { s with exch := { s.exch with targets := s.exch.targets.map (fun x =>
        if x.keyed i.peer i.tag then { x with state := .settling false 0 } else x) } }
      let waits : Prop := ∃ p ∈ s.sched.items, p.origin = .record ∧ p.item.init = i.peer ∧ p.item.tag = i.tag ∧ p.item.serial = i.serial ∧
        ∃ code done status detail, p.item.body = .outcome code done status detail
      (ItemKind.outcome ∈ r.wanted ∨ waits → exec (.outcomeResend i.peer i.tag) s = .next sent) ∧
      (ItemKind.outcome ∉ r.wanted → ¬ waits →
        (s.sched.items.length < 32 → exec (.outcomeResend i.peer i.tag) s = .next { sent with
          sched := { s.sched with items := s.sched.items ++ [⟨out, .record⟩] } }) ∧
        (32 ≤ s.sched.items.length → exec (.outcomeResend i.peer i.tag) s = .next { s with exch := { s.exch with
          targets := s.exch.targets.map (fun x => if x.keyed i.peer i.tag then { x with
            state := .settling false 0
            wanted := if .outcome ∈ x.wanted then x.wanted else x.wanted ++ [.outcome] } else x) } }))) ∧
  (∀ (s : State) (r : TargetRec) (i : ExchId) (c : SendCounters), s.recordsLimited → s.targetRec i.peer i.tag = some r → r.id = some i →
      r.op = .read → r.state = .active → r.priming = none → r.flow = .sender c → c.base < c.next →
      let with_ (f : TargetRec → TargetRec) : State := { s with exch := { s.exch with
        targets := s.exch.targets.map (fun x => if x.keyed i.peer i.tag then f x else x) } }
      let offering (f : TargetRec → TargetRec) : State :=
        r.wanted.foldl (fun u k => u.offerTarget i.peer i.tag k) (with_ (fun x => { f x with wanted := [] }))
      let turn : State := s.targetTurn i.peer i.tag
      let counted (n : Nat) (d : SendCounters) (x : TargetRec) : TargetRec := { x with starvation := some (n + 1), flow := .sender d }
      (∀ n, r.starvation = some n → n + 1 < 64 →
        (i.peer = s.own → turn = offering (counted n c)) ∧
        (i.peer ≠ s.own → c.stall < 3 → turn = offering (counted n { c with stall := c.stall + 1 })) ∧
        (i.peer ≠ s.own → c.stall = 3 → c.rewinds < 7 →
          turn = offering (counted n { c with next := c.base, rewinds := c.rewinds + 1, stall := 0 })) ∧
        (i.peer ≠ s.own → c.stall = 3 → 7 ≤ c.rewinds → r.wanted = [] → s.port.state = .serving .data →
          exec (.rewindLimitTarget i.peer i.tag) (with_ (counted n c)) = .next turn)) ∧
      (r.starvation = none → i.peer ≠ s.own → c.stall = 3 → 7 ≤ c.rewinds → r.wanted = [] →
        s.port.state = .serving .data ∨ s.port.state = .serving .closing →
        exec (.rewindLimitTarget i.peer i.tag) s = .next turn))

/-! ### Items -/

/-- The offer of an item (R160): a CREDIT merges into a CREDIT of its exchange; another item is placed at the tail while fewer than 32
wait; one that is neither merged nor placed leaves the queue as it is. The items that records offer (R12, R160): what each item is, and
that one that is neither merged nor placed becomes wanted, once. A CREDIT reads its values at its composition (log 22, DEDUCED). -/
def Obligations.OfferOfAnItem : Prop :=
  (∀ (s : State) (i : Item) (o : Origin),
      let mergeable := (∃ d n l, i.body = .credit d n l) ∧ ∃ p ∈ s.sched.items, p.item.init = i.init ∧ p.item.tag = i.tag ∧
        p.item.serial = i.serial ∧ ∃ d n l, p.item.body = .credit d n l
      (mergeable → s.offer i o = s ∧ s.takesItem i = true) ∧
      (¬ mergeable → s.sched.items.length < 32 →
        s.offer i o = { s with sched := { s.sched with items := s.sched.items ++ [⟨i, o⟩] } } ∧ s.takesItem i = true) ∧
      (¬ mergeable → 32 ≤ s.sched.items.length → s.offer i o = s ∧ s.takesItem i = false)) ∧
  (∀ (s : State) (k : ItemKind),
      let wants (l : List ItemKind) : List ItemKind := if k ∈ l then l else l ++ [k]
      let offered (after wanting : State) (i : Item) : Prop :=
        (s.takesItem i = true → after = s.offer i .record) ∧ (s.takesItem i = false → after = wanting)
      (∀ (t : Tag) (r : InitRec), s.initRec t = some r →
        let item (b : ItemBody) : Prop := offered (s.offerInit t k)
          { s with exch := { s.exch with inits := s.exch.inits.map (fun x => if x.tag = t then { x with wanted := wants x.wanted } else x) } }
          ⟨r.peer, s.own, r.tag, r.serial, b⟩
        (k = .ask → item (.ask (match r.op with
          | .read => 1
          | .write => 2
          | .sync => 3) r.count (if r.op = .sync then 0 else r.addr))) ∧
        (k = .credit → item (.credit .target 0 0)) ∧ (k = .cancel → item .cancel)) ∧
      (∀ (p : Station) (t : Tag) (r : TargetRec) (i : ExchId), s.targetRec p t = some r → r.id = some i →
        let item (b : ItemBody) : Prop := offered (s.offerTarget p t k)
          { s with exch := { s.exch with targets := s.exch.targets.map (fun x =>
            if x.keyed p t then { x with wanted := wants x.wanted } else x) } }
          ⟨i.peer, i.peer, i.tag, i.serial, b⟩
        (k = .reply → item (.reply none)) ∧ (k = .credit → item (.credit .initiator 0 0)) ∧
        (∀ o, k = .outcome → r.outcome = some o →
          item (.outcome o.code o.done (o.pair.elim 0 Prod.fst) (o.pair.elim 0 Prod.snd)))))

/-- The sender counters at a CREDIT (R88, R89), for counters in their ranges: the five steps in their order, and what never happens:
base does not fall, next-to-send stays between base and the block count. A gap rewinds in a self exchange too (log 32, DESIGN CHOICE). -/
def Obligations.CreditAtTheSender : Prop :=
  ∀ (c : SendCounters) (count nextExpected limit : Nat), c.base ≤ c.next → c.next ≤ count → c.limit ≤ count → c.rewinds < 8 →
    let ne := min nextExpected count
    let (d, ends) := c.credit count nextExpected limit
    c.base ≤ d.base ∧ d.base ≤ d.next ∧ d.next ≤ count ∧ d.stall = 0 ∧ d.limit = max c.limit (min limit count) ∧ d.limit ≤ count ∧
    (ne < c.base → d = { c with stall := 0, limit := d.limit } ∧ ends = false) ∧
    (ne = c.base → c.next = c.base → d = { c with stall := 0, limit := d.limit } ∧ ends = false) ∧
    (ne = c.base → c.base < c.next → c.rewinds < 7 →
      d = { base := ne, next := ne, limit := d.limit, stall := 0, rewinds := c.rewinds + 1 } ∧ ends = false) ∧
    (ne = c.base → c.base < c.next → c.rewinds = 7 → d = { c with stall := 0, limit := d.limit, rewinds := 8 } ∧ ends = true) ∧
    (c.base < ne → ne < c.next → d = { base := ne, next := ne, limit := d.limit, stall := 0, rewinds := 1 } ∧ ends = false) ∧
    (c.base < ne → c.next ≤ ne → d = { base := ne, next := ne, limit := d.limit, stall := 0, rewinds := 0 } ∧ ends = false)

/-! ### Arrivals -/

/-- An ASK (R41 to R43, R45): discarded from a station that is not its initiator; a duplicate is answered by acceptance, the record
unchanged but for a REPLY that becomes wanted when the queue is full and none waits; another is refused by the first of the checks MALFORMED, NO_MODULE, RANGE that fails, changing nothing but the Pending Item
Queue; a valid one on a free key is refused BUSY or makes a record in QUEUED with its accepting REPLY, placed or, on a full queue, wanted (R12, R160), and the arbiter decides. That the REPLY stands ahead of the CREDIT of an activation is
log 24 (DESIGN CHOICE). -/
def Obligations.AskOfAStation : Prop :=
  ∀ (s : State) (dest init : Station) (tag : Tag) (serial : Serial) (op : Byte) (count : Nat) (addr : BlockAddr),
    let i : Item := ⟨dest, init, tag, serial, .ask op count addr⟩
    let answer (o : Origin) (why : Option Reason) : PendingItem := ⟨⟨init, init, tag, serial, .reply why⟩, o⟩
    let placed (x : PendingItem) : State := { s with sched := { s.sched with items := s.sched.items ++ [x] } }
    let waits : Prop := ∃ p ∈ s.sched.items, p.origin = .record ∧ p.item.init = init ∧ p.item.tag = tag ∧ p.item.serial = serial ∧
      ∃ why, p.item.body = .reply why
    let full : Prop := 32 ≤ s.sched.items.length
    let refused (why : Reason) : Prop :=
      (s.sched.items.length < 32 → s.itemArrives init i = placed (answer .fixed (some why))) ∧
      (32 ≤ s.sched.items.length → s.itemArrives init i = s)
    let malformed : Prop := (op ≠ 1 ∧ op ≠ 2 ∧ op ≠ 3) ∨ ((op = 1 ∨ op = 2) ∧ (count = 0 ∨ 256 < count)) ∨ (op = 3 ∧ count ≠ 0)
    let noModule : Prop := ¬ (s.port.state = .idle ∨ (∃ x, s.port.state = .serving x) ∨ ∃ k, s.port.state = .maintaining k)
    let range : Prop := (op = 1 ∨ op = 2) ∧ s.port.capacity.toNat < addr.toNat + count
    let duplicateOf (r : TargetRec) : Prop := r.id = some ⟨init, tag, serial⟩ ∧ opCode r.op = op.toNat ∧ r.count = count ∧
      (r.op = .sync ∨ r.addr = addr)
    (∀ sender, sender ≠ init → s.itemArrives sender i = s) ∧
    (∀ r, s.targetRec init tag = some r → duplicateOf r →
      (waits ∨ ItemKind.reply ∈ r.wanted → s.itemArrives init i = s) ∧
      (¬ waits → ItemKind.reply ∉ r.wanted →
        (s.sched.items.length < 32 → s.itemArrives init i = placed (answer .record none)) ∧
        (32 ≤ s.sched.items.length → s.itemArrives init i = { s with exch := { s.exch with targets := s.exch.targets.map (fun x =>
          if x.keyed init tag then { x with wanted := if .reply ∈ x.wanted then x.wanted else x.wanted ++ [.reply] } else x) } }))) ∧
    ((∀ r, s.targetRec init tag = some r → ¬ duplicateOf r) →
      (malformed → refused .malformed) ∧ (¬ malformed → noModule → refused .noModule) ∧
      (¬ malformed → ¬ noModule → range → refused .range)) ∧
    (s.targetRec init tag = none → ¬ malformed → ¬ noModule → ¬ range →
      (8 ≤ (s.exch.targets.filter (fun r => decide (r.state = .queued))).length ∨ 16 ≤ s.exch.targets.length → refused .busy) ∧
      ((s.exch.targets.filter (fun r => decide (r.state = .queued))).length < 8 → s.exch.targets.length < 16 →
        ∃ r : TargetRec, r.id = some ⟨init, tag, serial⟩ ∧ opCode r.op = op.toNat ∧ r.count = count ∧
          (r.op ≠ .sync → r.addr = addr) ∧ r.state = .queued ∧ r.ring = none ∧ r.moved = 0 ∧ r.priming = none ∧ r.starvation = none ∧
          (¬ full → r.wanted = []) ∧ (full → r.wanted = [.reply]) ∧ r.outcome = none ∧ r.flow = (match r.op with
            | .read => .sender ⟨0, 0, 0, 0, 0⟩
            | .write => .receiver ⟨0, 0⟩
            | .sync => .none) ∧
          (¬ full → s.itemArrives init i = ({ placed (answer .record none) with
            exch := { s.exch with targets := s.exch.targets ++ [r] } } : State).grant) ∧
          (full → s.itemArrives init i = ({ s with exch := { s.exch with targets := s.exch.targets ++ [r] } } : State).grant)))

/-- Arrivals at the initiator role, whatever initiator station an item names (log 16, DESIGN CHOICE). A matching REPLY moves an ASKING
record on, a READ that heads its channel with its first CREDIT (R30, R26), or ends it (R31), and has no effect past ASKING (R32); a
matching OUTCOME ends the record, a CLOSE owed (R35), but for a DONE that finds a READ not drained (R37); a record whose outcome is
decided takes nothing (R40); an orphan is answered with CANCEL or CLOSE, once (R111, R112). CREDIT and DATA as acceptance, and a CREDIT
at an initiator WRITE. In ASKING a matching CREDIT or DATA is taken as a matching accepting REPLY is and then by its own rule (R33);
past ASKING a CREDIT moves a READ or a SYNC in nothing (R88) and a DATA frame moves a WRITE or a SYNC in nothing (R84). A CREDIT at a
WRITE past ASKING moves its sender counters (R88, R89), empties the slots that base has passed (R69, R71), and takes WAITING to MOVING
once blocks are allowed (R34); the eighth rewind ends the record LINK_FAULT with its base, a CANCEL owed (R91); a base at the block
count completes its data (R36). What a CREDIT does to a READ and DATA to a WRITE after the acceptance is read from R88 and R84 (log 23,
DEDUCED). The gap rewind of a CREDIT is done in a self exchange too (log 32, DESIGN CHOICE). The offer of an orphan answer, whatever its
body and whatever else waits (R109, R111, R112, R160): nothing is placed where an orphan answer of the same kind for the same exchange
waits; else it stands at the tail while fewer than 32 items wait and is dropped on a full queue. Orphan answers of other exchanges or
kinds, and items of records, do not count. -/
def Obligations.ArrivalsAtTheInitiator : Prop :=
  (∀ (s : State) (sender dest init : Station) (tag : Tag) (serial : Serial),
      let arrive (b : ItemBody) : State := s.itemToInit sender ⟨dest, init, tag, serial, b⟩
      (∀ r : InitRec, s.initRec tag = some r → r.peer = sender → r.serial = serial →
        (∀ n k, r.state = .asking n k →
          let accepted : State := { s with exch := { s.exch with inits := s.exch.inits.map (fun x => if x.tag = tag then
            { x with state := if x.op = .sync then .awaitOutcome else .waiting
                     wanted := x.wanted.filter (fun k => decide (k ≠ .ask)) } else x) } }
          (r.op ≠ .read ∨ r.ring = none → arrive (.reply none) = accepted) ∧
          (r.op = .read → r.ring ≠ none → arrive (.reply none) = accepted.offerInit tag .credit) ∧
            ∀ why, arrive (.reply (some why)) = s.endAndTake r (r.localOutcome (match why with
              | .busy => .busy
              | .range => .range
              | .noModule => .noModule
              | .malformed => .malformed)) false false) ∧
        ((∀ n k, r.state ≠ .asking n k) → ∀ x, arrive (.reply x) = s) ∧
        ((∀ b, r.state ≠ .delivering b) → ∀ (code : OutcomeCode) (done : Nat) (status detail : Word),
          (code = .done → r.op = .read → r.count ≤ r.flow.consumed) →
            arrive (.outcome code done status detail) = s.endAndTake r (r.itemOutcome code done status detail) false true) ∧
        (r.op = .read → r.flow.consumed < r.count → ∀ (done : Nat) (status detail : Word),
          arrive (.outcome .done done status detail) = s) ∧
        (∀ c, r.state = .delivering c → (∀ x, arrive (.reply x) = s) ∧ (∀ d n l, arrive (.credit d n l) = s) ∧
          (∀ (code : OutcomeCode) (done : Nat) (status detail : Word), arrive (.outcome code done status detail) = s) ∧
          ∀ d : DataBlock, d.tag = tag → d.serial = serial → s.dataToInit sender d = s)) ∧
      ((∀ r : InitRec, s.initRec tag = some r → r.peer ≠ sender ∨ r.serial ≠ serial) →
        let answered (b : ItemBody) : State := s.offerOrphan ⟨sender, s.own, tag, serial, b⟩
        arrive (.reply none) = answered .cancel ∧ (∀ d n l, arrive (.credit d n l) = answered .cancel) ∧
        (∀ (code : OutcomeCode) (done : Nat) (status detail : Word), arrive (.outcome code done status detail) = answered .close) ∧
        (∀ why, arrive (.reply (some why)) = s) ∧ (∀ d : DataBlock, d.tag = tag → d.serial = serial → s.dataToInit sender d = answered .cancel) ∧
        (∀ b, (⟨⟨sender, s.own, tag, serial, b⟩, .orphan⟩ : PendingItem) ∈ s.sched.items → answered b = s) ∧
        (∀ b ∈ [ItemBody.cancel, .close], (∀ p ∈ s.sched.items, p.origin ≠ .orphan) → s.sched.items.length < 32 →
          answered b = { s with sched := { s.sched with items := s.sched.items ++ [⟨⟨sender, s.own, tag, serial, b⟩, .orphan⟩] } }) ∧
        (∀ b ∈ [ItemBody.cancel, .close], 32 ≤ s.sched.items.length → answered b = s))) ∧
  (∀ (s : State) (r : InitRec) (dest init : Station), s.initRec r.tag = some r →
      let at_ (u : State) (b : ItemBody) : State := u.itemToInit r.peer ⟨dest, init, r.tag, r.serial, b⟩
      let accepted : State := at_ s (.reply none)
      (∀ n k, r.state = .asking n k →
        (∀ d ne limit, at_ s (.credit d ne limit) = at_ accepted (.credit d ne limit)) ∧
        (∀ d : DataBlock, d.tag = r.tag → d.serial = r.serial → s.dataToInit r.peer d = accepted.dataToInit r.peer d)) ∧
      ((∀ n k, r.state ≠ .asking n k) →
        (r.op ≠ .write → ∀ d ne limit, at_ s (.credit d ne limit) = s) ∧
        (r.op ≠ .read → ∀ d : DataBlock, d.tag = r.tag → d.serial = r.serial → s.dataToInit r.peer d = s)) ∧
      (∀ (c : SendCounters) (ne limit : Nat) (d : Role), r.op = .write → r.flow = .sender c →
        (∀ n k, r.state ≠ .asking n k) → (∀ b, r.state ≠ .delivering b) →
        let c' := (c.credit r.count ne limit).1
        let r' : InitRec := { r with
          flow := .sender c'
          ring := r.ring.map (List.map (fun x => match x.st with
            | .full b => if c.base ≤ b ∧ b < c'.base then { x with st := .empty } else x
            | _ => x))
          state := if r.state = .waiting ∧ 0 < c'.limit then .moving else r.state }
        let u : State := { s with exch := { s.exch with inits := s.exch.inits.map (fun x => if x.tag = r.tag then r' else x) } }
        ((c.credit r.count ne limit).2 = true →
          at_ s (.credit d ne limit) = u.endAndTake r' ⟨.linkFault, c'.base, false, none⟩ true false) ∧
        ((c.credit r.count ne limit).2 = false →
          (c'.base = r.count → r'.state = .waiting ∨ r'.state = .moving → at_ s (.credit d ne limit) = u.completeInit r') ∧
          (c'.base ≠ r.count ∨ r.state = .awaitOutcome → at_ s (.credit d ne limit) = u)))) ∧
  (∀ (s : State) (i : Item),
      let alike : Prop := ∃ p ∈ s.sched.items, p.origin = .orphan ∧ p.item.init = i.init ∧ p.item.tag = i.tag ∧ p.item.serial = i.serial ∧
        p.item.body.kind = i.body.kind
      (alike → s.offerOrphan i = s) ∧ (¬ alike → s.offerOrphan i = s.offer i .orphan) ∧
      (¬ alike → (∀ d n l, i.body ≠ .credit d n l) →
        (s.sched.items.length < 32 →
          s.offerOrphan i = { s with sched := { s.sched with items := s.sched.items ++ [⟨i, .orphan⟩] } }) ∧
        (32 ≤ s.sched.items.length → s.offerOrphan i = s)))

/-- A matching DATA frame at an initiator READ that heads its channel, past ASKING (R83, R72, R85): the next-expected block that finds
its slot EMPTY is stored in the area of its slot, next-expected rises and a CREDIT is queued; another block is discarded and a CREDIT is
queued all the same. That an area is the 512 bytes from 512 times its number is log 5 (DESIGN CHOICE). A matching DATA frame at an
initiator READ that holds no ring, behind another head or in AWAIT_OUTCOME: its block is discarded and a CREDIT is queued all the same
(R83, R85). One at a READ in DELIVERING has no effect (R40, R84). -/
def Obligations.DataAtAnInitiatorRead : Prop :=
  (∀ (s : State) (r : InitRec) (c : RecvCounters) (ring : Ring) (slot : Slot) (d : DataBlock),
      s.initRec d.tag = some r → r.serial = d.serial → r.op = .read → r.state = .waiting ∨ r.state = .moving →
      r.flow = .receiver c → r.ring = some ring → ring[d.index % ring.length]? = some slot →
      (d.index = c.expected → d.index < r.count → slot.st = .empty → s.buf.ram.wf = true → d.bytes.length = 512 →
        ∃ m : Memory, m.wf = true ∧ m.readBlock slot.area = d.bytes ∧
          (∀ a, a < slot.area.val * 512 ∨ slot.area.val * 512 + 512 ≤ a → m.read a = s.buf.ram.read a) ∧
          s.dataToInit r.peer d = ({ s with
            buf := { s.buf with ram := m }
            exch := { s.exch with inits := s.exch.inits.map (fun x => if x.tag = d.tag then
              { r with state := .moving, flow := .receiver { c with expected := c.expected + 1 },
                       ring := some (ring.modify (d.index % ring.length) (fun y => { y with st := .full d.index })) } else x) } } :
            State).offerInit d.tag .credit) ∧
      (d.index ≠ c.expected ∨ r.count ≤ d.index ∨ slot.st ≠ .empty → s.dataToInit r.peer d = s.offerInit d.tag .credit)) ∧
  (∀ (s : State) (r : InitRec) (d : DataBlock), s.initRec d.tag = some r → r.serial = d.serial → r.op = .read →
      (r.ring = none → r.state = .waiting ∨ r.state = .moving ∨ r.state = .awaitOutcome →
        s.dataToInit r.peer d = s.offerInit d.tag .credit) ∧
      (∀ b, r.state = .delivering b → s.dataToInit r.peer d = s))

/-- Arrivals at the target role. A CANCEL, CREDIT or DATA on a key that holds no record earns an OUTCOME PEER_FORGOT (R109); a CLOSE
there is ignored (R56); none of them is taken from a station that is not its initiator (R102, R82, R109). A matching CANCEL settles a
record in QUEUED or FINISHING with CANCELLED (R102, R98); a matching CLOSE, taken from whatever station sends it (log 16, DESIGN
CHOICE), frees a SETTLING record whose ring is released (R55), and has no effect on one in QUEUED, ACTIVE or FINISHING (R56). Matching
arrivals that a target record does not take: DATA at a READ or a SYNC, and at a WRITE outside QUEUED and ACTIVE (R84, R83); CREDIT at a
WRITE or a SYNC, and at a READ outside QUEUED, ACTIVE and FINISHING (R88, R55). No CREDIT is queued and nothing changes. -/
def Obligations.ArrivalsAtTheTarget : Prop :=
  (∀ (s : State) (dest init : Station) (tag : Tag) (serial : Serial),
      let arrive (sender : Station) (b : ItemBody) : State := s.itemToTarget sender ⟨dest, init, tag, serial, b⟩
      let forgot : State := s.offerOrphan ⟨init, init, tag, serial, .outcome .peerForgot 0 0 0⟩
      (∀ sender, sender ≠ init → arrive sender .cancel = s ∧ (∀ d n l, arrive sender (.credit d n l) = s) ∧
        ∀ d : DataBlock, d.init = init → s.dataToTarget sender d = s) ∧
      (s.targetRec init tag = none → arrive init .cancel = forgot ∧ (∀ d n l, arrive init (.credit d n l) = forgot) ∧
        (∀ d : DataBlock, d.init = init → d.tag = tag → d.serial = serial → s.dataToTarget init d = forgot) ∧
        ∀ sender, arrive sender .close = s) ∧
      (∀ r : TargetRec, s.targetRec init tag = some r →
        (r.id ≠ some ⟨init, tag, serial⟩ → ∀ sender, arrive sender .close = s) ∧
        (r.id = some ⟨init, tag, serial⟩ →
          let settled (done : Nat) (free : List AreaNo) : State := { s with
            exch := { s.exch with targets := s.exch.targets.map (fun x => if x.keyed init tag then
              { x with state := .settling true 0, ring := none, priming := none, starvation := none,
                       wanted := x.wanted.filter (fun k => decide (k ≠ .reply) && decide (k ≠ .credit)),
                       outcome := some ⟨.cancelled, done, true, none⟩ } else x) }
            buf := { s.buf with servFree := s.buf.servFree ++ free } }
          (r.state = .queued → r.ring = none → arrive init .cancel = (settled 0 []).grant) ∧
          (r.state = .finishing → arrive init .cancel = (settled r.count (r.ring.elim [] (List.map Slot.area))).grant) ∧
          (∀ b k sender, r.state = .settling b k → arrive init .cancel = s.grant ∧
            (r.ring = none → (∀ p ∈ s.sched.items ++ s.sched.loopItems, p.origin ≠ .record) →
              arrive sender .close = ({ s with exch := { s.exch with
                targets := s.exch.targets.filter (fun x => !x.keyed init tag) } } : State).grant)) ∧
          (∀ sender, r.state = .queued ∨ r.state = .active ∨ r.state = .finishing → arrive sender .close = s)))) ∧
  (∀ (s : State) (r : TargetRec) (i : ExchId), s.targetRec i.peer i.tag = some r → r.id = some i →
      let noData : Prop := ∀ d : DataBlock, d.init = i.peer → d.tag = i.tag → d.serial = i.serial → s.dataToTarget i.peer d = s
      let noCredit : Prop := ∀ dest d n l, s.itemToTarget i.peer ⟨dest, i.peer, i.tag, i.serial, .credit d n l⟩ = s
      (∀ c, r.op = .read → r.flow = .sender c → noData ∧ ((∃ b k, r.state = .settling b k) → noCredit)) ∧
      (r.op = .sync → r.flow = .none → noData ∧ noCredit) ∧
      (∀ c, r.op = .write → r.flow = .receiver c → noCredit ∧ ((∃ b k, r.state = .settling b k) → noData)))

/-! ### Target records that are given up -/

/-- How a target record that is given up without an outcome goes (R17, R44, R57, R105, R110), and how a matching CANCEL, CLOSE, or an
eighth rewind ends it (R55, R92, R98, R102). A QUEUED or FINISHING record is freed, its ring given back slot 0 first; a SETTLING one is
freed, or DETACHED while its ring is still run out. An ACTIVE one leaves the port by its phase (R127): priming, the port IDLE; a setup
whose COMMAND write has not begun stops at the access in flight; else a READ runs out to ATTN, its FULL slots EMPTY and its ring held
(R76), a WRITE leads to a module reset with its ring held (R77, R128), a SYNC runs out without a ring. DETACHED has no peer, tag, serial
nor wanted items. A CANCEL at an ACTIVE record stops the port the same way and settles it with blocks moved locally. Arrivals that end
the record on their key (R44, R110). A valid ASK that is no duplicate, with another serial or with the same one and another operation,
block count or block address (R41), ends the old record, the grant that this allows follows, and then the ASK is refused BUSY or makes
its record as on a free key, with the counts as they then stand (R45; the grant before the REPLY is log 13, DESIGN CHOICE). A CANCEL,
CREDIT or DATA frame under another serial ends the record; the answer PEER_FORGOT is queued, but for a SETTLING record, ahead of the
grant (log 24, DESIGN CHOICE). -/
def Obligations.TargetRecordsGivenUp : Prop :=
  (∀ (s : State) (r : TargetRec) (i : ExchId), s.targetRec i.peer i.tag = some r → r.id = some i →
      let back : List AreaNo := r.ring.elim [] (List.map Slot.area)
      let freed (u : State) : State := { u.fixRecord i .initiator r.flow.expected with
        exch := { u.exch with targets := u.exch.targets.filter (fun x => !x.keyed i.peer i.tag) }
        buf := { u.buf with servFree := u.buf.servFree ++ back } }
      let detached (u : State) : State := { u.fixRecord i .initiator r.flow.expected with
        exch := { u.exch with targets := u.exch.targets.map (fun x => if x.keyed i.peer i.tag then
          { x with id := none, state := .detached, wanted := [], priming := none, starvation := none } else x) } }
      let settled (u : State) (code : OutcomeCode) (done : Nat) (hold : Bool) : State := { u with
        exch := { u.exch with targets := u.exch.targets.map (fun x => if x.keyed i.peer i.tag then
          { x with state := .settling true 0, ring := if hold then x.ring else none, priming := none, starvation := none,
                   wanted := x.wanted.filter (fun k => decide (k ≠ .reply) && decide (k ≠ .credit)),
                   outcome := some ⟨code, done, true, none⟩ } else x) }
        buf := { u.buf with servFree := if hold then u.buf.servFree else u.buf.servFree ++ back } }
      let active (f : Slot → Slot) : State := { s with exch := { s.exch with
        targets := s.exch.targets.map (fun x => if x.state = .active then { x with ring := x.ring.map (List.map f) } else x) } }
      let idle : State := s.withPort { s.port with
        state := .idle, access := none, transfer := none, attention := none, watchdog := none }
      let stopping : State := s.withPort { s.port with state := .serving .stopping }
      let runOut : State := (active (fun x => match x.st with
        | .full _ => { x with st := .empty }
        | _ => x)).withPort { s.port with state := .serving (.runOut r.moved r.count), watchdog := some (s.port.watchdog.getD 0) }
      let reset : State := { ((active (fun x => match x.st with
        | .filling _ _ => { x with st := .empty }
        | .draining _ _ => { x with st := .empty }
        | _ => x)).withPort { s.port with
          state := .resetting true, access := none, transfer := none, attention := none, watchdog := none }) with
        host := { s.host with flags := s.host.flags ||| 16 } }
      let outstanding : Prop := (∃ k, s.port.state = .serving (.setup k) ∧ k + 1 = if r.op = .sync then 1 else 5) ∨
        s.port.state = .serving .data ∨ s.port.state = .serving .closing
      let setUp (k : Nat) : Prop := s.port.state = .serving (.setup k) ∧ k + 1 ≠ if r.op = .sync then 1 else 5
      (r.state = .queued ∨ r.state = .finishing → s.dropTarget r = freed s) ∧
      (∀ b k, r.state = .settling b k →
        (r.ring = none → s.dropTarget r = freed s ∧ s.closeArrives r = (freed s).grant) ∧
        (r.ring ≠ none → s.dropTarget r = detached s ∧ s.closeArrives r = (detached s).grant)) ∧
      (r.state = .active →
        (s.port.state = .serving .priming → s.dropTarget r = freed idle ∧
          s.cancelArrives r = (settled idle .cancelled r.moved false).grant) ∧
        (∀ k, setUp k → s.dropTarget r = freed stopping ∧
          s.cancelArrives r = (settled stopping .cancelled r.moved false).grant) ∧
        (outstanding →
          (r.op = .read → s.dropTarget r = (detached runOut).moverCheck ∧
            s.cancelArrives r = (settled runOut .cancelled r.moved true).moverCheck.grant ∧
            s.rewindLimitTarget r = (settled runOut .linkFault r.moved true).moverCheck.grant) ∧
          (r.op = .write → s.dropTarget r = detached reset ∧
            s.cancelArrives r = (settled reset .cancelled r.moved true).grant) ∧
          (r.op = .sync → s.dropTarget r = (freed runOut).moverCheck ∧
            s.cancelArrives r = (settled runOut .cancelled r.moved false).moverCheck.grant))) ∧
      (∀ u : State, (∃ n c, u.port.state = .serving (.runOut n c)) → u.port.xfer = false → u.moverCheck = u)) ∧
  (∀ (s : State) (r : TargetRec) (dest init : Station) (tag : Tag) (serial : Serial), s.targetRec init tag = some r →
      let forgot (u : State) : State := u.offerOrphan ⟨init, init, tag, serial, .outcome .peerForgot 0 0 0⟩
      let told (u : State) : Prop :=
        ((∃ b k, r.state = .settling b k) → u = (s.dropTarget r).grant) ∧
        ((∀ b k, r.state ≠ .settling b k) → u = (forgot (s.dropTarget r)).grant)
      (r.serial ≠ serial → told (s.itemToTarget init ⟨dest, init, tag, serial, .cancel⟩) ∧
        (∀ d n l, told (s.itemToTarget init ⟨dest, init, tag, serial, .credit d n l⟩)) ∧
        ∀ d : DataBlock, d.init = init → d.tag = tag → d.serial = serial → told (s.dataToTarget init d)) ∧
      (∀ (op : Byte) (count : Nat) (addr : BlockAddr),
        r.serial ≠ serial ∨ opCode r.op ≠ op.toNat ∨ r.count ≠ count ∨ (r.op ≠ .sync ∧ r.addr ≠ addr) →
        (op = 1 ∨ op = 2 → 1 ≤ count ∧ count ≤ 256 ∧ addr.toNat + count ≤ s.port.capacity.toNat) → (op = 3 → count = 0) →
        op = 1 ∨ op = 2 ∨ op = 3 →
        s.port.state = .idle ∨ (∃ x, s.port.state = .serving x) ∨ (∃ k, s.port.state = .maintaining k) →
        let t : State := s.itemArrives init ⟨dest, init, tag, serial, .ask op count addr⟩
        let u : State := (s.dropTarget r).grant
        let full : Prop := 8 ≤ (u.exch.targets.filter (fun x => decide (x.state = .queued))).length ∨ 16 ≤ u.exch.targets.length
        (full → t = u.offer ⟨init, init, tag, serial, .reply (some .busy)⟩ .fixed) ∧
        (¬ full → ∃ x : TargetRec, x.id = some ⟨init, tag, serial⟩ ∧ opCode x.op = op.toNat ∧ x.count = count ∧
          (x.op ≠ .sync → x.addr = addr) ∧ x.state = .queued ∧ x.ring = none ∧ x.moved = 0 ∧ x.priming = none ∧ x.starvation = none ∧
          x.wanted = [] ∧ x.outcome = none ∧ x.flow = (match x.op with
            | .read => .sender ⟨0, 0, 0, 0, 0⟩
            | .write => .receiver ⟨0, 0⟩
            | .sync => .none) ∧
          t = (({ u with exch := { u.exch with targets := u.exch.targets ++ [x] } } : State).offerTarget init tag .reply).grant)))

/-! ### Blocks on the way -/

/-- Sendable blocks (R79, R80): block next-to-send of a target READ in ACTIVE or FINISHING, or of an initiator WRITE in WAITING or
MOVING that heads its channel, below the credit limit received, its slot FULL with that block; every other record has none. An own turn
(R144, R81, R163, R164) with one such block of a FINISHING READ, toward another station, at the last block the limit allows sends it in
a DATA frame: next-to-send rises and the position is served last. The picks of a turn (R81, R80, R93): each takes, of the sendable
blocks whose budget is not spent, the one whose position comes first after the position served last, in the order of initiator station,
tag and role that wraps from the last position to the first; next-to-send of its record rises, its position is served last, and its
frame is charged to the line or to the loopback budget. The picks end when no such block is left. In a state whose records keep their
limits there is always one nearest block (R3). -/
def Obligations.OwnTurnSendsABlock : Prop :=
  ((∀ (s : State) (r : InitRec) (c : SendCounters) (ring : Ring), r.flow = .sender c → r.ring = some ring →
      (∀ a, r.state = .waiting ∨ r.state = .moving → s.headsChannel r = true → c.next < c.limit →
        ring[c.next % ring.length]? = some ⟨a, .full c.next⟩ →
        s.initSendable r = some ⟨⟨s.own, r.tag, .initiator⟩, ⟨r.peer, s.own, r.tag, r.serial, c.next, s.buf.ram.readBlock a⟩⟩) ∧
      (¬ (r.state = .waiting ∨ r.state = .moving) ∨ s.headsChannel r = false ∨ c.limit ≤ c.next ∨
        (∀ a, ring[c.next % ring.length]? ≠ some ⟨a, .full c.next⟩) → s.initSendable r = none)) ∧
    (∀ (s : State) (r : TargetRec) (i : ExchId) (c : SendCounters) (ring : Ring), r.id = some i → r.flow = .sender c → r.ring = some ring →
      (∀ a, r.state = .active ∨ r.state = .finishing → c.next < c.limit → ring[c.next % ring.length]? = some ⟨a, .full c.next⟩ →
        s.targetSendable r = some ⟨⟨i.peer, i.tag, .target⟩, ⟨i.peer, i.peer, i.tag, i.serial, c.next, s.buf.ram.readBlock a⟩⟩) ∧
      (¬ (r.state = .active ∨ r.state = .finishing) ∨ c.limit ≤ c.next ∨
        (∀ a, ring[c.next % ring.length]? ≠ some ⟨a, .full c.next⟩) → s.targetSendable r = none)) ∧
    (∀ (s : State) (r : InitRec), (∀ c, r.flow ≠ .sender c) ∨ r.ring = none → s.initSendable r = none) ∧
    (∀ (s : State) (r : TargetRec), (∀ c, r.flow ≠ .sender c) ∨ r.ring = none → s.targetSendable r = none) ∧
    (∀ (s : State) (r : TargetRec) (i : ExchId) (c : SendCounters) (ring : Ring) (a : AreaNo) (w : BitVec 16),
      (∀ n : Station, w.getLsbD n.val = s.member.roster[n].present) → s.member.link = .member → s.sched.items = [] →
      s.sched.loopItems = [] → s.exch.inits = [] → s.exch.targets = [r] → r.id = some i → i.peer ≠ s.own → r.op = .read →
      r.state = .finishing → r.wanted = [] → r.flow = .sender c → c.base = c.next → c.next + 1 = c.limit → r.ring = some ring →
      ring[c.next % ring.length]? = some ⟨a, .full c.next⟩ →
      s.memberTurn = { s with
        exch := { s.exch with targets := [{ r with flow := .sender { c with next := c.next + 1 } }] }
        sched := { s.sched with rotation := ⟨i.peer, i.tag, .target⟩ }
        line := { receiving := false, tx := some ⟨.ownTurn, [⟨.data, s.own, true, s.port.state.ready, w,
          .data ⟨i.peer, i.peer, i.tag, i.serial, c.next, s.buf.ram.readBlock a⟩⟩]⟩ } })) ∧
  (∀ s : State,
      let number (p : Position) : Nat := p.station.val * 16 + p.tag.val * 2 + (if p.role = .initiator then 0 else 1)
      let distance (p : Position) : Nat := (number p + 255 - number s.sched.rotation) % 256
      let risen (f : Flow) : Flow := match f with
        | .sender c => .sender { c with next := c.next + 1 }
        | g => g
      let served (p : Position) : State := { s with
        sched := { s.sched with rotation := p }
        exch := match p.role with
          | .initiator => { s.exch with inits := s.exch.inits.map (fun x =>
              if x.tag = p.tag then { x with flow := risen x.flow } else x) }
          | .target => { s.exch with targets := s.exch.targets.map (fun x =>
              if x.keyed p.station p.tag then { x with flow := risen x.flow } else x) } }
      (∀ x, x ∈ s.sendables ↔ (∃ r ∈ s.exch.inits, s.initSendable r = some x) ∨ ∃ r ∈ s.exch.targets, s.targetSendable r = some x) ∧
      (∀ line loop fuel : Nat, line + loop ≤ fuel →
        let eligible (x : Sendable) : Prop := x ∈ s.sendables ∧ if x.data.dest = s.own then 0 < loop else 0 < line
        ((∀ x, ¬ eligible x) → s.picks fuel line loop = (s, [])) ∧
        (s.recordsLimited → (∃ x, eligible x) →
          ∃ x, eligible x ∧ (∀ y, eligible y → y ≠ x → distance x.position < distance y.position) ∧
            ∀ fuel', line + loop ≤ fuel' + 1 →
              let rest := (served x.position).picks fuel' (if x.data.dest = s.own then line else line - 1)
                (if x.data.dest = s.own then loop - 1 else loop)
              s.picks fuel line loop = (rest.1, x :: rest.2))))

/-- A matching DATA frame at a target WRITE (R83, R72, R84, R85, R50): in QUEUED, without a ring, it is not accepted; the next-expected
block that finds its slot EMPTY is stored, block 0 ends the priming and starts the built script; each arrival queues a CREDIT. One in
SETTLING or FINISHING is discarded. An accepted block at an ACTIVE target WRITE whose priming is over (R72, R83, R122, R123, R126): it
is stored and next-expected rises. In the data phase with no transfer in flight the next block transfer begins where it now may, which
ends a wait on the ring, and a wait goes on where it may not; elsewhere nothing more happens. Its CREDIT is queued last (log 24, DESIGN
CHOICE). -/
def Obligations.DataAtATargetWrite : Prop :=
  (∀ (s : State) (r : TargetRec) (c : RecvCounters) (d : DataBlock), s.targetRec d.init d.tag = some r →
      r.id = some ⟨d.init, d.tag, d.serial⟩ → r.flow = .receiver c → r.op = .write →
      (r.state = .queued → r.ring = none → s.dataToTarget d.init d = s.offerTarget d.init d.tag .credit) ∧
      ((∃ b k, r.state = .settling b k) ∨ r.state = .finishing → s.dataToTarget d.init d = s) ∧
      (∀ (ring : Ring) (slot : Slot), r.state = .active → r.ring = some ring → ring[d.index % ring.length]? = some slot →
        let stored (n : Option Nat) : State := { s with
          buf := { s.buf with ram := s.buf.ram.writeBlock slot.area d.bytes }
          exch := { s.exch with targets := s.exch.targets.map (fun x => if x.keyed d.init d.tag then
            { r with ring := some (ring.modify (d.index % ring.length) (fun y => { y with st := .full d.index })), priming := n,
                     flow := .receiver { c with expected := c.expected + 1 } } else x) } }
        (d.index ≠ c.expected ∨ r.count ≤ d.index ∨ slot.st ≠ .empty →
          s.dataToTarget d.init d = s.offerTarget d.init d.tag .credit) ∧
        (d.index = c.expected → d.index < r.count → slot.st = .empty →
          (∀ k, r.priming = none → s.port.state = .serving (.setup k) →
            s.dataToTarget d.init d = (stored none).offerTarget d.init d.tag .credit) ∧
          (∀ n, r.priming = some n → s.dataToTarget d.init d = ((stored none).withPort { s.port with
            state := .serving (.setup 0), access := some ⟨1, some (BitVec.ofNat 16 (r.count % 256))⟩, watchdog := some 0 }).offerTarget
              d.init d.tag .credit)))) ∧
  (∀ (s : State) (r : TargetRec) (c : RecvCounters) (d : DataBlock) (ring : Ring) (slot : Slot), s.targetRec d.init d.tag = some r →
      r.id = some ⟨d.init, d.tag, d.serial⟩ → r.flow = .receiver c → r.op = .write → r.state = .active → r.priming = none →
      r.ring = some ring → ring[d.index % ring.length]? = some slot → d.index = c.expected → d.index < r.count → slot.st = .empty →
      let stored : State := { s with
        buf := { s.buf with ram := s.buf.ram.writeBlock slot.area d.bytes }
        exch := { s.exch with targets := s.exch.targets.map (fun x => if x.keyed d.init d.tag then
          { r with ring := some (ring.modify (d.index % ring.length) (fun y => { y with st := .full d.index })),
                   flow := .receiver { c with expected := c.expected + 1 } } else x) } }
      let credited (u : State) : State := u.offerTarget d.init d.tag .credit
      let waiting (f : TargetRec → TargetRec) (w : Option Nat) : State := ({ stored with exch := { stored.exch with
        targets := stored.exch.targets.map (fun x => if x.state = .active then f x else x) } } : State).withPort
          { s.port with watchdog := w }
      let t : State := s.dataToTarget d.init d
      (s.port.state ≠ .serving .data → (∀ n k, s.port.state ≠ .serving (.runOut n k)) → t = credited stored) ∧
      (s.port.state = .serving .data →
        (s.port.transfer ≠ none → t = credited stored) ∧
        (stored.transferMayBegin = true → ∃ u, exec .blockTransferBegin stored = .next u ∧ t = credited u) ∧
        (s.port.transfer = none → stored.transferMayBegin = false →
          (s.port.xfer = true → t = credited (waiting (fun x => { x with starvation := some (x.starvation.getD 0) }) none)) ∧
          (s.port.xfer = false → t = credited (waiting (fun x => { x with starvation := none }) (some (s.port.watchdog.getD 0)))))))

/-- A matching CREDIT at a target READ (R88, R89, R52, R69): in QUEUED it moves the sender counters alone; in FINISHING a base that
reaches the block count settles the record DONE and gives its ring back, and the arbiter decides; in SETTLING it is taken without
effect. The gap rewind is done in a self exchange too (log 32, DESIGN CHOICE). A matching CREDIT at a target READ that sends (R88, R89,
R69, R71, R52, R92, R123, R126). It moves the sender counters, and the slots that base has passed become EMPTY. In FINISHING the record
settles DONE once base is the block count, LINK_FAULT at the eighth rewind, and goes on else. In ACTIVE the eighth rewind ends it; else,
in the data phase with no transfer in flight, the next block begins where it now may, which ends a wait on the ring, and a wait goes on
where it may not; elsewhere nothing more happens. -/
def Obligations.CreditAtATargetRead : Prop :=
  (∀ (s : State) (r : TargetRec) (dest init : Station) (tag : Tag) (serial : Serial) (ne limit : Nat),
      s.targetRec init tag = some r → r.id = some ⟨init, tag, serial⟩ →
      let t := s.itemToTarget init ⟨dest, init, tag, serial, .credit .target ne limit⟩
      ((∃ b k, r.state = .settling b k) → t = s) ∧
      (∀ c, r.flow = .sender c →
        let d := (c.credit r.count ne limit).1
        (r.state = .queued → r.ring = none → (c.credit r.count ne limit).2 = false → t = { s with exch := { s.exch with
          targets := s.exch.targets.map (fun x => if x.keyed init tag then { r with flow := .sender d } else x) } }) ∧
        (r.state = .finishing → c.base < r.count → c.next ≤ r.count → r.count ≤ ne → t = ({ s with
          exch := { s.exch with targets := s.exch.targets.map (fun x => if x.keyed init tag then
            { r with flow := .sender d, state := .settling true 0, ring := none, priming := none, starvation := none,
                     wanted := r.wanted.filter (fun k => decide (k ≠ .reply) && decide (k ≠ .credit)),
                     outcome := some ⟨.done, r.count, true, none⟩ } else x) }
          buf := { s.buf with servFree := s.buf.servFree ++ r.ring.elim [] (List.map Slot.area) } } : State).grant))) ∧
  (∀ (s : State) (r : TargetRec) (i : ExchId) (dest : Station) (d : Role) (c : SendCounters) (ne limit : Nat),
      s.targetRec i.peer i.tag = some r → r.id = some i → r.op = .read → r.flow = .sender c →
      let t : State := s.itemToTarget i.peer ⟨dest, i.peer, i.tag, i.serial, .credit d ne limit⟩
      let c' : SendCounters := (c.credit r.count ne limit).1
      let ends : Prop := (c.credit r.count ne limit).2 = true
      let r' : TargetRec := { r with
        flow := .sender c'
        ring := r.ring.map (List.map (fun x => match x.st with
          | .full b => if c.base ≤ b ∧ b < c'.base then { x with st := .empty } else x
          | _ => x)) }
      let u : State := { s with exch := { s.exch with
        targets := s.exch.targets.map (fun x => if x.keyed i.peer i.tag then r' else x) } }
      let settled (code : OutcomeCode) : State := { u with
        exch := { u.exch with targets := u.exch.targets.map (fun x => if x.keyed i.peer i.tag then
          { r' with state := .settling true 0, ring := none, priming := none, starvation := none,
                    wanted := r.wanted.filter (fun k => decide (k ≠ .reply) && decide (k ≠ .credit)),
                    outcome := some ⟨code, r.count, true, none⟩ } else x) }
        buf := { s.buf with servFree := s.buf.servFree ++ r.ring.elim [] (List.map Slot.area) } }
      (r.state = .finishing →
        (ends → t = (settled .linkFault).grant) ∧ (¬ ends → c'.base = r.count → t = (settled .done).grant) ∧
        (¬ ends → c'.base ≠ r.count → t = u)) ∧
      (r.state = .active →
        (ends → t = u.rewindLimitTarget r') ∧
        (¬ ends → s.port.state ≠ .serving .data → (∀ n k, s.port.state ≠ .serving (.runOut n k)) → t = u) ∧
        (¬ ends → s.port.state = .serving .data →
          let waiting (f : TargetRec → TargetRec) (w : Option Nat) : State := ({ u with exch := { u.exch with
            targets := u.exch.targets.map (fun x => if x.state = .active then f x else x) } } : State).withPort
              { s.port with watchdog := w }
          (s.port.transfer ≠ none → t = u) ∧
          (u.transferMayBegin = true → exec .blockTransferBegin u = .next t) ∧
          (s.port.transfer = none → u.transferMayBegin = false →
            (s.port.xfer = true → t = waiting (fun x => { x with starvation := some (x.starvation.getD 0) }) none) ∧
            (s.port.xfer = false → t = waiting (fun x => { x with starvation := none }) (some (s.port.watchdog.getD 0)))))))

/-! ### The line -/

/-- What reaches the station beside an intact frame. The start of a frame and a corrupt frame set the activity mark while turns are
tracked, and nothing else of the turn order (R141, R142); bytes shorter than 12, with a bad CRC-32, or from the own station number are a
corrupt frame (R142, R157; log 10, DESIGN CHOICE, for the operand). While the station drives the line it hears nothing (R165). -/
def Obligations.LineActivity : Prop :=
  ∀ s : State, s.configured = true →
    let tracked := s.member.link = .listening ∨ s.member.link = .joining ∨ s.member.link = .member ∨ s.member.link = .leaving
    let heard (receiving : Bool) (mark : Bool) : State := { s with line := { s.line with receiving := receiving }
                                                                   member := { s.member with activity := mark } }
    (s.line.tx = none → (tracked → exec .corruptFrame s = .next (heard false true) ∧
        exec .receivedFrameStart s = .next (heard true true)) ∧
      (¬ tracked → exec .corruptFrame s = .next (heard false s.member.activity) ∧
        exec .receivedFrameStart s = .next (heard true s.member.activity)) ∧
      (∀ bytes : List Byte, bytes.length < 12 ∨ bytes.drop (bytes.length - 4) ≠ crcBytes (crc32 (bytes.take (bytes.length - 4))) →
        exec (.intactFrameReceived bytes) s = exec .corruptFrame s) ∧
      (∀ f : Frame, f.fits → f.sender = s.own → exec (.intactFrameReceived f.encode) s = exec .corruptFrame s)) ∧
    (s.line.tx ≠ none → exec .corruptFrame s = .next s ∧ exec .receivedFrameStart s = .next s ∧
      ∀ bytes, exec (.intactFrameReceived bytes) s = .next s)

/-- The turn order (R143, R145, R146, R135): the next present station after `n` by rising number, or OPEN; the lowest present station;
presence is read from the roster in MEMBER and LEAVING, from the provisional view in LISTENING and JOINING. -/
def Obligations.TurnOrder : Prop :=
  ∀ s : State,
    let counts (n : Station) : Prop :=
      if s.member.link = .listening ∨ s.member.link = .joining then s.member.view.getLsbD n.val = true
      else s.member.roster[n].present = true
    (∀ n m : Station, s.nextAfter n = some m ↔ n < m ∧ counts m ∧ ∀ k, n < k → k < m → ¬ counts k) ∧
    (∀ n : Station, s.nextAfter n = none ↔ ∀ m, n < m → ¬ counts m) ∧
    (∀ m : Station, s.lowest = some m ↔ counts m ∧ ∀ k, k < m → ¬ counts k) ∧
    (s.lowest = none ↔ ∀ m, ¬ counts m)

/-- An intact frame at a MEMBER, from another station (R143, R150, R158): misses of its sender become 0 and its module ready is the
header's, a station absent before is added with the generation and ROSTER; the items of a CONTROL frame addressed to the station are
taken in their order, then the sender holds the turn, or the next present station after it when the frame is the last of the turn. A
PASS, CONTROL or DATA frame heard by a LEAVING station (R148, R143, R150, R158): it counts for the roster and the holder as at a MEMBER,
its items and its DATA are discarded, and a turn that comes to the station is the LEAVE frame. Frames whose payload is not used, in
every link state. A frame of a reserved kind, a CONTROL frame with an item count of 0 or above 16, and one of a length that its kind and
count do not call for are taken by their header alone (R157, R142): as a PASS frame of that header, a JOIN or LEAVE as such. Bits shown
as zero are disregarded (R190). An item of a reserved kind, a REPLY or OUTCOME with a code that names nothing is passed over (R158,
R190): the frame acts as the one that carries the others. -/
def Obligations.IntactFrameAtAMember : Prop :=
  (∀ (s : State) (f : Frame), s.configured = true → s.line.tx = none → s.member.link = .member → f.fits → f.sender ≠ s.own →
      f.kind ≠ .join → f.kind ≠ .leave →
      let rostered : State :=
        if s.member.roster[f.sender].present then { s with
          line := { s.line with receiving := false }
          member := { s.member with roster := s.member.roster.set f.sender ⟨true, 0, f.ready⟩ } }
        else { s with
          line := { s.line with receiving := false }
          member := { s.member with roster := s.member.roster.set f.sender ⟨true, 0, f.ready⟩, generation := s.member.generation + 1 }
          host := { s.host with flags := s.host.flags ||| 4 } }
      let taken : State := match f.payload with
        | .none => rostered
        | .items l => (l.filter (fun i => decide (i.dest = s.own))).foldl (fun u i => u.itemArrives f.sender i) rostered
        | .data d => if d.dest = s.own then rostered.dataArrives f.sender d else rostered
      let held : State := { taken with member := { taken.member with holder := some f.sender, activity := true } }
      (f.last = false → exec (.intactFrameReceived f.encode) s = .next held) ∧
      (f.last = true → f.payload = .none ∨ held.member.link = .member →
        (∀ m, held.nextAfter f.sender = some m → m ≠ held.own → exec (.intactFrameReceived f.encode) s = .next { held with
          member := { held.member with holder := some m, activity := false } }) ∧
        (held.nextAfter f.sender = none → exec (.intactFrameReceived f.encode) s = .next { held with
          member := { held.member with holder := none, activity := false } }) ∧
        (∀ m, held.nextAfter f.sender = some m → m = held.own → exec (.intactFrameReceived f.encode) s = .next
          ({ held with member := { held.member with holder := some m, activity := false } } : State).memberTurn))) ∧
  (∀ (s : State) (f : Frame), s.configured = true → s.line.tx = none → s.member.link = .leaving → f.fits → f.sender ≠ s.own →
      f.kind ≠ .join → f.kind ≠ .leave →
      let rostered : State :=
        if s.member.roster[f.sender].present then { s with
          line := { s.line with receiving := false }
          member := { s.member with roster := s.member.roster.set f.sender ⟨true, 0, f.ready⟩ } }
        else { s with
          line := { s.line with receiving := false }
          member := { s.member with roster := s.member.roster.set f.sender ⟨true, 0, f.ready⟩, generation := s.member.generation + 1 }
          host := { s.host with flags := s.host.flags ||| 4 } }
      let holder (h : Option Station) (mark : Bool) : State := { rostered with
        member := { rostered.member with holder := h, activity := mark } }
      (f.last = false → exec (.intactFrameReceived f.encode) s = .next (holder (some f.sender) true)) ∧
      (f.last = true →
        (∀ m, rostered.nextAfter f.sender = some m → m ≠ s.own →
          exec (.intactFrameReceived f.encode) s = .next (holder (some m) false)) ∧
        (rostered.nextAfter f.sender = none → exec (.intactFrameReceived f.encode) s = .next (holder none false)) ∧
        (rostered.nextAfter f.sender = some s.own → ∀ w : BitVec 16,
          (∀ n : Station, w.getLsbD n.val = (rostered.member.roster[n].present && decide (n ≠ s.own))) →
          exec (.intactFrameReceived f.encode) s = .next { holder (some s.own) false with
            line := { receiving := false, tx := some ⟨.leave, [⟨.leave, s.own, true, s.port.state.ready, w, .none⟩]⟩ } }))) ∧
  (∀ (s : State) (b0 b1 b2 b3 b4 b5 b6 b7 : Byte) (rest : List Byte),
      let code : Nat := b0.toNat / 16
      let body : List Byte := b0 :: b1 :: b2 :: b3 :: b4 :: b5 :: b6 :: b7 :: rest
      let actsAs (k : FrameKind) (x : Payload) : Prop := exec (.intactFrameReceived (body ++ crcBytes (crc32 body))) s =
        exec (.intactFrameReceived (⟨k, Fin.ofNat 16 b0.toNat, b1.getLsbD 7, b1.getLsbD 6, b2 ++ b3, x⟩ : Frame).encode) s
      (code = 1 ∨ code = 0 ∨ 5 < code → actsAs .pass .none) ∧ (code = 2 → actsAs .join .none) ∧ (code = 3 → actsAs .leave .none) ∧
      (code = 4 → b4.toNat = 0 ∨ 16 < b4.toNat ∨ rest.length ≠ 12 * b4.toNat → actsAs .pass .none) ∧
      (code = 5 → rest.length ≠ 512 → actsAs .pass .none) ∧
      (∀ l : List (Sum Item (List Byte)), code = 4 → b4.toNat = l.length → 1 ≤ l.length → l.length ≤ 16 →
        rest = l.flatMap (Sum.elim Item.encode id) → (∀ i, .inl i ∈ l → i.body.fits) →
        (∀ x : List Byte, .inr x ∈ l → x.length = 12 ∧
          let k : Nat := (x.getD 0 0).toNat / 16
          let c : Nat := (x.getD 3 0).toNat
          k = 0 ∨ 6 < k ∨ (k = 2 ∧ 4 < c) ∨ (k = 4 ∧ (c = 0 ∨ 16 < c))) →
        let items : List Item := l.filterMap Sum.getLeft?
        (items = [] → actsAs .pass .none) ∧ (items ≠ [] → actsAs .control (.items items))))

/-- JOIN and LEAVE at a MEMBER (R149, R150, R151, R146), from a station with which there is no exchange: a JOIN adds an absent station,
and restarts a present one, the generation rising by two; heard while OPEN it leaves the holder OPEN, last-in-turn flag or not. A LEAVE
of a present station removes it and purges the items toward it (R106); of an absent one it changes nothing of the roster. A LEAVE, and a
JOIN heard while a station holds the turn, make the sender the holder, and with the last-in-turn flag, which every LEAVE and JOIN that a
station sends has (R148, R137), the turn passes on: to the next present station, to OPEN, or to an own turn (R143, R144). JOIN and LEAVE
of any other station at a MEMBER or a LEAVING station, whatever exchanges exist with it, whatever requests wait and in every state of
the port (R149, R150, R151, R107). A JOIN of an absent station adds it. A JOIN of a present one removes it with all that R104 to R106
end, adds it again, and then the grant and, where a record was freed, the takes follow (R22, R48; the order is log 13, DESIGN CHOICE); a
LEAVE of a present one removes it and the grant and the takes follow; of an absent one it changes nothing. The holder moves as for every
frame, and at the own station its turn begins (R143, R144, R146). -/
def Obligations.JoinAndLeaveAtAMember : Prop :=
  (∀ (s : State) (f : Frame), s.configured = true → s.line.tx = none → s.member.link = .member → f.fits → f.sender ≠ s.own →
      (∀ r ∈ s.exch.inits, r.peer ≠ f.sender) → (∀ r ∈ s.exch.targets, ∀ i, r.id = some i → i.peer ≠ f.sender) →
      s.host.requests = [] → s.port.state ≠ .idle →
      let heard : State := { s with line := { s.line with receiving := false } }
      let rostered (e : RosterEntry) (n : BitVec 16) (kept : List PendingItem) : State := { heard with
        host := { s.host with flags := s.host.flags ||| 4 }
        member := { s.member with roster := s.member.roster.set f.sender e, generation := s.member.generation + n }
        sched := { s.sched with items := kept } }
      let kept := s.sched.items.filter (fun p => decide (p.item.dest ≠ f.sender))
      let present : Prop := s.member.roster[f.sender].present = true
      let joined : State := if present then rostered ⟨true, 0, f.ready⟩ 2 kept else rostered ⟨true, 0, f.ready⟩ 1 s.sched.items
      let left : State := if present then rostered ⟨false, 0, false⟩ 1 kept else heard
      let passes (a : State) : Prop :=
        let held : State := { a with member := { a.member with holder := some f.sender, activity := true } }
        (f.last = false → exec (.intactFrameReceived f.encode) s = .next held) ∧
        (f.last = true →
          (∀ m, held.nextAfter f.sender = some m → m ≠ s.own → exec (.intactFrameReceived f.encode) s = .next { held with
            member := { held.member with holder := some m, activity := false } }) ∧
          (held.nextAfter f.sender = none → exec (.intactFrameReceived f.encode) s = .next { held with
            member := { held.member with holder := none, activity := false } }) ∧
          (held.nextAfter f.sender = some s.own → exec (.intactFrameReceived f.encode) s = .next
            ({ held with member := { held.member with holder := some s.own, activity := false } } : State).memberTurn))
      (f.kind = .join → s.member.holder = none → exec (.intactFrameReceived f.encode) s = .next { joined with
        member := { joined.member with activity := true } }) ∧
      (f.kind = .join → s.member.holder ≠ none → passes joined) ∧
      (f.kind = .leave → passes left)) ∧
  ((∀ u : State, u.member.link ≠ .leaving → u.ownTurn = u.memberTurn) ∧
    ∀ (s : State) (f : Frame), s.configured = true → s.line.tx = none → s.member.link = .member ∨ s.member.link = .leaving → f.fits →
      f.sender ≠ s.own →
      let heard : State := { s with line := { s.line with receiving := false } }
      let added (u : State) : State := { u with
        host := { u.host with flags := u.host.flags ||| 4 }
        member := { u.member with roster := u.member.roster.set f.sender ⟨true, 0, f.ready⟩, generation := u.member.generation + 1 } }
      let resumed (u : State) : State := if u.grant.exch.inits.length < s.exch.inits.length then u.grant.retake else u.grant
      let present : Prop := s.member.roster[f.sender].present = true
      let joined : State := if present then resumed (added (heard.forgetPeer f.sender)) else added heard
      let left : State := if present then resumed (heard.forgetPeer f.sender) else heard
      let passes (a : State) : Prop :=
        let held : State := { a with member := { a.member with holder := some f.sender, activity := true } }
        (f.last = false → exec (.intactFrameReceived f.encode) s = .next held) ∧
        (f.last = true →
          (∀ m, held.nextAfter f.sender = some m → m ≠ s.own → exec (.intactFrameReceived f.encode) s = .next { held with
            member := { held.member with holder := some m, activity := false } }) ∧
          (held.nextAfter f.sender = none → exec (.intactFrameReceived f.encode) s = .next { held with
            member := { held.member with holder := none, activity := false } }) ∧
          (held.nextAfter f.sender = some s.own → exec (.intactFrameReceived f.encode) s = .next
            ({ held with member := { held.member with holder := some s.own, activity := false } } : State).ownTurn))
      (f.kind = .join → s.member.holder = none → exec (.intactFrameReceived f.encode) s = .next { joined with
        member := { joined.member with activity := true } }) ∧
      (f.kind = .join → s.member.holder ≠ none → passes joined) ∧
      (f.kind = .leave → passes left))

/-- An intact frame off the link. A LISTENING station, and a JOINING one that the bitmap does not name, take the bitmap as the
provisional view, and the sender holds the turn (R135, R143); a JOIN frame leaves the view, and heard while OPEN the holder too (R146).
At the last of a turn the next station of the view holds it, or it is OPEN: a LISTENING station sends its first JOIN (R138), a JOINING
one counts the OPEN turn and sends again when it is due (R140). A bitmap that names a JOINING station confirms it (R139): MEMBER, every
station of the bitmap and the sender present, the generation risen by their number, and at the last of the turn the holder moves as a
MEMBER's. In OFFLINE, FOUNDING and UNCONFIGURED the frame is discarded (R134). The confirming frame of any kind but JOIN, whatever it
carries and whatever requests wait (R139, R133, R22): the station is MEMBER with the roster of that frame, the take conditions are read
as by TAKE_REQUEST, and then the frame is taken as a MEMBER takes it, its items, its DATA, a LEAVE and its last-in-turn flag included.
That the takes come before the frame's contents is log 13 (DESIGN CHOICE). -/
def Obligations.IntactFrameOffTheLink : Prop :=
  (∀ (s : State) (f : Frame), s.configured = true → s.line.tx = none → f.fits → f.sender ≠ s.own →
      let hearing (v : BitVec 16) : Prop :=
        let held : State := { s with
          line := { s.line with receiving := false }
          member := { s.member with view := v, holder := some f.sender, activity := true } }
        let opened (link : LinkState) (n : Nat) : State := { held with
          member := { held.member with link := link, holder := none, activity := false, openTurns := n } }
        let sent (u : State) : State := { u with
          line := { receiving := false, tx := some ⟨.join, [⟨.join, s.own, true, s.port.state.ready, 0, .none⟩]⟩ } }
        (f.last = false → exec (.intactFrameReceived f.encode) s = .next held) ∧
        (f.last = true →
          (∀ m, held.nextAfter f.sender = some m → exec (.intactFrameReceived f.encode) s = .next { held with
            member := { held.member with holder := some m, activity := false } }) ∧
          (held.nextAfter f.sender = none →
            (s.member.link = .listening →
              exec (.intactFrameReceived f.encode) s = .next (sent (opened .joining s.member.openTurns))) ∧
            (s.member.link = .joining → s.member.openTurns + 1 = s.own.val % 4 + 3 →
              exec (.intactFrameReceived f.encode) s = .next (sent (opened .joining (s.member.openTurns + 1)))) ∧
            (s.member.link = .joining → s.member.openTurns + 1 ≠ s.own.val % 4 + 3 →
              exec (.intactFrameReceived f.encode) s = .next (opened .joining (s.member.openTurns + 1)))))
      (s.member.link = .offline ∨ s.member.link = .founding ∨ s.member.link = .unconfigured →
        exec (.intactFrameReceived f.encode) s = .next { s with line := { s.line with receiving := false } }) ∧
      (f.kind = .join → s.member.link = .listening ∨ s.member.link = .joining →
        (s.member.holder = none → exec (.intactFrameReceived f.encode) s = .next { s with
          line := { s.line with receiving := false }
          member := { s.member with activity := true } }) ∧
        (s.member.holder ≠ none → hearing s.member.view)) ∧
      (f.kind ≠ .join →
        (s.member.link = .listening ∨ s.member.link = .joining ∧ f.roster.getLsbD s.own.val = false → hearing f.roster) ∧
        (s.member.link = .joining → f.roster.getLsbD s.own.val = true → f.payload = .none → f.kind ≠ .leave → s.host.requests = [] →
          ∃ v : Vector RosterEntry 16,
            (∀ n : Station, v[n] = if n = s.own then ⟨true, 0, s.port.state.ready⟩
              else if n = f.sender then ⟨true, 0, f.ready⟩
              else if f.roster.getLsbD n.val then ⟨true, 0, false⟩ else ⟨false, 0, false⟩) ∧
            let held : State := { s with
              line := { s.line with receiving := false }
              host := { s.host with flags := s.host.flags ||| 4 }
              member := { link := .member, roster := v, view := 0, openTurns := 0, holder := some f.sender, activity := true,
                          generation := s.member.generation +
                            BitVec.ofNat 16 (Station.all.filter (fun n => (v[n]).present)).length } }
            (f.last = false → exec (.intactFrameReceived f.encode) s = .next held) ∧
            (f.last = true →
              (∀ m, held.nextAfter f.sender = some m → m ≠ s.own → exec (.intactFrameReceived f.encode) s = .next { held with
                member := { held.member with holder := some m, activity := false } }) ∧
              (held.nextAfter f.sender = none → exec (.intactFrameReceived f.encode) s = .next { held with
                member := { held.member with holder := none, activity := false } }) ∧
              (held.nextAfter f.sender = some s.own → exec (.intactFrameReceived f.encode) s = .next
                ({ held with member := { held.member with holder := some s.own, activity := false } } : State).memberTurn))))) ∧
  (∀ (s : State) (f : Frame), s.configured = true → s.line.tx = none → f.fits → f.sender ≠ s.own → f.kind ≠ .join →
      s.member.link = .joining → f.roster.getLsbD s.own.val = true →
      ∃ (v : Vector RosterEntry 16) (u : State),
        (∀ n : Station, v[n] = if n = s.own then ⟨true, 0, s.port.state.ready⟩
          else if n = f.sender then ⟨true, 0, f.ready⟩
          else if f.roster.getLsbD n.val then ⟨true, 0, false⟩ else ⟨false, 0, false⟩) ∧
        exec .takeRequest { s with
          line := { s.line with receiving := false }
          host := { s.host with flags := s.host.flags ||| 4 }
          member := { s.member with
            link := .member, roster := v, view := 0, openTurns := 0
            generation := s.member.generation + BitVec.ofNat 16 (Station.all.filter (fun n => (v[n]).present)).length } } = .next u ∧
        u.configured = true ∧ u.own = s.own ∧ u.line = { s.line with receiving := false } ∧ u.member.link = .member ∧ u.member.roster = v ∧
        exec (.intactFrameReceived f.encode) s = exec (.intactFrameReceived f.encode) u)

/-- A silence event (R145, R146, R149), while the silence timer runs (R141): a wholly silent turn of a peer is a miss, the third removes
it, and the holder passes on; while OPEN the lowest present station becomes holder. MISSES_REACH_3 is the same event where it is the
third miss, and nothing elsewhere (log 4, DESIGN CHOICE); while the silence timer is stopped neither row changes anything (log 3, DESIGN
CHOICE). A silence event in any turn (R145, R146, R149, R144), whatever exchanges exist, whatever requests wait and in every state of
the port. At a MEMBER or a LEAVING station the wholly silent turn of a present peer is a miss, the third of which removes it with all
that R104 to R106 end, the grant and, where a record was freed, the takes following (R22, R48; the order is log 13, DESIGN CHOICE);
MISSES_REACH_3 of that station is the same event. Then the next present station holds the turn, or it is OPEN; at the own station its
turn begins. While OPEN the lowest present station holds it, and at the own station its turn begins. -/
def Obligations.SilenceEvents : Prop :=
  (∀ s : State,
      (∀ m, s.silenceTimerRuns = false → exec .silenceEvent s = .next s ∧ exec (.missesReach3 m) s = .next s) ∧
      (s.line.tx = none → s.line.receiving = false →
        (∀ n m : Station, s.member.link = .member ∨ s.member.link = .leaving → s.member.holder = some n → n ≠ s.own →
          s.member.roster[n].present = true → s.nextAfter n = some m → m ≠ s.own →
          (s.member.activity = false → s.member.roster[n].misses < 2 → exec .silenceEvent s = .next { s with member := { s.member with
            roster := s.member.roster.set n { s.member.roster[n] with misses := s.member.roster[n].misses + 1 }
            holder := some m
            activity := false } }) ∧
          (s.member.activity = true → exec .silenceEvent s = .next { s with member := { s.member with
            holder := some m
            activity := false } }) ∧
          (s.member.activity = false → s.member.roster[n].misses = 2 → (∀ r ∈ s.exch.inits, r.peer ≠ n) →
            (∀ r ∈ s.exch.targets, ∀ i, r.id = some i → i.peer ≠ n) → s.host.requests = [] → s.port.state ≠ .idle →
            ∃ t, exec .silenceEvent s = .next t ∧ exec (.missesReach3 n) s = .next t ∧ t = { s with
              member := { s.member with
                roster := s.member.roster.set n ⟨false, 0, false⟩
                generation := s.member.generation + 1
                holder := some m
                activity := false }
              host := { s.host with flags := s.host.flags ||| 4 }
              sched := { s.sched with items := s.sched.items.filter (fun p => decide (p.item.dest ≠ n)) } }) ∧
          (s.member.activity = true ∨ s.member.roster[n].misses < 2 → exec (.missesReach3 n) s = .next s)) ∧
        (∀ n : Station, s.member.link = .member → s.member.holder = some n → s.member.activity = true → s.nextAfter n = none →
          exec .silenceEvent s = .next { s with member := { s.member with holder := none, activity := false } }) ∧
        (∀ m : Station, s.member.link = .member ∨ s.member.link = .listening → s.member.holder = none → s.lowest = some m → m ≠ s.own →
          exec .silenceEvent s = .next { s with member := { s.member with holder := some m, activity := false } }) ∧
        (s.member.link = .listening ∨ s.member.link = .joining → s.member.holder = none → s.lowest = none →
          exec .silenceEvent s = .next s))) ∧
  (∀ s : State, s.line.tx = none → s.line.receiving = false →
      let held (u : State) (h : Option Station) : State := { u with member := { u.member with holder := h, activity := false } }
      (s.member.link = .member ∨ s.member.link = .leaving →
        (∀ n : Station, s.member.holder = some n →
          let resumed (u : State) : State := if u.grant.exch.inits.length < s.exch.inits.length then u.grant.retake else u.grant
          let missed : Prop := s.member.activity = false ∧ n ≠ s.own ∧ s.member.roster[n].present = true
          let after : State :=
            if missed then
              (if s.member.roster[n].misses < 2 then { s with member := { s.member with
                  roster := s.member.roster.set n { s.member.roster[n] with misses := s.member.roster[n].misses + 1 } } }
                else resumed (s.forgetPeer n))
            else s
          (∀ m, after.nextAfter n = some m → m ≠ s.own → exec .silenceEvent s = .next (held after (some m))) ∧
          (after.nextAfter n = none → exec .silenceEvent s = .next (held after none)) ∧
          (after.nextAfter n = some s.own → exec .silenceEvent s = .next (held after (some s.own)).ownTurn) ∧
          (missed → 2 ≤ s.member.roster[n].misses → exec (.missesReach3 n) s = exec .silenceEvent s)) ∧
        (s.member.holder = none →
          (∀ m, s.lowest = some m → m ≠ s.own → exec .silenceEvent s = .next (held s (some m))) ∧
          (s.lowest = some s.own → exec .silenceEvent s = .next (held s (some s.own)).ownTurn) ∧
          (s.lowest = none → exec .silenceEvent s = .next s))) ∧
      (s.member.link = .listening ∨ s.member.link = .joining →
        (∀ n m : Station, s.member.holder = some n → s.nextAfter n = some m → exec .silenceEvent s = .next (held s (some m))) ∧
        (∀ m : Station, s.member.holder = none → s.lowest = some m → exec .silenceEvent s = .next (held s (some m)))))

/-- The removal of a peer (R104, R105, R106, R149), from every state: its entry is absent, every other entry keeps its presence and its
misses, and, but for the own one, its module ready; the generation has risen by one, ROSTER is set, no live record toward it, no target
record keyed to it and no item addressed to it is left. With room in the Outcome Queue every live record toward it ends PEER_LOST in
creation order, blocks done and confirmed by R97. The one live record toward it ends so with neither CANCEL nor CLOSE owed; a record
from it in QUEUED or FINISHING is freed, its ring given back. Then the grant and, where a record was freed, the takes follow (R22, R48), in this order (log 13, DESIGN CHOICE);
the purge comes after the endings (log 30, DESIGN CHOICE). -/
def Obligations.PeerRemoval : Prop :=
  ∀ (s : State) (n : Station), let u := s.forgetPeer n
    let gone : State := { s with
      member := { s.member with roster := s.member.roster.set n ⟨false, 0, false⟩, generation := s.member.generation + 1 }
      host := { s.host with flags := s.host.flags ||| 4 } }
    (∀ p ∈ u.sched.items, p.item.dest ≠ n) ∧
    (u.member.roster[n] = ⟨false, 0, false⟩ ∧ u.member.generation = s.member.generation + 1 ∧ u.flagSet .roster = true ∧
      u.member = { s.member with roster := u.member.roster, generation := s.member.generation + 1 } ∧
      (∀ m : Station, m ≠ n → u.member.roster[m].present = s.member.roster[m].present ∧
        u.member.roster[m].misses = s.member.roster[m].misses ∧ (m ≠ s.own → u.member.roster[m] = s.member.roster[m]))) ∧
    ((∀ r ∈ u.exch.inits, r.peer = n → r.live = false) ∧ (∀ r ∈ u.exch.targets, ∀ i, r.id = some i → i.peer ≠ n)) ∧
    (s.recordsLimited → s.host.outcomes.length + s.exch.inits.length ≤ 16 → u.host.outcomes = s.host.outcomes ++
      (s.exch.inits.filter (fun r => decide (r.peer = n) && r.live)).map (fun r => ⟨r.label, r.op, r.peer, match r.op with
        | .read => ⟨.peerLost, r.moved, true, none⟩
        | .sync => ⟨.peerLost, 0, true, none⟩
        | .write => ⟨.peerLost, if r.asking then 0 else r.flow.base, r.asking, none⟩⟩)) ∧
    (s.removePeer n = if u.grant.exch.inits.length < s.exch.inits.length then u.grant.retake else u.grant) ∧
    (∀ r : InitRec, s.exch.inits.filter (fun x => decide (x.peer = n) && x.live) = [r] → s.initRec r.tag = some r →
      s.exch.targets = [] → ∃ v : State, v = gone.endInit r (r.localOutcome .peerLost) false false ∧ u = { v with
          exch := { v.exch with inits := v.exch.inits.map (fun x => if x.peer = n then
            { x with wanted := x.wanted.filter (fun k => decide (k ≠ .cancel)) } else x) }
          sched := { v.sched with items := v.sched.items.filter (fun p => decide (p.item.dest ≠ n)) } }) ∧
    (∀ (r : TargetRec) (i : ExchId), s.exch.inits = [] → s.exch.targets = [r] → r.id = some i → i.peer = n →
      r.state = .queued ∨ r.state = .finishing → (∀ p ∈ s.sched.items ++ s.sched.loopItems, p.origin ≠ .record) → u = { gone with
        exch := { s.exch with targets := [] }
        buf := { s.buf with servFree := s.buf.servFree ++ r.ring.elim [] (List.map Slot.area) }
        sched := { s.sched with items := s.sched.items.filter (fun p => decide (p.item.dest ≠ n)) } })

/-! ### Joining, founding, and the station's own transmissions -/

/-- Joining and founding (R136 to R138, R140): the first JOIN at the first OPEN turn of a LISTENING station; JOIN_RESEND at the OPEN
turn (station number mod 4) + 3 after the one before; FOUNDING_WAIT_EXPIRY enters FOUNDING with its JOIN, a JOIN still on the line going
out before it (log 11, DESIGN CHOICE), the holder and the mark as they stand (log 27, DESIGN CHOICE) and a frame being received given up
(R157); outside LISTENING and JOINING the row changes nothing (log 3, DESIGN CHOICE). JOIN_RESEND alone is its OPEN turn, and changes
nothing where none is due (log 4, DESIGN CHOICE). A JOIN frame has the last-in-turn flag and an empty bitmap. A silence event that
begins an OPEN turn at a JOINING station (R145, R140): the OPEN turn is counted, and where it is the one due the JOIN goes out again, as
by JOIN_RESEND. -/
def Obligations.JoiningAndFounding : Prop :=
  (∀ s : State,
      let joinFrame : Frame := ⟨.join, s.own, true, s.port.state.ready, 0, .none⟩
      (∀ n, s.member.link = .listening → s.line.tx = none → s.line.receiving = false → s.member.holder = some n → s.nextAfter n = none →
        exec .silenceEvent s = .next { s with
          member := { s.member with link := .joining, holder := none, activity := false }
          line := { receiving := false, tx := some ⟨.join, [joinFrame]⟩ } }) ∧
      (∀ n, s.member.link = .joining → s.line.tx = none → s.member.holder = some n →
        (s.member.openTurns + 1 = s.own.val % 4 + 3 → exec .joinResend s = .next { s with
          member := { s.member with openTurns := s.member.openTurns + 1, holder := none, activity := false }
          line := { receiving := false, tx := some ⟨.join, [joinFrame]⟩ } }) ∧
        (s.member.openTurns + 1 ≠ s.own.val % 4 + 3 → exec .joinResend s = .next s)) ∧
      (s.member.link ≠ .joining → exec .joinResend s = .next s) ∧
      (s.member.link = .listening ∨ s.member.link = .joining → exec .foundingWaitExpiry s = .next { s with
        member := { s.member with link := .founding, view := 0, openTurns := 0 }
        line := { receiving := false, tx := some ⟨.founding, s.line.tx.elim [] Transmission.frames ++ [joinFrame]⟩ } }) ∧
      (s.member.link ≠ .listening → s.member.link ≠ .joining → exec .foundingWaitExpiry s = .next s)) ∧
  (∀ (s : State) (n : Station), s.member.link = .joining → s.line.tx = none → s.line.receiving = false → s.member.holder = some n →
      s.nextAfter n = none →
      let counted : State := { s with
        member := { s.member with openTurns := s.member.openTurns + 1, holder := none, activity := false } }
      (s.member.openTurns + 1 ≠ s.own.val % 4 + 3 → exec .silenceEvent s = .next counted) ∧
      (s.member.openTurns + 1 = s.own.val % 4 + 3 → exec .silenceEvent s = exec .joinResend s ∧ exec .silenceEvent s = .next { counted with
        line := { receiving := false, tx := some ⟨.join, [⟨.join, s.own, true, s.port.state.ready, 0, .none⟩]⟩ } }))

/-- END_OF_TRANSMISSION (R165, R144, R140, R137, R148): after an own turn the holder moves on; after a JOIN the OPEN-turn count is 0;
after the founding JOIN the station is MEMBER, alone in its roster, the holder OPEN; after the LEAVE frame it is OFFLINE, with ROSTER.
The holder and the mark after the founding JOIN rest on their standing at FOUNDING (log 27, DESIGN CHOICE). With nothing in transmission
the row changes nothing (log 3, DESIGN CHOICE). The founding JOIN ends with requests waiting: the entry to MEMBER reads the take
conditions as TAKE_REQUEST does (R22, R133, R137). A JOIN that ends after the station has left JOINING changes nothing else (log 12,
DESIGN CHOICE). -/
def Obligations.EndOfTransmission : Prop :=
  (∀ (s : State), (s.line.tx = none → exec .endOfTransmission s = .next s) ∧ ∀ frames : List Frame,
      (∀ m, s.line.tx = some ⟨.ownTurn, frames⟩ → s.nextAfter s.own = some m → s.member.holder = some s.own →
        exec .endOfTransmission s = .next { s with
          line := { s.line with tx := none }
          member := { s.member with holder := some m, activity := false } }) ∧
      (s.line.tx = some ⟨.ownTurn, frames⟩ → s.nextAfter s.own = none → s.member.holder = some s.own →
        s.member.link = .member ∨ s.member.link = .leaving →
        exec .endOfTransmission s = .next { s with
          line := { s.line with tx := none }
          member := { s.member with holder := none, activity := false } }) ∧
      (s.line.tx = some ⟨.join, frames⟩ → s.member.link = .joining → exec .endOfTransmission s = .next { s with
        line := { s.line with tx := none }
        member := { s.member with openTurns := 0 } }) ∧
      (s.line.tx = some ⟨.founding, frames⟩ → s.host.requests = [] → exec .endOfTransmission s = .next { s with
        line := { s.line with tx := none }
        host := { s.host with flags := s.host.flags ||| 4 }
        member := { link := .member, generation := s.member.generation + 1, holder := none, view := 0, openTurns := 0
                    activity := s.member.activity && s.member.holder.isNone
                    roster := (Vector.replicate 16 ⟨false, 0, false⟩).set s.own ⟨true, 0, s.port.state.ready⟩ } }) ∧
      (s.line.tx = some ⟨.leave, frames⟩ → exec .endOfTransmission s = .next { s with
        line := { s.line with tx := none }
        host := { s.host with flags := s.host.flags ||| 4 }
        member := { link := .offline, roster := Vector.replicate 16 ⟨false, 0, false⟩, generation := s.member.generation,
                    holder := none, activity := false, view := 0, openTurns := 0 } })) ∧
  (∀ (s : State) (frames : List Frame),
      (s.configured = true → s.line.tx = some ⟨.founding, frames⟩ → exec .endOfTransmission s = exec .takeRequest { s with
        line := { s.line with tx := none }
        host := { s.host with flags := s.host.flags ||| 4 }
        member := { link := .member, generation := s.member.generation + 1, holder := none, view := 0, openTurns := 0
                    activity := s.member.activity && s.member.holder.isNone
                    roster := (Vector.replicate 16 ⟨false, 0, false⟩).set s.own ⟨true, 0, s.port.state.ready⟩ } }) ∧
      (s.line.tx = some ⟨.join, frames⟩ → s.member.link ≠ .joining →
        exec .endOfTransmission s = .next { s with line := { s.line with tx := none } }))

/-- The frames of an own turn with no record at the station (R144, R163, R164, R148): one PASS frame when no item waits; one CONTROL
frame with the first 16 of the items when they are all addressed to other stations; in LEAVING the LEAVE frame. Each carries the
last-in-turn flag, the module-ready flag and the roster bitmap. The composition of an own turn and its loopback (R163, R164, R166, R93,
R94, R87, R161). The walk takes the first 16 items toward other stations and the first 16 toward the own one and leaves the rest. The
line items, a CREDIT of a record with the values the record has then, make one CONTROL frame, the picked blocks DATA frames after it, at
most 4 in all; with neither, one PASS frame; the last frame alone carries the last-in-turn flag. The loopback blocks are delivered in
pick order, each to the other role, and after them the loopback items in queue order, each with its values at its delivery. The offers
of an own turn (R162), over the records present, in rotation order, each as it stands when the walk reaches it (log 14, DESIGN CHOICE).
An initiator record in ASKING counts the turn, sends its ASK again or ends NO_REPLY as those rows do (R10, R28, R29); a WRITE under the
stall watch counts the turn, rewinds, or ends as STALL_REWIND and REWIND_LIMIT_INITIATOR do (R90, R91). Then its wanted items are
offered in the order in which they became wanted (R12), then the ASK ordered or, at a READ that may receive below the limit it has
advertised, a credit refresh (R86). The offers of a target record there: a SETTLING one counts the turn or queues its OUTCOME (R54), a
WRITE in priming counts it, with the CREDIT it orders, or ends (R50), one that waits on the ring counts it or ends STARVED (R126), at
the stall limit too (log 31, DESIGN CHOICE), a READ under the stall watch counts it, rewinds, or ends (R90, R92), as the row of that
watch; its wanted items come first, then what the watch orders, or a credit refresh of an ACTIVE WRITE whose priming is over (R86). -/
def Obligations.OwnTurnFrames : Prop :=
  (∀ s : State,
      let head (k : FrameKind) (p : Payload) (w : BitVec 16) : Frame := ⟨k, s.own, true, s.port.state.ready, w, p⟩
      (∀ w : BitVec 16, (∀ n : Station, w.getLsbD n.val = s.member.roster[n].present) → s.member.link = .member →
        s.exch.inits = [] → s.exch.targets = [] → s.sched.loopItems = [] →
        (s.sched.items = [] → s.memberTurn = { s with line := { receiving := false, tx := some ⟨.ownTurn, [head .pass .none w]⟩ } }) ∧
        (s.sched.items ≠ [] → (∀ p ∈ s.sched.items, p.item.dest ≠ s.own ∧ p.origin ≠ .record) → s.memberTurn = { s with
          sched := { s.sched with items := s.sched.items.drop 16 }
          line := { receiving := false, tx := some ⟨.ownTurn,
            [head .control (.items ((s.sched.items.take 16).map PendingItem.item)) w]⟩ } })) ∧
      (∀ w : BitVec 16, (∀ n : Station, w.getLsbD n.val = (s.member.roster[n].present && decide (n ≠ s.own))) →
        s.member.link = .leaving → s.ownTurn = { s with line := { receiving := false, tx := some ⟨.leave, [head .leave .none w]⟩ } })) ∧
  ((∀ (own : Station) (l : List PendingItem),
      let other (p : PendingItem) : Bool := decide (p.item.dest ≠ own)
      let self (p : PendingItem) : Bool := decide (p.item.dest = own)
      let x := walkItems own l
      x.line = (l.filter other).take 16 ∧ x.loop = (l.filter self).take 16 ∧ x.left.Sublist l ∧
        x.left.filter other = (l.filter other).drop 16 ∧ x.left.filter self = (l.filter self).drop 16) ∧
    (∀ (s : State) (p : PendingItem),
      let limit (ring : Option Ring) (consumed count : Nat) : Nat := if ring = none then 0 else min (consumed + min 4 count) count
      (p.origin ≠ .record ∨ (∀ d n l, p.item.body ≠ .credit d n l) → s.resolve p = p.item) ∧
      (∀ n l r, p.origin = .record → p.item.body = .credit .target n l → s.initRec p.item.tag = some r → s.resolve p =
        { p.item with body := .credit .target r.flow.expected (limit r.ring r.flow.consumed r.count) }) ∧
      (∀ n l r, p.origin = .record → p.item.body = .credit .initiator n l → s.targetRec p.item.init p.item.tag = some r → s.resolve p =
        { p.item with body := .credit .initiator r.flow.expected (limit r.ring r.flow.consumed r.count) })) ∧
    (∀ (s : State) (w : BitVec 16), s.member.link = .member → (∀ n : Station, w.getLsbD n.val = s.member.roster[n].present) →
      let sets := walkItems s.own s.sched.items
      let items := sets.line.map s.resolve
      let picked := ({ s with sched := { s.sched with items := sets.left, loopItems := sets.loop } } : State).picks 8
        (if items = [] then 4 else 3) 4
      let frame (k : FrameKind) (x : Payload) : Frame := ⟨k, s.own, false, s.port.state.ready, w, x⟩
      let onLine := (if items = [] then [] else [frame .control (.items items)]) ++
        (picked.2.filter (fun x => decide (x.data.dest ≠ s.own))).map (fun x => frame .data (.data x.data))
      let frames := if onLine = [] then [frame .pass .none] else onLine
      s.composeTurn = ({ picked.1 with line := { receiving := false, tx := some ⟨.ownTurn,
          frames.dropLast ++ (frames.getLast?.map (fun f => { f with last := true })).toList⟩ } },
        picked.2.filter (fun x => decide (x.data.dest = s.own)))) ∧
    (∀ s : State,
      let composed := s.turnOffers.composeTurn
      let delivered := composed.2.foldl (fun u x => match x.position.role with
        | .initiator => u.dataToTarget u.own x.data
        | .target => u.dataToInit u.own x.data) composed.1
      s.memberTurn = delivered.deliverItems delivered.sched.loopItems.length ∧ s.deliverItems 0 = s ∧
      ∀ n, (s.sched.loopItems = [] → s.deliverItems (n + 1) = s) ∧
        ∀ p rest, s.sched.loopItems = p :: rest → s.deliverItems (n + 1) =
          (({ s with sched := { s.sched with loopItems := rest } } : State).itemArrives s.own (s.resolve p)).deliverItems n)) ∧
  (∀ s : State, s.recordsLimited →
      let number (p : Position) : Nat := p.station.val * 16 + p.tag.val * 2 + (if p.role = .initiator then 0 else 1)
      (s.positions.map number).Pairwise (· < ·) ∧
      (∀ p : Position, p ∈ s.positions ↔ if p.role = .initiator then p.station = s.own ∧ s.initRec p.tag ≠ none
        else s.targetRec p.station p.tag ≠ none) ∧
      s.turnOffers = s.positions.foldl (fun u p => if p.role = .initiator then u.initTurn p.tag else u.targetTurn p.station p.tag) s ∧
      s.turnOffers.member.link = s.member.link ∧
      ∀ r : InitRec, s.initRec r.tag = some r →
        let with_ (f : InitRec → InitRec) : State := { s with exch := { s.exch with
          inits := s.exch.inits.map (fun x => if x.tag = r.tag then f x else x) } }
        let offering (f : InitRec → InitRec) : State := r.wanted.foldl (fun u k => u.offerInit r.tag k) (with_ (fun x => { f x with wanted := [] }))
        (∀ n k, r.state = .asking n k →
          (k + 1 < 3 → s.initTurn r.tag = offering (fun x => { x with state := .asking n (k + 1) })) ∧
          (3 ≤ k + 1 → n < 3 →
            s.initTurn r.tag = (offering (fun x => { x with state := .asking (n + 1) 0 })).offerAskOnce r.tag ∧
            (r.wanted = [] → exec (.askResend r.tag) s = .next (s.initTurn r.tag))) ∧
          (3 ≤ k + 1 → 3 ≤ n → s.host.outcomes.length < 16 → s.host.requests = [] →
            exec (.noReply r.tag) s = .next (s.initTurn r.tag))) ∧
        (∀ c, r.op = .write → r.flow = .sender c → r.state = .waiting ∨ r.state = .moving → s.headsChannel r = true → r.peer ≠ s.own →
          c.base < c.next →
          (c.stall < 3 → s.initTurn r.tag = offering (fun x => { x with flow := .sender { c with stall := c.stall + 1 } })) ∧
          (c.stall = 3 → c.rewinds < 7 →
            s.initTurn r.tag = offering (fun x => { x with flow := .sender { c with next := c.base, rewinds := c.rewinds + 1, stall := 0 } }) ∧
            (r.wanted = [] → exec (.stallRewind ⟨s.own, r.tag, .initiator⟩) s = .next (s.initTurn r.tag))) ∧
          (c.stall = 3 → 7 ≤ c.rewinds → s.host.outcomes.length < 16 → s.host.requests = [] →
            exec (.rewindLimitInitiator r.tag) s = .next (s.initTurn r.tag))) ∧
        ((∀ n k, r.state ≠ .asking n k) →
          (∀ c, r.flow = .sender c → c.base = c.next ∨ s.headsChannel r = false ∨ r.peer = s.own ∨ (r.state ≠ .waiting ∧ r.state ≠ .moving)) →
          let refreshing : Prop := r.op = .read ∧ (r.state = .waiting ∨ r.state = .moving) ∧ r.ring ≠ none ∧
            r.flow.expected < min (r.flow.consumed + min 4 r.count) r.count
          (refreshing → s.initTurn r.tag = (offering id).offerInit r.tag .credit) ∧
          (¬ refreshing → s.initTurn r.tag = offering id))) ∧
  (∀ (s : State) (r : TargetRec) (i : ExchId), s.recordsLimited → s.targetRec i.peer i.tag = some r → r.id = some i →
      let with_ (f : TargetRec → TargetRec) : State := { s with exch := { s.exch with
        targets := s.exch.targets.map (fun x => if x.keyed i.peer i.tag then f x else x) } }
      let offering (f : TargetRec → TargetRec) : State :=
        r.wanted.foldl (fun u k => u.offerTarget i.peer i.tag k) (with_ (fun x => { f x with wanted := [] }))
      let turn : State := s.targetTurn i.peer i.tag
      (∀ n, r.state = .settling false n → n < 3 → turn = offering (fun x => { x with state := .settling false (n + 1) })) ∧
      (∀ owed n, r.state = .settling owed n → owed = true ∨ 3 ≤ n →
        turn = (offering (fun x => { x with state := .settling false 0 })).offerTargetOnce i.peer i.tag .outcome ∧
        (r.wanted = [] → exec (.outcomeResend i.peer i.tag) s = .next turn)) ∧
      (∀ n, r.state = .active → r.op = .write → r.priming = some n →
        (n + 1 < 32 → (n + 1) % 4 ≠ 0 → turn = offering (fun x => { x with priming := some (n + 1) })) ∧
        (n + 1 < 32 → (n + 1) % 4 = 0 →
          turn = (offering (fun x => { x with priming := some (n + 1) })).offerTarget i.peer i.tag .credit ∧
          (r.wanted = [] → s.activeRec = some r → exec .primingCredit s = .next turn)) ∧
        (n + 1 = 32 → r.wanted = [] → s.activeRec = some r → (∀ x ∈ s.exch.targets, x.state ≠ .queued) → s.port.result ≠ .posted →
          exec .primingLimit s = .next turn)) ∧
      (∀ n, r.state = .active → r.priming = none → r.starvation = some n →
        (n + 1 < 64 → (∀ c, r.flow = .sender c → c.base = c.next) → ¬ (r.op = .write ∧ r.ring ≠ none ∧ r.flow.expected < min (r.flow.consumed + min 4 r.count) r.count) →
          turn = offering (fun x => { x with starvation := some (n + 1) })) ∧
        (64 ≤ n + 1 → r.wanted = [] → s.activeRec = some r → exec .starvationLimit s = .next turn)) ∧
      (∀ c, r.op = .read → r.flow = .sender c → r.state = .active ∨ r.state = .finishing → r.priming = none → r.starvation = none →
        i.peer ≠ s.own → c.base < c.next →
        (c.stall < 3 → turn = offering (fun x => { x with flow := .sender { c with stall := c.stall + 1 } })) ∧
        (c.stall = 3 → c.rewinds < 7 →
          turn = offering (fun x => { x with flow := .sender { c with next := c.base, rewinds := c.rewinds + 1, stall := 0 } }) ∧
          (r.wanted = [] → exec (.stallRewind ⟨i.peer, i.tag, .target⟩) s = .next turn)) ∧
        (c.stall = 3 → 7 ≤ c.rewinds → r.state = .finishing → r.wanted = [] → (∀ x ∈ s.exch.targets, x.state ≠ .queued) →
          s.port.result ≠ .posted → exec (.rewindLimitTarget i.peer i.tag) s = .next turn)) ∧
      (r.state = .queued ∨ r.state = .active ∨ r.state = .finishing → r.priming = none → r.starvation = none →
        (∀ c, r.flow = .sender c → c.base = c.next ∨ i.peer = s.own ∨ r.state = .queued) →
        let refreshing : Prop := r.op = .write ∧ r.state = .active ∧ r.ring ≠ none ∧
          r.flow.expected < min (r.flow.consumed + min 4 r.count) r.count
        (refreshing → turn = (offering id).offerTarget i.peer i.tag .credit) ∧
        (¬ refreshing → turn = offering id)))

/-! ### The module port -/

/-- MODULE_GRANT (R121, R48, R49): nothing outside IDLE; a posted script first; else the Service Queue head, with the first areas of the
service pool for its ring. A READ and a SYNC begin their built script, a WRITE begins priming with a CREDIT (R50, R85). -/
def Obligations.ModuleGrant : Prop :=
  ∀ s : State,
    (s.port.state ≠ .idle → exec .moduleGrant s = .next s) ∧
    (∀ script : List ScriptStep, s.port.state = .idle → s.port.result = .posted → s.port.script = some script →
      exec .moduleGrant s = .next (s.withPort { s.port with
        state := .maintaining 0, result := .running, watchdog := some 0
        access := some (match (script[0]? : Option ScriptStep) with
          | some (.write k v) => ⟨k, some v⟩
          | some (.read k) => ⟨k, none⟩
          | _ => ⟨6, none⟩) })) ∧
    (s.port.state = .idle → s.port.result ≠ .posted →
      ((∀ r ∈ s.exch.targets, r.state ≠ .queued) → exec .moduleGrant s = .next s) ∧
      (∀ (pre post : List TargetRec) (r : TargetRec) (i : ExchId), s.exch.targets = pre ++ r :: post →
        (∀ x ∈ pre, x.state ≠ .queued) → r.state = .queued → r.id = some i → (∀ x ∈ pre ++ post, x.keyed i.peer i.tag = false) →
        let k := min 4 r.count
        let free := s.buf.servFree
        let ring : Option Ring := if r.op = .sync then none else some ((free.take k).map (fun a => ⟨a, .empty⟩))
        let u : State := { s with
          exch := { s.exch with targets := pre ++ { r with
            state := .active, ring := ring, priming := if r.op = .write then some 0 else none } :: post }
          buf := { s.buf with servFree := if r.op = .sync then free else free.drop k } }
        (r.op ≠ .sync → free.length < k → exec .moduleGrant s = .next s) ∧
        (r.op = .sync → exec .moduleGrant s = .next (u.withPort { s.port with
          state := .serving (.setup 0), access := some ⟨5, some 3⟩, watchdog := some 0 })) ∧
        (r.op = .read → k ≤ free.length → exec .moduleGrant s = .next (u.withPort { s.port with
          state := .serving (.setup 0), access := some ⟨1, some (BitVec.ofNat 16 (r.count % 256))⟩, watchdog := some 0 })) ∧
        (r.op = .write → k ≤ free.length → exec .moduleGrant s = .next ((u.withPort { s.port with
          state := .serving .priming, access := none, watchdog := none }).offerTarget i.peer i.tag .credit))))

/-- SLOT_ACCESS_COMPLETE outside the data phase (R115): the reads of STARTING and the steps of DESCRIBING (R118), the writes of the
built script (R122), and the steps and the closing wait of a maintenance script (R129, R130). The watchdog restarts at the completion of
a script's WRITE or READ step; at the STATUS read that ends a wait it runs on into the next step (R125; log 18, DEDUCED, where that step
is a wait too). With no access in flight the row changes nothing (log 3, DESIGN CHOICE). SLOT_ACCESS_COMPLETE in the other phases. A
description whose ATTN came before its COMMAND write was complete goes on to read the capacity (R118; log 19, DESIGN CHOICE). A setup
step with an attention held reads it (log 8, DESIGN CHOICE, for the operands): a good one is passed over, a bad one ends the record with
MODULE_FAULT, the pair read and blocks done 0, and leads to RESETTING (R124). The COMMAND write that finds XFER shown and the slot not
ready begins a wait on the ring, the watchdog stopped (R122, R123, R126). The access that ends a stopped setup leaves the port IDLE, or
RESETTING where a bad attention was held (R127; log 9, DESIGN CHOICE). The COMMAND write of a run-out begins its transfers (R127), an
attention held over it being judged there (log 9, DESIGN CHOICE). A bad attention held over a step of the setup, whatever other target
records exist (R124; log 8, DESIGN CHOICE, for the operands). -/
def Obligations.SlotAccessesOfSetupAndScripts : Prop :=
  (∀ (s : State) (v : Word), (s.port.access = none → exec (.slotAccessComplete v) s = .next s) ∧ (s.port.access.isSome = true →
      (∀ n, s.port.state = .starting n →
        (v.getLsbD 0 = true → exec (.slotAccessComplete v) s = .next (s.withPort { s.port with
          state := .describing .command, access := some ⟨5, some 4⟩, watchdog := some 0 })) ∧
        (v.getLsbD 0 = false → exec (.slotAccessComplete v) s = .next (s.withPort { s.port with access := some ⟨6, none⟩ }))) ∧
      (s.port.state = .describing .command → exec (.slotAccessComplete v) s = .next (s.withPort { s.port with
        state := .describing .await, access := none, watchdog := some 0 })) ∧
      (s.port.state = .describing .readLo → exec (.slotAccessComplete v) s = .next (s.withPort { s.port with
        state := .describing (.readHi v), access := some ⟨3, none⟩, watchdog := some 0 })) ∧
      (∀ lo, s.port.state = .describing (.readHi lo) → exec (.slotAccessComplete v) s = .next (({ (s.withPort { s.port with
          state := .idle, access := none, transfer := none, attention := none, watchdog := none, capacity := v ++ lo }) with
        host := { s.host with flags := s.host.flags ||| 16 } } : State).grant)) ∧
      (∀ i r, s.port.state = .serving (.setup i) → s.port.attention = none → s.activeRec = some r →
        let writes : List (BitVec 3 × Word) := if r.op = .sync then [(5, 3)] else
          [(1, BitVec.ofNat 16 (r.count % 256)), (2, r.addr.extractLsb' 0 16), (3, r.addr.extractLsb' 16 16), (4, 0),
           (5, if r.op = .read then 1 else 2)]
        let data : State := s.withPort { s.port with state := .serving .data, access := none, transfer := none, watchdog := some 0 }
        (∀ k w, writes[i + 1]? = some (k, w) → exec (.slotAccessComplete v) s = .next (s.withPort { s.port with
          state := .serving (.setup (i + 1)), access := some ⟨k, some w⟩, watchdog := some 0 })) ∧
        (writes.length = i + 1 → r.op = .sync → exec (.slotAccessComplete v) s = .next (s.withPort { s.port with
          state := .serving .closing, access := none, transfer := none, watchdog := some 0 })) ∧
        (writes.length = i + 1 → r.op ≠ .sync → s.port.xfer = false → exec (.slotAccessComplete v) s = .next { data with
          exch := { s.exch with
            targets := s.exch.targets.map (fun x => if x.state = .active then { x with starvation := none } else x) } }) ∧
        (writes.length = i + 1 → r.op ≠ .sync → data.transferMayBegin = true →
          exec (.slotAccessComplete v) s = exec .blockTransferBegin data)) ∧
      (∀ (i : Nat) (script : List ScriptStep), s.port.state = .maintaining i → s.port.script = some script →
        let begun (p : Port) : State := s.withPort { p with
          state := .maintaining (i + 1)
          access := some (match (script[i + 1]? : Option ScriptStep) with
            | some (.write k w) => ⟨k, some w⟩
            | some (.read k) => ⟨k, none⟩
            | _ => ⟨6, none⟩) }
        (∀ k w, script[i]? = some (.write k w) → exec (.slotAccessComplete v) s = .next (begun { s.port with watchdog := some 0 })) ∧
        (∀ k, script[i]? = some (.read k) →
          exec (.slotAccessComplete v) s = .next (begun { s.port with results := s.port.results ++ [v], watchdog := some 0 })) ∧
        (script[i]? = some .waitReady → v.getLsbD 0 = true → v.getLsbD 1 = false →
          exec (.slotAccessComplete v) s = .next (begun s.port)) ∧
        (script[i]? = some .waitReady ∨ script[i]? = none → v.getLsbD 0 = false ∨ v.getLsbD 1 = true →
          exec (.slotAccessComplete v) s = .next (s.withPort { s.port with access := some ⟨6, none⟩ })) ∧
        (script[i]? = none → v.getLsbD 0 = true → v.getLsbD 1 = false →
          exec (.slotAccessComplete v) s = .next (({ (s.withPort { s.port with
              state := .idle, access := none, transfer := none, attention := none, watchdog := none, result := .done, spent := true }) with
            host := { s.host with flags := s.host.flags ||| 8 } } : State).grant))))) ∧
  (∀ (s : State) (v : Word), s.port.access.isSome = true →
      let good (w : Word) : Prop := w.getLsbD 0 = true ∧ w.getLsbD 3 = false
      let idle : Port := { s.port with state := .idle, access := none, transfer := none, attention := none, watchdog := none }
      let reset : Port := { s.port with
        state := .resetting true, access := none, transfer := none, attention := none, watchdog := none }
      let flagged (u : State) : State := { u with host := { u.host with flags := u.host.flags ||| 16 } }
      (s.port.state = .describing .ended → exec (.slotAccessComplete v) s = .next (s.withPort { s.port with
        state := .describing .readLo, access := some ⟨2, none⟩, watchdog := some 0 })) ∧
      (∀ (i : Nat) (w d : Word) (r : TargetRec) (j : ExchId), s.port.state = .serving (.setup i) → s.port.attention = some (w, d) →
        s.exch.targets = [r] → r.state = .active → r.id = some j →
        (good w → exec (.slotAccessComplete v) s = exec (.slotAccessComplete v) (s.withPort { s.port with attention := none })) ∧
        (¬ good w → exec (.slotAccessComplete v) s = .next (flagged { (s.withPort reset) with
          exch := { s.exch with targets := [{ r with
            state := .settling true 0, ring := none, priming := none, starvation := none
            outcome := some ⟨.moduleFault, 0, true, some (w, d)⟩
            wanted := r.wanted.filter (fun k => decide (k ≠ .reply) && decide (k ≠ .credit)) }] }
          buf := { s.buf with servFree := s.buf.servFree ++ r.ring.elim [] (List.map Slot.area) } }))) ∧
      (∀ (r : TargetRec), s.port.state = .serving (.setup 4) → s.port.attention = none → s.activeRec = some r → r.op ≠ .sync →
        s.port.xfer = true →
        let data : Port := { s.port with state := .serving .data, access := none, transfer := none, watchdog := some 0 }
        (s.withPort data).transferMayBegin = false → exec (.slotAccessComplete v) s = .next (({ s with
          exch := { s.exch with targets := s.exch.targets.map (fun x =>
            if x.state = .active then { x with starvation := some (x.starvation.getD 0) } else x) } } : State).withPort
              { data with watchdog := none })) ∧
      (s.port.state = .serving .stopping → (∀ r ∈ s.exch.targets, r.state ≠ .active) →
        (s.port.attention = none ∨ (∃ w d, s.port.attention = some (w, d) ∧ good w) →
          exec (.slotAccessComplete v) s = .next (s.withPort idle).grant) ∧
        (∀ w d, s.port.attention = some (w, d) → ¬ good w →
          exec (.slotAccessComplete v) s = .next (flagged (s.withPort reset)))) ∧
      (∀ n c, s.port.state = .serving (.runOut n c) → s.port.transfer = none →
        let u : State := s.withPort { s.port with access := none, attention := none, watchdog := some 0 }
        (s.port.attention = none ∨ (∃ w d, s.port.attention = some (w, d) ∧ good w) →
          (u.transferMayBegin = true → exec (.slotAccessComplete v) s = exec .blockTransferBegin u) ∧
          (u.transferMayBegin = false → exec (.slotAccessComplete v) s = .next u)) ∧
        (∀ w d, s.port.attention = some (w, d) → ¬ good w → exec (.slotAccessComplete v) s = .next (flagged { (s.withPort reset) with
          exch := { s.exch with targets := s.exch.targets.map (fun x => if x.inRunOut then
            { x with ring := x.ring.map (List.map (fun y => match y.st with
              | .filling _ _ => { y with st := .empty }
              | .draining _ _ => { y with st := .empty }
              | _ => y)) } else x) } })))) ∧
  (∀ (s : State) (v w d : Word) (k : Nat) (pre post : List TargetRec) (r : TargetRec) (i : ExchId), s.port.access.isSome = true →
      s.port.state = .serving (.setup k) → s.port.attention = some (w, d) → s.exch.targets = pre ++ r :: post → r.state = .active →
      r.id = some i → (∀ x ∈ pre ++ post, x.state ≠ .active ∧ x.keyed i.peer i.tag = false) →
      let good : Prop := w.getLsbD 0 = true ∧ w.getLsbD 3 = false
      (good → exec (.slotAccessComplete v) s = exec (.slotAccessComplete v) (s.withPort { s.port with attention := none })) ∧
      (¬ good → exec (.slotAccessComplete v) s = .next { (s.withPort { s.port with
          state := .resetting true, access := none, transfer := none, attention := none, watchdog := none }) with
        host := { s.host with flags := s.host.flags ||| 16 }
        exch := { s.exch with targets := pre ++ { r with
          state := .settling true 0, ring := none, priming := none, starvation := none
          outcome := some ⟨.moduleFault, 0, true, some (w, d)⟩
          wanted := r.wanted.filter (fun x => decide (x ≠ .reply) && decide (x ≠ .credit)) } :: post }
        buf := { s.buf with servFree := s.buf.servFree ++ r.ring.elim [] (List.map Slot.area) } }))

/-- A block transfer in the data phase (R68, R76, R122, R123): BLOCK_TRANSFER_BEGIN where XFER is shown and the ring slot is ready, each
DATA access before the last, and the last access of the last block of a READ. Where there is no service nothing begins, and none while
the slot is not ready: at a READ with every block moved, with the next block not below base + k, or with its slot not EMPTY; at a WRITE
with every block consumed, or with its slot not FULL with that block (R69, R73, R76). When a transfer may begin, in service and in a
run-out, is told whole: XFER shown, no transfer and no access in flight, and that slot ready, which in a run-out it is while blocks are
left and the ring is held. The last word of a block in the data phase (R69, R71, R73, R76, R85, R122, R123, R126). A block of a READ
with more to move makes its slot FULL, or EMPTY where base has passed it, and blocks moved rises. A block of a WRITE makes its slot
EMPTY, its consumed count and blocks moved rise, and a CREDIT is queued; the last one leads to the closing phase. With more to move the
next block begins at the same event where it may; else the wait on the ring or on the module begins. The block transfers of a run-out of
a READ, SETTLING or DETACHED (R76, R127). Where XFER is shown and blocks are left the slot of the next block is ready whatever it holds;
each word is stored as in service; the last one makes the slot EMPTY, counts nothing, and the block after it begins at once where XFER
is still shown. -/
def Obligations.BlockTransfers : Prop :=
  (∀ s : State,
      (s.transferMayBegin = true ↔ s.port.xfer = true ∧ s.port.transfer = none ∧ s.port.access = none ∧
        ((∃ r ring slot, s.port.state = .serving .data ∧ s.activeRec = some r ∧ r.ring = some ring ∧
            ((r.op = .read ∧ r.moved < r.count ∧ r.moved < r.flow.base + min 4 r.count ∧
                ring[r.moved % ring.length]? = some slot ∧ slot.st = .empty) ∨
              (r.op = .write ∧ r.flow.consumed < r.count ∧ ring[r.flow.consumed % ring.length]? = some slot ∧
                slot.st = .full r.flow.consumed))) ∨
          (∃ next count r, s.port.state = .serving (.runOut next count) ∧ next < count ∧
            s.exch.targets.find? TargetRec.inRunOut = some r ∧ r.ring ≠ none))) ∧
      (s.transferMayBegin = false → exec .blockTransferBegin s = .next s)) ∧
  (∀ s : State,
      (s.port.xfer = false ∨ s.port.transfer ≠ none ∨ s.port.access ≠ none ∨ s.port.state = .serving .closing ∨
        (∀ p, s.port.state ≠ .serving p) → exec .blockTransferBegin s = .next s) ∧
      (∀ (r : TargetRec) (ring : Ring), s.port.state = .serving .data → s.activeRec = some r → r.ring = some ring →
        (∀ x ∈ s.exch.targets, x.state = .active → x = r) →
        let served (f : TargetRec → TargetRec) : List TargetRec := s.exch.targets.map (fun x => if x.state = .active then f x else x)
        let slot (b : Nat) (st : SlotState) (x : TargetRec) : TargetRec :=
          { x with ring := x.ring.map (fun g => g.modify (b % g.length) (fun y => { y with st := st })) }
        (∀ a, r.op = .read → s.port.xfer = true → s.port.transfer = none → s.port.access = none → r.moved < r.count →
          r.moved < r.flow.base + min 4 r.count → ring[r.moved % ring.length]? = some ⟨a, .empty⟩ →
          exec .blockTransferBegin s = .next (({ s with exch := { s.exch with
            targets := served (fun x => { slot r.moved (.filling r.moved 0) x with starvation := none }) } } : State).withPort
              { s.port with transfer := some r.moved, access := some ⟨0, none⟩, watchdog := some 0 })) ∧
        (∀ a, r.op = .write → s.port.xfer = true → s.port.transfer = none → s.port.access = none → r.flow.consumed < r.count →
          ring[r.flow.consumed % ring.length]? = some ⟨a, .full r.flow.consumed⟩ →
          exec .blockTransferBegin s = .next (({ s with exch := { s.exch with
            targets := served (fun x => { slot r.flow.consumed (.draining r.flow.consumed 0) x with starvation := none }) } } :
              State).withPort { s.port with
                transfer := some r.flow.consumed, access := some ⟨0, some (s.buf.ram.readWord a 0)⟩, watchdog := some 0 })) ∧
        (r.op = .read → r.count ≤ r.moved ∨ r.flow.base + min 4 r.count ≤ r.moved ∨
            (∀ x, ring[r.moved % ring.length]? = some x → x.st ≠ .empty) →
          exec .blockTransferBegin s = .next s) ∧
        (r.op = .write → r.count ≤ r.flow.consumed ∨
            (∀ x, ring[r.flow.consumed % ring.length]? = some x → x.st ≠ .full r.flow.consumed) →
          exec .blockTransferBegin s = .next s) ∧
        (∀ a b w v, r.op = .read → s.port.transfer = some b → s.port.access.isSome = true → w + 1 < 256 →
          ring[b % ring.length]? = some ⟨a, .filling b w⟩ →
          exec (.slotAccessComplete v) s = .next (({ s with
            buf := { s.buf with ram := s.buf.ram.writeWord a w v }
            exch := { s.exch with targets := served (slot b (.filling b (w + 1))) } } : State).withPort
              { s.port with access := some ⟨0, none⟩, watchdog := some 0 })) ∧
        (∀ a b w v, r.op = .write → s.port.transfer = some b → s.port.access.isSome = true → w + 1 < 256 →
          ring[b % ring.length]? = some ⟨a, .draining b w⟩ →
          exec (.slotAccessComplete v) s = .next (({ s with
            exch := { s.exch with targets := served (slot b (.draining b (w + 1))) } } : State).withPort
              { s.port with access := some ⟨0, some (s.buf.ram.readWord a (w + 1))⟩, watchdog := some 0 })) ∧
        (∀ a b v c, r.op = .read → s.port.transfer = some b → s.port.access.isSome = true → ring[b % ring.length]? = some ⟨a, .filling b 255⟩ →
          r.flow = .sender c → r.moved + 1 = r.count →
          exec (.slotAccessComplete v) s = .next (({ s with
            buf := { s.buf with ram := s.buf.ram.writeWord a 255 v }
            exch := { s.exch with targets := served (fun x =>
              { slot b (if b < c.base then .empty else .full b) x with moved := r.moved + 1 }) } } : State).withPort
              { s.port with state := .serving .closing, transfer := none, access := none, watchdog := some 0 })))) ∧
  (∀ (s : State) (r : TargetRec) (ring : Ring) (a : AreaNo) (b : Nat) (v : Word), s.port.state = .serving .data →
      s.activeRec = some r → (∀ x ∈ s.exch.targets, x.state = .active → x = r) → r.ring = some ring → s.port.transfer = some b →
      s.port.access.isSome = true →
      let moved (ram : Memory) (st : SlotState) (flow : Flow) : State := ({ s with
        buf := { s.buf with ram := ram }
        exch := { s.exch with targets := s.exch.targets.map (fun x => if x.state = .active then { x with
          ring := x.ring.map (fun g => g.modify (b % g.length) (fun y => { y with st := st })), moved := r.moved + 1, flow := flow }
          else x) } } : State).withPort { s.port with transfer := none, access := none, watchdog := some 0 }
      let goesOn (u : State) : Prop :=
        let waiting (f : TargetRec → TargetRec) (w : Option Nat) : State := ({ u with
          exch := { u.exch with targets := u.exch.targets.map (fun x => if x.state = .active then f x else x) } } : State).withPort
            { u.port with watchdog := w }
        (u.transferMayBegin = true → exec (.slotAccessComplete v) s = exec .blockTransferBegin u) ∧
        (u.transferMayBegin = false → s.port.xfer = true → exec (.slotAccessComplete v) s = .next
          (waiting (fun x => { x with starvation := some (x.starvation.getD 0) }) none)) ∧
        (u.transferMayBegin = false → s.port.xfer = false → exec (.slotAccessComplete v) s = .next
          (waiting (fun x => { x with starvation := none }) (some 0)))
      (∀ c, r.op = .read → r.flow = .sender c → ring[b % ring.length]? = some ⟨a, .filling b 255⟩ → r.moved + 1 < r.count →
        goesOn (moved (s.buf.ram.writeWord a 255 v) (if b < c.base then .empty else .full b) r.flow)) ∧
      (∀ c i, r.op = .write → r.flow = .receiver c → r.id = some i → ring[b % ring.length]? = some ⟨a, .draining b 255⟩ →
        let u : State := (moved s.buf.ram .empty (.receiver { c with consumed := c.consumed + 1 })).offerTarget i.peer i.tag .credit
        (r.moved + 1 < r.count → goesOn u) ∧
        (r.moved + 1 = r.count → exec (.slotAccessComplete v) s = .next (u.withPort { u.port with
          state := .serving .closing, transfer := none, access := none, watchdog := some 0 })))) ∧
  (∀ (s : State) (r : TargetRec) (ring : Ring) (next count : Nat), s.port.state = .serving (.runOut next count) → r ∈ s.exch.targets →
      r.state = .detached ∨ (∃ b k, r.state = .settling b k) → r.op = .read → r.ring = some ring →
      (∀ x ∈ s.exch.targets, x.state = .detached ∨ ((∃ b k, x.state = .settling b k) ∧ x.ring ≠ none) → x = r) →
      let held (f : TargetRec → TargetRec) : Exchange := { s.exch with targets := s.exch.targets.map (fun x => if x = r then f x else x) }
      let slot (b : Nat) (st : SlotState) (x : TargetRec) : TargetRec :=
        { x with ring := some (ring.modify (b % ring.length) (fun y => { y with st := st })) }
      (s.port.xfer = true → s.port.transfer = none → s.port.access = none → next < count →
        exec .blockTransferBegin s = .next (({ s with exch := held (fun x => { slot next (.filling next 0) x with starvation := none }) } :
          State).withPort { s.port with transfer := some next, access := some ⟨0, none⟩, watchdog := some 0 })) ∧
      (s.port.xfer = false ∨ s.port.transfer ≠ none ∨ s.port.access ≠ none ∨ count ≤ next → exec .blockTransferBegin s = .next s) ∧
      (∀ (a : AreaNo) (b w : Nat) (v : Word), s.port.transfer = some b → s.port.access.isSome = true →
        ring[b % ring.length]? = some ⟨a, .filling b w⟩ →
        let stored (st : SlotState) : State := { s with
          buf := { s.buf with ram := s.buf.ram.writeWord a w v }, exch := held (slot b st) }
        (w + 1 < 256 → exec (.slotAccessComplete v) s = .next ((stored (.filling b (w + 1))).withPort
          { s.port with access := some ⟨0, none⟩, watchdog := some 0 })) ∧
        (w = 255 →
          let u : State := (stored .empty).withPort { s.port with
            state := .serving (.runOut (next + 1) count), transfer := none, access := none, watchdog := some 0 }
          (s.port.xfer = true → next + 1 < count → exec (.slotAccessComplete v) s = exec .blockTransferBegin u) ∧
          (s.port.xfer = false ∨ count ≤ next + 1 → exec (.slotAccessComplete v) s = .next u))))

/-- XFER_SHOWN (R116, R122, R123, R131): the port follows the level at all times, also while MRST is asserted; where no data phase, run-out
or script runs it does nothing else. In MAINTAINING a shown XFER ends the script DATA_REFUSED and the port enters RESETTING. In the data
phase and in a run-out a transfer begins where it may; else, in the data phase with no transfer in flight, a shown XFER waits on the
ring under the starvation count, the watchdog stopped, and one that is not shown waits on the module under the watchdog (R123, R125,
R126). That the row carries a level, so that XFER may also be withdrawn, is the model's (log 7, DESIGN CHOICE). -/
def Obligations.XferShown : Prop :=
  ∀ (s : State) (level : Bool),
    let seen : State := s.withPort { s.port with xfer := level }
    let waiting (f : TargetRec → TargetRec) (p : Port) : State := ({ s with exch := { s.exch with
      targets := s.exch.targets.map (fun x => if x.state = .active then f x else x) } } : State).withPort p
    ((∀ i, s.port.state ≠ .maintaining i) → s.port.state ≠ .serving .data → (∀ n c, s.port.state ≠ .serving (.runOut n c)) →
      exec (.xferShown level) s = .next seen) ∧
    (∀ i, s.port.state = .maintaining i → level = false → exec (.xferShown level) s = .next seen) ∧
    (∀ i, s.port.state = .maintaining i → level = true → exec (.xferShown level) s = .next { (s.withPort { s.port with
        state := .resetting true, access := none, transfer := none, xfer := true, attention := none, watchdog := none
        result := .dataRefused, spent := true }) with host := { s.host with flags := s.host.flags ||| 8 ||| 16 } }) ∧
    (s.port.state = .serving .data ∨ (∃ n c, s.port.state = .serving (.runOut n c)) → seen.transferMayBegin = true →
      exec (.xferShown level) s = exec .blockTransferBegin seen) ∧
    (s.port.state = .serving .data → s.port.transfer = none → seen.transferMayBegin = false →
      (level = true → exec (.xferShown level) s = .next (waiting (fun x => { x with starvation := some (x.starvation.getD 0) })
        { s.port with xfer := true, watchdog := none })) ∧
      (level = false → exec (.xferShown level) s = .next (waiting (fun x => { x with starvation := none })
        { s.port with xfer := false, watchdog := some (s.port.watchdog.getD 0) }))) ∧
    (s.port.state = .serving .data → s.port.transfer ≠ none → exec (.xferShown level) s = .next seen) ∧
    ((∃ n c, s.port.state = .serving (.runOut n c)) → seen.transferMayBegin = false → exec (.xferShown level) s = .next seen)

/-- ATTN_RISE (R118, R124, R130, R51): disregarded in NONE, the reset cycle and FAILED; in IDLE a bad attention enters RESETTING; in
DESCRIBING it ends the description; in MAINTAINING it restarts the watchdog alone; in setup the reading waits for the step in flight
(log 8, DESIGN CHOICE, for the operands); in the data phase it ends the command early; in the closing phase it ends it, and the
operation and the capture tell how the record goes on. ATTN_RISE without a command in service. In DESCRIBING it is the end of the
description, whose capacity is read once its COMMAND write is complete (R118; log 19, DESIGN CHOICE). In a setup that stops it is read
at the completion of the access in flight (R127), as in a run-out whose COMMAND write is in flight (log 9, DESIGN CHOICE); elsewhere in
a run-out it ends it: the ring goes back, a DETACHED record is freed, the port is IDLE and the arbiter decides (R66, R127). ATTN_RISE
whatever other target records exist and whether or not a script is posted (R51, R124, R48, R121): in the data and the closing phase the
port becomes IDLE, and the arbiter decides at the same event as by MODULE_GRANT. In priming a good attention is passed over and a bad
one ends the record MODULE_FAULT with blocks done 0. -/
def Obligations.AttentionRises : Prop :=
  (∀ (s : State) (status detail : Word),
      let fault := status.getLsbD 3
      let good := status.getLsbD 0 = true ∧ fault = false
      let reset : Port := { s.port with
        state := .resetting true, access := none, transfer := none, attention := none, watchdog := none }
      (s.port.state = .absent ∨ (∃ b, s.port.state = .resetting b) ∨ (∃ n, s.port.state = .starting n) ∨ s.port.state = .failed →
        exec (.attnRise status detail) s = .next s) ∧
      (s.port.state = .idle → (good → exec (.attnRise status detail) s = .next s) ∧
        (¬ good → s.activeRec = none → exec (.attnRise status detail) s = .next { (s.withPort reset) with
          host := { s.host with flags := s.host.flags ||| 16 } })) ∧
      (s.port.state = .describing .await → fault = false → exec (.attnRise status detail) s = .next (s.withPort { s.port with
        state := .describing .readLo, access := some ⟨2, none⟩, watchdog := some 0 })) ∧
      (∀ d, s.port.state = .describing d → fault = true → exec (.attnRise status detail) s = .next s.enterFailed) ∧
      (∀ i, s.port.state = .maintaining i → exec (.attnRise status detail) s = .next (s.withPort { s.port with watchdog := some 0 })) ∧
      (∀ i, s.port.state = .serving (.setup i) → exec (.attnRise status detail) s = .next (s.withPort { s.port with
        attention := some (status, detail), watchdog := some 0 })) ∧
      (∀ (r : TargetRec) (i : ExchId), s.exch.targets = [r] → r.state = .active → r.id = some i →
        let idle : Port := { s.port with state := .idle, access := none, transfer := none, attention := none, watchdog := none
                                         capture := some (status, detail) }
        let settled (o : Outcome) : TargetRec := { r with
          state := .settling true 0, ring := none, priming := none, starvation := none, outcome := some o
          wanted := r.wanted.filter (fun k => decide (k ≠ .reply) && decide (k ≠ .credit)) }
        let ended (o : Outcome) (p : Port) : State := { (s.withPort p) with
          exch := { s.exch with targets := [settled o] }
          buf := { s.buf with servFree := s.buf.servFree ++ r.ring.elim [] (List.map Slot.area) } }
        (s.port.state = .serving .data → s.port.result ≠ .posted → exec (.attnRise status detail) s =
          .next (ended ⟨.moduleFault, r.moved, true, some (status, detail)⟩ idle)) ∧
        (s.port.state = .serving .priming → ¬ good → exec (.attnRise status detail) s = .next ({
          ended ⟨.moduleFault, 0, true, some (status, detail)⟩ reset with host := { s.host with flags := s.host.flags ||| 16 } })) ∧
        (s.port.state = .serving .closing → s.port.result ≠ .posted →
          (fault = true → exec (.attnRise status detail) s = .next (ended ⟨.moduleFault, r.moved, true, some (status, detail)⟩ idle)) ∧
          (fault = false → r.op ≠ .read ∨ r.count ≤ r.flow.base →
            exec (.attnRise status detail) s = .next (ended ⟨.done, r.moved, true, none⟩ idle)) ∧
          (fault = false → r.op = .read → r.flow.base < r.count → exec (.attnRise status detail) s = .next { (s.withPort idle) with
            exch := { s.exch with targets := [{ r with state := .finishing, starvation := none }] } })))) ∧
  (∀ (s : State) (status detail : Word),
      let held : State := s.withPort { s.port with attention := some (status, detail), watchdog := some 0 }
      (status.getLsbD 3 = false →
        (s.port.state = .describing .command → exec (.attnRise status detail) s = .next (s.withPort { s.port with
          state := .describing .ended, watchdog := some 0 })) ∧
        (s.port.state = .describing .ended ∨ s.port.state = .describing .readLo ∨ (∃ lo, s.port.state = .describing (.readHi lo)) →
          exec (.attnRise status detail) s = .next (s.withPort { s.port with watchdog := some 0 }))) ∧
      (s.port.state = .serving .stopping → exec (.attnRise status detail) s = .next held) ∧
      (∀ n c, s.port.state = .serving (.runOut n c) →
        (s.port.access ≠ none → s.port.transfer = none → exec (.attnRise status detail) s = .next held) ∧
        (s.port.access = none ∨ s.port.transfer ≠ none → exec (.attnRise status detail) s = .next (({ s with
          exch := { s.exch with targets := (s.exch.targets.filter (fun x => decide (x.state ≠ .detached))).map (fun x =>
            if x.inRunOut then { x with ring := none } else x) }
          buf := { s.buf with servFree := s.buf.servFree ++
            (s.exch.targets.filter TargetRec.inRunOut).flatMap (fun x => x.ring.elim [] (List.map Slot.area)) } } : State).withPort
              { s.port with state := .idle, access := none, transfer := none, attention := none, watchdog := none }).grant))) ∧
  (∀ (s : State) (status detail : Word),
      let fault := status.getLsbD 3
      let good := status.getLsbD 0 = true ∧ fault = false
      (s.port.state = .serving .priming → good → exec (.attnRise status detail) s = .next s) ∧
      ∀ (pre post : List TargetRec) (r : TargetRec) (i : ExchId), s.exch.targets = pre ++ r :: post → r.state = .active → r.id = some i →
        (∀ x ∈ pre ++ post, x.state ≠ .active ∧ x.keyed i.peer i.tag = false) →
        let idle : Port := { s.port with state := .idle, access := none, transfer := none, attention := none, watchdog := none
                                         capture := some (status, detail) }
        let reset : Port := { s.port with
          state := .resetting true, access := none, transfer := none, attention := none, watchdog := none }
        let ended (o : Outcome) (p : Port) : State := { (s.withPort p) with
          exch := { s.exch with targets := pre ++ { r with
            state := .settling true 0, ring := none, priming := none, starvation := none, outcome := some o
            wanted := r.wanted.filter (fun k => decide (k ≠ .reply) && decide (k ≠ .credit)) } :: post }
          buf := { s.buf with servFree := s.buf.servFree ++ r.ring.elim [] (List.map Slot.area) } }
        (s.port.state = .serving .data → exec (.attnRise status detail) s =
          exec .moduleGrant (ended ⟨.moduleFault, r.moved, true, some (status, detail)⟩ idle)) ∧
        (s.port.state = .serving .priming → ¬ good → exec (.attnRise status detail) s = .next {
          ended ⟨.moduleFault, 0, true, some (status, detail)⟩ reset with host := { s.host with flags := s.host.flags ||| 16 } }) ∧
        (s.port.state = .serving .closing →
          (fault = true → exec (.attnRise status detail) s =
            exec .moduleGrant (ended ⟨.moduleFault, r.moved, true, some (status, detail)⟩ idle)) ∧
          (fault = false → r.op ≠ .read ∨ r.count ≤ r.flow.base → exec (.attnRise status detail) s =
            exec .moduleGrant (ended ⟨.done, r.moved, true, none⟩ idle)) ∧
          (fault = false → r.op = .read → r.flow.base < r.count → exec (.attnRise status detail) s = exec .moduleGrant { (s.withPort idle) with
            exch := { s.exch with targets := pre ++ { r with state := .finishing, starvation := none } :: post } })))

/-- The module's timers. WATCHDOG_EXPIRY (R125): DESCRIBING ends in FAILED, MAINTAINING STALLED, and a served record settles
MODULE_STALL with its ring kept for the reset run-out (R128). MRST_RELEASE (R118, R128): STARTING begins, the ring run out goes back and
a DETACHED record is freed. STARTING_TIMEOUT and the entry to FAILED (R119). That WATCHDOG_EXPIRY and STARTING_TIMEOUT may come at any
count of their timers is the model's (log 1, DESIGN CHOICE), and that a timer's row changes nothing while the timer is stopped is the
model's too (log 3, DESIGN CHOICE). WATCHDOG_EXPIRY where no record is served (R125, R127, R128): a stopping setup and a run-out go on
as a module reset, which cuts the transfer of the ring run out and sets MODULE; no outcome is changed and no ring is given back before
the release of MRST. It may come at any count (log 1, DESIGN CHOICE). Whatever other target records exist: WATCHDOG_EXPIRY of a served
record (R125, R128), and MRST_RELEASE, which gives back every ring run out, frees a DETACHED record and enters STARTING (R66, R118).
MRST is asserted in NONE, RESETTING and FAILED alone (07, 7.2). -/
def Obligations.ModuleTimers : Prop :=
  (∀ s : State,
      let reset : Port := { s.port with
        state := .resetting true, access := none, transfer := none, attention := none, watchdog := none }
      let settled (r : TargetRec) (ring : Option Ring) (o : Outcome) : TargetRec := { r with
        state := .settling true 0, ring := ring, priming := none, starvation := none, outcome := some o
        wanted := r.wanted.filter (fun k => decide (k ≠ .reply) && decide (k ≠ .credit)) }
      let failed : State := { (s.withPort { s.port with
          state := .failed, access := none, transfer := none, attention := none, watchdog := none
          result := if s.port.result = .posted then .stalled else s.port.result
          spent := s.port.spent || decide (s.port.result = .posted) }) with
        host := { s.host with flags := if s.port.result = .posted then s.host.flags ||| 8 ||| 16 else s.host.flags ||| 16 }
        exch := { s.exch with targets := s.exch.targets.map (fun r =>
          if r.state = .queued then settled r none ⟨.noModule, 0, true, none⟩ else r) } }
      (s.port.watchdog = none → exec .watchdogExpiry s = .next s) ∧
      (∀ n, s.port.watchdog = some n →
        (∀ d, s.port.state = .describing d → exec .watchdogExpiry s = .next failed) ∧
        (∀ i, s.port.state = .maintaining i → exec .watchdogExpiry s = .next { (s.withPort { reset with
          result := .stalled, spent := true }) with host := { s.host with flags := s.host.flags ||| 8 ||| 16 } }) ∧
        (∀ (r : TargetRec) (i : ExchId), s.exch.targets = [r] → r.state = .active → r.id = some i →
          (∃ k, s.port.state = .serving (.setup k)) ∨ s.port.state = .serving .data ∨ s.port.state = .serving .closing →
          exec .watchdogExpiry s = .next { (s.withPort reset) with
            host := { s.host with flags := s.host.flags ||| 16 }
            exch := { s.exch with targets := [settled r (r.ring.map (List.map (fun x => match x.st with
              | .filling _ _ => ⟨x.area, .empty⟩
              | .draining _ _ => ⟨x.area, .empty⟩
              | _ => x))) ⟨.moduleStall, r.moved, true, none⟩] } })) ∧
      (s.port.state ≠ .resetting true → exec .mrstRelease s = .next s) ∧
      (s.port.state = .resetting true →
        (s.exch.targets = [] → exec .mrstRelease s = .next (s.withPort { s.port with state := .starting 0, access := some ⟨6, none⟩ })) ∧
        (∀ r : TargetRec, s.exch.targets = [r] → r.state = .detached → exec .mrstRelease s = .next { (s.withPort { s.port with
            state := .starting 0, access := some ⟨6, none⟩ }) with
          exch := { s.exch with targets := [] }
          buf := { s.buf with servFree := s.buf.servFree ++ r.ring.elim [] (List.map Slot.area) } }) ∧
        (∀ (r : TargetRec) (o : Bool) (n : Nat), s.exch.targets = [r] → r.state = .settling o n →
          exec .mrstRelease s = .next { (s.withPort { s.port with state := .starting 0, access := some ⟨6, none⟩ }) with
            exch := { s.exch with targets := [{ r with ring := none }] }
            buf := { s.buf with servFree := s.buf.servFree ++ r.ring.elim [] (List.map Slot.area) } })) ∧
      (∀ n, s.port.state = .starting n → exec .startingTimeout s = .next failed) ∧
      ((∀ n, s.port.state ≠ .starting n) → exec .startingTimeout s = .next s)) ∧
  (∀ (s : State) (n : Nat), s.port.watchdog = some n →
      let reset : State := { (s.withPort { s.port with
          state := .resetting true, access := none, transfer := none, attention := none, watchdog := none }) with
        host := { s.host with flags := s.host.flags ||| 16 } }
      (s.port.state = .serving .stopping → (∀ r ∈ s.exch.targets, r.state ≠ .active) → exec .watchdogExpiry s = .next reset) ∧
      (∀ k c, s.port.state = .serving (.runOut k c) → exec .watchdogExpiry s = .next { reset with
        exch := { s.exch with targets := s.exch.targets.map (fun x => if x.inRunOut then
          { x with ring := x.ring.map (List.map (fun y => match y.st with
            | .filling _ _ => { y with st := .empty }
            | .draining _ _ => { y with st := .empty }
            | _ => y)) } else x) } })) ∧
  (∀ s : State,
      (s.mrst = true ↔ s.port.state = .absent ∨ (∃ b, s.port.state = .resetting b) ∨ s.port.state = .failed) ∧
      (s.port.state = .resetting true → exec .mrstRelease s = .next (({ s with
        exch := { s.exch with targets := (s.exch.targets.filter (fun x => decide (x.state ≠ .detached))).map (fun x =>
          match x.state with
          | .settling _ _ => { x with ring := none }
          | _ => x) }
        buf := { s.buf with servFree := s.buf.servFree ++ s.exch.targets.flatMap (fun x => match x.state with
          | .settling _ _ => x.ring.elim [] (List.map Slot.area)
          | .detached => x.ring.elim [] (List.map Slot.area)
          | _ => []) } } : State).withPort { s.port with state := .starting 0, access := some ⟨6, none⟩ })) ∧
      ∀ (n : Nat) (pre post : List TargetRec) (r : TargetRec) (i : ExchId), s.port.watchdog = some n → s.exch.targets = pre ++ r :: post →
        r.state = .active → r.id = some i → (∀ x ∈ pre ++ post, x.state ≠ .active ∧ x.keyed i.peer i.tag = false) →
        (∃ k, s.port.state = .serving (.setup k)) ∨ s.port.state = .serving .data ∨ s.port.state = .serving .closing →
        exec .watchdogExpiry s = .next { (s.withPort { s.port with
            state := .resetting true, access := none, transfer := none, attention := none, watchdog := none }) with
          host := { s.host with flags := s.host.flags ||| 16 }
          exch := { s.exch with targets := pre ++ { r with
            state := .settling true 0, priming := none, starvation := none, outcome := some ⟨.moduleStall, r.moved, true, none⟩
            wanted := r.wanted.filter (fun k => decide (k ≠ .reply) && decide (k ≠ .credit))
            ring := r.ring.map (List.map (fun x => match x.st with
              | .filling _ _ => ⟨x.area, .empty⟩
              | .draining _ _ => ⟨x.area, .empty⟩
              | _ => x)) } :: post } })

/-! ### What holds of every frame and of every step -/

/-- Frames on the line (R155, R156, R157): a frame that is laid out is heard as itself, with every field of its header, its items and its
block at every value that fits; as corrupt by a station with the sender's own number; two frames laid out alike are one; the length is
the one its kind calls for; and four other bytes in place of its CRC-32 make it corrupt. -/
def Obligations.FramesReadBack : Prop :=
  ∀ (own : Station) (f : Frame), f.fits →
    receiveFrame own f.encode = (if f.sender = own then .corrupt else .intact f) ∧
    (∀ g : Frame, g.fits → g.encode = f.encode → g = f) ∧
    f.encode.length = (match f.payload with
      | .none => 12
      | .items l => 12 + 12 * l.length
      | .data _ => 524) ∧
    (∀ c : List Byte, c.length = 4 → f.body ++ c ≠ f.encode → receiveFrame own (f.body ++ c) = .corrupt)

/-- What every step keeps of the stores: the canonical form of the packet RAM, the capacities of the Request Queue, the Outcome Queue and
the Pending Item Queue (R170, R171, R159), and a sound roster (R147). -/
def Obligations.StepsKeepTheStores : Prop :=
  ∀ s u : State, step s = .next u →
    (s.ramCanonical → u.ramCanonical) ∧ (s.queuesBounded → u.queuesBounded) ∧ (s.rosterSound → u.rosterSound)

/-- What every step keeps of the exchanges: the limits and the distinct keys of the Exchange Table (R3, R17), every area in one free list or
one ring (R61), no ring in QUEUED or at an ended record (R65), and what hangs on the link state (R4, R148, R184). -/
def Obligations.StepsKeepTheRecords : Prop :=
  ∀ s u : State, step s = .next u → (s.areasSafe → u.areasSafe) ∧ (s.linkSound → u.linkSound)

/-- The state after reset has all of them, and a hardware reset leads back to them from every state whose packet RAM stands in its
canonical form. -/
def Obligations.InvariantsHoldAtReset : Prop :=
  (State.reset.ramCanonical ∧ State.reset.queuesBounded ∧ State.reset.rosterSound ∧ State.reset.areasSafe ∧ State.reset.linkSound) ∧
  ∀ s : State, s.ramCanonical → ∃ t, exec .hardwareReset s = .next t ∧
    t.ramCanonical ∧ t.queuesBounded ∧ t.rosterSound ∧ t.areasSafe ∧ t.linkSound
end

