-- ==== Sys2Proof/Laws/State.lean ====
section
/-! SUPPORT. One lemma per field per update of the state, so that no proof unfolds a record update: which groups of the
state each small operation leaves alone, and, inside the group it changes, which fields. -/

namespace Sys2Proof.Machine

/-! ### setFlag -/

@[simp] theorem State.setFlag_pending (s : State) (f : Flag) : (s.setFlag f).pending = s.pending := rfl
@[simp] theorem State.setFlag_inReset (s : State) (f : Flag) : (s.setFlag f).inReset = s.inReset := rfl
@[simp] theorem State.setFlag_timebase (s : State) (f : Flag) : (s.setFlag f).timebase = s.timebase := rfl
@[simp] theorem State.setFlag_host_config (s : State) (f : Flag) : (s.setFlag f).host.config = s.host.config := rfl
@[simp] theorem State.setFlag_host_latch (s : State) (f : Flag) : (s.setFlag f).host.latch = s.host.latch := rfl
@[simp] theorem State.setFlag_host_staging (s : State) (f : Flag) : (s.setFlag f).host.staging = s.host.staging := rfl
@[simp] theorem State.setFlag_host_commandArg (s : State) (f : Flag) : (s.setFlag f).host.commandArg = s.host.commandArg := rfl
@[simp] theorem State.setFlag_host_postStatus (s : State) (f : Flag) : (s.setFlag f).host.postStatus = s.host.postStatus := rfl
@[simp] theorem State.setFlag_host_commandStatus (s : State) (f : Flag) : (s.setFlag f).host.commandStatus = s.host.commandStatus := rfl
@[simp] theorem State.setFlag_host_enables (s : State) (f : Flag) : (s.setFlag f).host.enables = s.host.enables := rfl
@[simp] theorem State.setFlag_host_cause (s : State) (f : Flag) : (s.setFlag f).host.cause = s.host.cause := rfl
@[simp] theorem State.setFlag_host_repeated (s : State) (f : Flag) : (s.setFlag f).host.repeated = s.host.repeated := rfl
@[simp] theorem State.setFlag_host_requests (s : State) (f : Flag) : (s.setFlag f).host.requests = s.host.requests := rfl
@[simp] theorem State.setFlag_host_outcomes (s : State) (f : Flag) : (s.setFlag f).host.outcomes = s.host.outcomes := rfl
@[simp] theorem State.setFlag_host_steps (s : State) (f : Flag) : (s.setFlag f).host.steps = s.host.steps := rfl
@[simp] theorem State.setFlag_host_stepCount (s : State) (f : Flag) : (s.setFlag f).host.stepCount = s.host.stepCount := rfl
@[simp] theorem State.setFlag_host_hostData (s : State) (f : Flag) : (s.setFlag f).host.hostData = s.host.hostData := rfl
@[simp] theorem State.setFlag_chanA (s : State) (f : Flag) : (s.setFlag f).chanA = s.chanA := rfl
@[simp] theorem State.setFlag_chanB (s : State) (f : Flag) : (s.setFlag f).chanB = s.chanB := rfl
@[simp] theorem State.setFlag_member (s : State) (f : Flag) : (s.setFlag f).member = s.member := rfl
@[simp] theorem State.setFlag_line (s : State) (f : Flag) : (s.setFlag f).line = s.line := rfl
@[simp] theorem State.setFlag_sched (s : State) (f : Flag) : (s.setFlag f).sched = s.sched := rfl
@[simp] theorem State.setFlag_exch (s : State) (f : Flag) : (s.setFlag f).exch = s.exch := rfl
@[simp] theorem State.setFlag_buf (s : State) (f : Flag) : (s.setFlag f).buf = s.buf := rfl
@[simp] theorem State.setFlag_port (s : State) (f : Flag) : (s.setFlag f).port = s.port := rfl
@[simp] theorem State.setFlag_own (s : State) (f : Flag) : (s.setFlag f).own = s.own := rfl
@[simp] theorem State.setFlag_configured (s : State) (f : Flag) : (s.setFlag f).configured = s.configured := rfl

/-! ### hostFault -/

@[simp] theorem State.hostFault_pending (s : State) (c : FaultCause) : (s.hostFault c).pending = s.pending := rfl
@[simp] theorem State.hostFault_inReset (s : State) (c : FaultCause) : (s.hostFault c).inReset = s.inReset := rfl
@[simp] theorem State.hostFault_timebase (s : State) (c : FaultCause) : (s.hostFault c).timebase = s.timebase := rfl
@[simp] theorem State.hostFault_host_config (s : State) (c : FaultCause) : (s.hostFault c).host.config = s.host.config := rfl
@[simp] theorem State.hostFault_host_latch (s : State) (c : FaultCause) : (s.hostFault c).host.latch = s.host.latch := rfl
@[simp] theorem State.hostFault_host_staging (s : State) (c : FaultCause) : (s.hostFault c).host.staging = s.host.staging := rfl
@[simp] theorem State.hostFault_host_commandArg (s : State) (c : FaultCause) : (s.hostFault c).host.commandArg = s.host.commandArg := rfl
@[simp] theorem State.hostFault_host_postStatus (s : State) (c : FaultCause) : (s.hostFault c).host.postStatus = s.host.postStatus := rfl
@[simp] theorem State.hostFault_host_commandStatus (s : State) (c : FaultCause) : (s.hostFault c).host.commandStatus = s.host.commandStatus := rfl
@[simp] theorem State.hostFault_host_enables (s : State) (c : FaultCause) : (s.hostFault c).host.enables = s.host.enables := rfl
@[simp] theorem State.hostFault_host_requests (s : State) (c : FaultCause) : (s.hostFault c).host.requests = s.host.requests := rfl
@[simp] theorem State.hostFault_host_outcomes (s : State) (c : FaultCause) : (s.hostFault c).host.outcomes = s.host.outcomes := rfl
@[simp] theorem State.hostFault_host_steps (s : State) (c : FaultCause) : (s.hostFault c).host.steps = s.host.steps := rfl
@[simp] theorem State.hostFault_host_stepCount (s : State) (c : FaultCause) : (s.hostFault c).host.stepCount = s.host.stepCount := rfl
@[simp] theorem State.hostFault_host_hostData (s : State) (c : FaultCause) : (s.hostFault c).host.hostData = s.host.hostData := rfl
@[simp] theorem State.hostFault_chanA (s : State) (c : FaultCause) : (s.hostFault c).chanA = s.chanA := rfl
@[simp] theorem State.hostFault_chanB (s : State) (c : FaultCause) : (s.hostFault c).chanB = s.chanB := rfl
@[simp] theorem State.hostFault_member (s : State) (c : FaultCause) : (s.hostFault c).member = s.member := rfl
@[simp] theorem State.hostFault_line (s : State) (c : FaultCause) : (s.hostFault c).line = s.line := rfl
@[simp] theorem State.hostFault_sched (s : State) (c : FaultCause) : (s.hostFault c).sched = s.sched := rfl
@[simp] theorem State.hostFault_exch (s : State) (c : FaultCause) : (s.hostFault c).exch = s.exch := rfl
@[simp] theorem State.hostFault_buf (s : State) (c : FaultCause) : (s.hostFault c).buf = s.buf := rfl
@[simp] theorem State.hostFault_port (s : State) (c : FaultCause) : (s.hostFault c).port = s.port := rfl
@[simp] theorem State.hostFault_own (s : State) (c : FaultCause) : (s.hostFault c).own = s.own := rfl
@[simp] theorem State.hostFault_configured (s : State) (c : FaultCause) : (s.hostFault c).configured = s.configured := rfl

/-! ### setChan -/

@[simp] theorem State.setChan_pending (s : State) (c : Channel) (x : Chan) : (s.setChan c x).pending = s.pending := by cases c <;> rfl
@[simp] theorem State.setChan_inReset (s : State) (c : Channel) (x : Chan) : (s.setChan c x).inReset = s.inReset := by cases c <;> rfl
@[simp] theorem State.setChan_timebase (s : State) (c : Channel) (x : Chan) : (s.setChan c x).timebase = s.timebase := by cases c <;> rfl
@[simp] theorem State.setChan_host (s : State) (c : Channel) (x : Chan) : (s.setChan c x).host = s.host := by cases c <;> rfl
@[simp] theorem State.setChan_member (s : State) (c : Channel) (x : Chan) : (s.setChan c x).member = s.member := by cases c <;> rfl
@[simp] theorem State.setChan_line (s : State) (c : Channel) (x : Chan) : (s.setChan c x).line = s.line := by cases c <;> rfl
@[simp] theorem State.setChan_sched (s : State) (c : Channel) (x : Chan) : (s.setChan c x).sched = s.sched := by cases c <;> rfl
@[simp] theorem State.setChan_exch (s : State) (c : Channel) (x : Chan) : (s.setChan c x).exch = s.exch := by cases c <;> rfl
@[simp] theorem State.setChan_buf (s : State) (c : Channel) (x : Chan) : (s.setChan c x).buf = s.buf := by cases c <;> rfl
@[simp] theorem State.setChan_port (s : State) (c : Channel) (x : Chan) : (s.setChan c x).port = s.port := by cases c <;> rfl
@[simp] theorem State.setChan_own (s : State) (c : Channel) (x : Chan) : (s.setChan c x).own = s.own := by cases c <;> rfl
@[simp] theorem State.setChan_configured (s : State) (c : Channel) (x : Chan) : (s.setChan c x).configured = s.configured := by cases c <;> rfl

/-! ### withPort -/

@[simp] theorem State.withPort_pending (s : State) (p : Port) : (s.withPort p).pending = s.pending := rfl
@[simp] theorem State.withPort_inReset (s : State) (p : Port) : (s.withPort p).inReset = s.inReset := rfl
@[simp] theorem State.withPort_timebase (s : State) (p : Port) : (s.withPort p).timebase = s.timebase := rfl
@[simp] theorem State.withPort_host (s : State) (p : Port) : (s.withPort p).host = s.host := rfl
@[simp] theorem State.withPort_chanA (s : State) (p : Port) : (s.withPort p).chanA = s.chanA := rfl
@[simp] theorem State.withPort_chanB (s : State) (p : Port) : (s.withPort p).chanB = s.chanB := rfl
@[simp] theorem State.withPort_member_link (s : State) (p : Port) : (s.withPort p).member.link = s.member.link := rfl
@[simp] theorem State.withPort_member_generation (s : State) (p : Port) : (s.withPort p).member.generation = s.member.generation := rfl
@[simp] theorem State.withPort_member_holder (s : State) (p : Port) : (s.withPort p).member.holder = s.member.holder := rfl
@[simp] theorem State.withPort_member_activity (s : State) (p : Port) : (s.withPort p).member.activity = s.member.activity := rfl
@[simp] theorem State.withPort_member_view (s : State) (p : Port) : (s.withPort p).member.view = s.member.view := rfl
@[simp] theorem State.withPort_member_openTurns (s : State) (p : Port) : (s.withPort p).member.openTurns = s.member.openTurns := rfl
@[simp] theorem State.withPort_line (s : State) (p : Port) : (s.withPort p).line = s.line := rfl
@[simp] theorem State.withPort_sched (s : State) (p : Port) : (s.withPort p).sched = s.sched := rfl
@[simp] theorem State.withPort_exch (s : State) (p : Port) : (s.withPort p).exch = s.exch := rfl
@[simp] theorem State.withPort_buf (s : State) (p : Port) : (s.withPort p).buf = s.buf := rfl
@[simp] theorem State.withPort_own (s : State) (p : Port) : (s.withPort p).own = s.own := rfl
@[simp] theorem State.withPort_configured (s : State) (p : Port) : (s.withPort p).configured = s.configured := rfl

/-! ### mapInit -/

@[simp] theorem State.mapInit_pending (s : State) (t : Tag) (f : InitRec → InitRec) : (s.mapInit t f).pending = s.pending := rfl
@[simp] theorem State.mapInit_inReset (s : State) (t : Tag) (f : InitRec → InitRec) : (s.mapInit t f).inReset = s.inReset := rfl
@[simp] theorem State.mapInit_timebase (s : State) (t : Tag) (f : InitRec → InitRec) : (s.mapInit t f).timebase = s.timebase := rfl
@[simp] theorem State.mapInit_host (s : State) (t : Tag) (f : InitRec → InitRec) : (s.mapInit t f).host = s.host := rfl
@[simp] theorem State.mapInit_chanA (s : State) (t : Tag) (f : InitRec → InitRec) : (s.mapInit t f).chanA = s.chanA := rfl
@[simp] theorem State.mapInit_chanB (s : State) (t : Tag) (f : InitRec → InitRec) : (s.mapInit t f).chanB = s.chanB := rfl
@[simp] theorem State.mapInit_member (s : State) (t : Tag) (f : InitRec → InitRec) : (s.mapInit t f).member = s.member := rfl
@[simp] theorem State.mapInit_line (s : State) (t : Tag) (f : InitRec → InitRec) : (s.mapInit t f).line = s.line := rfl
@[simp] theorem State.mapInit_sched (s : State) (t : Tag) (f : InitRec → InitRec) : (s.mapInit t f).sched = s.sched := rfl
@[simp] theorem State.mapInit_exch_delivering (s : State) (t : Tag) (f : InitRec → InitRec) : (s.mapInit t f).exch.delivering = s.exch.delivering := rfl
@[simp] theorem State.mapInit_exch_targets (s : State) (t : Tag) (f : InitRec → InitRec) : (s.mapInit t f).exch.targets = s.exch.targets := rfl
@[simp] theorem State.mapInit_exch_lastTag (s : State) (t : Tag) (f : InitRec → InitRec) : (s.mapInit t f).exch.lastTag = s.exch.lastTag := rfl
@[simp] theorem State.mapInit_exch_serials (s : State) (t : Tag) (f : InitRec → InitRec) : (s.mapInit t f).exch.serials = s.exch.serials := rfl
@[simp] theorem State.mapInit_buf (s : State) (t : Tag) (f : InitRec → InitRec) : (s.mapInit t f).buf = s.buf := rfl
@[simp] theorem State.mapInit_port (s : State) (t : Tag) (f : InitRec → InitRec) : (s.mapInit t f).port = s.port := rfl
@[simp] theorem State.mapInit_own (s : State) (t : Tag) (f : InitRec → InitRec) : (s.mapInit t f).own = s.own := rfl
@[simp] theorem State.mapInit_configured (s : State) (t : Tag) (f : InitRec → InitRec) : (s.mapInit t f).configured = s.configured := rfl

/-! ### setInit -/

@[simp] theorem State.setInit_pending (s : State) (r : InitRec) : (s.setInit r).pending = s.pending := rfl
@[simp] theorem State.setInit_inReset (s : State) (r : InitRec) : (s.setInit r).inReset = s.inReset := rfl
@[simp] theorem State.setInit_timebase (s : State) (r : InitRec) : (s.setInit r).timebase = s.timebase := rfl
@[simp] theorem State.setInit_host (s : State) (r : InitRec) : (s.setInit r).host = s.host := rfl
@[simp] theorem State.setInit_chanA (s : State) (r : InitRec) : (s.setInit r).chanA = s.chanA := rfl
@[simp] theorem State.setInit_chanB (s : State) (r : InitRec) : (s.setInit r).chanB = s.chanB := rfl
@[simp] theorem State.setInit_member (s : State) (r : InitRec) : (s.setInit r).member = s.member := rfl
@[simp] theorem State.setInit_line (s : State) (r : InitRec) : (s.setInit r).line = s.line := rfl
@[simp] theorem State.setInit_sched (s : State) (r : InitRec) : (s.setInit r).sched = s.sched := rfl
@[simp] theorem State.setInit_exch_delivering (s : State) (r : InitRec) : (s.setInit r).exch.delivering = s.exch.delivering := rfl
@[simp] theorem State.setInit_exch_targets (s : State) (r : InitRec) : (s.setInit r).exch.targets = s.exch.targets := rfl
@[simp] theorem State.setInit_exch_lastTag (s : State) (r : InitRec) : (s.setInit r).exch.lastTag = s.exch.lastTag := rfl
@[simp] theorem State.setInit_exch_serials (s : State) (r : InitRec) : (s.setInit r).exch.serials = s.exch.serials := rfl
@[simp] theorem State.setInit_buf (s : State) (r : InitRec) : (s.setInit r).buf = s.buf := rfl
@[simp] theorem State.setInit_port (s : State) (r : InitRec) : (s.setInit r).port = s.port := rfl
@[simp] theorem State.setInit_own (s : State) (r : InitRec) : (s.setInit r).own = s.own := rfl
@[simp] theorem State.setInit_configured (s : State) (r : InitRec) : (s.setInit r).configured = s.configured := rfl

/-! ### mapTarget -/

@[simp] theorem State.mapTarget_pending (s : State) (p : Station) (t : Tag) (f : TargetRec → TargetRec) : (s.mapTarget p t f).pending = s.pending := rfl
@[simp] theorem State.mapTarget_inReset (s : State) (p : Station) (t : Tag) (f : TargetRec → TargetRec) : (s.mapTarget p t f).inReset = s.inReset := rfl
@[simp] theorem State.mapTarget_timebase (s : State) (p : Station) (t : Tag) (f : TargetRec → TargetRec) : (s.mapTarget p t f).timebase = s.timebase := rfl
@[simp] theorem State.mapTarget_host (s : State) (p : Station) (t : Tag) (f : TargetRec → TargetRec) : (s.mapTarget p t f).host = s.host := rfl
@[simp] theorem State.mapTarget_chanA (s : State) (p : Station) (t : Tag) (f : TargetRec → TargetRec) : (s.mapTarget p t f).chanA = s.chanA := rfl
@[simp] theorem State.mapTarget_chanB (s : State) (p : Station) (t : Tag) (f : TargetRec → TargetRec) : (s.mapTarget p t f).chanB = s.chanB := rfl
@[simp] theorem State.mapTarget_member (s : State) (p : Station) (t : Tag) (f : TargetRec → TargetRec) : (s.mapTarget p t f).member = s.member := rfl
@[simp] theorem State.mapTarget_line (s : State) (p : Station) (t : Tag) (f : TargetRec → TargetRec) : (s.mapTarget p t f).line = s.line := rfl
@[simp] theorem State.mapTarget_sched (s : State) (p : Station) (t : Tag) (f : TargetRec → TargetRec) : (s.mapTarget p t f).sched = s.sched := rfl
@[simp] theorem State.mapTarget_exch_inits (s : State) (p : Station) (t : Tag) (f : TargetRec → TargetRec) : (s.mapTarget p t f).exch.inits = s.exch.inits := rfl
@[simp] theorem State.mapTarget_exch_delivering (s : State) (p : Station) (t : Tag) (f : TargetRec → TargetRec) : (s.mapTarget p t f).exch.delivering = s.exch.delivering := rfl
@[simp] theorem State.mapTarget_exch_lastTag (s : State) (p : Station) (t : Tag) (f : TargetRec → TargetRec) : (s.mapTarget p t f).exch.lastTag = s.exch.lastTag := rfl
@[simp] theorem State.mapTarget_exch_serials (s : State) (p : Station) (t : Tag) (f : TargetRec → TargetRec) : (s.mapTarget p t f).exch.serials = s.exch.serials := rfl
@[simp] theorem State.mapTarget_buf (s : State) (p : Station) (t : Tag) (f : TargetRec → TargetRec) : (s.mapTarget p t f).buf = s.buf := rfl
@[simp] theorem State.mapTarget_port (s : State) (p : Station) (t : Tag) (f : TargetRec → TargetRec) : (s.mapTarget p t f).port = s.port := rfl
@[simp] theorem State.mapTarget_own (s : State) (p : Station) (t : Tag) (f : TargetRec → TargetRec) : (s.mapTarget p t f).own = s.own := rfl
@[simp] theorem State.mapTarget_configured (s : State) (p : Station) (t : Tag) (f : TargetRec → TargetRec) : (s.mapTarget p t f).configured = s.configured := rfl

/-! ### mapServed -/

@[simp] theorem State.mapServed_pending (s : State) (f : TargetRec → TargetRec) : (s.mapServed f).pending = s.pending := rfl
@[simp] theorem State.mapServed_inReset (s : State) (f : TargetRec → TargetRec) : (s.mapServed f).inReset = s.inReset := rfl
@[simp] theorem State.mapServed_timebase (s : State) (f : TargetRec → TargetRec) : (s.mapServed f).timebase = s.timebase := rfl
@[simp] theorem State.mapServed_host (s : State) (f : TargetRec → TargetRec) : (s.mapServed f).host = s.host := rfl
@[simp] theorem State.mapServed_chanA (s : State) (f : TargetRec → TargetRec) : (s.mapServed f).chanA = s.chanA := rfl
@[simp] theorem State.mapServed_chanB (s : State) (f : TargetRec → TargetRec) : (s.mapServed f).chanB = s.chanB := rfl
@[simp] theorem State.mapServed_member (s : State) (f : TargetRec → TargetRec) : (s.mapServed f).member = s.member := rfl
@[simp] theorem State.mapServed_line (s : State) (f : TargetRec → TargetRec) : (s.mapServed f).line = s.line := rfl
@[simp] theorem State.mapServed_sched (s : State) (f : TargetRec → TargetRec) : (s.mapServed f).sched = s.sched := rfl
@[simp] theorem State.mapServed_exch_inits (s : State) (f : TargetRec → TargetRec) : (s.mapServed f).exch.inits = s.exch.inits := rfl
@[simp] theorem State.mapServed_exch_delivering (s : State) (f : TargetRec → TargetRec) : (s.mapServed f).exch.delivering = s.exch.delivering := rfl
@[simp] theorem State.mapServed_exch_lastTag (s : State) (f : TargetRec → TargetRec) : (s.mapServed f).exch.lastTag = s.exch.lastTag := rfl
@[simp] theorem State.mapServed_exch_serials (s : State) (f : TargetRec → TargetRec) : (s.mapServed f).exch.serials = s.exch.serials := rfl
@[simp] theorem State.mapServed_buf (s : State) (f : TargetRec → TargetRec) : (s.mapServed f).buf = s.buf := rfl
@[simp] theorem State.mapServed_port (s : State) (f : TargetRec → TargetRec) : (s.mapServed f).port = s.port := rfl
@[simp] theorem State.mapServed_own (s : State) (f : TargetRec → TargetRec) : (s.mapServed f).own = s.own := rfl
@[simp] theorem State.mapServed_configured (s : State) (f : TargetRec → TargetRec) : (s.mapServed f).configured = s.configured := rfl

/-! ### mapServedRing -/

@[simp] theorem State.mapServedRing_pending (s : State) (f : Ring → Ring) : (s.mapServedRing f).pending = s.pending := rfl
@[simp] theorem State.mapServedRing_inReset (s : State) (f : Ring → Ring) : (s.mapServedRing f).inReset = s.inReset := rfl
@[simp] theorem State.mapServedRing_timebase (s : State) (f : Ring → Ring) : (s.mapServedRing f).timebase = s.timebase := rfl
@[simp] theorem State.mapServedRing_host (s : State) (f : Ring → Ring) : (s.mapServedRing f).host = s.host := rfl
@[simp] theorem State.mapServedRing_chanA (s : State) (f : Ring → Ring) : (s.mapServedRing f).chanA = s.chanA := rfl
@[simp] theorem State.mapServedRing_chanB (s : State) (f : Ring → Ring) : (s.mapServedRing f).chanB = s.chanB := rfl
@[simp] theorem State.mapServedRing_member (s : State) (f : Ring → Ring) : (s.mapServedRing f).member = s.member := rfl
@[simp] theorem State.mapServedRing_line (s : State) (f : Ring → Ring) : (s.mapServedRing f).line = s.line := rfl
@[simp] theorem State.mapServedRing_sched (s : State) (f : Ring → Ring) : (s.mapServedRing f).sched = s.sched := rfl
@[simp] theorem State.mapServedRing_exch_inits (s : State) (f : Ring → Ring) : (s.mapServedRing f).exch.inits = s.exch.inits := rfl
@[simp] theorem State.mapServedRing_exch_delivering (s : State) (f : Ring → Ring) : (s.mapServedRing f).exch.delivering = s.exch.delivering := rfl
@[simp] theorem State.mapServedRing_exch_lastTag (s : State) (f : Ring → Ring) : (s.mapServedRing f).exch.lastTag = s.exch.lastTag := rfl
@[simp] theorem State.mapServedRing_exch_serials (s : State) (f : Ring → Ring) : (s.mapServedRing f).exch.serials = s.exch.serials := rfl
@[simp] theorem State.mapServedRing_buf (s : State) (f : Ring → Ring) : (s.mapServedRing f).buf = s.buf := rfl
@[simp] theorem State.mapServedRing_port (s : State) (f : Ring → Ring) : (s.mapServedRing f).port = s.port := rfl
@[simp] theorem State.mapServedRing_own (s : State) (f : Ring → Ring) : (s.mapServedRing f).own = s.own := rfl
@[simp] theorem State.mapServedRing_configured (s : State) (f : Ring → Ring) : (s.mapServedRing f).configured = s.configured := rfl

/-! ### releaseServ -/

@[simp] theorem State.releaseServ_pending (s : State) (g : Option Ring) : (s.releaseServ g).pending = s.pending := rfl
@[simp] theorem State.releaseServ_inReset (s : State) (g : Option Ring) : (s.releaseServ g).inReset = s.inReset := rfl
@[simp] theorem State.releaseServ_timebase (s : State) (g : Option Ring) : (s.releaseServ g).timebase = s.timebase := rfl
@[simp] theorem State.releaseServ_host (s : State) (g : Option Ring) : (s.releaseServ g).host = s.host := rfl
@[simp] theorem State.releaseServ_chanA (s : State) (g : Option Ring) : (s.releaseServ g).chanA = s.chanA := rfl
@[simp] theorem State.releaseServ_chanB (s : State) (g : Option Ring) : (s.releaseServ g).chanB = s.chanB := rfl
@[simp] theorem State.releaseServ_member (s : State) (g : Option Ring) : (s.releaseServ g).member = s.member := rfl
@[simp] theorem State.releaseServ_line (s : State) (g : Option Ring) : (s.releaseServ g).line = s.line := rfl
@[simp] theorem State.releaseServ_sched (s : State) (g : Option Ring) : (s.releaseServ g).sched = s.sched := rfl
@[simp] theorem State.releaseServ_exch (s : State) (g : Option Ring) : (s.releaseServ g).exch = s.exch := rfl
@[simp] theorem State.releaseServ_buf_ram (s : State) (g : Option Ring) : (s.releaseServ g).buf.ram = s.buf.ram := rfl
@[simp] theorem State.releaseServ_buf_initFree (s : State) (g : Option Ring) : (s.releaseServ g).buf.initFree = s.buf.initFree := rfl
@[simp] theorem State.releaseServ_port (s : State) (g : Option Ring) : (s.releaseServ g).port = s.port := rfl
@[simp] theorem State.releaseServ_own (s : State) (g : Option Ring) : (s.releaseServ g).own = s.own := rfl
@[simp] theorem State.releaseServ_configured (s : State) (g : Option Ring) : (s.releaseServ g).configured = s.configured := rfl

/-! ### fixRecord -/

@[simp] theorem State.fixRecord_pending (s : State) (i : ExchId) (d : Role) (n : Nat) : (s.fixRecord i d n).pending = s.pending := rfl
@[simp] theorem State.fixRecord_inReset (s : State) (i : ExchId) (d : Role) (n : Nat) : (s.fixRecord i d n).inReset = s.inReset := rfl
@[simp] theorem State.fixRecord_timebase (s : State) (i : ExchId) (d : Role) (n : Nat) : (s.fixRecord i d n).timebase = s.timebase := rfl
@[simp] theorem State.fixRecord_host (s : State) (i : ExchId) (d : Role) (n : Nat) : (s.fixRecord i d n).host = s.host := rfl
@[simp] theorem State.fixRecord_chanA (s : State) (i : ExchId) (d : Role) (n : Nat) : (s.fixRecord i d n).chanA = s.chanA := rfl
@[simp] theorem State.fixRecord_chanB (s : State) (i : ExchId) (d : Role) (n : Nat) : (s.fixRecord i d n).chanB = s.chanB := rfl
@[simp] theorem State.fixRecord_member (s : State) (i : ExchId) (d : Role) (n : Nat) : (s.fixRecord i d n).member = s.member := rfl
@[simp] theorem State.fixRecord_line (s : State) (i : ExchId) (d : Role) (n : Nat) : (s.fixRecord i d n).line = s.line := rfl
@[simp] theorem State.fixRecord_sched_rotation (s : State) (i : ExchId) (d : Role) (n : Nat) : (s.fixRecord i d n).sched.rotation = s.sched.rotation := rfl
@[simp] theorem State.fixRecord_exch (s : State) (i : ExchId) (d : Role) (n : Nat) : (s.fixRecord i d n).exch = s.exch := rfl
@[simp] theorem State.fixRecord_buf (s : State) (i : ExchId) (d : Role) (n : Nat) : (s.fixRecord i d n).buf = s.buf := rfl
@[simp] theorem State.fixRecord_port (s : State) (i : ExchId) (d : Role) (n : Nat) : (s.fixRecord i d n).port = s.port := rfl
@[simp] theorem State.fixRecord_own (s : State) (i : ExchId) (d : Role) (n : Nat) : (s.fixRecord i d n).own = s.own := rfl
@[simp] theorem State.fixRecord_configured (s : State) (i : ExchId) (d : Role) (n : Nat) : (s.fixRecord i d n).configured = s.configured := rfl

/-! ### offer -/

@[simp] theorem State.offer_pending (s : State) (i : Item) (o : Origin) : (s.offer i o).pending = s.pending := rfl
@[simp] theorem State.offer_inReset (s : State) (i : Item) (o : Origin) : (s.offer i o).inReset = s.inReset := rfl
@[simp] theorem State.offer_timebase (s : State) (i : Item) (o : Origin) : (s.offer i o).timebase = s.timebase := rfl
@[simp] theorem State.offer_host (s : State) (i : Item) (o : Origin) : (s.offer i o).host = s.host := rfl
@[simp] theorem State.offer_chanA (s : State) (i : Item) (o : Origin) : (s.offer i o).chanA = s.chanA := rfl
@[simp] theorem State.offer_chanB (s : State) (i : Item) (o : Origin) : (s.offer i o).chanB = s.chanB := rfl
@[simp] theorem State.offer_member (s : State) (i : Item) (o : Origin) : (s.offer i o).member = s.member := rfl
@[simp] theorem State.offer_line (s : State) (i : Item) (o : Origin) : (s.offer i o).line = s.line := rfl
@[simp] theorem State.offer_sched_loopItems (s : State) (i : Item) (o : Origin) : (s.offer i o).sched.loopItems = s.sched.loopItems := rfl
@[simp] theorem State.offer_sched_rotation (s : State) (i : Item) (o : Origin) : (s.offer i o).sched.rotation = s.sched.rotation := rfl
@[simp] theorem State.offer_exch (s : State) (i : Item) (o : Origin) : (s.offer i o).exch = s.exch := rfl
@[simp] theorem State.offer_buf (s : State) (i : Item) (o : Origin) : (s.offer i o).buf = s.buf := rfl
@[simp] theorem State.offer_port (s : State) (i : Item) (o : Origin) : (s.offer i o).port = s.port := rfl
@[simp] theorem State.offer_own (s : State) (i : Item) (o : Origin) : (s.offer i o).own = s.own := rfl
@[simp] theorem State.offer_configured (s : State) (i : Item) (o : Origin) : (s.offer i o).configured = s.configured := rfl

/-! ### pushOutcome -/

@[simp] theorem State.pushOutcome_pending (s : State) (o : OutcomeRec) : (s.pushOutcome o).pending = s.pending := rfl
@[simp] theorem State.pushOutcome_inReset (s : State) (o : OutcomeRec) : (s.pushOutcome o).inReset = s.inReset := rfl
@[simp] theorem State.pushOutcome_timebase (s : State) (o : OutcomeRec) : (s.pushOutcome o).timebase = s.timebase := rfl
@[simp] theorem State.pushOutcome_host_config (s : State) (o : OutcomeRec) : (s.pushOutcome o).host.config = s.host.config := rfl
@[simp] theorem State.pushOutcome_host_latch (s : State) (o : OutcomeRec) : (s.pushOutcome o).host.latch = s.host.latch := rfl
@[simp] theorem State.pushOutcome_host_staging (s : State) (o : OutcomeRec) : (s.pushOutcome o).host.staging = s.host.staging := rfl
@[simp] theorem State.pushOutcome_host_commandArg (s : State) (o : OutcomeRec) : (s.pushOutcome o).host.commandArg = s.host.commandArg := rfl
@[simp] theorem State.pushOutcome_host_postStatus (s : State) (o : OutcomeRec) : (s.pushOutcome o).host.postStatus = s.host.postStatus := rfl
@[simp] theorem State.pushOutcome_host_commandStatus (s : State) (o : OutcomeRec) : (s.pushOutcome o).host.commandStatus = s.host.commandStatus := rfl
@[simp] theorem State.pushOutcome_host_enables (s : State) (o : OutcomeRec) : (s.pushOutcome o).host.enables = s.host.enables := rfl
@[simp] theorem State.pushOutcome_host_cause (s : State) (o : OutcomeRec) : (s.pushOutcome o).host.cause = s.host.cause := rfl
@[simp] theorem State.pushOutcome_host_repeated (s : State) (o : OutcomeRec) : (s.pushOutcome o).host.repeated = s.host.repeated := rfl
@[simp] theorem State.pushOutcome_host_requests (s : State) (o : OutcomeRec) : (s.pushOutcome o).host.requests = s.host.requests := rfl
@[simp] theorem State.pushOutcome_host_steps (s : State) (o : OutcomeRec) : (s.pushOutcome o).host.steps = s.host.steps := rfl
@[simp] theorem State.pushOutcome_host_stepCount (s : State) (o : OutcomeRec) : (s.pushOutcome o).host.stepCount = s.host.stepCount := rfl
@[simp] theorem State.pushOutcome_host_hostData (s : State) (o : OutcomeRec) : (s.pushOutcome o).host.hostData = s.host.hostData := rfl
@[simp] theorem State.pushOutcome_chanA (s : State) (o : OutcomeRec) : (s.pushOutcome o).chanA = s.chanA := rfl
@[simp] theorem State.pushOutcome_chanB (s : State) (o : OutcomeRec) : (s.pushOutcome o).chanB = s.chanB := rfl
@[simp] theorem State.pushOutcome_member (s : State) (o : OutcomeRec) : (s.pushOutcome o).member = s.member := rfl
@[simp] theorem State.pushOutcome_line (s : State) (o : OutcomeRec) : (s.pushOutcome o).line = s.line := rfl
@[simp] theorem State.pushOutcome_sched (s : State) (o : OutcomeRec) : (s.pushOutcome o).sched = s.sched := rfl
@[simp] theorem State.pushOutcome_exch (s : State) (o : OutcomeRec) : (s.pushOutcome o).exch = s.exch := rfl
@[simp] theorem State.pushOutcome_buf (s : State) (o : OutcomeRec) : (s.pushOutcome o).buf = s.buf := rfl
@[simp] theorem State.pushOutcome_port (s : State) (o : OutcomeRec) : (s.pushOutcome o).port = s.port := rfl
@[simp] theorem State.pushOutcome_own (s : State) (o : OutcomeRec) : (s.pushOutcome o).own = s.own := rfl
@[simp] theorem State.pushOutcome_configured (s : State) (o : OutcomeRec) : (s.pushOutcome o).configured = s.configured := rfl

/-! ### setRequests -/

@[simp] theorem State.setRequests_pending (s : State) (l : List Request) : (s.setRequests l).pending = s.pending := rfl
@[simp] theorem State.setRequests_inReset (s : State) (l : List Request) : (s.setRequests l).inReset = s.inReset := rfl
@[simp] theorem State.setRequests_timebase (s : State) (l : List Request) : (s.setRequests l).timebase = s.timebase := rfl
@[simp] theorem State.setRequests_host_config (s : State) (l : List Request) : (s.setRequests l).host.config = s.host.config := rfl
@[simp] theorem State.setRequests_host_latch (s : State) (l : List Request) : (s.setRequests l).host.latch = s.host.latch := rfl
@[simp] theorem State.setRequests_host_staging (s : State) (l : List Request) : (s.setRequests l).host.staging = s.host.staging := rfl
@[simp] theorem State.setRequests_host_commandArg (s : State) (l : List Request) : (s.setRequests l).host.commandArg = s.host.commandArg := rfl
@[simp] theorem State.setRequests_host_postStatus (s : State) (l : List Request) : (s.setRequests l).host.postStatus = s.host.postStatus := rfl
@[simp] theorem State.setRequests_host_commandStatus (s : State) (l : List Request) : (s.setRequests l).host.commandStatus = s.host.commandStatus := rfl
@[simp] theorem State.setRequests_host_enables (s : State) (l : List Request) : (s.setRequests l).host.enables = s.host.enables := rfl
@[simp] theorem State.setRequests_host_cause (s : State) (l : List Request) : (s.setRequests l).host.cause = s.host.cause := rfl
@[simp] theorem State.setRequests_host_repeated (s : State) (l : List Request) : (s.setRequests l).host.repeated = s.host.repeated := rfl
@[simp] theorem State.setRequests_host_outcomes (s : State) (l : List Request) : (s.setRequests l).host.outcomes = s.host.outcomes := rfl
@[simp] theorem State.setRequests_host_steps (s : State) (l : List Request) : (s.setRequests l).host.steps = s.host.steps := rfl
@[simp] theorem State.setRequests_host_stepCount (s : State) (l : List Request) : (s.setRequests l).host.stepCount = s.host.stepCount := rfl
@[simp] theorem State.setRequests_host_hostData (s : State) (l : List Request) : (s.setRequests l).host.hostData = s.host.hostData := rfl
@[simp] theorem State.setRequests_chanA (s : State) (l : List Request) : (s.setRequests l).chanA = s.chanA := rfl
@[simp] theorem State.setRequests_chanB (s : State) (l : List Request) : (s.setRequests l).chanB = s.chanB := rfl
@[simp] theorem State.setRequests_member (s : State) (l : List Request) : (s.setRequests l).member = s.member := rfl
@[simp] theorem State.setRequests_line (s : State) (l : List Request) : (s.setRequests l).line = s.line := rfl
@[simp] theorem State.setRequests_sched (s : State) (l : List Request) : (s.setRequests l).sched = s.sched := rfl
@[simp] theorem State.setRequests_exch (s : State) (l : List Request) : (s.setRequests l).exch = s.exch := rfl
@[simp] theorem State.setRequests_buf (s : State) (l : List Request) : (s.setRequests l).buf = s.buf := rfl
@[simp] theorem State.setRequests_port (s : State) (l : List Request) : (s.setRequests l).port = s.port := rfl
@[simp] theorem State.setRequests_own (s : State) (l : List Request) : (s.setRequests l).own = s.own := rfl
@[simp] theorem State.setRequests_configured (s : State) (l : List Request) : (s.setRequests l).configured = s.configured := rfl

/-! ### setHolder -/

@[simp] theorem State.setHolder_pending (s : State) (h : Option Station) : (s.setHolder h).pending = s.pending := rfl
@[simp] theorem State.setHolder_inReset (s : State) (h : Option Station) : (s.setHolder h).inReset = s.inReset := rfl
@[simp] theorem State.setHolder_timebase (s : State) (h : Option Station) : (s.setHolder h).timebase = s.timebase := rfl
@[simp] theorem State.setHolder_host (s : State) (h : Option Station) : (s.setHolder h).host = s.host := rfl
@[simp] theorem State.setHolder_chanA (s : State) (h : Option Station) : (s.setHolder h).chanA = s.chanA := rfl
@[simp] theorem State.setHolder_chanB (s : State) (h : Option Station) : (s.setHolder h).chanB = s.chanB := rfl
@[simp] theorem State.setHolder_member_link (s : State) (h : Option Station) : (s.setHolder h).member.link = s.member.link := rfl
@[simp] theorem State.setHolder_member_roster (s : State) (h : Option Station) : (s.setHolder h).member.roster = s.member.roster := rfl
@[simp] theorem State.setHolder_member_generation (s : State) (h : Option Station) : (s.setHolder h).member.generation = s.member.generation := rfl
@[simp] theorem State.setHolder_member_view (s : State) (h : Option Station) : (s.setHolder h).member.view = s.member.view := rfl
@[simp] theorem State.setHolder_member_openTurns (s : State) (h : Option Station) : (s.setHolder h).member.openTurns = s.member.openTurns := rfl
@[simp] theorem State.setHolder_line (s : State) (h : Option Station) : (s.setHolder h).line = s.line := rfl
@[simp] theorem State.setHolder_sched (s : State) (h : Option Station) : (s.setHolder h).sched = s.sched := rfl
@[simp] theorem State.setHolder_exch (s : State) (h : Option Station) : (s.setHolder h).exch = s.exch := rfl
@[simp] theorem State.setHolder_buf (s : State) (h : Option Station) : (s.setHolder h).buf = s.buf := rfl
@[simp] theorem State.setHolder_port (s : State) (h : Option Station) : (s.setHolder h).port = s.port := rfl
@[simp] theorem State.setHolder_own (s : State) (h : Option Station) : (s.setHolder h).own = s.own := rfl
@[simp] theorem State.setHolder_configured (s : State) (h : Option Station) : (s.setHolder h).configured = s.configured := rfl

/-! ### markActivity -/

@[simp] theorem State.markActivity_pending (s : State) : (s.markActivity).pending = s.pending := rfl
@[simp] theorem State.markActivity_inReset (s : State) : (s.markActivity).inReset = s.inReset := rfl
@[simp] theorem State.markActivity_timebase (s : State) : (s.markActivity).timebase = s.timebase := rfl
@[simp] theorem State.markActivity_host (s : State) : (s.markActivity).host = s.host := rfl
@[simp] theorem State.markActivity_chanA (s : State) : (s.markActivity).chanA = s.chanA := rfl
@[simp] theorem State.markActivity_chanB (s : State) : (s.markActivity).chanB = s.chanB := rfl
@[simp] theorem State.markActivity_member_link (s : State) : (s.markActivity).member.link = s.member.link := rfl
@[simp] theorem State.markActivity_member_roster (s : State) : (s.markActivity).member.roster = s.member.roster := rfl
@[simp] theorem State.markActivity_member_generation (s : State) : (s.markActivity).member.generation = s.member.generation := rfl
@[simp] theorem State.markActivity_member_holder (s : State) : (s.markActivity).member.holder = s.member.holder := rfl
@[simp] theorem State.markActivity_member_view (s : State) : (s.markActivity).member.view = s.member.view := rfl
@[simp] theorem State.markActivity_member_openTurns (s : State) : (s.markActivity).member.openTurns = s.member.openTurns := rfl
@[simp] theorem State.markActivity_line (s : State) : (s.markActivity).line = s.line := rfl
@[simp] theorem State.markActivity_sched (s : State) : (s.markActivity).sched = s.sched := rfl
@[simp] theorem State.markActivity_exch (s : State) : (s.markActivity).exch = s.exch := rfl
@[simp] theorem State.markActivity_buf (s : State) : (s.markActivity).buf = s.buf := rfl
@[simp] theorem State.markActivity_port (s : State) : (s.markActivity).port = s.port := rfl
@[simp] theorem State.markActivity_own (s : State) : (s.markActivity).own = s.own := rfl
@[simp] theorem State.markActivity_configured (s : State) : (s.markActivity).configured = s.configured := rfl

/-! ### mapEntry -/

@[simp] theorem State.mapEntry_pending (s : State) (n : Station) (f : RosterEntry → RosterEntry) : (s.mapEntry n f).pending = s.pending := rfl
@[simp] theorem State.mapEntry_inReset (s : State) (n : Station) (f : RosterEntry → RosterEntry) : (s.mapEntry n f).inReset = s.inReset := rfl
@[simp] theorem State.mapEntry_timebase (s : State) (n : Station) (f : RosterEntry → RosterEntry) : (s.mapEntry n f).timebase = s.timebase := rfl
@[simp] theorem State.mapEntry_host (s : State) (n : Station) (f : RosterEntry → RosterEntry) : (s.mapEntry n f).host = s.host := rfl
@[simp] theorem State.mapEntry_chanA (s : State) (n : Station) (f : RosterEntry → RosterEntry) : (s.mapEntry n f).chanA = s.chanA := rfl
@[simp] theorem State.mapEntry_chanB (s : State) (n : Station) (f : RosterEntry → RosterEntry) : (s.mapEntry n f).chanB = s.chanB := rfl
@[simp] theorem State.mapEntry_member_link (s : State) (n : Station) (f : RosterEntry → RosterEntry) : (s.mapEntry n f).member.link = s.member.link := rfl
@[simp] theorem State.mapEntry_member_generation (s : State) (n : Station) (f : RosterEntry → RosterEntry) : (s.mapEntry n f).member.generation = s.member.generation := rfl
@[simp] theorem State.mapEntry_member_holder (s : State) (n : Station) (f : RosterEntry → RosterEntry) : (s.mapEntry n f).member.holder = s.member.holder := rfl
@[simp] theorem State.mapEntry_member_activity (s : State) (n : Station) (f : RosterEntry → RosterEntry) : (s.mapEntry n f).member.activity = s.member.activity := rfl
@[simp] theorem State.mapEntry_member_view (s : State) (n : Station) (f : RosterEntry → RosterEntry) : (s.mapEntry n f).member.view = s.member.view := rfl
@[simp] theorem State.mapEntry_member_openTurns (s : State) (n : Station) (f : RosterEntry → RosterEntry) : (s.mapEntry n f).member.openTurns = s.member.openTurns := rfl
@[simp] theorem State.mapEntry_line (s : State) (n : Station) (f : RosterEntry → RosterEntry) : (s.mapEntry n f).line = s.line := rfl
@[simp] theorem State.mapEntry_sched (s : State) (n : Station) (f : RosterEntry → RosterEntry) : (s.mapEntry n f).sched = s.sched := rfl
@[simp] theorem State.mapEntry_exch (s : State) (n : Station) (f : RosterEntry → RosterEntry) : (s.mapEntry n f).exch = s.exch := rfl
@[simp] theorem State.mapEntry_buf (s : State) (n : Station) (f : RosterEntry → RosterEntry) : (s.mapEntry n f).buf = s.buf := rfl
@[simp] theorem State.mapEntry_port (s : State) (n : Station) (f : RosterEntry → RosterEntry) : (s.mapEntry n f).port = s.port := rfl
@[simp] theorem State.mapEntry_own (s : State) (n : Station) (f : RosterEntry → RosterEntry) : (s.mapEntry n f).own = s.own := rfl
@[simp] theorem State.mapEntry_configured (s : State) (n : Station) (f : RosterEntry → RosterEntry) : (s.mapEntry n f).configured = s.configured := rfl

/-! ### countChanges -/

@[simp] theorem State.countChanges_pending (s : State) (n : Nat) : (s.countChanges n).pending = s.pending := rfl
@[simp] theorem State.countChanges_inReset (s : State) (n : Nat) : (s.countChanges n).inReset = s.inReset := rfl
@[simp] theorem State.countChanges_timebase (s : State) (n : Nat) : (s.countChanges n).timebase = s.timebase := rfl
@[simp] theorem State.countChanges_host_config (s : State) (n : Nat) : (s.countChanges n).host.config = s.host.config := rfl
@[simp] theorem State.countChanges_host_latch (s : State) (n : Nat) : (s.countChanges n).host.latch = s.host.latch := rfl
@[simp] theorem State.countChanges_host_staging (s : State) (n : Nat) : (s.countChanges n).host.staging = s.host.staging := rfl
@[simp] theorem State.countChanges_host_commandArg (s : State) (n : Nat) : (s.countChanges n).host.commandArg = s.host.commandArg := rfl
@[simp] theorem State.countChanges_host_postStatus (s : State) (n : Nat) : (s.countChanges n).host.postStatus = s.host.postStatus := rfl
@[simp] theorem State.countChanges_host_commandStatus (s : State) (n : Nat) : (s.countChanges n).host.commandStatus = s.host.commandStatus := rfl
@[simp] theorem State.countChanges_host_enables (s : State) (n : Nat) : (s.countChanges n).host.enables = s.host.enables := rfl
@[simp] theorem State.countChanges_host_cause (s : State) (n : Nat) : (s.countChanges n).host.cause = s.host.cause := rfl
@[simp] theorem State.countChanges_host_repeated (s : State) (n : Nat) : (s.countChanges n).host.repeated = s.host.repeated := rfl
@[simp] theorem State.countChanges_host_requests (s : State) (n : Nat) : (s.countChanges n).host.requests = s.host.requests := rfl
@[simp] theorem State.countChanges_host_outcomes (s : State) (n : Nat) : (s.countChanges n).host.outcomes = s.host.outcomes := rfl
@[simp] theorem State.countChanges_host_steps (s : State) (n : Nat) : (s.countChanges n).host.steps = s.host.steps := rfl
@[simp] theorem State.countChanges_host_stepCount (s : State) (n : Nat) : (s.countChanges n).host.stepCount = s.host.stepCount := rfl
@[simp] theorem State.countChanges_host_hostData (s : State) (n : Nat) : (s.countChanges n).host.hostData = s.host.hostData := rfl
@[simp] theorem State.countChanges_chanA (s : State) (n : Nat) : (s.countChanges n).chanA = s.chanA := rfl
@[simp] theorem State.countChanges_chanB (s : State) (n : Nat) : (s.countChanges n).chanB = s.chanB := rfl
@[simp] theorem State.countChanges_member_link (s : State) (n : Nat) : (s.countChanges n).member.link = s.member.link := rfl
@[simp] theorem State.countChanges_member_roster (s : State) (n : Nat) : (s.countChanges n).member.roster = s.member.roster := rfl
@[simp] theorem State.countChanges_member_holder (s : State) (n : Nat) : (s.countChanges n).member.holder = s.member.holder := rfl
@[simp] theorem State.countChanges_member_activity (s : State) (n : Nat) : (s.countChanges n).member.activity = s.member.activity := rfl
@[simp] theorem State.countChanges_member_view (s : State) (n : Nat) : (s.countChanges n).member.view = s.member.view := rfl
@[simp] theorem State.countChanges_member_openTurns (s : State) (n : Nat) : (s.countChanges n).member.openTurns = s.member.openTurns := rfl
@[simp] theorem State.countChanges_line (s : State) (n : Nat) : (s.countChanges n).line = s.line := rfl
@[simp] theorem State.countChanges_sched (s : State) (n : Nat) : (s.countChanges n).sched = s.sched := rfl
@[simp] theorem State.countChanges_exch (s : State) (n : Nat) : (s.countChanges n).exch = s.exch := rfl
@[simp] theorem State.countChanges_buf (s : State) (n : Nat) : (s.countChanges n).buf = s.buf := rfl
@[simp] theorem State.countChanges_port (s : State) (n : Nat) : (s.countChanges n).port = s.port := rfl
@[simp] theorem State.countChanges_own (s : State) (n : Nat) : (s.countChanges n).own = s.own := rfl
@[simp] theorem State.countChanges_configured (s : State) (n : Nat) : (s.countChanges n).configured = s.configured := rfl

/-! ### purge -/

@[simp] theorem State.purge_pending (s : State) (n : Station) : (s.purge n).pending = s.pending := rfl
@[simp] theorem State.purge_inReset (s : State) (n : Station) : (s.purge n).inReset = s.inReset := rfl
@[simp] theorem State.purge_timebase (s : State) (n : Station) : (s.purge n).timebase = s.timebase := rfl
@[simp] theorem State.purge_host (s : State) (n : Station) : (s.purge n).host = s.host := rfl
@[simp] theorem State.purge_chanA (s : State) (n : Station) : (s.purge n).chanA = s.chanA := rfl
@[simp] theorem State.purge_chanB (s : State) (n : Station) : (s.purge n).chanB = s.chanB := rfl
@[simp] theorem State.purge_member (s : State) (n : Station) : (s.purge n).member = s.member := rfl
@[simp] theorem State.purge_line (s : State) (n : Station) : (s.purge n).line = s.line := rfl
@[simp] theorem State.purge_sched_loopItems (s : State) (n : Station) : (s.purge n).sched.loopItems = s.sched.loopItems := rfl
@[simp] theorem State.purge_sched_rotation (s : State) (n : Station) : (s.purge n).sched.rotation = s.sched.rotation := rfl
@[simp] theorem State.purge_exch (s : State) (n : Station) : (s.purge n).exch = s.exch := rfl
@[simp] theorem State.purge_buf (s : State) (n : Station) : (s.purge n).buf = s.buf := rfl
@[simp] theorem State.purge_port (s : State) (n : Station) : (s.purge n).port = s.port := rfl
@[simp] theorem State.purge_own (s : State) (n : Station) : (s.purge n).own = s.own := rfl
@[simp] theorem State.purge_configured (s : State) (n : Station) : (s.purge n).configured = s.configured := rfl

/-! ### transmit -/

@[simp] theorem State.transmit_pending (s : State) (k : TxKind) (l : List Frame) : (s.transmit k l).pending = s.pending := rfl
@[simp] theorem State.transmit_inReset (s : State) (k : TxKind) (l : List Frame) : (s.transmit k l).inReset = s.inReset := rfl
@[simp] theorem State.transmit_timebase (s : State) (k : TxKind) (l : List Frame) : (s.transmit k l).timebase = s.timebase := rfl
@[simp] theorem State.transmit_host (s : State) (k : TxKind) (l : List Frame) : (s.transmit k l).host = s.host := rfl
@[simp] theorem State.transmit_chanA (s : State) (k : TxKind) (l : List Frame) : (s.transmit k l).chanA = s.chanA := rfl
@[simp] theorem State.transmit_chanB (s : State) (k : TxKind) (l : List Frame) : (s.transmit k l).chanB = s.chanB := rfl
@[simp] theorem State.transmit_member (s : State) (k : TxKind) (l : List Frame) : (s.transmit k l).member = s.member := rfl
@[simp] theorem State.transmit_line_receiving (s : State) (k : TxKind) (l : List Frame) : (s.transmit k l).line.receiving = false := rfl
@[simp] theorem State.transmit_sched (s : State) (k : TxKind) (l : List Frame) : (s.transmit k l).sched = s.sched := rfl
@[simp] theorem State.transmit_exch (s : State) (k : TxKind) (l : List Frame) : (s.transmit k l).exch = s.exch := rfl
@[simp] theorem State.transmit_buf (s : State) (k : TxKind) (l : List Frame) : (s.transmit k l).buf = s.buf := rfl
@[simp] theorem State.transmit_port (s : State) (k : TxKind) (l : List Frame) : (s.transmit k l).port = s.port := rfl
@[simp] theorem State.transmit_own (s : State) (k : TxKind) (l : List Frame) : (s.transmit k l).own = s.own := rfl
@[simp] theorem State.transmit_configured (s : State) (k : TxKind) (l : List Frame) : (s.transmit k l).configured = s.configured := rfl

/-! ### setLatch -/

@[simp] theorem State.setLatch_pending (s : State) (l : Latch) : (s.setLatch l).pending = s.pending := rfl
@[simp] theorem State.setLatch_inReset (s : State) (l : Latch) : (s.setLatch l).inReset = s.inReset := rfl
@[simp] theorem State.setLatch_timebase (s : State) (l : Latch) : (s.setLatch l).timebase = s.timebase := rfl
@[simp] theorem State.setLatch_host_config (s : State) (l : Latch) : (s.setLatch l).host.config = s.host.config := rfl
@[simp] theorem State.setLatch_host_staging (s : State) (l : Latch) : (s.setLatch l).host.staging = s.host.staging := rfl
@[simp] theorem State.setLatch_host_commandArg (s : State) (l : Latch) : (s.setLatch l).host.commandArg = s.host.commandArg := rfl
@[simp] theorem State.setLatch_host_postStatus (s : State) (l : Latch) : (s.setLatch l).host.postStatus = s.host.postStatus := rfl
@[simp] theorem State.setLatch_host_commandStatus (s : State) (l : Latch) : (s.setLatch l).host.commandStatus = s.host.commandStatus := rfl
@[simp] theorem State.setLatch_host_flags (s : State) (l : Latch) : (s.setLatch l).host.flags = s.host.flags := rfl
@[simp] theorem State.setLatch_host_enables (s : State) (l : Latch) : (s.setLatch l).host.enables = s.host.enables := rfl
@[simp] theorem State.setLatch_host_cause (s : State) (l : Latch) : (s.setLatch l).host.cause = s.host.cause := rfl
@[simp] theorem State.setLatch_host_repeated (s : State) (l : Latch) : (s.setLatch l).host.repeated = s.host.repeated := rfl
@[simp] theorem State.setLatch_host_requests (s : State) (l : Latch) : (s.setLatch l).host.requests = s.host.requests := rfl
@[simp] theorem State.setLatch_host_outcomes (s : State) (l : Latch) : (s.setLatch l).host.outcomes = s.host.outcomes := rfl
@[simp] theorem State.setLatch_host_steps (s : State) (l : Latch) : (s.setLatch l).host.steps = s.host.steps := rfl
@[simp] theorem State.setLatch_host_stepCount (s : State) (l : Latch) : (s.setLatch l).host.stepCount = s.host.stepCount := rfl
@[simp] theorem State.setLatch_host_hostData (s : State) (l : Latch) : (s.setLatch l).host.hostData = s.host.hostData := rfl
@[simp] theorem State.setLatch_chanA (s : State) (l : Latch) : (s.setLatch l).chanA = s.chanA := rfl
@[simp] theorem State.setLatch_chanB (s : State) (l : Latch) : (s.setLatch l).chanB = s.chanB := rfl
@[simp] theorem State.setLatch_member (s : State) (l : Latch) : (s.setLatch l).member = s.member := rfl
@[simp] theorem State.setLatch_line (s : State) (l : Latch) : (s.setLatch l).line = s.line := rfl
@[simp] theorem State.setLatch_sched (s : State) (l : Latch) : (s.setLatch l).sched = s.sched := rfl
@[simp] theorem State.setLatch_exch (s : State) (l : Latch) : (s.setLatch l).exch = s.exch := rfl
@[simp] theorem State.setLatch_buf (s : State) (l : Latch) : (s.setLatch l).buf = s.buf := rfl
@[simp] theorem State.setLatch_port (s : State) (l : Latch) : (s.setLatch l).port = s.port := rfl
@[simp] theorem State.setLatch_own (s : State) (l : Latch) : (s.setLatch l).own = s.own := rfl

/-! ### setPostStatus -/

@[simp] theorem State.setPostStatus_pending (s : State) (p : PostStatus) : (s.setPostStatus p).pending = s.pending := rfl
@[simp] theorem State.setPostStatus_inReset (s : State) (p : PostStatus) : (s.setPostStatus p).inReset = s.inReset := rfl
@[simp] theorem State.setPostStatus_timebase (s : State) (p : PostStatus) : (s.setPostStatus p).timebase = s.timebase := rfl
@[simp] theorem State.setPostStatus_host_config (s : State) (p : PostStatus) : (s.setPostStatus p).host.config = s.host.config := rfl
@[simp] theorem State.setPostStatus_host_latch (s : State) (p : PostStatus) : (s.setPostStatus p).host.latch = s.host.latch := rfl
@[simp] theorem State.setPostStatus_host_staging (s : State) (p : PostStatus) : (s.setPostStatus p).host.staging = s.host.staging := rfl
@[simp] theorem State.setPostStatus_host_commandArg (s : State) (p : PostStatus) : (s.setPostStatus p).host.commandArg = s.host.commandArg := rfl
@[simp] theorem State.setPostStatus_host_commandStatus (s : State) (p : PostStatus) : (s.setPostStatus p).host.commandStatus = s.host.commandStatus := rfl
@[simp] theorem State.setPostStatus_host_flags (s : State) (p : PostStatus) : (s.setPostStatus p).host.flags = s.host.flags := rfl
@[simp] theorem State.setPostStatus_host_enables (s : State) (p : PostStatus) : (s.setPostStatus p).host.enables = s.host.enables := rfl
@[simp] theorem State.setPostStatus_host_cause (s : State) (p : PostStatus) : (s.setPostStatus p).host.cause = s.host.cause := rfl
@[simp] theorem State.setPostStatus_host_repeated (s : State) (p : PostStatus) : (s.setPostStatus p).host.repeated = s.host.repeated := rfl
@[simp] theorem State.setPostStatus_host_requests (s : State) (p : PostStatus) : (s.setPostStatus p).host.requests = s.host.requests := rfl
@[simp] theorem State.setPostStatus_host_outcomes (s : State) (p : PostStatus) : (s.setPostStatus p).host.outcomes = s.host.outcomes := rfl
@[simp] theorem State.setPostStatus_host_steps (s : State) (p : PostStatus) : (s.setPostStatus p).host.steps = s.host.steps := rfl
@[simp] theorem State.setPostStatus_host_stepCount (s : State) (p : PostStatus) : (s.setPostStatus p).host.stepCount = s.host.stepCount := rfl
@[simp] theorem State.setPostStatus_host_hostData (s : State) (p : PostStatus) : (s.setPostStatus p).host.hostData = s.host.hostData := rfl
@[simp] theorem State.setPostStatus_chanA (s : State) (p : PostStatus) : (s.setPostStatus p).chanA = s.chanA := rfl
@[simp] theorem State.setPostStatus_chanB (s : State) (p : PostStatus) : (s.setPostStatus p).chanB = s.chanB := rfl
@[simp] theorem State.setPostStatus_member (s : State) (p : PostStatus) : (s.setPostStatus p).member = s.member := rfl
@[simp] theorem State.setPostStatus_line (s : State) (p : PostStatus) : (s.setPostStatus p).line = s.line := rfl
@[simp] theorem State.setPostStatus_sched (s : State) (p : PostStatus) : (s.setPostStatus p).sched = s.sched := rfl
@[simp] theorem State.setPostStatus_exch (s : State) (p : PostStatus) : (s.setPostStatus p).exch = s.exch := rfl
@[simp] theorem State.setPostStatus_buf (s : State) (p : PostStatus) : (s.setPostStatus p).buf = s.buf := rfl
@[simp] theorem State.setPostStatus_port (s : State) (p : PostStatus) : (s.setPostStatus p).port = s.port := rfl
@[simp] theorem State.setPostStatus_own (s : State) (p : PostStatus) : (s.setPostStatus p).own = s.own := rfl
@[simp] theorem State.setPostStatus_configured (s : State) (p : PostStatus) : (s.setPostStatus p).configured = s.configured := rfl

/-! ### setCommandStatus -/

@[simp] theorem State.setCommandStatus_pending (s : State) (c : CommandStatus) : (s.setCommandStatus c).pending = s.pending := rfl
@[simp] theorem State.setCommandStatus_inReset (s : State) (c : CommandStatus) : (s.setCommandStatus c).inReset = s.inReset := rfl
@[simp] theorem State.setCommandStatus_timebase (s : State) (c : CommandStatus) : (s.setCommandStatus c).timebase = s.timebase := rfl
@[simp] theorem State.setCommandStatus_host_config (s : State) (c : CommandStatus) : (s.setCommandStatus c).host.config = s.host.config := rfl
@[simp] theorem State.setCommandStatus_host_latch (s : State) (c : CommandStatus) : (s.setCommandStatus c).host.latch = s.host.latch := rfl
@[simp] theorem State.setCommandStatus_host_staging (s : State) (c : CommandStatus) : (s.setCommandStatus c).host.staging = s.host.staging := rfl
@[simp] theorem State.setCommandStatus_host_commandArg (s : State) (c : CommandStatus) : (s.setCommandStatus c).host.commandArg = s.host.commandArg := rfl
@[simp] theorem State.setCommandStatus_host_postStatus (s : State) (c : CommandStatus) : (s.setCommandStatus c).host.postStatus = s.host.postStatus := rfl
@[simp] theorem State.setCommandStatus_host_flags (s : State) (c : CommandStatus) : (s.setCommandStatus c).host.flags = s.host.flags := rfl
@[simp] theorem State.setCommandStatus_host_enables (s : State) (c : CommandStatus) : (s.setCommandStatus c).host.enables = s.host.enables := rfl
@[simp] theorem State.setCommandStatus_host_cause (s : State) (c : CommandStatus) : (s.setCommandStatus c).host.cause = s.host.cause := rfl
@[simp] theorem State.setCommandStatus_host_repeated (s : State) (c : CommandStatus) : (s.setCommandStatus c).host.repeated = s.host.repeated := rfl
@[simp] theorem State.setCommandStatus_host_requests (s : State) (c : CommandStatus) : (s.setCommandStatus c).host.requests = s.host.requests := rfl
@[simp] theorem State.setCommandStatus_host_outcomes (s : State) (c : CommandStatus) : (s.setCommandStatus c).host.outcomes = s.host.outcomes := rfl
@[simp] theorem State.setCommandStatus_host_steps (s : State) (c : CommandStatus) : (s.setCommandStatus c).host.steps = s.host.steps := rfl
@[simp] theorem State.setCommandStatus_host_stepCount (s : State) (c : CommandStatus) : (s.setCommandStatus c).host.stepCount = s.host.stepCount := rfl
@[simp] theorem State.setCommandStatus_host_hostData (s : State) (c : CommandStatus) : (s.setCommandStatus c).host.hostData = s.host.hostData := rfl
@[simp] theorem State.setCommandStatus_chanA (s : State) (c : CommandStatus) : (s.setCommandStatus c).chanA = s.chanA := rfl
@[simp] theorem State.setCommandStatus_chanB (s : State) (c : CommandStatus) : (s.setCommandStatus c).chanB = s.chanB := rfl
@[simp] theorem State.setCommandStatus_member (s : State) (c : CommandStatus) : (s.setCommandStatus c).member = s.member := rfl
@[simp] theorem State.setCommandStatus_line (s : State) (c : CommandStatus) : (s.setCommandStatus c).line = s.line := rfl
@[simp] theorem State.setCommandStatus_sched (s : State) (c : CommandStatus) : (s.setCommandStatus c).sched = s.sched := rfl
@[simp] theorem State.setCommandStatus_exch (s : State) (c : CommandStatus) : (s.setCommandStatus c).exch = s.exch := rfl
@[simp] theorem State.setCommandStatus_buf (s : State) (c : CommandStatus) : (s.setCommandStatus c).buf = s.buf := rfl
@[simp] theorem State.setCommandStatus_port (s : State) (c : CommandStatus) : (s.setCommandStatus c).port = s.port := rfl
@[simp] theorem State.setCommandStatus_own (s : State) (c : CommandStatus) : (s.setCommandStatus c).own = s.own := rfl
@[simp] theorem State.setCommandStatus_configured (s : State) (c : CommandStatus) : (s.setCommandStatus c).configured = s.configured := rfl

/-! ### giveWord -/

@[simp] theorem State.giveWord_pending (s : State) (w : Word) : (s.giveWord w).pending = s.pending := rfl
@[simp] theorem State.giveWord_inReset (s : State) (w : Word) : (s.giveWord w).inReset = s.inReset := rfl
@[simp] theorem State.giveWord_timebase (s : State) (w : Word) : (s.giveWord w).timebase = s.timebase := rfl
@[simp] theorem State.giveWord_host_config (s : State) (w : Word) : (s.giveWord w).host.config = s.host.config := rfl
@[simp] theorem State.giveWord_host_latch (s : State) (w : Word) : (s.giveWord w).host.latch = s.host.latch := rfl
@[simp] theorem State.giveWord_host_staging (s : State) (w : Word) : (s.giveWord w).host.staging = s.host.staging := rfl
@[simp] theorem State.giveWord_host_commandArg (s : State) (w : Word) : (s.giveWord w).host.commandArg = s.host.commandArg := rfl
@[simp] theorem State.giveWord_host_postStatus (s : State) (w : Word) : (s.giveWord w).host.postStatus = s.host.postStatus := rfl
@[simp] theorem State.giveWord_host_commandStatus (s : State) (w : Word) : (s.giveWord w).host.commandStatus = s.host.commandStatus := rfl
@[simp] theorem State.giveWord_host_flags (s : State) (w : Word) : (s.giveWord w).host.flags = s.host.flags := rfl
@[simp] theorem State.giveWord_host_enables (s : State) (w : Word) : (s.giveWord w).host.enables = s.host.enables := rfl
@[simp] theorem State.giveWord_host_cause (s : State) (w : Word) : (s.giveWord w).host.cause = s.host.cause := rfl
@[simp] theorem State.giveWord_host_repeated (s : State) (w : Word) : (s.giveWord w).host.repeated = s.host.repeated := rfl
@[simp] theorem State.giveWord_host_requests (s : State) (w : Word) : (s.giveWord w).host.requests = s.host.requests := rfl
@[simp] theorem State.giveWord_host_outcomes (s : State) (w : Word) : (s.giveWord w).host.outcomes = s.host.outcomes := rfl
@[simp] theorem State.giveWord_host_steps (s : State) (w : Word) : (s.giveWord w).host.steps = s.host.steps := rfl
@[simp] theorem State.giveWord_host_stepCount (s : State) (w : Word) : (s.giveWord w).host.stepCount = s.host.stepCount := rfl
@[simp] theorem State.giveWord_chanA (s : State) (w : Word) : (s.giveWord w).chanA = s.chanA := rfl
@[simp] theorem State.giveWord_chanB (s : State) (w : Word) : (s.giveWord w).chanB = s.chanB := rfl
@[simp] theorem State.giveWord_member (s : State) (w : Word) : (s.giveWord w).member = s.member := rfl
@[simp] theorem State.giveWord_line (s : State) (w : Word) : (s.giveWord w).line = s.line := rfl
@[simp] theorem State.giveWord_sched (s : State) (w : Word) : (s.giveWord w).sched = s.sched := rfl
@[simp] theorem State.giveWord_exch (s : State) (w : Word) : (s.giveWord w).exch = s.exch := rfl
@[simp] theorem State.giveWord_buf (s : State) (w : Word) : (s.giveWord w).buf = s.buf := rfl
@[simp] theorem State.giveWord_port (s : State) (w : Word) : (s.giveWord w).port = s.port := rfl
@[simp] theorem State.giveWord_own (s : State) (w : Word) : (s.giveWord w).own = s.own := rfl
@[simp] theorem State.giveWord_configured (s : State) (w : Word) : (s.giveWord w).configured = s.configured := rfl

/-! ### What the small operations set -/

@[simp] theorem State.withPort_port_eq (s : State) (p : Port) : (s.withPort p).port = p := rfl
@[simp] theorem State.mapInit_inits (s : State) (t : Tag) (f : InitRec → InitRec) :
    (s.mapInit t f).exch.inits = s.exch.inits.map (fun x => if x.tag = t then f x else x) := rfl
@[simp] theorem State.setInit_inits (s : State) (r : InitRec) :
    (s.setInit r).exch.inits = s.exch.inits.map (fun x => if x.tag = r.tag then r else x) := rfl
@[simp] theorem State.mapTarget_targets (s : State) (p : Station) (t : Tag) (f : TargetRec → TargetRec) :
    (s.mapTarget p t f).exch.targets = s.exch.targets.map (fun x => if x.keyed p t then f x else x) := rfl
@[simp] theorem State.pushOutcome_outcomes (s : State) (o : OutcomeRec) :
    (s.pushOutcome o).host.outcomes = s.host.outcomes ++ [o] := rfl
@[simp] theorem State.setFlag_flags (s : State) (f : Flag) : (s.setFlag f).host.flags = s.host.flags ||| f.mask := rfl
@[simp] theorem State.setCommandStatus_eq (s : State) (c : CommandStatus) :
    (s.setCommandStatus c).host.commandStatus = c := rfl
@[simp] theorem State.setPostStatus_eq (s : State) (p : PostStatus) : (s.setPostStatus p).host.postStatus = p := rfl
@[simp] theorem State.giveWord_eq (s : State) (w : Word) : (s.giveWord w).host.hostData = w := rfl
@[simp] theorem State.transmit_tx (s : State) (k : TxKind) (l : List Frame) :
    (s.transmit k l).line.tx = some ⟨k, l⟩ := rfl
@[simp] theorem State.countChanges_generation (s : State) (n : Nat) :
    (s.countChanges n).member.generation = s.member.generation + BitVec.ofNat 16 n := rfl
@[simp] theorem State.releaseServ_servFree (s : State) (g : Option Ring) :
    (s.releaseServ g).buf.servFree = s.buf.servFree ++ ringAreas g := rfl
@[simp] theorem State.setRequests_requests (s : State) (l : List Request) : (s.setRequests l).host.requests = l := rfl
@[simp] theorem State.setHolder_holder (s : State) (h : Option Station) : (s.setHolder h).member.holder = h := rfl
@[simp] theorem State.offer_items (s : State) (i : Item) (o : Origin) :
    (s.offer i o).sched.items = s.itemsAfter i o := rfl

end Sys2Proof.Machine
end

