-- ==== Sys2Proof/Laws/Frames.lean ====
section
/-! SUPPORT. What the initiator path leaves alone: an ending, a delivery, a take and a head succession change neither the module
port, the Membership Controller, the Link Port, the target records and their pool, the packet RAM, the configuration nor the
window words of the host. -/

namespace Sys2Proof.Machine

/-- The part of the state that the initiator path never changes. -/
structure TargetSide where
  pending : List Instr
  inReset : Bool
  timebase : Bool
  config : Option Cfg
  latch : Latch
  staging : Staging
  commandArg : Word
  postStatus : PostStatus
  commandStatus : CommandStatus
  enables : BitVec 8
  cause : FaultCause
  repeated : Bool
  steps : Vector StagedStep 16
  stepCount : BitVec 5
  hostData : Word
  member : Membership
  line : LinkPort
  rotation : Position
  targets : List TargetRec
  servFree : List AreaNo
  ram : Memory
  port : Port

/-- That part of a state. -/
def State.targetSide (s : State) : TargetSide where
  pending := s.pending
  inReset := s.inReset
  timebase := s.timebase
  config := s.host.config
  latch := s.host.latch
  staging := s.host.staging
  commandArg := s.host.commandArg
  postStatus := s.host.postStatus
  commandStatus := s.host.commandStatus
  enables := s.host.enables
  cause := s.host.cause
  repeated := s.host.repeated
  steps := s.host.steps
  stepCount := s.host.stepCount
  hostData := s.host.hostData
  member := s.member
  line := s.line
  rotation := s.sched.rotation
  targets := s.exch.targets
  servFree := s.buf.servFree
  ram := s.buf.ram
  port := s.port

/-- What an ending and a delivery leave alone beside that: the Request Queue, the tag allocated last and the serial counters. -/
structure EndSide where
  side : TargetSide
  requests : List Request
  lastTag : Tag
  serials : Vector Serial 8

/-- That part of a state. -/
def State.endSide (s : State) : EndSide := ⟨s.targetSide, s.host.requests, s.exch.lastTag, s.exch.serials⟩

theorem State.offerInit_endSide (s : State) (t : Tag) (k : ItemKind) : (s.offerInit t k).endSide = s.endSide := by
  unfold State.offerInit
  split
  · dsimp only
    split <;> rfl
  · rfl

theorem State.becomeHead_endSide (s : State) (c : Channel) : (s.becomeHead c).endSide = s.endSide := by
  unfold State.becomeHead
  split
  · split
    · rfl
    · split
      · dsimp only
        split
        · rw [State.offerInit_endSide]; rfl
        · rw [State.offerInit_endSide]; rfl
        · rfl
      · rfl
  · rfl

theorem State.recordDeparture_endSide (s : State) (c : Channel) (d : Departure) (l : Label) :
    (s.recordDeparture c d l).endSide = s.endSide := by cases c <;> rfl

theorem State.leaveChannel_endSide (s : State) (r : InitRec) (d : Departure) (f : InitRec → InitRec) :
    (s.leaveChannel r d f).endSide = s.endSide := by
  unfold State.leaveChannel
  dsimp only
  split
  · split
    · rw [State.becomeHead_endSide, State.recordDeparture_endSide]; rfl
    · rfl
  · rfl

theorem State.enterQueue_endSide (s : State) (r : InitRec) (o : Outcome) (c : Bool) : (s.enterQueue r o c).endSide = s.endSide := by
  unfold State.enterQueue
  dsimp only
  split <;> rfl

theorem State.deliver_endSide (s : State) (t : Tag) (o : Outcome) (c : Bool) : (s.deliver t o c).endSide = s.endSide := by
  unfold State.deliver
  split
  · split
    · exact s.enterQueue_endSide _ o c
    · rfl
  · rfl

theorem State.endInit_endSide (s : State) (r : InitRec) (o : Outcome) (a b : Bool) :
    (s.endInit r o a b).endSide = s.endSide := by
  unfold State.endInit
  dsimp only
  rw [State.deliver_endSide]
  split
  · rw [State.offerInit_endSide, State.leaveChannel_endSide]
  · rw [State.leaveChannel_endSide]

theorem State.offerInit_targetSide (s : State) (t : Tag) (k : ItemKind) : (s.offerInit t k).targetSide = s.targetSide :=
  congrArg EndSide.side (s.offerInit_endSide t k)

theorem State.becomeHead_targetSide (s : State) (c : Channel) : (s.becomeHead c).targetSide = s.targetSide :=
  congrArg EndSide.side (s.becomeHead_endSide c)

theorem State.endInit_targetSide (s : State) (r : InitRec) (o : Outcome) (a b : Bool) :
    (s.endInit r o a b).targetSide = s.targetSide := congrArg EndSide.side (s.endInit_endSide r o a b)

theorem State.createInit_targetSide (s : State) (q : Request) (t : Tag) : (s.createInit q t).targetSide = s.targetSide := by
  unfold State.createInit
  dsimp only
  split
  · rw [State.becomeHead_targetSide, State.offerInit_targetSide]; rfl
  · rw [State.offerInit_targetSide]; rfl

theorem State.takeHead_targetSide {s u : State} (h : s.takeHead = some u) : u.targetSide = s.targetSide := by
  unfold State.takeHead at h
  split at h
  · split at h
    · split at h
      · cases h
        rw [State.createInit_targetSide]; rfl
      · split at h
        · cases h; rfl
        · cases h
    · cases h
  · cases h

theorem State.takes_targetSide (n : Nat) (s : State) : (s.takes n).targetSide = s.targetSide := by
  induction n generalizing s with
  | zero => rfl
  | succ n ih =>
    unfold State.takes
    split
    · next u h => rw [ih, State.takeHead_targetSide h]
    · rfl

theorem State.retake_targetSide (s : State) : s.retake.targetSide = s.targetSide := State.takes_targetSide _ s

theorem State.endAndTake_targetSide (s : State) (r : InitRec) (o : Outcome) (a b : Bool) :
    (s.endAndTake r o a b).targetSide = s.targetSide := by
  unfold State.endAndTake State.retakeIfFreed
  split
  · rw [State.retake_targetSide, State.endInit_targetSide]
  · rw [State.endInit_targetSide]

end Sys2Proof.Machine
end

