-- ==== Sys2Proof/Laws/Endings.lean ====
section
/-! SUPPORT. What the ending of an initiator record does (R15, R38, R39, R175): what each part of it makes of the records, the
Outcome Queue, the Pending Item Queue and the channels. -/

namespace Sys2Proof.Machine

/-! ### The port -/

theorem set_ready_twice (v : Vector RosterEntry 16) (n : Fin 16) (a b : Bool) :
    (v.set n { v[n] with ready := v[n].present && a }).set n
      { (v.set n { v[n] with ready := v[n].present && a })[n] with
        ready := (v.set n { v[n] with ready := v[n].present && a })[n].present && b } =
      v.set n { v[n] with ready := v[n].present && b } := by
  simp

theorem State.withPort_withPort (s : State) (p q : Port) : (s.withPort p).withPort q = s.withPort q :=
  congrArg (fun v => ({ s with port := q, member := { s.member with roster := v } } : State))
    (set_ready_twice s.member.roster s.own p.state.ready q.state.ready)

/-! ### Looking records up -/

theorem find_map_tag (l : List InitRec) (g : InitRec → InitRec) (hg : ∀ x, (g x).tag = x.tag) (t : Tag) :
    (l.map g).find? (fun r => decide (r.tag = t)) = (l.find? (fun r => decide (r.tag = t))).map g := by
  rw [List.find?_map]
  congr 2
  funext x
  simp only [Function.comp, hg]

theorem State.initRec_tag {s : State} {t : Tag} {r : InitRec} (h : s.initRec t = some r) : r.tag = t := by
  have := List.find?_some h
  simpa using this

theorem State.initRec_mapInit (s : State) (t : Tag) (f : InitRec → InitRec) (hf : ∀ x, (f x).tag = x.tag) (t' : Tag) :
    (s.mapInit t f).initRec t' = (s.initRec t').map (fun x => if x.tag = t then f x else x) := by
  refine find_map_tag _ _ (fun x => ?_) t'
  split
  · exact hf x
  · rfl

theorem State.initRec_mapInit_same (s : State) (t : Tag) (f : InitRec → InitRec) (hf : ∀ x, (f x).tag = x.tag) :
    (s.mapInit t f).initRec t = (s.initRec t).map f := by
  rw [s.initRec_mapInit t f hf t]
  cases h : s.initRec t with
  | none => rfl
  | some r => simp [State.initRec_tag h]

theorem State.initRec_mapInit_other (s : State) (t : Tag) (f : InitRec → InitRec) (hf : ∀ x, (f x).tag = x.tag) {t' : Tag} (ht : t' ≠ t) :
    (s.mapInit t f).initRec t' = s.initRec t' := by
  rw [s.initRec_mapInit t f hf t']
  cases h : s.initRec t' with
  | none => rfl
  | some r => simp [State.initRec_tag h, ht]

theorem State.offerInit_initRec_other (s : State) (t : Tag) (k : ItemKind) {t' : Tag} (h : t' ≠ t) :
    (s.offerInit t k).initRec t' = s.initRec t' := by
  unfold State.offerInit
  split
  · dsimp only
    split
    · rfl
    · exact State.initRec_mapInit_other s t (fun x => { x with wanted := wantKind x.wanted k }) (fun _ => rfl) h
  · rfl

/-- The record that offers an item: unchanged where the item is taken, else the item becomes wanted (R12, R160). -/
theorem State.offerInit_initRec_same {s : State} {t : Tag} {r : InitRec} (k : ItemKind) (h : s.initRec t = some r) :
    (s.offerInit t k).initRec t =
      some (if s.takesItem (r.item s.own k) then r else { r with wanted := wantKind r.wanted k }) := by
  unfold State.offerInit
  rw [h]
  dsimp only
  split
  · exact h
  · rw [State.initRec_mapInit_same s t (fun x => { x with wanted := wantKind x.wanted k }) (fun _ => rfl), h]
    rfl

theorem State.offerInit_host (s : State) (t : Tag) (k : ItemKind) : (s.offerInit t k).host = s.host := by
  unfold State.offerInit
  split
  · dsimp only
    split <;> rfl
  · rfl

theorem State.offerInit_rest (s : State) (t : Tag) (k : ItemKind) :
    (s.offerInit t k).exch.delivering = s.exch.delivering ∧ (s.offerInit t k).buf = s.buf ∧ (s.offerInit t k).chanA = s.chanA ∧
      (s.offerInit t k).chanB = s.chanB ∧ (s.offerInit t k).sched.loopItems = s.sched.loopItems := by
  unfold State.offerInit
  split
  · dsimp only
    split <;> exact ⟨rfl, rfl, rfl, rfl, rfl⟩
  · exact ⟨rfl, rfl, rfl, rfl, rfl⟩

/-- A record offers an item that there is room for. -/
theorem State.offerInit_placed {s : State} {t : Tag} {r : InitRec} (k : ItemKind) (h : s.initRec t = some r)
    (hl : s.sched.items.length < 32) (hb : (r.item s.own k).body.kind ≠ .credit) :
    s.offerInit t k = { s with sched := { s.sched with items := s.sched.items ++ [⟨r.item s.own k, .record⟩] } } := by
  unfold State.offerInit
  rw [h]
  dsimp only
  have ht : s.takesItem (r.item s.own k) = true := by
    simp only [State.takesItem, Bool.or_eq_true, decide_eq_true_eq]
    exact .inr hl
  rw [if_pos ht, State.offer]
  have hi : s.itemsAfter (r.item s.own k) .record = s.sched.items ++ [⟨r.item s.own k, .record⟩] := by
    unfold State.itemsAfter
    rw [if_neg (fun hc => hb hc.1)]
    exact if_pos hl
  rw [hi]

/-! ### Head succession -/

/-- A record that is not in the channel is not changed by a head succession. -/
theorem State.becomeHead_initRec (s : State) (c : Channel) {t : Tag} (ht : ∀ x ∈ s.exch.inits, x.tag = t → x.inChannel c = false) :
    (s.becomeHead c).initRec t = s.initRec t := by
  unfold State.becomeHead
  split
  · next r hr =>
    have hne : t ≠ r.tag := by
      intro he
      have hm : r ∈ s.channelQueue c := List.mem_of_mem_head? (by rw [Option.mem_def]; exact hr)
      unfold State.channelQueue at hm
      rw [List.mem_filter] at hm
      have := ht r hm.1 he.symm
      rw [this] at hm
      cases hm.2
    split
    · rfl
    · split
      · next ring free _ =>
        dsimp only
        have h1 : (State.mapInit { s with buf := { s.buf with initFree := free } } r.tag (fun x => { x with ring := some ring })).initRec t =
            s.initRec t :=
          State.initRec_mapInit_other { s with buf := { s.buf with initFree := free } } r.tag (fun x => { x with ring := some ring })
            (fun _ => rfl) hne
        split
        · rw [State.offerInit_initRec_other _ _ _ hne]; exact h1
        · rw [State.offerInit_initRec_other _ _ _ hne]; exact h1
        · exact h1
      · rfl
  · rfl

theorem State.becomeHead_rest (s : State) (c : Channel) :
    (s.becomeHead c).host = s.host ∧ (s.becomeHead c).exch.delivering = s.exch.delivering ∧ (s.becomeHead c).chanA = s.chanA ∧
      (s.becomeHead c).chanB = s.chanB ∧ (s.becomeHead c).sched.loopItems = s.sched.loopItems := by
  unfold State.becomeHead
  split
  · next r _ =>
    split
    · exact ⟨rfl, rfl, rfl, rfl, rfl⟩
    · split
      · next ring free _ =>
        dsimp only
        have key := State.offerInit_rest
            (State.mapInit { s with buf := { s.buf with initFree := free } } r.tag (fun x => { x with ring := some ring })) r.tag .credit
        have hh := State.offerInit_host
            (State.mapInit { s with buf := { s.buf with initFree := free } } r.tag (fun x => { x with ring := some ring })) r.tag .credit
        split
        · exact ⟨hh, key.1, key.2.2.1, key.2.2.2.1, key.2.2.2.2⟩
        · exact ⟨hh, key.1, key.2.2.1, key.2.2.2.1, key.2.2.2.2⟩
        · exact ⟨rfl, rfl, rfl, rfl, rfl⟩
      · exact ⟨rfl, rfl, rfl, rfl, rfl⟩
  · exact ⟨rfl, rfl, rfl, rfl, rfl⟩

/-! ### Leaving a channel -/

/-- The state in which a record has left its channel and given its ring back, before any succession. -/
def State.leftChannel (s : State) (r : InitRec) (f : InitRec → InitRec) : State :=
  State.mapInit { s with buf := { s.buf with initFree := s.buf.initFree ++ ringAreas r.ring } } r.tag (fun x => f { x with ring := none })

theorem State.leaveChannel_waiting {s : State} {r : InitRec} (d : Departure) (f : InitRec → InitRec) (h : s.headsChannel r = false) :
    s.leaveChannel r d f = s.leftChannel r f := by
  unfold State.leaveChannel
  dsimp only
  rw [h]
  split <;> rfl

theorem State.leaveChannel_head {s : State} {r : InitRec} {c : Channel} (d : Departure) (f : InitRec → InitRec)
    (h : s.headsChannel r = true) (hc : r.channel = some c) :
    s.leaveChannel r d f = ((s.leftChannel r f).recordDeparture c d r.label).becomeHead c := by
  unfold State.leaveChannel
  dsimp only
  rw [h, hc]
  rfl

theorem State.recordDeparture_keepsInits (s : State) (c : Channel) (d : Departure) (l : Label) :
    (s.recordDeparture c d l).exch = s.exch := by cases c <;> rfl

theorem State.headsChannel_some {s : State} {r : InitRec} (h : s.headsChannel r = true) : ∃ c, r.channel = some c := by
  unfold State.headsChannel at h
  split at h
  · next c hc => exact ⟨c, hc⟩
  · cases h

/-- The record itself, and any other that does not become head, after a departure: the ring is gone and `f` is applied. -/
theorem State.leaveChannel_initRec (s : State) (r : InitRec) (d : Departure) (f : InitRec → InitRec) (hf : ∀ x, (f x).tag = x.tag)
    (hout : ∀ x c, (f x).inChannel c = false) :
    (s.leaveChannel r d f).initRec r.tag = (s.initRec r.tag).map (fun x => f { x with ring := none }) := by
  have h0 : (s.leftChannel r f).initRec r.tag = (s.initRec r.tag).map (fun x => f { x with ring := none }) :=
    State.initRec_mapInit_same { s with buf := { s.buf with initFree := s.buf.initFree ++ ringAreas r.ring } } r.tag
      (fun x => f { x with ring := none }) (fun x => hf _)
  cases h : s.headsChannel r with
  | false => rw [State.leaveChannel_waiting d f h, h0]
  | true =>
    obtain ⟨c, hc⟩ := State.headsChannel_some h
    rw [State.leaveChannel_head d f h hc, State.becomeHead_initRec]
    · rw [← h0]
      unfold State.initRec
      rw [State.recordDeparture_keepsInits]
    · intro x hx ht
      rw [State.recordDeparture_keepsInits] at hx
      unfold State.leftChannel State.mapInit at hx
      simp only [List.mem_map] at hx
      obtain ⟨y, _, rfl⟩ := hx
      by_cases hy : y.tag = r.tag
      · rw [if_pos hy]; exact hout _ c
      · rw [if_neg hy] at ht; exact absurd ht hy

/-- What a departure does to the host's side and to the channels. -/
theorem State.leaveChannel_rest (s : State) (r : InitRec) (d : Departure) (f : InitRec → InitRec) :
    (s.leaveChannel r d f).host.outcomes = s.host.outcomes ∧ (s.leaveChannel r d f).exch.delivering = s.exch.delivering ∧
      (s.leaveChannel r d f).sched.loopItems = s.sched.loopItems := by
  cases h : s.headsChannel r with
  | false => rw [State.leaveChannel_waiting d f h]; exact ⟨rfl, rfl, rfl⟩
  | true =>
    obtain ⟨c, hc⟩ := State.headsChannel_some h
    rw [State.leaveChannel_head d f h hc]
    have key := State.becomeHead_rest ((s.leftChannel r f).recordDeparture c d r.label) c
    rw [key.1, key.2.1, key.2.2.2.2]
    cases c <;> exact ⟨rfl, rfl, rfl⟩

theorem State.leaveChannel_chan {s : State} {r : InitRec} {c : Channel} (d : Departure) (f : InitRec → InitRec)
    (h : s.headsChannel r = true) (hc : r.channel = some c) :
    (s.leaveChannel r d f).chan c =
        { s.chan c with held := (s.chan c).held || decide (d = .aborted), departure := d, lastLabel := r.label } ∧
      (s.leaveChannel r d f).host.flags = s.host.flags ||| (chanFlag c).mask := by
  rw [State.leaveChannel_head d f h hc]
  have key := State.becomeHead_rest ((s.leftChannel r f).recordDeparture c d r.label) c
  refine ⟨?_, ?_⟩
  · cases c
    · show (State.becomeHead _ _).chanA = _
      rw [key.2.2.1]; rfl
    · show (State.becomeHead _ _).chanB = _
      rw [key.2.2.2.1]; rfl
  · rw [key.1]
    cases c <;> rfl

/-! ### Delivery -/

/-- A record as its ending leaves it, its ring given back. -/
def InitRec.ended (r : InitRec) (o : Outcome) (closeOwed : Bool) : InitRec :=
  { r with ring := none, state := .delivering closeOwed, lifetime := none, wanted := [], outcome := some o }

theorem InitRec.ended_outside (r : InitRec) (o : Outcome) (b : Bool) (c : Channel) : (r.ended o b).inChannel c = false := by
  simp [InitRec.inChannel, InitRec.ended]

/-- The state of an ending before its outcome is delivered. -/
def State.beforeDelivery (s : State) (r : InitRec) (o : Outcome) (owesCancel closeOwed : Bool) : State :=
  let u := s.leaveChannel r .aborted (fun x => x.ended o closeOwed)
  if owesCancel then u.offerInit r.tag .cancel else u

theorem State.endInit_eq (s : State) (r : InitRec) (o : Outcome) (a b : Bool) :
    s.endInit r o a b = (s.beforeDelivery r o a b).deliver r.tag o b := rfl

theorem State.beforeDelivery_rest (s : State) (r : InitRec) (o : Outcome) (a b : Bool) :
    (s.beforeDelivery r o a b).host.outcomes = s.host.outcomes ∧ (s.beforeDelivery r o a b).exch.delivering = s.exch.delivering ∧
      (s.beforeDelivery r o a b).sched.loopItems = s.sched.loopItems ∧
      (s.beforeDelivery r o a b).host.flags = (s.leaveChannel r .aborted (fun x => x.ended o b)).host.flags ∧
      (∀ c, (s.beforeDelivery r o a b).chan c = (s.leaveChannel r .aborted (fun x => x.ended o b)).chan c) := by
  unfold State.beforeDelivery
  dsimp only
  have key := s.leaveChannel_rest r .aborted (fun x => x.ended o b)
  split
  · have hh := State.offerInit_host (s.leaveChannel r .aborted (fun x => x.ended o b)) r.tag .cancel
    have hr := State.offerInit_rest (s.leaveChannel r .aborted (fun x => x.ended o b)) r.tag .cancel
    rw [hh, hr.1, hr.2.2.2.2]
    refine ⟨key.1, key.2.1, key.2.2, rfl, fun c => ?_⟩
    cases c
    · exact hr.2.2.1
    · exact hr.2.2.2.1
  · exact ⟨key.1, key.2.1, key.2.2, rfl, fun _ => rfl⟩

theorem State.beforeDelivery_initRec {s : State} {r : InitRec} (o : Outcome) (a b : Bool) (h : s.initRec r.tag = some r) :
    ∃ w, (s.beforeDelivery r o a b).initRec r.tag = some { r.ended o b with wanted := w } ∧ (a = false → w = []) := by
  have h0 : (s.leaveChannel r .aborted (fun x => x.ended o b)).initRec r.tag = some (r.ended o b) := by
    rw [State.leaveChannel_initRec s r .aborted (fun x => x.ended o b) (fun _ => rfl) (fun x c => x.ended_outside o b c), h]
    rfl
  unfold State.beforeDelivery
  dsimp only
  split
  · next ha =>
    rw [State.offerInit_initRec_same .cancel h0]
    split
    · exact ⟨[], rfl, fun _ => rfl⟩
    · exact ⟨_, rfl, fun h => by rw [h] at ha; cases ha⟩
  · exact ⟨[], h0, fun _ => rfl⟩

theorem State.freeInit_initRec (s : State) (r : InitRec) : (s.freeInit r).initRec r.tag = none := by
  unfold State.freeInit State.initRec
  dsimp only
  rw [List.find?_eq_none]
  intro x hx
  rw [List.mem_filter] at hx
  simpa using hx.2

/-- An ending with room in the Outcome Queue: the outcome record enters its tail and the record is gone (R38). -/
theorem State.endInit_delivered {s : State} {r : InitRec} (o : Outcome) (a b : Bool) (h : s.initRec r.tag = some r)
    (hl : s.host.outcomes.length < 16) :
    (s.endInit r o a b).host.outcomes = s.host.outcomes ++ [⟨r.label, r.op, r.peer, o⟩] ∧ (s.endInit r o a b).initRec r.tag = none ∧
      (s.endInit r o a b).host.flags = (s.leaveChannel r .aborted (fun x => x.ended o b)).host.flags ||| 1 ∧
      (∀ c, (s.endInit r o a b).chan c = (s.leaveChannel r .aborted (fun x => x.ended o b)).chan c) := by
  obtain ⟨w, hw, _⟩ := State.beforeDelivery_initRec o a b h
  have key := s.beforeDelivery_rest r o a b
  rw [State.endInit_eq]
  unfold State.deliver
  rw [hw]
  dsimp only
  have hl' : (s.beforeDelivery r o a b).host.outcomes.length < Limit.outcomes := by rw [key.1]; exact hl
  rw [if_pos hl']
  have hf := State.freeInit_initRec ((s.beforeDelivery r o a b).pushOutcome (({ r.ended o b with wanted := w } : InitRec).outcomeRec o))
    { r.ended o b with wanted := w }
  unfold State.enterQueue
  dsimp only
  refine ⟨?_, ?_, ?_, ?_⟩
  · split <;> exact congrArg (· ++ _) key.1
  · split <;> exact hf
  · split <;> exact congrArg (· ||| 1) key.2.2.2.1
  · intro c
    rw [← key.2.2.2.2 c]
    split <;> cases c <;> rfl

/-- An ending with a full Outcome Queue: the record waits in DELIVERING (R38). -/
theorem State.endInit_waits {s : State} {r : InitRec} (o : Outcome) (a b : Bool) (h : s.initRec r.tag = some r)
    (hl : 16 ≤ s.host.outcomes.length) :
    (s.endInit r o a b).host.outcomes = s.host.outcomes ∧ (s.endInit r o a b).exch.delivering = s.exch.delivering ++ [r.tag] ∧
      (∃ w, (s.endInit r o a b).initRec r.tag = some { r.ended o b with wanted := w } ∧ (a = false → w = [])) ∧
      (s.endInit r o a b).host.flags = (s.leaveChannel r .aborted (fun x => x.ended o b)).host.flags ∧
      (∀ c, (s.endInit r o a b).chan c = (s.leaveChannel r .aborted (fun x => x.ended o b)).chan c) := by
  obtain ⟨w, hw, ha⟩ := State.beforeDelivery_initRec o a b h
  have key := s.beforeDelivery_rest r o a b
  rw [State.endInit_eq]
  unfold State.deliver
  rw [hw]
  dsimp only
  have hl' : ¬ (s.beforeDelivery r o a b).host.outcomes.length < Limit.outcomes := by
    rw [key.1]; exact Nat.not_lt.mpr hl
  rw [if_neg hl']
  refine ⟨key.1, congrArg (· ++ _) key.2.1, ⟨w, hw, ha⟩, key.2.2.2.1, fun c => ?_⟩
  rw [← key.2.2.2.2 c]
  cases c <;> rfl

end Sys2Proof.Machine
end

