-- ==== Sys2Proof/Laws/Memory.lean ====
section
/-! SUPPORT. The laws of the packet RAM: a read after a write, what a write leaves alone, and that every write keeps
the canonical form. -/

namespace Sys2Proof.Machine

/-! ### The cases of a write -/

theorem Memory.write_below {x : Nat} {v : Byte} {m : Memory} {a : Nat} {b : Byte} (h : a < x) :
    Memory.write ((x, v) :: m) a b = if b = 0 then (x, v) :: m else (a, b) :: (x, v) :: m := by
  rw [Memory.write, if_pos h]

theorem Memory.write_at {v : Byte} {m : Memory} {a : Nat} {b : Byte} :
    Memory.write ((a, v) :: m) a b = if b = 0 then m else (a, b) :: m := by
  rw [Memory.write, if_neg (Nat.lt_irrefl a), if_pos rfl]

theorem Memory.write_above {x : Nat} {v : Byte} {m : Memory} {a : Nat} {b : Byte} (h : x < a) :
    Memory.write ((x, v) :: m) a b = (x, v) :: Memory.write m a b := by
  rw [Memory.write, if_neg (by omega), if_neg (by omega)]

theorem Memory.read_cons_same {v : Byte} {m : Memory} {a : Nat} : Memory.read ((a, v) :: m) a = v := by
  rw [Memory.read, if_pos rfl]

theorem Memory.read_cons_ne {x : Nat} {v : Byte} {m : Memory} {a : Nat} (h : x ≠ a) :
    Memory.read ((x, v) :: m) a = Memory.read m a := by
  rw [Memory.read, if_neg h]

theorem Memory.wfFrom_cons {lo x : Nat} {v : Byte} {m : Memory} :
    Memory.wfFrom lo ((x, v) :: m) = true ↔ lo ≤ x ∧ v ≠ 0 ∧ Memory.wfFrom (x + 1) m = true := by
  simp only [Memory.wfFrom, Bool.and_eq_true, decide_eq_true_eq, and_assoc]

theorem Memory.wfFrom_mono {m : Memory} {p q : Nat} (hpq : p ≤ q) (h : Memory.wfFrom q m = true) :
    Memory.wfFrom p m = true := by
  cases m with
  | nil => rfl
  | cons e m =>
    obtain ⟨y, u⟩ := e
    rw [Memory.wfFrom_cons] at h ⊢
    exact ⟨by omega, h.2⟩

/-- An address below every listed one reads as an unlisted address. -/
theorem Memory.read_below {m : Memory} {lo a : Nat} (h : Memory.wfFrom lo m = true) (ha : a < lo) : Memory.read m a = 0 := by
  induction m generalizing lo with
  | nil => rfl
  | cons e m ih =>
    obtain ⟨y, u⟩ := e
    rw [Memory.wfFrom_cons] at h
    rw [Memory.read_cons_ne (by omega)]
    exact ih h.2.2 (by omega)

/-! ### Read after write -/

theorem Memory.read_write_same (m : Memory) (a : Nat) (b : Byte) (lo : Nat) (h : Memory.wfFrom lo m = true) :
    Memory.read (Memory.write m a b) a = b := by
  induction m generalizing lo with
  | nil =>
    rw [Memory.write]
    split
    · next hb => rw [hb]; rfl
    · exact Memory.read_cons_same
  | cons c m ih =>
    obtain ⟨x, v⟩ := c
    have h' := Memory.wfFrom_cons.1 h
    rcases Nat.lt_trichotomy a x with hlt | heq | hgt
    · rw [Memory.write_below hlt]
      split
      · next hb =>
        rw [hb]
        exact Memory.read_below (Memory.wfFrom_cons.2 ⟨Nat.le_refl x, h'.2⟩) hlt
      · exact Memory.read_cons_same
    · subst heq
      rw [Memory.write_at]
      split
      · next hb => rw [hb]; exact Memory.read_below h'.2.2 (Nat.lt_succ_self a)
      · exact Memory.read_cons_same
    · rw [Memory.write_above hgt, Memory.read_cons_ne (by omega)]
      exact ih _ h'.2.2

theorem Memory.read_write_ne (m : Memory) {a c : Nat} (b : Byte) (h : c ≠ a) :
    Memory.read (Memory.write m a b) c = Memory.read m c := by
  have hac : a ≠ c := fun e => h e.symm
  induction m with
  | nil =>
    rw [Memory.write]
    split
    · rfl
    · exact Memory.read_cons_ne hac
  | cons d m ih =>
    obtain ⟨x, v⟩ := d
    rcases Nat.lt_trichotomy a x with hlt | heq | hgt
    · rw [Memory.write_below hlt]
      split
      · rfl
      · exact Memory.read_cons_ne hac
    · subst heq
      rw [Memory.write_at, Memory.read_cons_ne hac]
      split
      · rfl
      · exact Memory.read_cons_ne hac
    · rw [Memory.write_above hgt]
      by_cases hx : x = c
      · subst hx; rw [Memory.read_cons_same, Memory.read_cons_same]
      · rw [Memory.read_cons_ne hx, Memory.read_cons_ne hx, ih]

/-! ### The canonical form -/

theorem Memory.write_wfFrom (m : Memory) (a : Nat) (b : Byte) (lo : Nat) (hlo : lo ≤ a)
    (h : Memory.wfFrom lo m = true) : Memory.wfFrom lo (Memory.write m a b) = true := by
  induction m generalizing lo with
  | nil =>
    rw [Memory.write]
    split
    · rfl
    · next hb => exact Memory.wfFrom_cons.2 ⟨hlo, hb, rfl⟩
  | cons d m ih =>
    obtain ⟨x, v⟩ := d
    have h' := Memory.wfFrom_cons.1 h
    rcases Nat.lt_trichotomy a x with hlt | heq | hgt
    · rw [Memory.write_below hlt]
      split
      · exact h
      · next hb => exact Memory.wfFrom_cons.2 ⟨hlo, hb, Memory.wfFrom_cons.2 ⟨hlt, h'.2⟩⟩
    · subst heq
      rw [Memory.write_at]
      split
      · exact Memory.wfFrom_mono (by omega) h'.2.2
      · next hb => exact Memory.wfFrom_cons.2 ⟨hlo, hb, h'.2.2⟩
    · rw [Memory.write_above hgt]
      exact Memory.wfFrom_cons.2 ⟨h'.1, h'.2.1, ih _ hgt h'.2.2⟩

theorem Memory.write_wf (m : Memory) (a : Nat) (b : Byte) (h : m.wf = true) : (Memory.write m a b).wf = true :=
  Memory.write_wfFrom m a b 0 (Nat.zero_le a) h

theorem Memory.writeWord_wf (m : Memory) (a : AreaNo) (w : Nat) (v : Word) (h : m.wf = true) :
    (m.writeWord a w v).wf = true :=
  Memory.write_wf _ _ _ (Memory.write_wf _ _ _ h)

theorem Memory.writeBytes_wf (l : List Byte) (m : Memory) (a : Nat) (h : m.wf = true) : (m.writeBytes a l).wf = true := by
  induction l generalizing m a with
  | nil => exact h
  | cons b l ih => exact ih _ _ (Memory.write_wf m a b h)

theorem Memory.writeBlock_wf (m : Memory) (a : AreaNo) (l : List Byte) (h : m.wf = true) : (m.writeBlock a l).wf = true :=
  Memory.writeBytes_wf _ _ _ h

theorem Memory.empty_wf : Memory.wf [] = true := rfl

/-! ### Words and blocks -/

/-- The two bytes of a word do not meet another address. -/
theorem Memory.read_writeWord_ne (m : Memory) (a : AreaNo) (w : Nat) (v : Word) {c : Nat} (h0 : c ≠ wordAddr a w)
    (h1 : c ≠ wordAddr a w + 1) : (m.writeWord a w v).read c = m.read c := by
  rw [Memory.writeWord, Memory.read_write_ne _ _ h1, Memory.read_write_ne _ _ h0]

/-- The bytes of a word join to the word. -/
theorem Word.ofBytes_hi_lo (v : Word) : Word.ofBytes v.hi v.lo = v := by
  apply BitVec.eq_of_toNat_eq
  have hv : v.toNat < 65536 := v.isLt
  simp only [Word.ofBytes, Word.hi, Word.lo, BitVec.toNat_ofNat]
  omega

theorem Memory.readWord_writeWord (m : Memory) (a : AreaNo) (w : Nat) (v : Word) (h : m.wf = true) :
    (m.writeWord a w v).readWord a w = v := by
  have h1 : Memory.read (m.writeWord a w v) (wordAddr a w) = v.hi := by
    rw [Memory.writeWord, Memory.read_write_ne _ _ (by omega)]
    exact Memory.read_write_same m _ _ 0 h
  have h2 : Memory.read (m.writeWord a w v) (wordAddr a w + 1) = v.lo :=
    Memory.read_write_same _ _ _ 0 (Memory.write_wf m _ _ h)
  rw [Memory.readWord, h1, h2, Word.ofBytes_hi_lo]

theorem Memory.read_writeBytes_ne (l : List Byte) (m : Memory) (a c : Nat) (h : c < a ∨ a + l.length ≤ c) :
    (m.writeBytes a l).read c = m.read c := by
  induction l generalizing m a with
  | nil => rfl
  | cons b l ih =>
    simp only [List.length_cons] at h
    rw [Memory.writeBytes, ih _ _ (by omega), Memory.read_write_ne _ _ (by omega)]

theorem Memory.readBytes_writeBytes (l : List Byte) (m : Memory) (a : Nat) (h : m.wf = true) :
    (m.writeBytes a l).readBytes a l.length = l := by
  induction l generalizing m a with
  | nil => rfl
  | cons b l ih =>
    have hw := Memory.write_wf m a b h
    have first : (m.writeBytes a (b :: l)).read a = b := by
      rw [Memory.writeBytes, Memory.read_writeBytes_ne l _ (a + 1) a (by omega)]
      exact Memory.read_write_same m a b 0 h
    simp only [List.length_cons, Memory.readBytes, first]
    rw [Memory.writeBytes, ih _ _ hw]

/-- A block written into an area is what the area holds. -/
theorem Memory.readBlock_writeBlock (m : Memory) (a : AreaNo) (l : List Byte) (hl : l.length = Limit.blockBytes)
    (h : m.wf = true) : (m.writeBlock a l).readBlock a = l := by
  have ht : l.take Limit.blockBytes = l := List.take_of_length_le (by omega)
  rw [Memory.readBlock, Memory.writeBlock, ht, ← hl]
  exact Memory.readBytes_writeBytes l m _ h

/-- A block written into an area leaves every byte of the other areas alone. -/
theorem Memory.read_writeBlock_ne (m : Memory) (a : AreaNo) (l : List Byte) {c : Nat}
    (h : c < a.val * 512 ∨ a.val * 512 + 512 ≤ c) : (m.writeBlock a l).read c = m.read c := by
  apply Memory.read_writeBytes_ne
  have : (l.take Limit.blockBytes).length ≤ 512 := by
    rw [List.length_take]; exact Nat.min_le_left _ _
  omega

end Sys2Proof.Machine
end

