-- ==== Sys2Proof/Laws/Track.lean ====
section
/-! SUPPORT. What a step can do, said once: the part of the state that the invariants of Safety.lean speak of (`Track`), the
primitive changes of it (`Move`), and that each invariant is kept by every primitive change. That the operations of the
machine are sequences of such changes is said in Moves.lean, one lemma per operation. -/

namespace Sys2Proof.Machine

/-- The part of the state that the invariants speak of. -/
structure Track where
  pending : List Instr
  link : LinkState
  config : Option Cfg
  latch : Latch
  tx : Option TxKind
  requests : List Request
  outcomes : List OutcomeRec
  items : List PendingItem
  roster : Vector RosterEntry 16
  inits : List InitRec
  targets : List TargetRec
  initFree : List AreaNo
  servFree : List AreaNo
  ram : Memory

/-- The tracked part of a state. -/
def State.track (s : State) : Track where
  pending := s.pending
  link := s.member.link
  config := s.host.config
  latch := s.host.latch
  tx := s.line.tx.map Transmission.kind
  requests := s.host.requests
  outcomes := s.host.outcomes
  items := s.sched.items
  roster := s.member.roster
  inits := s.exch.inits
  targets := s.exch.targets
  initFree := s.buf.initFree
  servFree := s.buf.servFree
  ram := s.buf.ram

/-- An initiator record changed in what bears on no invariant. -/
structure InitRec.Same (x y : InitRec) : Prop where
  tag : y.tag = x.tag
  areas : ringAreas y.ring = ringAreas x.ring
  free : x.ring = none → y.ring = none
  live : y.live = x.live

/-- A target record changed in what bears on no invariant. -/
structure TargetRec.Same (x y : TargetRec) : Prop where
  id : y.id = x.id
  areas : ringAreas y.ring = ringAreas x.ring
  free : x.ring = none → y.ring = none
  queued : y.state = .queued → x.state = .queued
  detached : y.state = .detached ↔ x.state = .detached

theorem InitRec.Same.refl (x : InitRec) : InitRec.Same x x := ⟨rfl, rfl, fun h => h, rfl⟩

theorem TargetRec.Same.refl (x : TargetRec) : TargetRec.Same x x := ⟨rfl, rfl, fun h => h, fun h => h, Iff.rfl⟩

/-- The primitive changes. -/
inductive Move : Track → Track → Prop
  | requests (t : Track) (l : List Request) (h : l.length ≤ 8 ∨ l.length ≤ t.requests.length) :
      Move t { t with requests := l }
  | outcomes (t : Track) (l : List OutcomeRec) (h : l.length ≤ 16 ∨ l.length ≤ t.outcomes.length) :
      Move t { t with outcomes := l }
  | items (t : Track) (l : List PendingItem)
      (h : l.length ≤ t.items.length ∨ (l.length ≤ 32 ∧ (t.link = .member ∨ t.inits ≠ [] ∨ t.targets ≠ []))) :
      Move t { t with items := l }
  | roster (t : Track) (v : Vector RosterEntry 16) (h : (∀ n : Station, t.roster[n].sound) → ∀ n : Station, v[n].sound) :
      Move t { t with roster := v }
  | ram (t : Track) (m : Memory) (h : t.ram.wf = true → m.wf = true) : Move t { t with ram := m }
  | tx (t : Track) (k : TxKind) (h : k = .leave → t.link = .leaving) (hu : t.link ≠ .unconfigured) :
      Move t { t with tx := some k }
  | initEdit (t : Track) (f : InitRec → InitRec) (h : ∀ x ∈ t.inits, InitRec.Same x (f x)) :
      Move t { t with inits := t.inits.map f }
  | initOne (t : Track) (x : InitRec) (f : InitRec → InitRec) (hx : x ∈ t.inits) (h : InitRec.Same x (f x)) :
      Move t { t with inits := t.inits.map (fun y => if y.tag = x.tag then f y else y) }
  | initRelease (t : Track) (x : InitRec) (f : InitRec → InitRec) (hx : x ∈ t.inits)
      (hf : ∀ y, (f y).tag = y.tag ∧ (f y).ring = none) :
      Move t { t with inits := t.inits.map (fun y => if y.tag = x.tag then f y else y),
                      initFree := t.initFree ++ ringAreas x.ring }
  | initReserve (t : Track) (x : InitRec) (ring : Ring) (free : List AreaNo) (hx : x ∈ t.inits) (hl : x.live = true)
      (hr : x.ring = none) (h : ring.areas ++ free = t.initFree) :
      Move t { t with inits := t.inits.map (fun y => if y.tag = x.tag then { y with ring := some ring } else y),
                      initFree := free }
  | initDrop (t : Track) (x : InitRec) (hx : x ∈ t.inits) (h : x.ring = none ∨ x.live = false) :
      Move t { t with inits := t.inits.filter (fun y => decide (y.tag ≠ x.tag)) }
  | initAdd (t : Track) (r : InitRec) (hm : t.link = .member) (hn : ∀ y ∈ t.inits, y.tag ≠ r.tag) (hl : r.live = true) (hr : r.ring = none) :
      Move t { t with inits := t.inits ++ [r] }
  | targetEdit (t : Track) (f : TargetRec → TargetRec) (h : ∀ x ∈ t.targets, TargetRec.Same x (f x)) :
      Move t { t with targets := t.targets.map f }
  | targetOne (t : Track) (i : ExchId) (x : TargetRec) (f : TargetRec → TargetRec) (hx : x ∈ t.targets) (hk : x.id = some i)
      (h : TargetRec.Same x (f x)) :
      Move t { t with targets := t.targets.map (fun y => if y.keyed i.peer i.tag then f y else y) }
  | targetRelease (t : Track) (i : ExchId) (x : TargetRec) (f : TargetRec → TargetRec) (hx : x ∈ t.targets)
      (hk : x.id = some i) (hf : ∀ y, (f y).id = y.id ∧ (f y).ring = none ∧ (f y).state ≠ .detached) :
      Move t { t with targets := t.targets.map (fun y => if y.keyed i.peer i.tag then f y else y),
                      servFree := t.servFree ++ ringAreas x.ring }
  | targetSettle (t : Track) (i : ExchId) (f : TargetRec → TargetRec)
      (hf : ∀ y, (f y).id = y.id ∧ (f y).ring = y.ring ∧ (f y).state ≠ .queued ∧ (f y).state ≠ .detached) :
      Move t { t with targets := t.targets.map (fun y => if y.keyed i.peer i.tag then f y else y) }
  | targetActivate (t : Track) (i : ExchId) (x : TargetRec) (ring : Option Ring) (free : List AreaNo)
      (f : TargetRec → TargetRec) (hx : x ∈ t.targets) (hk : x.id = some i) (hq : x.state = .queued)
      (hf : ∀ y, (f y).id = y.id ∧ (f y).ring = ring ∧ (f y).state ≠ .queued ∧ (f y).state ≠ .detached)
      (h : ringAreas ring ++ free = t.servFree) :
      Move t { t with targets := t.targets.map (fun y => if y.keyed i.peer i.tag then f y else y), servFree := free }
  | targetDrop (t : Track) (i : ExchId) (x : TargetRec) (hx : x ∈ t.targets) (hk : x.id = some i) :
      Move t { t with targets := t.targets.filter (fun y => !y.keyed i.peer i.tag),
                      servFree := t.servFree ++ ringAreas x.ring }
  | targetDetach (t : Track) (i : ExchId) (f : TargetRec → TargetRec)
      (hf : ∀ y, (f y).id = none ∧ (f y).ring = y.ring ∧ (f y).state = .detached) :
      Move t { t with targets := t.targets.map (fun y => if y.keyed i.peer i.tag then f y else y) }
  | targetAdd (t : Track) (i : ExchId) (r : TargetRec) (hm : t.link = .member) (hn : ∀ y ∈ t.targets, y.keyed i.peer i.tag = false)
      (hl : t.targets.length < 16) (hk : r.id = some i) (hr : r.ring = none) (hd : r.state ≠ .detached) :
      Move t { t with targets := t.targets ++ [r] }
  | settleQueued (t : Track) (f : TargetRec → TargetRec)
      (hf : ∀ y, (f y).id = y.id ∧ (f y).ring = none ∧ (f y).state ≠ .queued ∧ (f y).state ≠ .detached) :
      Move t { t with targets := t.targets.map (fun y => if y.state = .queued then f y else y) }
  | runOutEnd (t : Track) :
      Move t { t with
        targets := (t.targets.filter (fun r => decide (r.state ≠ .detached))).map
          (fun r => if r.inRunOut then { r with ring := none } else r)
        servFree := t.servFree ++ (t.targets.filter TargetRec.inRunOut).flatMap (fun r => ringAreas r.ring) }

/-- Any number of primitive changes. -/
abbrev Moves : Track → Track → Prop := Relation.ReflTransGen Move

/-! ### What a change never does -/

theorem Move.pending_eq {t u : Track} (h : Move t u) : u.pending = t.pending := by cases h <;> rfl
theorem Move.link_eq {t u : Track} (h : Move t u) : u.link = t.link := by cases h <;> rfl
theorem Move.config_eq {t u : Track} (h : Move t u) : u.config = t.config := by cases h <;> rfl
theorem Move.latch_eq {t u : Track} (h : Move t u) : u.latch = t.latch := by cases h <;> rfl

theorem Moves.link_eq {t u : Track} (h : Moves t u) : u.link = t.link := by
  induction h with
  | refl => rfl
  | tail _ m ih => rw [m.link_eq, ih]

theorem Moves.config_eq {t u : Track} (h : Moves t u) : u.config = t.config := by
  induction h with
  | refl => rfl
  | tail _ m ih => rw [m.config_eq, ih]

theorem Moves.latch_eq {t u : Track} (h : Moves t u) : u.latch = t.latch := by
  induction h with
  | refl => rfl
  | tail _ m ih => rw [m.latch_eq, ih]

/-! ### The invariants of a tracked part -/

def Track.ramCanonical (t : Track) : Prop := t.ram.wf = true

def Track.queuesBounded (t : Track) : Prop := t.requests.length ≤ 8 ∧ t.outcomes.length ≤ 16 ∧ t.items.length ≤ 32

def Track.rosterSound (t : Track) : Prop := ∀ n : Station, t.roster[n].sound

def Track.recordsLimited (t : Track) : Prop :=
  t.inits.length ≤ 8 ∧ (t.inits.map InitRec.tag).Nodup ∧
  t.targets.length ≤ 16 ∧ (t.targets.filterMap TargetRec.key).Nodup ∧
  ∀ r ∈ t.targets, r.state = .detached ↔ r.id = none

theorem Move.ramCanonical {t u : Track} (m : Move t u) (h : t.ramCanonical) : u.ramCanonical := by
  cases m <;> first | exact h | (next hm => exact hm h)

theorem Move.queuesBounded {t u : Track} (m : Move t u) (h : t.queuesBounded) : u.queuesBounded := by
  obtain ⟨h1, h2, h3⟩ := h
  cases m <;> first | exact ⟨h1, h2, h3⟩ | (refine ⟨?_, ?_, ?_⟩ <;> first | assumption | (dsimp only; omega))

/-- The link is sound (Safety.lean). -/
def Track.linkSound (t : Track) : Prop :=
  (t.link ≠ .member → t.inits = [] ∧ t.targets = [] ∧ t.items = []) ∧ (t.tx = some .leave → t.link = .leaving) ∧
  (t.latch ≠ .matched → t.link = .unconfigured ∧ t.tx = none) ∧ (t.config = none ↔ t.latch ≠ .matched)

theorem Move.linkSound {t u : Track} (m : Move t u) (h : t.linkSound) : u.linkSound := by
  have h0 := h
  obtain ⟨h1, h2, h3, h4⟩ := h
  cases m with
  | requests | outcomes | roster | ram => exact ⟨h1, h2, h3, h4⟩
  | items l hl =>
    refine ⟨fun hm => ?_, h2, h3, h4⟩
    obtain ⟨hi, ht, hit⟩ := h1 hm
    refine ⟨hi, ht, ?_⟩
    rcases hl with hl | ⟨_, hl⟩
    · rw [hit] at hl; exact List.length_eq_zero_iff.1 (Nat.le_zero.1 hl)
    · rcases hl with hl | hl | hl
      · exact absurd hl hm
      · exact absurd hi hl
      · exact absurd ht hl
  | tx k hk hu =>
    refine ⟨h1, fun hc => hk (Option.some.inj hc), fun hl => absurd (h3 hl).1 hu, h4⟩
  | initEdit f _ => exact ⟨fun hm => ⟨by rw [(h1 hm).1]; rfl, (h1 hm).2⟩, h2, h3, h4⟩
  | initOne x f hx _ => exact ⟨fun hm => absurd hx (by rw [(h1 hm).1]; exact List.not_mem_nil), h2, h3, h4⟩
  | initRelease x f hx _ => exact ⟨fun hm => absurd hx (by rw [(h1 hm).1]; exact List.not_mem_nil), h2, h3, h4⟩
  | initReserve x ring free hx _ _ _ => exact ⟨fun hm => absurd hx (by rw [(h1 hm).1]; exact List.not_mem_nil), h2, h3, h4⟩
  | initDrop x hx _ => exact ⟨fun hm => absurd hx (by rw [(h1 hm).1]; exact List.not_mem_nil), h2, h3, h4⟩
  | initAdd r hmem _ _ _ => exact ⟨fun hm => absurd hmem hm, h2, h3, h4⟩
  | targetEdit f _ => exact ⟨fun hm => ⟨(h1 hm).1, by rw [(h1 hm).2.1]; rfl, (h1 hm).2.2⟩, h2, h3, h4⟩
  | targetOne i x f hx _ _ => exact ⟨fun hm => absurd hx (by rw [(h1 hm).2.1]; exact List.not_mem_nil), h2, h3, h4⟩
  | targetRelease i x f hx _ _ => exact ⟨fun hm => absurd hx (by rw [(h1 hm).2.1]; exact List.not_mem_nil), h2, h3, h4⟩
  | targetSettle i f _ => exact ⟨fun hm => ⟨(h1 hm).1, by rw [(h1 hm).2.1]; rfl, (h1 hm).2.2⟩, h2, h3, h4⟩
  | targetActivate i x ring free f hx _ _ _ _ =>
    exact ⟨fun hm => absurd hx (by rw [(h1 hm).2.1]; exact List.not_mem_nil), h2, h3, h4⟩
  | targetDrop i x hx _ => exact ⟨fun hm => absurd hx (by rw [(h1 hm).2.1]; exact List.not_mem_nil), h2, h3, h4⟩
  | targetDetach i f _ => exact ⟨fun hm => ⟨(h1 hm).1, by rw [(h1 hm).2.1]; rfl, (h1 hm).2.2⟩, h2, h3, h4⟩
  | targetAdd i r hmem _ _ _ _ _ => exact ⟨fun hm => absurd hmem hm, h2, h3, h4⟩
  | settleQueued f _ => exact ⟨fun hm => ⟨(h1 hm).1, by rw [(h1 hm).2.1]; rfl, (h1 hm).2.2⟩, h2, h3, h4⟩
  | runOutEnd => exact ⟨fun hm => ⟨(h1 hm).1, by rw [(h1 hm).2.1]; rfl, (h1 hm).2.2⟩, h2, h3, h4⟩

theorem Move.rosterSound {t u : Track} (m : Move t u) (h : t.rosterSound) : u.rosterSound := by
  cases m <;> first | exact h | (next hm => exact hm h)

/-! ### Keys and tags -/

theorem TargetRec.keyed_iff (x : TargetRec) (p : Station) (g : Tag) : x.keyed p g = true ↔ x.key = some (p, g) := by
  unfold TargetRec.keyed TargetRec.key
  cases x.id with
  | none => simp
  | some i => simp [Prod.ext_iff]

theorem TargetRec.keyed_of_id {x : TargetRec} {i : ExchId} (h : x.id = some i) : x.keyed i.peer i.tag = true := by
  simp [TargetRec.keyed, h]

theorem TargetRec.key_of_id {x y : TargetRec} (h : y.id = x.id) : y.key = x.key := by
  simp [TargetRec.key, h]

theorem TargetRec.keyed_of_id_eq {x y : TargetRec} (h : y.id = x.id) (p : Station) (g : Tag) : y.keyed p g = x.keyed p g := by
  simp [TargetRec.keyed, h]

/-- With distinct tags, the records of a record's tag are that record alone. -/
theorem filter_tag {l : List InitRec} (hn : (l.map InitRec.tag).Nodup) {x : InitRec} (hx : x ∈ l) :
    l.filter (fun y => decide (y.tag = x.tag)) = [x] := by
  induction l with
  | nil => cases hx
  | cons a l ih =>
    rw [List.map_cons, List.nodup_cons] at hn
    rcases List.mem_cons.1 hx with rfl | hx'
    · rw [List.filter_cons_of_pos (by simp)]
      congr 1
      rw [List.filter_eq_nil_iff]
      intro y hy hc
      exact hn.1 (List.mem_map.2 ⟨y, hy, by simpa using hc⟩)
    · rw [List.filter_cons_of_neg, ih hn.2 hx']
      intro hc
      exact hn.1 (List.mem_map.2 ⟨x, hx', by simpa using (of_decide_eq_true hc).symm⟩)

/-- With distinct keys, the records of a record's key are that record alone. -/
theorem filter_keyed {l : List TargetRec} (hn : (l.filterMap TargetRec.key).Nodup) {x : TargetRec} (hx : x ∈ l) {i : ExchId}
    (hi : x.id = some i) : l.filter (fun y => y.keyed i.peer i.tag) = [x] := by
  have hk : x.key = some (i.peer, i.tag) := (TargetRec.keyed_iff x _ _).1 (TargetRec.keyed_of_id hi)
  induction l with
  | nil => cases hx
  | cons a l ih =>
    rcases List.mem_cons.1 hx with rfl | hx'
    · rw [List.filterMap_cons_some hk, List.nodup_cons] at hn
      rw [List.filter_cons, if_pos (TargetRec.keyed_of_id hi)]
      congr 1
      rw [List.filter_eq_nil_iff]
      intro y hy hc
      exact hn.1 (List.mem_filterMap.2 ⟨y, hy, (TargetRec.keyed_iff y _ _).1 hc⟩)
    · cases ha : a.key with
      | none =>
        rw [List.filterMap_cons_none ha] at hn
        rw [List.filter_cons_of_neg, ih hn hx']
        intro hc
        rw [TargetRec.keyed_iff, ha] at hc
        cases hc
      | some k =>
        rw [List.filterMap_cons_some ha, List.nodup_cons] at hn
        rw [List.filter_cons_of_neg, ih hn.2 hx']
        intro hc
        rw [TargetRec.keyed_iff, ha] at hc
        cases hc
        exact hn.1 (List.mem_filterMap.2 ⟨x, hx', hk⟩)

theorem mem_of_filter_eq {α : Type} {l : List α} {p : α → Bool} {x y : α} (h : l.filter p = [x]) (hy : y ∈ l) (hp : p y = true) :
    y = x := by
  have : y ∈ l.filter p := List.mem_filter.2 ⟨hy, hp⟩
  rw [h] at this
  exact List.mem_singleton.1 this

/-! ### The limits of the Exchange Table -/

theorem keys_map {l : List TargetRec} {f : TargetRec → TargetRec} (h : ∀ x ∈ l, (f x).key = x.key) :
    (l.map f).filterMap TargetRec.key = l.filterMap TargetRec.key := by
  rw [List.filterMap_map]
  exact List.filterMap_congr h

theorem keys_sublist_map {l : List TargetRec} {f : TargetRec → TargetRec} (h : ∀ x ∈ l, (f x).key = x.key ∨ (f x).key = none) :
    List.Sublist ((l.map f).filterMap TargetRec.key) (l.filterMap TargetRec.key) := by
  induction l with
  | nil => exact List.Sublist.refl _
  | cons a l ih =>
    have ih := ih (fun x hx => h x (List.mem_cons_of_mem _ hx))
    rw [List.map_cons]
    rcases h a List.mem_cons_self with ha | ha
    · cases hk : a.key with
      | none => rw [List.filterMap_cons_none (ha.trans hk), List.filterMap_cons_none hk]; exact ih
      | some k => rw [List.filterMap_cons_some (ha.trans hk), List.filterMap_cons_some hk]; exact ih.cons_cons _
    · rw [List.filterMap_cons_none ha]
      cases hk : a.key with
      | none => rw [List.filterMap_cons_none hk]; exact ih
      | some k => rw [List.filterMap_cons_some hk]; exact ih.cons _

theorem tags_map {l : List InitRec} {f : InitRec → InitRec} (h : ∀ x ∈ l, (f x).tag = x.tag) :
    (l.map f).map InitRec.tag = l.map InitRec.tag := by
  rw [List.map_map]
  exact List.map_congr_left h

/-- At most 8 records have distinct tags. -/
theorem length_le_of_tags {l : List InitRec} (h : (l.map InitRec.tag).Nodup) : l.length ≤ 8 := by
  have := h.length_le_card
  rw [List.length_map, Fintype.card_fin] at this
  exact this

/-- What the change of initiator records alone asks of the limits. -/
theorem Track.recordsLimited.inits {t : Track} (h : t.recordsLimited) {l : List InitRec} (hl : (l.map InitRec.tag).Nodup) :
    ({ t with inits := l } : Track).recordsLimited :=
  ⟨length_le_of_tags hl, hl, h.2.2⟩

/-- What the change of target records alone asks of the limits. -/
theorem Track.recordsLimited.targets {t : Track} (h : t.recordsLimited) {l : List TargetRec} (h1 : l.length ≤ 16)
    (h2 : (l.filterMap TargetRec.key).Nodup) (h3 : ∀ r ∈ l, r.state = .detached ↔ r.id = none) :
    ({ t with targets := l } : Track).recordsLimited :=
  ⟨h.1, h.2.1, h1, h2, h3⟩

/-- The target records of a key changed into records of the same key that are not DETACHED. -/
theorem Track.recordsLimited.mapKeyed {t : Track} (h : t.recordsLimited) (i : ExchId) (f : TargetRec → TargetRec)
    (hf : ∀ y ∈ t.targets, y.keyed i.peer i.tag = true → (f y).key = y.key ∧ ((f y).state = .detached ↔ (f y).id = none)) :
    ({ t with targets := t.targets.map (fun y => if y.keyed i.peer i.tag then f y else y) } : Track).recordsLimited := by
  refine h.targets (by rw [List.length_map]; exact h.2.2.1) ?_ ?_
  · rw [keys_map]
    · exact h.2.2.2.1
    · intro x hx
      by_cases hk : x.keyed i.peer i.tag = true
      · rw [if_pos hk]; exact (hf x hx hk).1
      · rw [if_neg hk]
  · intro r hr
    obtain ⟨x, hx, rfl⟩ := List.mem_map.1 hr
    by_cases hk : x.keyed i.peer i.tag = true
    · simp only [if_pos hk]; exact (hf x hx hk).2
    · simp only [if_neg hk]; exact h.2.2.2.2 x hx

theorem id_ne_none_of_keyed {y : TargetRec} {p : Station} {g : Tag} (h : y.keyed p g = true) : y.id ≠ none := by
  intro hn
  simp [TargetRec.keyed, hn] at h

theorem Move.recordsLimited {t u : Track} (m : Move t u) (h : t.recordsLimited) : u.recordsLimited := by
  have h0 := h
  obtain ⟨h1, h2, h3, h4, h5⟩ := h
  cases m with
  | requests | outcomes | items | roster | ram | tx => exact ⟨h1, h2, h3, h4, h5⟩
  | initEdit f hf =>
    exact h0.inits (by rw [tags_map (fun x hx => (hf x hx).tag)]; exact h2)
  | initOne x f hx hr =>
    refine h0.inits ?_
    rw [tags_map]
    · exact h2
    · intro y hy
      by_cases hc : y.tag = x.tag
      · have := mem_of_filter_eq (filter_tag h2 hx) hy (by simpa using hc)
        subst this
        simp only [if_pos]; exact hr.tag
      · simp only [if_neg hc]
  | initRelease x f hx hf =>
    have : (t.inits.map (fun y => if y.tag = x.tag then f y else y)).map InitRec.tag = t.inits.map InitRec.tag := by
      refine tags_map (fun y _ => ?_)
      by_cases hc : y.tag = x.tag
      · rw [if_pos hc]; exact (hf y).1
      · rw [if_neg hc]
    exact (h0.inits (by rw [this]; exact h2) : Track.recordsLimited { t with inits := _ })
  | initReserve x ring free hx hl hr hfree =>
    have : (t.inits.map (fun y => if y.tag = x.tag then { y with ring := some ring } else y)).map InitRec.tag =
        t.inits.map InitRec.tag := by
      refine tags_map (fun y _ => ?_)
      by_cases hc : y.tag = x.tag
      · rw [if_pos hc]
      · rw [if_neg hc]
    exact (h0.inits (by rw [this]; exact h2) : Track.recordsLimited { t with inits := _ })
  | initDrop x hx hr =>
    exact h0.inits (h2.sublist (List.filter_sublist.map _))
  | initAdd r hm hn hl hr =>
    refine h0.inits ?_
    rw [List.map_append, List.nodup_append]
    refine ⟨h2, List.nodup_singleton _, ?_⟩
    intro a ha b hb hab
    obtain ⟨y, hy, rfl⟩ := List.mem_map.1 ha
    rw [List.map_singleton, List.mem_singleton] at hb
    exact hn y hy (hab.trans hb)
  | targetEdit f hf =>
    refine h0.targets (by rw [List.length_map]; exact h3) ?_ ?_
    · rw [keys_map (fun x hx => TargetRec.key_of_id (hf x hx).id)]; exact h4
    · intro r hr
      obtain ⟨x, hx, rfl⟩ := List.mem_map.1 hr
      rw [(hf x hx).detached, (hf x hx).id]
      exact h5 x hx
  | targetOne i x f hx hk hr =>
    refine h0.mapKeyed i f (fun y hy hyk => ?_)
    have := mem_of_filter_eq (filter_keyed h4 hx hk) hy hyk
    subst this
    exact ⟨TargetRec.key_of_id hr.id, by rw [hr.detached, hr.id]; exact h5 y hx⟩
  | targetRelease i x f hx hk hf =>
    refine (h0.mapKeyed i f (fun y hy hyk => ?_) : Track.recordsLimited { t with targets := _ })
    exact ⟨TargetRec.key_of_id (hf y).1, iff_of_false (hf y).2.2 (by rw [(hf y).1]; exact id_ne_none_of_keyed hyk)⟩
  | targetSettle i f hf =>
    refine h0.mapKeyed i f (fun y hy hyk => ?_)
    exact ⟨TargetRec.key_of_id (hf y).1, iff_of_false (hf y).2.2.2 (by rw [(hf y).1]; exact id_ne_none_of_keyed hyk)⟩
  | targetActivate i x ring free f hx hk hq hf hfree =>
    refine (h0.mapKeyed i f (fun y hy hyk => ?_) : Track.recordsLimited { t with targets := _ })
    exact ⟨TargetRec.key_of_id (hf y).1, iff_of_false (hf y).2.2.2 (by rw [(hf y).1]; exact id_ne_none_of_keyed hyk)⟩
  | targetDrop i x hx hk =>
    refine (h0.targets ?_ ?_ ?_ : Track.recordsLimited { t with targets := _ })
    · exact Nat.le_trans (List.length_filter_le _ _) h3
    · exact h4.sublist (List.filter_sublist.filterMap _)
    · exact fun r hr => h5 r (List.mem_of_mem_filter hr)
  | targetDetach i f hf =>
    refine h0.targets (by rw [List.length_map]; exact h3) ?_ ?_
    · refine h4.sublist (keys_sublist_map (fun x _ => ?_))
      by_cases hk : x.keyed i.peer i.tag = true
      · right; simp only [if_pos hk, TargetRec.key, (hf x).1, Option.map_none]
      · left; simp only [if_neg hk]
    · intro r hr
      obtain ⟨x, hx, rfl⟩ := List.mem_map.1 hr
      by_cases hk : x.keyed i.peer i.tag = true
      · simp only [if_pos hk]; exact iff_of_true (hf x).2.2 (hf x).1
      · simp only [if_neg hk]; exact h5 x hx
  | targetAdd i r hm hn hl hk hr hd =>
    refine h0.targets ?_ ?_ ?_
    · rw [List.length_append, List.length_singleton]; omega
    · rw [List.filterMap_append, List.nodup_append]
      refine ⟨h4, ?_, ?_⟩
      · cases hkr : r.key with
        | none => rw [List.filterMap_cons_none hkr]; exact List.nodup_nil
        | some k => rw [List.filterMap_cons_some hkr]; exact List.nodup_singleton _
      · intro a ha b hb hab
        obtain ⟨y, hy, hya⟩ := List.mem_filterMap.1 ha
        obtain ⟨z, hz, hzb⟩ := List.mem_filterMap.1 hb
        rw [List.mem_singleton] at hz
        subst hz
        have hkr := (TargetRec.keyed_iff z _ _).1 (TargetRec.keyed_of_id hk)
        rw [hkr] at hzb
        cases hzb
        have := hn y hy
        rw [(TargetRec.keyed_iff y _ _).2 (hya.trans (by rw [hab]))] at this
        cases this
    · intro x hx
      rcases List.mem_append.1 hx with hx | hx
      · exact h5 x hx
      · rw [List.mem_singleton] at hx
        subst hx
        exact iff_of_false hd (by rw [hk]; exact Option.some_ne_none _)
  | settleQueued f hf =>
    refine h0.targets (by rw [List.length_map]; exact h3) ?_ ?_
    · rw [keys_map]
      · exact h4
      · intro x hx
        by_cases hq : x.state = .queued
        · simp only [if_pos hq]; exact TargetRec.key_of_id (hf x).1
        · simp only [if_neg hq]
    · intro r hr
      obtain ⟨x, hx, rfl⟩ := List.mem_map.1 hr
      by_cases hq : x.state = .queued
      · simp only [if_pos hq]
        refine iff_of_false (hf x).2.2.2 ?_
        rw [(hf x).1]
        intro hn
        have := (h5 x hx).2 hn
        rw [hq] at this
        cases this
      · simp only [if_neg hq]; exact h5 x hx
  | runOutEnd =>
    refine (h0.targets ?_ ?_ ?_ : Track.recordsLimited { t with targets := _ })
    · rw [List.length_map]; exact Nat.le_trans (List.length_filter_le _ _) h3
    · rw [keys_map]
      · exact h4.sublist (List.filter_sublist.filterMap _)
      · intro x _
        by_cases hc : x.inRunOut = true
        · rw [if_pos hc]; rfl
        · rw [if_neg hc]
    · intro r hr
      obtain ⟨x, hx, rfl⟩ := List.mem_map.1 hr
      have hx5 := h5 x (List.mem_of_mem_filter hx)
      by_cases hc : x.inRunOut = true
      · simp only [if_pos hc]; exact hx5
      · simp only [if_neg hc]; exact hx5

/-! ### The account of the areas -/

/-- The areas in the rings of initiator records. -/
def initAreas (l : List InitRec) : List AreaNo := l.flatMap (fun r => ringAreas r.ring)

/-- The areas in the rings of target records. -/
def targetAreas (l : List TargetRec) : List AreaNo := l.flatMap (fun r => ringAreas r.ring)

/-- The pool of a role as a configuration fixes it; none before the match. -/
def poolsOf : Option Cfg → List AreaNo × List AreaNo
  | some c => (initPool c, servPool c)
  | none => ([], [])

def Track.ringsHeld (t : Track) : Prop :=
  (∀ r ∈ t.inits, r.live = false → r.ring = none) ∧ (∀ r ∈ t.targets, r.state = .queued → r.ring = none) ∧
  (t.config = none ↔ t.latch ≠ .matched)

def Track.areasAccounted (t : Track) : Prop :=
  (t.initFree ++ initAreas t.inits).Perm (poolsOf t.config).1 ∧ (t.servFree ++ targetAreas t.targets).Perm (poolsOf t.config).2

def Track.areasSafe (t : Track) : Prop := t.recordsLimited ∧ t.ringsHeld ∧ t.areasAccounted

theorem flatMap_split {α β : Type} (l : List α) (p : α → Bool) (g : α → List β) :
    (l.flatMap g).Perm ((l.filter p).flatMap g ++ (l.filter (fun y => !p y)).flatMap g) := by
  rw [← List.flatMap_append]
  exact List.Perm.flatMap_right _ (List.filter_append_perm p l).symm

theorem flatMap_map_split {α β : Type} (l : List α) (p : α → Bool) (f : α → α) (g : α → List β) :
    ((l.map (fun y => if p y = true then f y else y)).flatMap g).Perm
      ((l.filter p).flatMap (fun y => g (f y)) ++ (l.filter (fun y => !p y)).flatMap g) := by
  induction l with
  | nil => exact List.Perm.refl _
  | cons a l ih =>
    rw [List.map_cons, List.flatMap_cons]
    by_cases ha : p a = true
    · rw [if_pos ha, List.filter_cons_of_pos ha, List.filter_cons_of_neg (by simp [ha]), List.flatMap_cons, List.append_assoc]
      exact ih.append_left _
    · rw [if_neg ha, List.filter_cons_of_neg ha, List.filter_cons_of_pos (by simpa using ha), List.flatMap_cons]
      refine (ih.append_left _).trans ?_
      rw [← List.append_assoc, ← List.append_assoc]
      exact List.perm_append_comm.append_right _

/-- The areas of a list of records one of which gives its place to another: `p` holds of that one alone. -/
theorem perm_areas_of_single {α β : Type} {l : List α} {p : α → Bool} {x : α} (h : l.filter p = [x]) (f : α → α) (g : α → List β) :
    (g x ++ (l.map (fun y => if p y = true then f y else y)).flatMap g).Perm (g (f x) ++ l.flatMap g) := by
  have h1 := flatMap_map_split l p f g
  have h2 := flatMap_split l p g
  rw [h] at h1 h2
  rw [List.flatMap_singleton] at h1 h2
  refine (h1.append_left _).trans (List.Perm.trans ?_ (h2.symm.append_left _))
  rw [← List.append_assoc, ← List.append_assoc]
  exact List.perm_append_comm.append_right _

/-- The areas of a list of records without the one of which `p` holds. -/
theorem perm_areas_of_drop {α β : Type} {l : List α} {p : α → Bool} {x : α} (h : l.filter p = [x]) (g : α → List β) :
    (g x ++ (l.filter (fun y => !p y)).flatMap g).Perm (l.flatMap g) := by
  have h2 := flatMap_split l p g
  rw [h, List.flatMap_singleton] at h2
  exact h2.symm

theorem flatMap_map_congr {α β : Type} {l : List α} {f : α → α} {g : α → List β} (h : ∀ x ∈ l, g (f x) = g x) :
    (l.map f).flatMap g = l.flatMap g := by
  rw [List.flatMap_map]
  exact List.flatMap_congr h

theorem Move.ringsHeld {t u : Track} (m : Move t u) (hr : t.recordsLimited) (h : t.ringsHeld) : u.ringsHeld := by
  obtain ⟨h1, h2, h3⟩ := h
  cases m with
  | requests | outcomes | items | roster | ram | tx => exact ⟨h1, h2, h3⟩
  | initEdit f hf =>
    refine ⟨fun r hm hl => ?_, h2, h3⟩
    obtain ⟨x, hx, rfl⟩ := List.mem_map.1 hm
    exact (hf x hx).free (h1 x hx ((hf x hx).live ▸ hl))
  | initOne x f hx hs =>
    refine ⟨fun y hm hl => ?_, h2, h3⟩
    obtain ⟨z, hz, rfl⟩ := List.mem_map.1 hm
    by_cases hc : z.tag = x.tag
    · have := mem_of_filter_eq (filter_tag hr.2.1 hx) hz (by simpa using hc)
      subst this
      simp only [if_true] at hl ⊢
      exact hs.free (h1 z hx (hs.live ▸ hl))
    · simp only [if_neg hc] at hl ⊢
      exact h1 z hz hl
  | initRelease x f hx hf =>
    refine ⟨fun y hm hl => ?_, h2, h3⟩
    obtain ⟨z, hz, rfl⟩ := List.mem_map.1 hm
    by_cases hc : z.tag = x.tag
    · simp only [if_pos hc]; exact (hf z).2
    · simp only [if_neg hc] at hl ⊢; exact h1 z hz hl
  | initReserve x ring free hx hlive hring hfree =>
    refine ⟨fun y hm hl => ?_, h2, h3⟩
    obtain ⟨z, hz, rfl⟩ := List.mem_map.1 hm
    by_cases hc : z.tag = x.tag
    · have hzx := mem_of_filter_eq (filter_tag hr.2.1 hx) hz (by simpa using hc)
      subst hzx
      simp only [if_true] at hl
      have : z.live = false := hl
      rw [hlive] at this
      cases this
    · simp only [if_neg hc] at hl ⊢; exact h1 z hz hl
  | initDrop x hx hd => exact ⟨fun y hm hl => h1 y (List.mem_of_mem_filter hm) hl, h2, h3⟩
  | initAdd r hm hn hl hd =>
    refine ⟨fun y hm hly => ?_, h2, h3⟩
    rcases List.mem_append.1 hm with hm | hm
    · exact h1 y hm hly
    · rw [List.mem_singleton] at hm; subst hm; exact hd
  | targetEdit f hf =>
    refine ⟨h1, fun y hm hq => ?_, h3⟩
    obtain ⟨z, hz, rfl⟩ := List.mem_map.1 hm
    exact (hf z hz).free (h2 z hz ((hf z hz).queued hq))
  | targetOne i x f hx hk hs =>
    refine ⟨h1, fun y hm hq => ?_, h3⟩
    obtain ⟨z, hz, rfl⟩ := List.mem_map.1 hm
    by_cases hc : z.keyed i.peer i.tag = true
    · have := mem_of_filter_eq (filter_keyed hr.2.2.2.1 hx hk) hz hc
      subst this
      simp only [if_pos hc] at hq ⊢; exact hs.free (h2 z hx (hs.queued hq))
    · simp only [if_neg hc] at hq ⊢; exact h2 z hz hq
  | targetRelease i x f hx hk hf =>
    refine ⟨h1, fun y hm hq => ?_, h3⟩
    obtain ⟨z, hz, rfl⟩ := List.mem_map.1 hm
    by_cases hc : z.keyed i.peer i.tag = true
    · simp only [if_pos hc] at hq ⊢; exact (hf z).2.1
    · simp only [if_neg hc] at hq ⊢; exact h2 z hz hq
  | targetSettle i f hf =>
    refine ⟨h1, fun y hm hq => ?_, h3⟩
    obtain ⟨z, hz, rfl⟩ := List.mem_map.1 hm
    by_cases hc : z.keyed i.peer i.tag = true
    · simp only [if_pos hc] at hq; exact absurd hq (hf z).2.2.1
    · simp only [if_neg hc] at hq ⊢; exact h2 z hz hq
  | targetActivate i x ring free f hx hk hq hf hfree =>
    refine ⟨h1, fun y hm hqy => ?_, h3⟩
    obtain ⟨z, hz, rfl⟩ := List.mem_map.1 hm
    by_cases hc : z.keyed i.peer i.tag = true
    · simp only [if_pos hc] at hqy; exact absurd hqy (hf z).2.2.1
    · simp only [if_neg hc] at hqy ⊢; exact h2 z hz hqy
  | targetDrop i x hx hk => exact ⟨h1, fun y hm hq => h2 y (List.mem_of_mem_filter hm) hq, h3⟩
  | targetDetach i f hf =>
    refine ⟨h1, fun y hm hq => ?_, h3⟩
    obtain ⟨z, hz, rfl⟩ := List.mem_map.1 hm
    by_cases hc : z.keyed i.peer i.tag = true
    · simp only [if_pos hc] at hq; rw [(hf z).2.2] at hq; cases hq
    · simp only [if_neg hc] at hq ⊢; exact h2 z hz hq
  | targetAdd i r hm hn hl hk hring hd =>
    refine ⟨h1, fun y hm hq => ?_, h3⟩
    rcases List.mem_append.1 hm with hm | hm
    · exact h2 y hm hq
    · rw [List.mem_singleton] at hm; subst hm; exact hring
  | settleQueued f hf =>
    refine ⟨h1, fun y hm hq => ?_, h3⟩
    obtain ⟨z, hz, rfl⟩ := List.mem_map.1 hm
    by_cases hc : z.state = .queued
    · simp only [if_pos hc]; exact (hf z).2.1
    · simp only [if_neg hc] at hq; exact absurd hq hc
  | runOutEnd =>
    refine ⟨h1, fun y hm hq => ?_, h3⟩
    obtain ⟨z, hz, rfl⟩ := List.mem_map.1 hm
    by_cases hc : z.inRunOut = true
    · simp only [if_pos hc]
    · simp only [if_neg hc] at hq ⊢; exact h2 z (List.mem_of_mem_filter hz) hq

/-- The account of the initiator pool alone. -/
theorem Track.areasAccounted.inits {t : Track} (h : t.areasAccounted) {l : List InitRec} {free : List AreaNo}
    (hp : (free ++ initAreas l).Perm (t.initFree ++ initAreas t.inits)) :
    ({ t with inits := l, initFree := free } : Track).areasAccounted := ⟨hp.trans h.1, h.2⟩

/-- The account of the service pool alone. -/
theorem Track.areasAccounted.targets {t : Track} (h : t.areasAccounted) {l : List TargetRec} {free : List AreaNo}
    (hp : (free ++ targetAreas l).Perm (t.servFree ++ targetAreas t.targets)) :
    ({ t with targets := l, servFree := free } : Track).areasAccounted := ⟨h.1, hp.trans h.2⟩

theorem Move.areasAccounted {t u : Track} (m : Move t u) (hr : t.recordsLimited) (hh : t.ringsHeld) (h : t.areasAccounted) :
    u.areasAccounted := by
  cases m with
  | requests | outcomes | items | roster | ram | tx => exact h
  | initEdit f hf =>
    refine h.inits (free := t.initFree) ?_
    rw [initAreas, initAreas, flatMap_map_congr (fun x hx => (hf x hx).areas)]
  | initOne x f hx hs =>
    refine h.inits (free := t.initFree) ?_
    rw [initAreas, initAreas, flatMap_map_congr]
    intro y hy
    by_cases hc : y.tag = x.tag
    · have := mem_of_filter_eq (filter_tag hr.2.1 hx) hy (by simpa using hc)
      subst this
      simp only; exact hs.areas
    · simp only [if_neg hc]
  | initRelease x f hx hf =>
    refine h.inits ?_
    have := perm_areas_of_single (filter_tag hr.2.1 hx) f (fun r => ringAreas r.ring)
    simp only [decide_eq_true_eq, (hf x).2] at this
    rw [List.append_assoc]
    exact this.append_left _
  | initReserve x ring free hx hlive hring hfree =>
    refine h.inits ?_
    have := perm_areas_of_single (filter_tag hr.2.1 hx) (fun y => { y with ring := some ring }) (fun r => ringAreas r.ring)
    simp only [decide_eq_true_eq, hring] at this
    rw [← hfree]
    refine (List.Perm.append_left _ this).trans ?_
    rw [← List.append_assoc]
    exact List.perm_append_comm.append_right _
  | initDrop x hx hd =>
    refine h.inits (free := t.initFree) ?_
    have hn : x.ring = none := hd.elim id (hh.1 x hx)
    have := perm_areas_of_drop (filter_tag hr.2.1 hx) (fun r => ringAreas r.ring)
    simp only [hn] at this
    refine List.Perm.append_left _ ?_
    rw [initAreas, initAreas]
    simpa [ringAreas] using this
  | initAdd r hm hn hl hd =>
    refine h.inits (free := t.initFree) ?_
    rw [initAreas, initAreas, List.flatMap_append, List.flatMap_singleton, hd]
    simp [ringAreas]
  | targetEdit f hf =>
    refine h.targets (free := t.servFree) ?_
    rw [targetAreas, targetAreas, flatMap_map_congr (fun x hx => (hf x hx).areas)]
  | targetOne i x f hx hk hs =>
    refine h.targets (free := t.servFree) ?_
    rw [targetAreas, targetAreas, flatMap_map_congr]
    intro y hy
    by_cases hc : y.keyed i.peer i.tag = true
    · have := mem_of_filter_eq (filter_keyed hr.2.2.2.1 hx hk) hy hc
      subst this
      simp only [if_pos hc]; exact hs.areas
    · simp only [if_neg hc]
  | targetRelease i x f hx hk hf =>
    refine h.targets ?_
    have := perm_areas_of_single (filter_keyed hr.2.2.2.1 hx hk) f (fun r => ringAreas r.ring)
    simp only [(hf x).2.1] at this
    rw [List.append_assoc]
    exact this.append_left _
  | targetSettle i f hf =>
    refine h.targets (free := t.servFree) ?_
    rw [targetAreas, targetAreas, flatMap_map_congr]
    intro y hy
    by_cases hc : y.keyed i.peer i.tag = true
    · simp only [if_pos hc, (hf y).2.1]
    · simp only [if_neg hc]
  | targetActivate i x ring free f hx hk hq hf hfree =>
    refine h.targets ?_
    have hn : x.ring = none := hh.2.1 x hx hq
    have := perm_areas_of_single (filter_keyed hr.2.2.2.1 hx hk) f (fun r => ringAreas r.ring)
    simp only [(hf x).2.1, hn] at this
    rw [← hfree]
    refine (List.Perm.append_left _ this).trans ?_
    rw [← List.append_assoc]
    exact List.perm_append_comm.append_right _
  | targetDrop i x hx hk =>
    refine h.targets ?_
    rw [List.append_assoc]
    exact (perm_areas_of_drop (filter_keyed hr.2.2.2.1 hx hk) (fun r => ringAreas r.ring)).append_left _
  | targetDetach i f hf =>
    refine h.targets (free := t.servFree) ?_
    rw [targetAreas, targetAreas, flatMap_map_congr]
    intro y hy
    by_cases hc : y.keyed i.peer i.tag = true
    · simp only [if_pos hc, (hf y).2.1]
    · simp only [if_neg hc]
  | targetAdd i r hm hn hl hk hring hd =>
    refine h.targets (free := t.servFree) ?_
    rw [targetAreas, targetAreas, List.flatMap_append, List.flatMap_singleton, hring]
    simp [ringAreas]
  | settleQueued f hf =>
    refine h.targets (free := t.servFree) ?_
    rw [targetAreas, targetAreas, flatMap_map_congr]
    intro y hy
    by_cases hc : y.state = .queued
    · simp only [if_pos hc, (hf y).2.1, hh.2.1 y hy hc]
    · simp only [if_neg hc]
  | runOutEnd =>
    refine h.targets ?_
    rw [List.append_assoc]
    refine List.Perm.append_left _ ?_
    have h1 := flatMap_split t.targets TargetRec.inRunOut (fun r => ringAreas r.ring)
    refine List.Perm.trans (List.Perm.append_left _ ?_) h1.symm
    rw [targetAreas]
    have hcongr : ∀ l : List TargetRec,
        ((l.filter (fun r => decide (r.state ≠ .detached))).map (fun r => if r.inRunOut then { r with ring := none } else r)).flatMap
          (fun r => ringAreas r.ring) = (l.filter (fun y => !y.inRunOut)).flatMap (fun r => ringAreas r.ring) := by
      intro l
      induction l with
      | nil => rfl
      | cons a l ih =>
        by_cases hd : a.state = .detached
        · have hi : a.inRunOut = true := by simp [TargetRec.inRunOut, hd]
          rw [List.filter_cons_of_neg (by simp [hd]), List.filter_cons_of_neg (by simp [hi])]
          exact ih
        · rw [List.filter_cons_of_pos (by simp [hd]), List.map_cons, List.flatMap_cons, ih]
          by_cases hi : a.inRunOut = true
          · rw [List.filter_cons_of_neg (by simp [hi]), if_pos hi]; rfl
          · rw [List.filter_cons_of_pos (by simpa using hi), if_neg hi, List.flatMap_cons]
    rw [hcongr]

theorem Move.areasSafe {t u : Track} (m : Move t u) (h : t.areasSafe) : u.areasSafe :=
  ⟨m.recordsLimited h.1, m.ringsHeld h.1 h.2.1, m.areasAccounted h.1 h.2.1 h.2.2⟩

/-! ### Any number of changes -/

theorem Moves.keeps {P : Track → Prop} (hP : ∀ {t u}, Move t u → P t → P u) {t u : Track} (m : Moves t u) (h : P t) : P u := by
  induction m with
  | refl => exact h
  | tail _ m ih => exact hP m ih

theorem Moves.ramCanonical {t u : Track} (m : Moves t u) : t.ramCanonical → u.ramCanonical := m.keeps Move.ramCanonical
theorem Moves.queuesBounded {t u : Track} (m : Moves t u) : t.queuesBounded → u.queuesBounded := m.keeps Move.queuesBounded
theorem Moves.linkSound {t u : Track} (m : Moves t u) : t.linkSound → u.linkSound := m.keeps Move.linkSound
theorem Moves.rosterSound {t u : Track} (m : Moves t u) : t.rosterSound → u.rosterSound := m.keeps Move.rosterSound
theorem Moves.recordsLimited {t u : Track} (m : Moves t u) : t.recordsLimited → u.recordsLimited := m.keeps Move.recordsLimited
theorem Moves.areasSafe {t u : Track} (m : Moves t u) : t.areasSafe → u.areasSafe := m.keeps Move.areasSafe

/-! ### The invariants of a state by its tracked part -/

theorem State.ramCanonical_iff (s : State) : s.ramCanonical ↔ s.track.ramCanonical := Iff.rfl
theorem State.queuesBounded_iff (s : State) : s.queuesBounded ↔ s.track.queuesBounded := Iff.rfl
theorem State.linkSound_iff (s : State) : s.linkSound ↔ s.track.linkSound := Iff.rfl
theorem State.rosterSound_iff (s : State) : s.rosterSound ↔ s.track.rosterSound := Iff.rfl
theorem State.recordsLimited_iff (s : State) : s.recordsLimited ↔ s.track.recordsLimited := Iff.rfl

theorem State.areasAccounted_iff (s : State) : s.areasAccounted ↔ s.track.areasAccounted := by
  unfold State.areasAccounted Track.areasAccounted State.track
  cases s.host.config with
  | some c => rfl
  | none =>
    simp only [poolsOf, List.perm_nil, List.append_eq_nil_iff, and_assoc]
    rfl

theorem State.areasSafe_iff (s : State) : s.areasSafe ↔ s.track.areasSafe :=
  and_congr (State.recordsLimited_iff s) (and_congr Iff.rfl (State.areasAccounted_iff s))

end Sys2Proof.Machine
end

