-- ==== Sys2Proof/Laws/Moves.lean ====
section
/-! SUPPORT. That every operation of the machine is a sequence of the primitive changes of Track.lean: one lemma per
operation, cited in place of its definition. -/

namespace Sys2Proof.Machine

/-! ### Shared operations -/

theorem Moves.of_eq {t u : Track} (h : u = t) : Moves t u := h ▸ Relation.ReflTransGen.refl

/-- Both branches of a choice. -/
theorem Moves.ite {c : Prop} [Decidable c] {t : Track} {a b : State} (h1 : c → Moves t a.track) (h2 : ¬ c → Moves t b.track) :
    Moves t (if c then a else b).track := by
  by_cases h : c
  · rw [if_pos h]; exact h1 h
  · rw [if_neg h]; exact h2 h

theorem Vector.get_set_station {α : Type} (v : Vector α 16) (n m : Station) (e : α) :
    (v.set n e)[m] = if n = m then e else v[m] := by
  simp only [Fin.getElem_fin, Vector.getElem_set, Fin.ext_iff]

@[simp] theorem State.setFlag_track (s : State) (f : Flag) : (s.setFlag f).track = s.track := rfl
@[simp] theorem State.hostFault_track (s : State) (c : FaultCause) : (s.hostFault c).track = s.track := rfl
@[simp] theorem State.setChan_track (s : State) (c : Channel) (x : Chan) : (s.setChan c x).track = s.track := by cases c <;> rfl
@[simp] theorem State.setHolder_track (s : State) (h : Option Station) : (s.setHolder h).track = s.track := rfl
@[simp] theorem State.markActivity_track (s : State) : s.markActivity.track = s.track := rfl

theorem State.setInit_moves (s : State) {x r : InitRec} (hx : x ∈ s.exch.inits) (h : InitRec.Same x r) :
    Moves s.track (s.setInit r).track := by
  have := Move.initOne s.track x (fun _ => r) hx h
  rw [← h.tag] at this
  exact .single this

/-- One record changed by its tag. -/
theorem State.mapInit_one (s : State) {x : InitRec} (f : InitRec → InitRec) (hx : x ∈ s.exch.inits) (h : InitRec.Same x (f x)) :
    Moves s.track (s.mapInit x.tag f).track := .single (Move.initOne s.track x f hx h)

theorem State.mapInit_moves (s : State) (t : Tag) (f : InitRec → InitRec)
    (h : ∀ x ∈ s.exch.inits, x.tag = t → InitRec.Same x (f x)) : Moves s.track (s.mapInit t f).track := by
  refine .single (Move.initEdit s.track _ (fun x hx => ?_))
  by_cases hc : x.tag = t
  · rw [if_pos hc]; exact h x hx hc
  · rw [if_neg hc]; exact InitRec.Same.refl x

theorem State.mapTarget_moves (s : State) (p : Station) (t : Tag) (f : TargetRec → TargetRec)
    (h : ∀ x ∈ s.exch.targets, TargetRec.Same x (f x)) : Moves s.track (s.mapTarget p t f).track := by
  refine .single (Move.targetEdit s.track _ (fun x hx => ?_))
  by_cases hc : x.keyed p t = true
  · rw [if_pos hc]; exact h x hx
  · rw [if_neg hc]; exact TargetRec.Same.refl x

theorem State.mapServed_moves (s : State) (f : TargetRec → TargetRec) (h : ∀ x ∈ s.exch.targets, TargetRec.Same x (f x)) :
    Moves s.track (s.mapServed f).track := by
  refine .single (Move.targetEdit s.track _ (fun x hx => ?_))
  by_cases hc : s.isServed x = true
  · rw [if_pos hc]; exact h x hx
  · rw [if_neg hc]; exact TargetRec.Same.refl x

/-- The record on a key replaced by one that is the same in all that bears on an invariant. -/
theorem State.replaceTarget_moves (s : State) {i : ExchId} {x r : TargetRec} (hx : x ∈ s.exch.targets) (hk : x.id = some i)
    (h : TargetRec.Same x r) : Moves s.track (s.mapTarget i.peer i.tag (fun _ => r)).track :=
  .single (Move.targetOne s.track i x (fun _ => r) hx hk h)

theorem State.itemsAfter_length (s : State) (i : Item) (o : Origin) :
    (s.itemsAfter i o).length ≤ 32 ∨ (s.itemsAfter i o).length ≤ s.sched.items.length := by
  unfold State.itemsAfter
  split
  · exact Or.inr (Nat.le_refl _)
  · split
    · next h => left; rw [List.length_append]; simp only [Limit.items] at h; simp; omega
    · exact Or.inr (Nat.le_refl _)

/-- A place where an item may be offered: the station is MEMBER, or a record stands. -/
def State.mayOffer (s : State) : Prop := s.member.link = .member ∨ s.exch.inits ≠ [] ∨ s.exch.targets ≠ []

theorem State.offer_moves (s : State) (i : Item) (o : Origin) (h : s.mayOffer) : Moves s.track (s.offer i o).track :=
  .single (Move.items s.track _ ((s.itemsAfter_length i o).elim (fun hl => Or.inr ⟨hl, h⟩) Or.inl))

theorem State.offerOrphan_moves (s : State) (i : Item) (hm : s.member.link = .member) :
    Moves s.track (s.offerOrphan i).track :=
  Moves.ite (fun _ => .refl) (fun _ => s.offer_moves i _ (Or.inl hm))

theorem State.initRec_mem {s : State} {t : Tag} {r : InitRec} (h : s.initRec t = some r) : r ∈ s.exch.inits ∧ r.tag = t :=
  ⟨List.mem_of_find?_eq_some h, by simpa using List.find?_some h⟩

theorem State.targetRec_mem {s : State} {p : Station} {t : Tag} {r : TargetRec} (h : s.targetRec p t = some r) :
    r ∈ s.exch.targets ∧ r.keyed p t = true :=
  ⟨List.mem_of_find?_eq_some h, by simpa using List.find?_some h⟩

theorem State.offerInit_moves (s : State) (t : Tag) (k : ItemKind) : Moves s.track (s.offerInit t k).track := by
  unfold State.offerInit
  split
  · next r hr =>
    dsimp only
    split
    · exact s.offer_moves _ _ (Or.inr (Or.inl (List.ne_nil_of_mem (State.initRec_mem hr).1)))
    · exact s.mapInit_moves t _ (fun x _ _ => ⟨rfl, rfl, fun h => h, rfl⟩)
  · exact .refl

theorem State.offerTarget_moves (s : State) (p : Station) (t : Tag) (k : ItemKind) : Moves s.track (s.offerTarget p t k).track := by
  unfold State.offerTarget
  split
  · next r hr =>
    split
    · dsimp only
      split
      · exact s.offer_moves _ _ (Or.inr (Or.inr (List.ne_nil_of_mem (State.targetRec_mem hr).1)))
      · exact s.mapTarget_moves p t _ (fun x _ => ⟨rfl, rfl, fun h => h, fun h => h, Iff.rfl⟩)
    · exact .refl
  · exact .refl

theorem State.fixRecord_moves (s : State) (i : ExchId) (r : Role) (n : Nat) : Moves s.track (s.fixRecord i r n).track :=
  .single (Move.items s.track _ (Or.inl (by
    show (fixItems s.sched.items i r n).length ≤ s.sched.items.length
    unfold fixItems; rw [List.length_map])))

theorem RosterEntry.absent_sound : RosterEntry.absent.sound := ⟨Nat.zero_le _, fun _ => ⟨rfl, rfl⟩⟩

/-- A roster stays sound when a sound entry takes the place of one. -/
theorem roster_set_sound {v : Vector RosterEntry 16} (h : ∀ n : Station, v[n].sound) (m : Station) {e : RosterEntry} (he : e.sound) :
    ∀ n : Station, (v.set m e)[n].sound := by
  intro n
  rw [Vector.get_set_station]
  split
  · exact he
  · exact h n

theorem State.withPort_moves (s : State) (p : Port) : Moves s.track (s.withPort p).track := by
  refine .single (Move.roster s.track _ (fun h => roster_set_sound h s.own ?_))
  have := h s.own
  exact ⟨this.1, fun hp => ⟨(this.2 hp).1, by rw [show s.member.roster[s.own].present = false from hp]; rfl⟩⟩

theorem State.pushOutcome_moves (s : State) (o : OutcomeRec) (h : s.host.outcomes.length < 16) :
    Moves s.track (s.pushOutcome o).track :=
  .single (Move.outcomes s.track _ (Or.inl (by
    have : s.track.outcomes.length < 16 := h
    show (s.host.outcomes ++ [o]).length ≤ 16
    rw [List.length_append, List.length_singleton]; omega)))

theorem State.setRequests_moves (s : State) (l : List Request) (h : l.length ≤ s.host.requests.length) :
    Moves s.track (s.setRequests l).track := .single (Move.requests s.track l (Or.inr h))

theorem State.initRec_none {s : State} {t : Tag} (h : s.initRec t = none) : ∀ y ∈ s.exch.inits, y.tag ≠ t := by
  intro y hy
  have := (List.find?_eq_none.1 h) y hy
  simpa using this

theorem State.targetRec_none {s : State} {p : Station} {t : Tag} (h : s.targetRec p t = none) :
    ∀ y ∈ s.exch.targets, y.keyed p t = false := by
  intro y hy
  have := (List.find?_eq_none.1 h) y hy
  simpa using this

theorem State.activeRec_mem {s : State} {r : TargetRec} (h : s.activeRec = some r) : r ∈ s.exch.targets ∧ r.state = .active :=
  ⟨List.mem_of_find?_eq_some h, by simpa using List.find?_some h⟩

theorem State.servedRec_mem {s : State} {r : TargetRec} (h : s.servedRec = some r) : r ∈ s.exch.targets :=
  List.mem_of_find?_eq_some h

theorem State.channelHead_mem {s : State} {c : Channel} {r : InitRec} (h : s.channelHead c = some r) :
    r ∈ s.exch.inits ∧ r.inChannel c = true := by
  have h : (s.exch.inits.filter (fun r => r.inChannel c)).head? = some r := h
  have := List.mem_filter.1 (List.mem_of_mem_head? (by rw [h]; rfl))
  exact this

theorem InitRec.live_of_inChannel {r : InitRec} {c : Channel} (h : r.inChannel c = true) : r.live = true := by
  unfold InitRec.inChannel at h
  unfold InitRec.live
  cases hs : r.state <;> simp [hs] at h ⊢

theorem reserveRing_some {free : List AreaNo} {k : Nat} {ring : Ring} {rest : List AreaNo}
    (h : reserveRing free k = some (ring, rest)) : ring.areas ++ rest = free := by
  unfold reserveRing at h
  split at h
  · cases h
    rw [Ring.areas, newRing, List.map_map]
    have : (List.take k free).map (Slot.area ∘ fun a => ⟨a, .empty⟩) = List.take k free := List.map_id _
    rw [this, List.take_append_drop]
  · cases h

/-- Slots that change their states only leave the areas of a ring. -/
theorem Ring.areas_map {r : Ring} {f : Slot → Slot} (h : ∀ x, (f x).area = x.area) : Ring.areas (r.map f) = Ring.areas r := by
  rw [Ring.areas, Ring.areas, List.map_map]
  exact List.map_congr_left (fun x _ => h x)

theorem Ring.setState_areas (r : Ring) (b : Nat) (st : SlotState) : (r.setState b st).areas = r.areas := by
  unfold Ring.setState Ring.areas
  refine List.ext_getElem (by simp) (fun i h1 h2 => ?_)
  rw [List.getElem_map, List.getElem_map, List.getElem_modify]
  split <;> rfl

theorem Ring.passBase_areas (r : Ring) (lo hi : Nat) : (r.passBase lo hi).areas = r.areas := by
  refine Ring.areas_map (fun x => ?_)
  split
  · split <;> rfl
  · rfl

theorem Ring.dropFull_areas (r : Ring) : r.dropFull.areas = r.areas := by
  refine Ring.areas_map (fun x => ?_)
  split <;> rfl

theorem Ring.cutTransfers_areas (r : Ring) : r.cutTransfers.areas = r.areas := by
  refine Ring.areas_map (fun x => ?_)
  split <;> rfl

/-- A held ring whose slots change their states. -/
theorem ringAreas_map {f : Ring → Ring} (h : ∀ g, (f g).areas = g.areas) (r : Option Ring) : ringAreas (r.map f) = ringAreas r := by
  cases r with
  | none => rfl
  | some g => exact h g

/-! ### The initiator path -/

/-- The initiator records changed one by one, each keeping its tag and whether it is live. -/
def InitsEdited (s u : State) : Prop :=
  ∃ f : InitRec → InitRec, (∀ x, (f x).tag = x.tag ∧ (f x).live = x.live) ∧ u.exch.inits = s.exch.inits.map f

theorem InitsEdited.refl (s : State) : InitsEdited s s := ⟨id, fun _ => ⟨rfl, rfl⟩, (List.map_id _).symm⟩

theorem InitsEdited.of_eq {s u : State} (h : u.exch.inits = s.exch.inits) : InitsEdited s u :=
  ⟨id, fun _ => ⟨rfl, rfl⟩, by rw [h, List.map_id]⟩

theorem InitsEdited.trans {s u v : State} (h : InitsEdited s u) (k : InitsEdited u v) : InitsEdited s v := by
  obtain ⟨f, hf, hu⟩ := h
  obtain ⟨g, hg, hv⟩ := k
  exact ⟨g ∘ f, fun x => ⟨(hg _).1.trans (hf x).1, (hg _).2.trans (hf x).2⟩, by rw [hv, hu, List.map_map]⟩

theorem State.mapInit_edited (s : State) (t : Tag) (f : InitRec → InitRec) (h : ∀ x, (f x).tag = x.tag ∧ (f x).live = x.live) :
    InitsEdited s (s.mapInit t f) := by
  refine ⟨_, fun x => ?_, rfl⟩
  by_cases hc : x.tag = t
  · rw [if_pos hc]; exact h x
  · rw [if_neg hc]; exact ⟨rfl, rfl⟩

theorem State.offerInit_edited (s : State) (t : Tag) (k : ItemKind) : InitsEdited s (s.offerInit t k) := by
  unfold State.offerInit
  split
  · dsimp only
    split
    · exact .of_eq rfl
    · exact s.mapInit_edited t _ (fun x => ⟨rfl, rfl⟩)
  · exact .refl s

theorem State.becomeHead_edited (s : State) (c : Channel) : InitsEdited s (s.becomeHead c) := by
  unfold State.becomeHead
  split
  · split
    · exact .refl s
    · split
      · next r _ _ _ ring free _ =>
        dsimp only
        have h : InitsEdited s (State.mapInit { s with buf := { s.buf with initFree := free } } r.tag
            (fun x => { x with ring := some ring })) :=
          (InitsEdited.of_eq rfl).trans (State.mapInit_edited _ r.tag _ (fun x => ⟨rfl, rfl⟩))
        split
        · exact h.trans (State.offerInit_edited _ _ _)
        · exact h.trans (State.offerInit_edited _ _ _)
        · exact h
      · exact .refl s
  · exact .refl s

theorem State.becomeHead_moves (s : State) (c : Channel) : Moves s.track (s.becomeHead c).track := by
  unfold State.becomeHead
  split
  · next r hr =>
    split
    · exact .refl
    · next hring =>
      split
      · next ring free hres =>
        dsimp only
        have hm := State.channelHead_mem hr
        have h : Moves s.track (State.mapInit { s with buf := { s.buf with initFree := free } } r.tag
            (fun x => { x with ring := some ring })).track :=
          .single (Move.initReserve s.track r ring free hm.1 (InitRec.live_of_inChannel hm.2)
            (by simpa using hring) (reserveRing_some hres))
        split
        · exact h.trans (State.offerInit_moves _ _ _)
        · exact h.trans (State.offerInit_moves _ _ _)
        · exact h
      · exact .refl
  · exact .refl

@[simp] theorem State.recordDeparture_track (s : State) (c : Channel) (k : Departure) (l : Label) :
    (s.recordDeparture c k l).track = s.track := by
  unfold State.recordDeparture
  rw [State.setFlag_track, State.setChan_track]

@[simp] theorem State.recordDeparture_inits (s : State) (c : Channel) (k : Departure) (l : Label) :
    (s.recordDeparture c k l).exch = s.exch := by
  unfold State.recordDeparture
  simp

theorem State.leaveChannel_moves (s : State) (r : InitRec) (k : Departure) (f : InitRec → InitRec) (hr : r ∈ s.exch.inits)
    (hf : ∀ y, (f y).tag = y.tag ∧ (f y).ring = y.ring) : Moves s.track (s.leaveChannel r k f).track := by
  unfold State.leaveChannel
  dsimp only
  have h : Moves s.track (State.mapInit { s with buf := { s.buf with initFree := s.buf.initFree ++ ringAreas r.ring } } r.tag
      (fun x => f { x with ring := none })).track :=
    .single (Move.initRelease s.track r (fun x => f { x with ring := none }) hr (fun y => ⟨(hf _).1, (hf _).2⟩))
  split
  · split
    · refine h.trans ?_
      refine Relation.ReflTransGen.trans (Moves.of_eq ?_) (State.becomeHead_moves _ _)
      exact State.recordDeparture_track _ _ _ _
    · exact h
  · exact h

/-- After a record has left its channel as `f` changes it, what `f` makes of live is what the records of its tag are. -/
theorem State.leaveChannel_dead (s : State) (r : InitRec) (k : Departure) (f : InitRec → InitRec)
    (hf : ∀ y, (f y).tag = y.tag ∧ (f y).live = false) :
    ∀ x ∈ (s.leaveChannel r k f).exch.inits, x.tag = r.tag → x.live = false := by
  have h0 : ∀ u : State, InitsEdited (State.mapInit { s with buf := { s.buf with initFree := s.buf.initFree ++ ringAreas r.ring } }
      r.tag (fun x => f { x with ring := none })) u → ∀ x ∈ u.exch.inits, x.tag = r.tag → x.live = false := by
    rintro u ⟨g, hg, hu⟩ x hx ht
    rw [hu] at hx
    obtain ⟨y, hy, rfl⟩ := List.mem_map.1 hx
    rw [(hg y).2]
    have hy : y ∈ s.exch.inits.map (fun x => if x.tag = r.tag then f { x with ring := none } else x) := hy
    obtain ⟨z, hz, rfl⟩ := List.mem_map.1 hy
    rw [(hg _).1] at ht
    by_cases hc : z.tag = r.tag
    · rw [if_pos hc]; exact (hf _).2
    · rw [if_neg hc] at ht; exact absurd ht hc
  unfold State.leaveChannel
  dsimp only
  split
  · split
    · refine h0 _ (InitsEdited.trans ?_ (State.becomeHead_edited _ _))
      exact .of_eq (by rw [State.recordDeparture_inits])
    · exact h0 _ (.refl _)
  · exact h0 _ (.refl _)

theorem State.freeInit_moves (s : State) (r : InitRec) (hr : ∃ x ∈ s.exch.inits, x.tag = r.tag ∧ (x.ring = none ∨ x.live = false)) :
    Moves s.track (s.freeInit r).track := by
  obtain ⟨x, hx, ht, h⟩ := hr
  unfold State.freeInit
  refine (s.fixRecord_moves ⟨s.own, r.tag, r.serial⟩ .target r.flow.expected).trans ?_
  have := Move.initDrop (s.fixRecord ⟨s.own, r.tag, r.serial⟩ .target r.flow.expected).track x hx h
  rw [ht] at this
  exact .single this

/-- The outcome has entered the queue: the rest of an admission. -/
theorem State.enterQueue_moves (s : State) (r : InitRec) (o : Outcome) (b : Bool)
    (hr : ∃ x ∈ s.exch.inits, x.tag = r.tag ∧ (x.ring = none ∨ x.live = false)) :
    Moves (s.pushOutcome (r.outcomeRec o)).track (s.enterQueue r o b).track := by
  unfold State.enterQueue
  dsimp only
  refine Moves.ite (fun _ => ?_) (fun _ => State.freeInit_moves (s.pushOutcome (r.outcomeRec o)) r hr)
  obtain ⟨x, hx, ht, h⟩ := hr
  have hlen := State.itemsAfter_length ((s.pushOutcome (r.outcomeRec o)).freeInit r) (r.item s.own .close) .fixed
  have h1 := Move.items (s.pushOutcome (r.outcomeRec o)).track
    (State.itemsAfter ((s.pushOutcome (r.outcomeRec o)).freeInit r) (r.item s.own .close) .fixed)
    (hlen.elim (fun h => Or.inr ⟨h, Or.inr (Or.inl (List.ne_nil_of_mem hx))⟩) (fun h => Or.inl (by
      refine Nat.le_trans h ?_
      show (fixItems s.sched.items _ _ _).length ≤ s.sched.items.length
      unfold fixItems; rw [List.length_map])))
  have h2 := Move.initDrop { (s.pushOutcome (r.outcomeRec o)).track with
    items := State.itemsAfter ((s.pushOutcome (r.outcomeRec o)).freeInit r) (r.item s.own .close) .fixed } x hx h
  rw [ht] at h2
  exact (Relation.ReflTransGen.single h1).trans (.single h2)

theorem State.deliver_moves (s : State) (t : Tag) (o : Outcome) (b : Bool)
    (h : ∀ x ∈ s.exch.inits, x.tag = t → x.live = false) : Moves s.track (s.deliver t o b).track := by
  unfold State.deliver
  split
  · next r hr =>
    have hm := State.initRec_mem hr
    split
    · next hlen =>
      exact (s.pushOutcome_moves _ hlen).trans (s.enterQueue_moves r o b ⟨r, hm.1, rfl, Or.inr (h r hm.1 hm.2)⟩)
    · exact .refl
  · exact .refl

theorem State.endInit_moves (s : State) (r : InitRec) (o : Outcome) (c b : Bool) (hr : r ∈ s.exch.inits) :
    Moves s.track (s.endInit r o c b).track := by
  unfold State.endInit
  dsimp only
  have h1 := s.leaveChannel_moves r .aborted
    (fun x => { x with state := .delivering b, lifetime := none, wanted := [], outcome := some o }) hr (fun y => ⟨rfl, rfl⟩)
  have h2 := s.leaveChannel_dead r .aborted
    (fun x => { x with state := .delivering b, lifetime := none, wanted := [], outcome := some o }) (fun y => ⟨rfl, rfl⟩)
  refine h1.trans ?_
  split
  · refine (State.offerInit_moves _ _ _).trans (State.deliver_moves _ _ _ _ ?_)
    obtain ⟨f, hf, hu⟩ := State.offerInit_edited (s.leaveChannel r .aborted
      (fun x => { x with state := .delivering b, lifetime := none, wanted := [], outcome := some o })) r.tag .cancel
    intro x hx ht
    rw [hu] at hx
    obtain ⟨y, hy, rfl⟩ := List.mem_map.1 hx
    rw [(hf y).2]
    exact h2 y hy ((hf y).1.symm.trans ht)
  · exact State.deliver_moves _ _ _ _ h2

theorem State.completeInit_moves (s : State) (r : InitRec) (hr : r ∈ s.exch.inits) : Moves s.track (s.completeInit r).track :=
  s.leaveChannel_moves r _ _ hr (fun _ => ⟨rfl, rfl⟩)

/-- After the entry of the pop's own change, the admission of the oldest record in DELIVERING. -/
theorem State.popped_moves (s : State) (o : OutcomeRec) (rest : List OutcomeRec) (h : s.host.outcomes = o :: rest) :
    Moves s.track (State.admitDelivering { s with host := { s.host with outcomes := rest } }).track := by
  have hpop : Moves s.track ({ s with host := { s.host with outcomes := rest } } : State).track :=
    .single (Move.outcomes s.track rest (Or.inr (by show rest.length ≤ s.host.outcomes.length; rw [h]; simp)))
  unfold State.admitDelivering
  split
  · split
    · next r hr =>
      split
      · next closeOwed oc hst hoc =>
        have hm := State.initRec_mem hr
        refine Relation.ReflTransGen.trans ?_ (State.enterQueue_moves _ r oc closeOwed ⟨r, hm.1, rfl, Or.inr (by simp [InitRec.live, hst])⟩)
        refine .single (Move.outcomes s.track (rest ++ [r.outcomeRec oc]) (Or.inr ?_))
        show (rest ++ [r.outcomeRec oc]).length ≤ s.host.outcomes.length
        rw [h]; simp
      · exact hpop
    · exact hpop
  · exact hpop

theorem State.createInit_moves (s : State) (q : Request) (t : Tag) (hm : s.member.link = .member) (ht : s.initRec t = none) :
    Moves s.track (s.createInit q t).track := by
  unfold State.createInit
  dsimp only
  have h : Moves s.track ({ s with exch := { s.exch with
      inits := s.exch.inits ++ [newInit q t s.exch.serials[t] s.lifetimeUnits]
      lastTag := t
      serials := s.exch.serials.set t (s.exch.serials[t] + 1) } } : State).track :=
    .single (Move.initAdd s.track (newInit q t s.exch.serials[t] s.lifetimeUnits) hm (State.initRec_none ht) rfl rfl)
  split
  · exact (h.trans (State.offerInit_moves _ _ _)).trans (State.becomeHead_moves _ _)
  · exact h.trans (State.offerInit_moves _ _ _)

theorem State.freeTag_free {s : State} {t : Tag} (h : s.freeTag = some t) : s.initRec t = none := by
  have := List.find?_some h
  simpa using this

theorem State.takeHead_moves (s u : State) (h : s.takeHead = some u) : Moves s.track u.track := by
  unfold State.takeHead at h
  split at h
  · next hmem =>
    split at h
    · next q rest t hreq ht =>
      have hlen : rest.length ≤ s.host.requests.length := by rw [hreq]; simp
      split at h
      · cases h
        exact (s.setRequests_moves rest hlen).trans (State.createInit_moves _ _ _ hmem (State.freeTag_free ht))
      · split at h
        · next hout =>
          cases h
          exact (s.setRequests_moves rest hlen).trans (State.pushOutcome_moves _ _ hout)
        · cases h
    · cases h
  · cases h

theorem State.takes_moves (n : Nat) (s : State) : Moves s.track (State.takes n s).track := by
  induction n generalizing s with
  | zero => exact .refl
  | succ n ih =>
    unfold State.takes
    split
    · next u hu => exact (s.takeHead_moves u hu).trans (ih u)
    · exact .refl

theorem State.retake_moves (s : State) : Moves s.track s.retake.track := State.takes_moves _ s

theorem State.retakeIfFreed_moves (s before : State) : Moves s.track (s.retakeIfFreed before).track :=
  Moves.ite (fun _ => s.retake_moves) (fun _ => .refl)

theorem State.endAndTake_moves (s : State) (r : InitRec) (o : Outcome) (c b : Bool) (hr : r ∈ s.exch.inits) :
    Moves s.track (s.endAndTake r o c b).track := (s.endInit_moves r o c b hr).trans (State.retakeIfFreed_moves _ _)

/-- An acceptance, where the record is live. -/
theorem State.accept_moves (s : State) (r : InitRec) (hr : r ∈ s.exch.inits) (hl : r.live = true) :
    Moves s.track (s.accept r).track := by
  unfold State.accept
  dsimp only
  have h : Moves s.track (s.mapInit r.tag (fun x =>
      { x with state := if x.op = .sync then .awaitOutcome else .waiting,
               wanted := x.wanted.filter (fun k => decide (k ≠ .ask)) })).track := by
    refine s.mapInit_one _ hr ⟨rfl, rfl, fun h => h, ?_⟩
    rw [hl]
    simp only [InitRec.live]
    by_cases hs : r.op = .sync
    · simp [hs]
    · simp [hs]
  split
  · exact h.trans (State.offerInit_moves _ _ _)
  · exact h

theorem State.setInit_mem {s : State} {x r : InitRec} (hx : x ∈ s.exch.inits) (ht : x.tag = r.tag) :
    r ∈ (s.setInit r).exch.inits :=
  List.mem_map.2 ⟨x, hx, if_pos ht⟩

theorem State.rewindLimitInit_moves (s : State) (r : InitRec) (hr : r ∈ s.exch.inits) :
    Moves s.track (s.rewindLimitInit r).track := s.endAndTake_moves r _ _ _ hr

theorem State.replyArrives_moves (s : State) (r : InitRec) (w : Option Reason) (hr : r ∈ s.exch.inits) :
    Moves s.track (s.replyArrives r w).track := by
  unfold State.replyArrives
  split
  · next ha =>
    split
    · refine s.accept_moves r hr ?_
      unfold InitRec.asking at ha
      unfold InitRec.live
      cases hs : r.state <;> simp [hs] at ha ⊢
    · exact s.endAndTake_moves r _ _ _ hr
  · exact .refl

theorem State.creditAtInit_moves (s : State) (t : Tag) (a b : Nat) : Moves s.track (s.creditAtInit t a b).track := by
  unfold State.creditAtInit
  split
  · next r hr =>
    have hm := (State.initRec_mem hr).1
    split
    · next c hc =>
      rcases hcr : c.credit r.count a b with ⟨c', limitHit⟩
      dsimp only
      have hs : InitRec.Same r { r with
          flow := .sender c'
          ring := r.ring.map (fun g => g.passBase c.base c'.base)
          state := if r.state = .waiting ∧ 0 < c'.limit then .moving else r.state } := by
        refine ⟨rfl, ringAreas_map (fun g => g.passBase_areas _ _) _, fun h => ?_, ?_⟩
        · simp [h]
        · simp only [InitRec.live]
          by_cases hw : r.state = .waiting ∧ 0 < c'.limit
          · rw [if_pos hw, hw.1]
          · rw [if_neg hw]
      have h1 := s.setInit_moves hm hs
      have h2 := State.setInit_mem hm hs.tag.symm
      refine Moves.ite (fun _ => h1.trans (State.rewindLimitInit_moves _ _ h2)) (fun _ => ?_)
      exact Moves.ite (fun _ => h1.trans (State.completeInit_moves _ _ h2)) (fun _ => h1)
    · exact .refl
  · exact .refl

theorem State.acceptIfAsking_moves (s : State) (r : InitRec) (hr : r ∈ s.exch.inits) (hl : r.live = true) :
    Moves s.track (s.acceptIfAsking r).track := Moves.ite (fun _ => s.accept_moves r hr hl) (fun _ => .refl)

theorem State.creditArrivesInit_moves (s : State) (r : InitRec) (a b : Nat) (hr : r ∈ s.exch.inits) :
    Moves s.track (s.creditArrivesInit r a b).track := by
  unfold State.creditArrivesInit
  refine Moves.ite (fun h => Moves.ite (fun _ => ?_) (fun _ => s.acceptIfAsking_moves r hr h)) (fun _ => .refl)
  exact (s.acceptIfAsking_moves r hr h).trans (State.creditAtInit_moves _ _ _ _)

theorem State.writeRam_moves (s : State) (m : Memory) (h : s.buf.ram.wf = true → m.wf = true) :
    Moves s.track ({ s with buf := { s.buf with ram := m } } : State).track := .single (Move.ram s.track m h)

theorem State.dataAtInit_moves (s : State) (t : Tag) (d : DataBlock) : Moves s.track (s.dataAtInit t d).track := by
  unfold State.dataAtInit
  split
  · next r hr =>
    have hm := (State.initRec_mem hr).1
    split
    · next c ring hc hring =>
      split
      · next slot hslot =>
        split
        · dsimp only
          have h1 := s.writeRam_moves (s.buf.ram.writeBlock slot.area d.bytes) (Memory.writeBlock_wf _ _ _)
          refine (h1.trans (State.setInit_moves _ hm ?_)).trans (State.offerInit_moves _ _ _)
          refine ⟨rfl, ?_, fun h => absurd h (by rw [hring]; exact Option.some_ne_none _), ?_⟩
          · rw [hring]; exact Ring.setState_areas _ _ _
          · simp only [InitRec.live]
            by_cases hw : r.state = .waiting
            · rw [if_pos hw, hw]
            · rw [if_neg hw]
        · exact State.offerInit_moves _ _ _
      · exact State.offerInit_moves _ _ _
    · exact State.offerInit_moves _ _ _
  · exact .refl

theorem State.dataArrivesInit_moves (s : State) (r : InitRec) (d : DataBlock) (hr : r ∈ s.exch.inits) :
    Moves s.track (s.dataArrivesInit r d).track := by
  unfold State.dataArrivesInit
  refine Moves.ite (fun h => Moves.ite (fun _ => ?_) (fun _ => s.acceptIfAsking_moves r hr h)) (fun _ => .refl)
  exact (s.acceptIfAsking_moves r hr h).trans (State.dataAtInit_moves _ _ _)

theorem State.outcomeArrives_moves (s : State) (r : InitRec) (c : OutcomeCode) (n : Nat) (a b : Word) (hr : r ∈ s.exch.inits) :
    Moves s.track (s.outcomeArrives r c n a b).track := by
  unfold State.outcomeArrives
  split
  · exact s.endAndTake_moves r _ _ _ hr
  · exact .refl

theorem State.matchInit_mem {s : State} {p : Station} {t : Tag} {n : Serial} {r : InitRec} (h : s.matchInit p t n = some r) :
    r ∈ s.exch.inits := by
  unfold State.matchInit at h
  exact (State.initRec_mem (Option.filter_eq_some_iff.1 h).1).1

theorem State.answerSender_moves (s : State) (p : Station) (t : Tag) (n : Serial) (b : ItemBody) (hm : s.member.link = .member) :
    Moves s.track (s.answerSender p t n b).track := s.offerOrphan_moves _ hm

theorem State.dataToInit_moves (s : State) (p : Station) (d : DataBlock) (hm : s.member.link = .member) :
    Moves s.track (s.dataToInit p d).track := by
  unfold State.dataToInit
  split
  · next r hr => exact s.dataArrivesInit_moves r d (State.matchInit_mem hr)
  · exact s.answerSender_moves _ _ _ _ hm

theorem State.itemToInit_moves (s : State) (p : Station) (i : Item) (hm : s.member.link = .member) :
    Moves s.track (s.itemToInit p i).track := by
  unfold State.itemToInit
  split
  · next r _ hr _ => exact s.replyArrives_moves r _ (State.matchInit_mem hr)
  · next r _ _ _ hr _ => exact s.creditArrivesInit_moves r _ _ (State.matchInit_mem hr)
  · next r _ _ _ _ hr _ => exact s.outcomeArrives_moves r _ _ _ _ (State.matchInit_mem hr)
  · exact s.answerSender_moves _ _ _ _ hm
  · exact s.answerSender_moves _ _ _ _ hm
  · exact s.answerSender_moves _ _ _ _ hm
  · exact .refl

end Sys2Proof.Machine
end

