-- ==== Sys2Proof/Laws/PortMoves.lean ====
section
/-! SUPPORT. The operations on target records and on the module port as sequences of the primitive changes of
Track.lean. -/

namespace Sys2Proof.Machine

/-- A target record of an exchange holds a ring of these areas. -/
def State.holds (s : State) (i : ExchId) (l : List AreaNo) : Prop :=
  ∃ x ∈ s.exch.targets, x.id = some i ∧ ringAreas x.ring = l

theorem State.holds_of_mem {s : State} {r : TargetRec} (h : r ∈ s.exch.targets) (i : ExchId) (hi : r.id = some i) :
    s.holds i (ringAreas r.ring) := ⟨r, h, hi, rfl⟩

/-- The target records changed one by one, each keeping its identity and its areas. -/
def TargetsEdited (s u : State) : Prop :=
  ∃ f : TargetRec → TargetRec, (∀ x, (f x).id = x.id ∧ ringAreas (f x).ring = ringAreas x.ring) ∧
    u.exch.targets = s.exch.targets.map f

theorem TargetsEdited.of_eq {s u : State} (h : u.exch.targets = s.exch.targets) : TargetsEdited s u :=
  ⟨id, fun _ => ⟨rfl, rfl⟩, by rw [h, List.map_id]⟩

theorem TargetsEdited.trans {s u v : State} (h : TargetsEdited s u) (k : TargetsEdited u v) : TargetsEdited s v := by
  obtain ⟨f, hf, hu⟩ := h
  obtain ⟨g, hg, hv⟩ := k
  exact ⟨g ∘ f, fun x => ⟨(hg _).1.trans (hf x).1, (hg _).2.trans (hf x).2⟩, by rw [hv, hu, List.map_map]⟩

theorem TargetsEdited.holds {s u : State} (h : TargetsEdited s u) {i : ExchId} {l : List AreaNo} (hs : s.holds i l) : u.holds i l := by
  obtain ⟨f, hf, hu⟩ := h
  obtain ⟨x, hx, hi, hl⟩ := hs
  exact ⟨f x, by rw [hu]; exact List.mem_map_of_mem hx, (hf x).1.trans hi, (hf x).2.trans hl⟩

theorem State.mapServed_edited (s : State) (f : TargetRec → TargetRec)
    (h : ∀ x, (f x).id = x.id ∧ ringAreas (f x).ring = ringAreas x.ring) : TargetsEdited s (s.mapServed f) := by
  refine ⟨_, fun x => ?_, rfl⟩
  by_cases hc : s.isServed x = true
  · rw [if_pos hc]; exact h x
  · rw [if_neg hc]; exact ⟨rfl, rfl⟩

/-! ### Target records -/

theorem State.settle_moves (s : State) (r : TargetRec) (o : Outcome) (keep : Bool)
    (h : keep = false → ∀ i, r.id = some i → s.holds i (ringAreas r.ring)) : Moves s.track (s.settle r o keep).track := by
  unfold State.settle
  split
  · next i hi =>
    cases keep with
    | false =>
      obtain ⟨x, hx, hxi, hl⟩ := h rfl i hi
      simp only [Bool.false_eq_true, if_false]
      have := Move.targetRelease s.track i x (fun y => y.settled o false) hx hxi (fun y => ⟨rfl, rfl, by simp [TargetRec.settled]⟩)
      rw [hl] at this
      exact .single this
    | true =>
      exact .single (Move.targetSettle s.track i (fun y => y.settled o true)
        (fun y => ⟨rfl, rfl, by simp [TargetRec.settled], by simp [TargetRec.settled]⟩))
  · exact .refl

theorem State.freeTarget_moves (s : State) (r : TargetRec) (h : ∀ i, r.id = some i → s.holds i (ringAreas r.ring)) :
    Moves s.track (s.freeTarget r).track := by
  unfold State.freeTarget
  split
  · next i hi =>
    obtain ⟨x, hx, hxi, hl⟩ := h i hi
    have h1 := s.fixRecord_moves i .initiator r.flow.expected
    have := Move.targetDrop (s.fixRecord i .initiator r.flow.expected).track i x hx hxi
    rw [hl] at this
    exact h1.trans (.single this)
  · exact .refl

theorem State.detach_moves (s : State) (r : TargetRec) : Moves s.track (s.detach r).track := by
  unfold State.detach
  split
  · next i hi =>
    exact (s.fixRecord_moves i .initiator r.flow.expected).trans
      (.single (Move.targetDetach (s.fixRecord i .initiator r.flow.expected).track i _ (fun y => ⟨rfl, rfl, rfl⟩)))
  · exact .refl

theorem State.endRunOut_moves (s : State) : Moves s.track s.endRunOut.track := .single (Move.runOutEnd s.track)

/-! ### Entries to states of the port -/

theorem State.enterIdle_moves (s : State) : Moves s.track s.enterIdle.track := s.withPort_moves _

theorem State.mapServedRing_moves (s : State) (f : Ring → Ring) (h : ∀ g, (f g).areas = g.areas) :
    Moves s.track (s.mapServedRing f).track :=
  s.mapServed_moves _ (fun x _ => ⟨rfl, ringAreas_map h _, fun hn => by rw [hn]; rfl, fun h => h, Iff.rfl⟩)

theorem State.mapServedRing_edited (s : State) (f : Ring → Ring) (h : ∀ g, (f g).areas = g.areas) :
    TargetsEdited s (s.mapServedRing f) := s.mapServed_edited _ (fun _ => ⟨rfl, ringAreas_map h _⟩)

theorem State.assertReset_moves (s : State) : Moves s.track s.assertReset.track :=
  (s.mapServedRing_moves _ Ring.cutTransfers_areas).trans (State.withPort_moves _ _)

theorem State.enterResetting_moves (s : State) : Moves s.track s.enterResetting.track := s.assertReset_moves

theorem State.enterResetting_edited (s : State) : TargetsEdited s s.enterResetting :=
  (s.mapServedRing_edited _ Ring.cutTransfers_areas).trans (.of_eq rfl)

theorem State.endScript_moves (s : State) (r : MaintResult) : Moves s.track (s.endScript r).track := s.withPort_moves _

theorem State.beginStep_moves (s : State) (l : List ScriptStep) (i : Nat) : Moves s.track (s.beginStep l i).track := s.withPort_moves _

theorem State.settleQueued_moves (s : State) : Moves s.track s.settleQueued.track :=
  .single (Move.settleQueued s.track (fun r => r.settled ⟨.noModule, 0, true, none⟩ false)
    (fun y => ⟨rfl, rfl, by simp [TargetRec.settled], by simp [TargetRec.settled]⟩))

theorem State.enterFailed_moves (s : State) : Moves s.track s.enterFailed.track := by
  unfold State.enterFailed
  dsimp only
  rw [State.setFlag_track]
  have h := (s.withPort_moves { s.port with state := .failed, access := none, transfer := none, attention := none,
                                            watchdog := none }).trans (State.settleQueued_moves _)
  exact Moves.ite (fun _ => h.trans (State.endScript_moves _ _)) (fun _ => h)

theorem State.startSetup_moves (s : State) (r : TargetRec) : Moves s.track (s.startSetup r).track := s.withPort_moves _

/-! ### The grant -/

theorem State.activate_moves (s : State) (r : TargetRec) (ring : Option Ring) (free : List AreaNo) (hr : r ∈ s.exch.targets)
    (hq : r.state = .queued) (h : ringAreas ring ++ free = s.buf.servFree) : Moves s.track (s.activate r ring free).track := by
  unfold State.activate
  split
  · next i hi =>
    dsimp only
    have h1 : Moves s.track (State.mapTarget { s with buf := { s.buf with servFree := free } } i.peer i.tag (fun x =>
        { x with state := .active, ring := ring, priming := if x.op = .write then some 0 else none })).track :=
      .single (Move.targetActivate s.track i r ring free _ hr hi hq (fun y => ⟨rfl, rfl, by simp, by simp⟩) h)
    refine Moves.ite (fun _ => ?_) (fun _ => h1.trans (State.startSetup_moves _ _))
    exact (h1.trans (State.withPort_moves _ _)).trans (State.offerTarget_moves _ _ _ _)
  · exact .refl

theorem State.grant_moves (s : State) : Moves s.track s.grant.track := by
  unfold State.grant
  refine Moves.ite (fun _ => Moves.ite (fun _ => ?_) (fun _ => ?_)) (fun _ => .refl)
  · split
    · exact (State.withPort_moves _ _).trans (State.beginStep_moves _ _ _)
    · exact .refl
  · split
    · next r l hl =>
      have hm : r ∈ s.exch.targets ∧ r.state = .queued := by
        have : r ∈ s.serviceQueue := by rw [hl]; exact List.mem_cons_self
        have := List.mem_filter.1 this
        exact ⟨this.1, by simpa using this.2⟩
      refine Moves.ite (fun _ => s.activate_moves r none _ hm.1 hm.2 rfl) (fun _ => ?_)
      split
      · next ring free hres => exact s.activate_moves r (some ring) free hm.1 hm.2 (reserveRing_some hres)
      · exact .refl
    · exact .refl

/-! ### The module mover -/

theorem State.beginTransfer_moves (s : State) : Moves s.track s.beginTransfer.track := by
  unfold State.beginTransfer
  split
  · dsimp only
    refine Relation.ReflTransGen.trans (State.mapServed_moves s _ (fun x _ => ?_)) (State.withPort_moves _ _)
    exact ⟨rfl, ringAreas_map (fun g => Ring.setState_areas _ _ _) _, fun hn => by rw [hn]; rfl, fun h => h, Iff.rfl⟩
  · exact .refl

theorem State.waitForTransfer_moves (s : State) : Moves s.track s.waitForTransfer.track := by
  unfold State.waitForTransfer
  dsimp only
  refine Moves.ite (fun _ => Relation.ReflTransGen.trans ?_ (State.withPort_moves _ _))
    (fun _ => Relation.ReflTransGen.trans ?_ (State.withPort_moves _ _))
  · exact s.mapServed_moves _ (fun x _ => ⟨rfl, rfl, fun h => h, fun h => h, Iff.rfl⟩)
  · exact s.mapServed_moves _ (fun x _ => ⟨rfl, rfl, fun h => h, fun h => h, Iff.rfl⟩)

theorem State.moverCheck_moves (s : State) : Moves s.track s.moverCheck.track :=
  Moves.ite (fun _ => s.beginTransfer_moves) (fun _ => Moves.ite (fun _ => s.waitForTransfer_moves) (fun _ => .refl))

theorem State.enterData_moves (s : State) : Moves s.track s.enterData.track :=
  (s.withPort_moves _).trans (State.moverCheck_moves _)

theorem State.enterClosing_moves (s : State) : Moves s.track s.enterClosing.track := s.withPort_moves _

/-! ### Run-out -/

theorem State.startRunOut_moves (s : State) (r : TargetRec) : Moves s.track (s.startRunOut r).track :=
  (s.mapServedRing_moves _ Ring.dropFull_areas).trans (State.withPort_moves _ _)

theorem State.startRunOut_edited (s : State) (r : TargetRec) : TargetsEdited s (s.startRunOut r) :=
  (s.mapServedRing_edited _ Ring.dropFull_areas).trans (.of_eq rfl)

/-- What the stop of service does: primitive changes that leave identities and areas. -/
theorem State.stopServing_moves (s : State) (r : TargetRec) :
    Moves s.track (s.stopServing r).1.track ∧ TargetsEdited s (s.stopServing r).1 := by
  have hop : ∀ p : State × Bool, p = (match r.op with
      | .read => (s.startRunOut r, true)
      | .write => (s.enterResetting, true)
      | .sync => (s.startRunOut r, false)) → Moves s.track p.1.track ∧ TargetsEdited s p.1 := by
    rintro p rfl
    cases r.op
    · exact ⟨s.startRunOut_moves r, s.startRunOut_edited r⟩
    · exact ⟨s.enterResetting_moves, s.enterResetting_edited⟩
    · exact ⟨s.startRunOut_moves r, s.startRunOut_edited r⟩
  unfold State.stopServing
  dsimp only
  split
  · exact ⟨s.enterIdle_moves, .of_eq rfl⟩
  · split
    · exact hop _ rfl
    · exact ⟨s.withPort_moves _, .of_eq rfl⟩
  · exact hop _ rfl
  · exact hop _ rfl
  · exact ⟨.refl, .of_eq rfl⟩

theorem State.continueRunOut_moves (s : State) : Moves s.track s.continueRunOut.track := by
  unfold State.continueRunOut
  split
  · exact s.moverCheck_moves
  · exact .refl

theorem State.endByWatch_moves (s : State) (c : OutcomeCode) : Moves s.track (s.endByWatch c).track := by
  unfold State.endByWatch
  split
  · exact s.enterResetting_moves.trans (State.settle_moves _ _ _ _ (fun h => by cases h))
  · exact .refl

theorem State.idleAndGrant_moves (s : State) : Moves s.track s.idleAndGrant.track := s.enterIdle_moves.trans (State.grant_moves _)

/-! ### Slot accesses -/

theorem State.moduleAttention_moves (s : State) (a b : Word) : Moves s.track (s.moduleAttention a b).track := by
  unfold State.moduleAttention
  refine Moves.ite (fun _ => .refl) (fun _ => ?_)
  split
  · next r hr =>
    refine s.enterResetting_moves.trans (State.settle_moves _ _ _ _ (fun _ i hi => ?_))
    exact s.enterResetting_edited.holds (State.holds_of_mem (State.activeRec_mem hr).1 i hi)
  · exact s.enterResetting_moves

theorem State.setupStepDone_moves (s : State) (i : Nat) : Moves s.track (s.setupStepDone i).track := by
  unfold State.setupStepDone
  split
  · split
    · exact s.withPort_moves _
    · exact Moves.ite (fun _ => s.enterClosing_moves) (fun _ => s.enterData_moves)
  · exact .refl

theorem State.blockDone_moves (s : State) (r : TargetRec) (b : Nat) : Moves s.track (s.blockDone r b).track := by
  unfold State.blockDone
  dsimp only
  have h : Moves s.track (State.mapServed (s.withPort { s.port with transfer := none, access := none, watchdog := some 0 }) (fun x =>
      match x.flow with
      | .receiver c =>
        { x with ring := x.ring.map (fun g => g.setState b .empty), moved := x.moved + 1,
                 flow := .receiver { c with consumed := c.consumed + 1 } }
      | _ =>
        { x with ring := x.ring.map (fun g => g.setState b (if b < x.flow.base then .empty else .full b)),
                 moved := x.moved + 1 })).track := by
    refine Relation.ReflTransGen.trans (s.withPort_moves _) (State.mapServed_moves _ _ (fun x _ => ?_))
    split
    · exact ⟨rfl, ringAreas_map (fun g => Ring.setState_areas _ _ _) _, fun hn => by rw [hn]; rfl, fun h => h, Iff.rfl⟩
    · exact ⟨rfl, ringAreas_map (fun g => Ring.setState_areas _ _ _) _, fun hn => by rw [hn]; rfl, fun h => h, Iff.rfl⟩
  refine Moves.ite (fun _ => Relation.ReflTransGen.trans ?_ (State.moverCheck_moves _))
    (fun _ => Relation.ReflTransGen.trans ?_ (State.enterClosing_moves _))
  · split
    · exact h.trans (State.offerTarget_moves _ _ _ _)
    · exact h
  · split
    · exact h.trans (State.offerTarget_moves _ _ _ _)
    · exact h

theorem State.runOutBlockDone_moves (s : State) (b n c : Nat) : Moves s.track (s.runOutBlockDone b n c).track :=
  ((s.mapServedRing_moves _ (fun _ => Ring.setState_areas _ _ _)).trans (State.withPort_moves _ _)).trans (State.moverCheck_moves _)

theorem State.dataWordDone_moves (s : State) (r : TargetRec) (b : Nat) (v : Word) : Moves s.track (s.dataWordDone r b v).track := by
  unfold State.dataWordDone
  split
  · next slot _ =>
    split
    · next w _ =>
      dsimp only
      have h1 := s.writeRam_moves (s.buf.ram.writeWord slot.area w v) (Memory.writeWord_wf _ _ _ _)
      refine Moves.ite (fun _ => ?_) (fun _ => ?_)
      · exact (h1.trans (State.mapServedRing_moves _ _ (fun g => Ring.setState_areas _ _ _))).trans (State.withPort_moves _ _)
      · split
        · exact h1.trans (State.runOutBlockDone_moves _ _ _ _)
        · exact h1.trans (State.blockDone_moves _ _ _)
    · refine Moves.ite (fun _ => ?_) (fun _ => ?_)
      · exact (State.mapServedRing_moves _ _ (fun g => Ring.setState_areas _ _ _)).trans (State.withPort_moves _ _)
      · exact State.blockDone_moves _ _ _
    · exact .refl
  · exact .refl

theorem State.startingRead_moves (s : State) (v : Word) : Moves s.track (s.startingRead v).track :=
  Moves.ite (fun _ => s.withPort_moves _) (fun _ => s.withPort_moves _)

theorem State.describeStep_moves (s : State) (d : Describe) (v : Word) : Moves s.track (s.describeStep d v).track := by
  unfold State.describeStep
  split
  · exact s.withPort_moves _
  · exact .refl
  · exact s.withPort_moves _
  · exact s.withPort_moves _
  · refine Relation.ReflTransGen.trans ?_ (State.grant_moves _)
    rw [State.setFlag_track]
    exact Relation.ReflTransGen.trans (State.withPort_moves _ _) (State.enterIdle_moves _)

theorem State.maintStep_moves (s : State) (i : Nat) (v : Word) : Moves s.track (s.maintStep i v).track := by
  unfold State.maintStep
  split
  · dsimp only
    split
    · exact (s.withPort_moves _).trans (State.beginStep_moves _ _ _)
    · exact (s.withPort_moves _).trans (State.beginStep_moves _ _ _)
    · exact Moves.ite (fun _ => s.beginStep_moves _ _) (fun _ => s.withPort_moves _)
    · exact Moves.ite (fun _ => (s.endScript_moves _).trans (State.idleAndGrant_moves _)) (fun _ => s.withPort_moves _)
  · exact .refl

theorem State.slotDone_moves (s : State) (v : Word) : Moves s.track (s.slotDone v).track := by
  unfold State.slotDone
  split
  · exact s.startingRead_moves v
  · exact s.describeStep_moves _ v
  · exact s.maintStep_moves _ v
  · split
    · dsimp only
      have h := s.withPort_moves { s.port with attention := none }
      exact Moves.ite (fun _ => h.trans (State.setupStepDone_moves _ _)) (fun _ => h.trans (State.moduleAttention_moves _ _ _))
    · exact s.setupStepDone_moves _
  · split
    · exact Moves.ite (fun _ => s.idleAndGrant_moves) (fun _ => s.enterResetting_moves)
    · exact s.idleAndGrant_moves
  · split
    · exact s.dataWordDone_moves _ _ _
    · exact .refl
  · split
    · exact s.dataWordDone_moves _ _ _
    · exact .refl
    · split
      · dsimp only
        have h := s.withPort_moves { s.port with access := none, attention := none, watchdog := some 0 }
        exact Moves.ite (fun _ => h.trans (State.moverCheck_moves _)) (fun _ => h.trans (State.enterResetting_moves _))
      · exact (s.withPort_moves _).trans (State.moverCheck_moves _)
  · exact .refl

/-! ### ATTN, XFER and the watchdog -/

theorem State.earlyAttn_moves (s : State) (r : TargetRec) (a b : Word) (hr : r ∈ s.exch.targets) :
    Moves s.track (s.earlyAttn r a b).track := by
  unfold State.earlyAttn
  dsimp only
  have h1 := ((s.mapServedRing_moves _ Ring.cutTransfers_areas).trans
    (State.withPort_moves _ { (s.mapServedRing Ring.cutTransfers).port with capture := some (a, b) })).trans
    (State.enterIdle_moves _)
  have e : TargetsEdited s (State.enterIdle (State.withPort (s.mapServedRing Ring.cutTransfers)
      { (s.mapServedRing Ring.cutTransfers).port with capture := some (a, b) })) :=
    (s.mapServedRing_edited _ Ring.cutTransfers_areas).trans (.of_eq rfl)
  exact (h1.trans (State.settle_moves _ _ _ _ (fun _ i hi => e.holds (State.holds_of_mem hr i hi)))).trans (State.grant_moves _)

theorem State.closingAttn_moves (s : State) (r : TargetRec) (a b : Word) (hr : r ∈ s.exch.targets) :
    Moves s.track (s.closingAttn r a b).track := by
  unfold State.closingAttn
  dsimp only
  have h1 := (s.withPort_moves { s.port with capture := some (a, b) }).trans (State.enterIdle_moves _)
  have hh : ∀ i, r.id = some i →
      (s.withPort { s.port with capture := some (a, b) }).enterIdle.holds i (ringAreas r.ring) :=
    fun i hi => ⟨r, hr, hi, rfl⟩
  refine Relation.ReflTransGen.trans ?_ (State.grant_moves _)
  refine Moves.ite (fun _ => h1.trans (State.settle_moves _ _ _ _ (fun _ => hh))) (fun _ => ?_)
  refine Moves.ite (fun _ => ?_) (fun _ => h1.trans (State.settle_moves _ _ _ _ (fun _ => hh)))
  split
  · next i hi =>
    refine h1.trans (.single (Move.targetSettle _ i (fun x => { x with state := .finishing, starvation := none }) (fun y => ?_)))
    exact ⟨rfl, rfl, by simp, by simp⟩
  · exact h1

theorem State.describeAttn_moves (s : State) (d : Describe) (a : Word) : Moves s.track (s.describeAttn d a).track := by
  unfold State.describeAttn
  refine Moves.ite (fun _ => s.enterFailed_moves) (fun _ => ?_)
  split
  · exact s.withPort_moves _
  · exact s.withPort_moves _
  · exact s.withPort_moves _

theorem State.attn_moves (s : State) (a b : Word) : Moves s.track (s.attn a b).track := by
  unfold State.attn
  split
  · exact .refl
  · exact .refl
  · exact .refl
  · exact .refl
  · exact s.describeAttn_moves _ _
  · exact s.moduleAttention_moves _ _
  · exact s.withPort_moves _
  · exact s.moduleAttention_moves _ _
  · exact s.withPort_moves _
  · exact s.withPort_moves _
  · split
    · next r hr => exact s.earlyAttn_moves r a b (State.activeRec_mem hr).1
    · exact .refl
  · split
    · next r hr => exact s.closingAttn_moves r a b (State.activeRec_mem hr).1
    · exact .refl
  · split
    · exact s.withPort_moves _
    · exact s.endRunOut_moves.trans (State.idleAndGrant_moves _)

theorem State.xferLevel_moves (s : State) (b : Bool) : Moves s.track (s.xferLevel b).track := by
  unfold State.xferLevel
  dsimp only
  have h := s.withPort_moves { s.port with xfer := b }
  split
  · exact Moves.ite (fun _ => (h.trans (State.endScript_moves _ _)).trans (State.enterResetting_moves _)) (fun _ => h)
  · exact h.trans (State.moverCheck_moves _)

theorem State.watchdogExpires_moves (s : State) : Moves s.track s.watchdogExpires.track := by
  unfold State.watchdogExpires
  split
  · exact s.enterFailed_moves
  · exact (s.endScript_moves _).trans (State.enterResetting_moves _)
  · exact s.endByWatch_moves _
  · exact s.endByWatch_moves _
  · exact s.endByWatch_moves _
  · exact s.enterResetting_moves
  · exact s.enterResetting_moves
  · exact .refl

theorem State.releaseReset_moves (s : State) : Moves s.track s.releaseReset.track :=
  s.endRunOut_moves.trans (State.withPort_moves _ _)

/-! ### The target path -/

theorem State.dropTarget_moves (s : State) (r : TargetRec) (hr : r ∈ s.exch.targets) : Moves s.track (s.dropTarget r).track := by
  have hh := State.holds_of_mem hr
  unfold State.dropTarget
  split
  · exact s.freeTarget_moves r hh
  · exact s.freeTarget_moves r hh
  · have h := s.stopServing_moves r
    rcases hs : s.stopServing r with ⟨u, keep⟩
    rw [hs] at h
    dsimp only at h ⊢
    refine h.1.trans (Relation.ReflTransGen.trans ?_ (State.continueRunOut_moves _))
    exact Moves.ite (fun _ => u.detach_moves r) (fun _ => u.freeTarget_moves r (fun i hi => h.2.holds (hh i hi)))
  · exact Moves.ite (fun _ => s.detach_moves r) (fun _ => s.freeTarget_moves r hh)
  · exact s.detach_moves r

theorem State.settleStopped_moves (s : State) (r : TargetRec) (c : OutcomeCode) (hr : r ∈ s.exch.targets) :
    Moves s.track (s.settleStopped r c).track := by
  have hh := State.holds_of_mem hr
  unfold State.settleStopped
  split
  · exact s.settle_moves r _ _ (fun _ => hh)
  · exact s.settle_moves r _ _ (fun _ => hh)
  · have h := s.stopServing_moves r
    rcases hs : s.stopServing r with ⟨u, keep⟩
    rw [hs] at h
    dsimp only at h ⊢
    refine h.1.trans (Relation.ReflTransGen.trans ?_ (State.continueRunOut_moves _))
    exact u.settle_moves r _ _ (fun _ i hi => h.2.holds (hh i hi))
  · exact .refl

theorem State.cancelArrives_moves (s : State) (r : TargetRec) (hr : r ∈ s.exch.targets) : Moves s.track (s.cancelArrives r).track :=
  (s.settleStopped_moves r _ hr).trans (State.grant_moves _)

theorem State.rewindLimitTarget_moves (s : State) (r : TargetRec) (hr : r ∈ s.exch.targets) :
    Moves s.track (s.rewindLimitTarget r).track := (s.settleStopped_moves r _ hr).trans (State.grant_moves _)

theorem State.dropAndGrant_moves (s : State) (r : TargetRec) (hr : r ∈ s.exch.targets) :
    Moves s.track (s.dropTarget r).grant.track := (s.dropTarget_moves r hr).trans (State.grant_moves _)

theorem State.closeArrives_moves (s : State) (r : TargetRec) (hr : r ∈ s.exch.targets) : Moves s.track (s.closeArrives r).track := by
  unfold State.closeArrives
  split
  · exact s.dropAndGrant_moves r hr
  · exact .refl

theorem State.refuse_moves (s : State) (i : Item) (w : Reason) (hm : s.member.link = .member) :
    Moves s.track (s.refuse i w).track := s.offer_moves _ _ (Or.inl hm)

theorem State.offerTargetOnce_moves (s : State) (p : Station) (t : Tag) (k : ItemKind) :
    Moves s.track (s.offerTargetOnce p t k).track := by
  unfold State.offerTargetOnce
  split
  · split
    · exact Moves.ite (fun _ => .refl) (fun _ => s.offerTarget_moves _ _ _)
    · exact .refl
  · exact .refl

theorem State.takeAsk_moves (s : State) (i : Item) (op : Op) (n : Nat) (a : BlockAddr) (hm : s.member.link = .member)
    (hn : s.targetRec i.init i.tag = none) :
    Moves s.track (s.takeAsk i op n a).track := by
  unfold State.takeAsk
  refine Moves.ite (fun h => ?_) (fun _ => s.refuse_moves _ _ hm)
  dsimp only
  have h1 : Moves s.track ({ s with exch := { s.exch with targets := s.exch.targets ++ [newTarget i op n a] } } : State).track :=
    .single (Move.targetAdd s.track ⟨i.init, i.tag, i.serial⟩ (newTarget i op n a) hm (State.targetRec_none hn) h.2 rfl rfl
      (by simp [newTarget]))
  exact (h1.trans (State.offerTarget_moves _ _ _ _)).trans (State.grant_moves _)

end Sys2Proof.Machine
end

