-- ==== Sys2Proof/Laws/TurnMoves.lean ====
section
/-! SUPPORT. Arrivals, own turns and membership events as sequences of the primitive changes of Track.lean. -/

namespace Sys2Proof.Machine

/-! ### A key that is given up -/

/-- Every identity of the records of `u` is one of `s`. -/
def IdsFrom (s u : State) : Prop := ∀ y ∈ u.exch.targets, ∃ x ∈ s.exch.targets, x.id = y.id

theorem IdsFrom.of_eq {s u : State} (h : u.exch.targets = s.exch.targets) : IdsFrom s u :=
  fun y hy => ⟨y, h ▸ hy, rfl⟩

theorem IdsFrom.of_map {s u : State} {f : TargetRec → TargetRec} (hf : ∀ x, (f x).id = x.id)
    (h : u.exch.targets = s.exch.targets.map f) : IdsFrom s u := by
  intro y hy
  rw [h] at hy
  obtain ⟨x, hx, rfl⟩ := List.mem_map.1 hy
  exact ⟨x, hx, (hf x).symm⟩

theorem IdsFrom.trans {s u v : State} (h : IdsFrom s u) (k : IdsFrom u v) : IdsFrom s v := by
  intro y hy
  obtain ⟨x, hx, hxy⟩ := k y hy
  obtain ⟨z, hz, hzx⟩ := h x hx
  exact ⟨z, hz, hzx.trans hxy⟩

theorem IdsFrom.ite {c : Prop} [Decidable c] {s a b : State} (h1 : IdsFrom s a) (h2 : IdsFrom s b) :
    IdsFrom s (if c then a else b) := by
  by_cases h : c
  · rw [if_pos h]; exact h1
  · rw [if_neg h]; exact h2

theorem State.mapTarget_ids (s : State) (p : Station) (t : Tag) (f : TargetRec → TargetRec) (hf : ∀ x, (f x).id = x.id) :
    IdsFrom s (s.mapTarget p t f) := by
  refine IdsFrom.of_map (f := fun x => if x.keyed p t then f x else x) (fun x => ?_) rfl
  by_cases h : x.keyed p t = true
  · rw [if_pos h]; exact hf x
  · rw [if_neg h]

theorem State.mapServed_ids (s : State) (f : TargetRec → TargetRec) (hf : ∀ x, (f x).id = x.id) : IdsFrom s (s.mapServed f) := by
  refine IdsFrom.of_map (f := fun x => if s.isServed x then f x else x) (fun x => ?_) rfl
  by_cases h : s.isServed x = true
  · rw [if_pos h]; exact hf x
  · rw [if_neg h]

theorem State.offerTarget_ids (s : State) (p : Station) (t : Tag) (k : ItemKind) : IdsFrom s (s.offerTarget p t k) := by
  unfold State.offerTarget
  split
  · split
    · dsimp only
      exact IdsFrom.ite (.of_eq rfl) (s.mapTarget_ids _ _ _ (fun _ => rfl))
    · exact .of_eq rfl
  · exact .of_eq rfl

theorem State.activate_ids (s : State) (r : TargetRec) (ring : Option Ring) (free : List AreaNo) : IdsFrom s (s.activate r ring free) := by
  unfold State.activate
  split
  · next i _ =>
    dsimp only
    have h : IdsFrom s (State.mapTarget { s with buf := { s.buf with servFree := free } } i.peer i.tag (fun x =>
        { x with state := .active, ring := ring, priming := if x.op = .write then some 0 else none })) :=
      (IdsFrom.of_eq rfl).trans (State.mapTarget_ids _ _ _ _ (fun _ => rfl))
    exact IdsFrom.ite ((h.trans (.of_eq rfl)).trans (State.offerTarget_ids _ _ _ _)) (h.trans (.of_eq rfl))
  · exact .of_eq rfl

theorem State.grant_ids (s : State) : IdsFrom s s.grant := by
  unfold State.grant
  refine IdsFrom.ite (IdsFrom.ite ?_ ?_) (.of_eq rfl)
  · split
    · exact .of_eq rfl
    · exact .of_eq rfl
  · split
    · refine IdsFrom.ite (s.activate_ids _ _ _) ?_
      split
      · exact s.activate_ids _ _ _
      · exact .of_eq rfl
    · exact .of_eq rfl

theorem State.beginTransfer_ids (s : State) : IdsFrom s s.beginTransfer := by
  unfold State.beginTransfer
  split
  · dsimp only
    refine IdsFrom.trans ?_ (.of_eq rfl)
    exact s.mapServed_ids _ (fun _ => rfl)
  · exact .of_eq rfl

theorem State.waitForTransfer_ids (s : State) : IdsFrom s s.waitForTransfer := by
  unfold State.waitForTransfer
  refine IdsFrom.ite ?_ ?_
  · exact (s.mapServed_ids (fun r => { r with starvation := some (r.starvation.getD 0) }) (fun _ => rfl)).trans (.of_eq rfl)
  · exact (s.mapServed_ids (fun r => { r with starvation := none }) (fun _ => rfl)).trans (.of_eq rfl)

theorem State.continueRunOut_ids (s : State) : IdsFrom s s.continueRunOut := by
  unfold State.continueRunOut
  split
  · exact IdsFrom.ite s.beginTransfer_ids (IdsFrom.ite s.waitForTransfer_ids (.of_eq rfl))
  · exact .of_eq rfl

/-- No record stands on the key. -/
def State.keyFree (s : State) (i : ExchId) : Prop := ∀ y ∈ s.exch.targets, y.keyed i.peer i.tag = false

theorem State.keyFree.of_ids {s u : State} {i : ExchId} (h : s.keyFree i) (k : IdsFrom s u) : u.keyFree i := by
  intro y hy
  obtain ⟨x, hx, hxy⟩ := k y hy
  rw [TargetRec.keyed_of_id_eq hxy.symm]
  exact h x hx

theorem State.freeTarget_keyFree (s : State) {r : TargetRec} {i : ExchId} (hi : r.id = some i) : (s.freeTarget r).keyFree i := by
  intro y hy
  simp only [State.freeTarget, hi] at hy
  simpa using (List.mem_filter.1 hy).2

theorem State.detach_keyFree (s : State) {r : TargetRec} {i : ExchId} (hi : r.id = some i) : (s.detach r).keyFree i := by
  intro y hy
  simp only [State.detach, hi] at hy
  obtain ⟨x, hx, rfl⟩ := List.mem_map.1 hy
  by_cases h : x.keyed i.peer i.tag = true
  · rw [if_pos h]; rfl
  · rw [if_neg h]; simpa using h

/-- A record that is given up leaves its key free. -/
theorem State.dropTarget_keyFree (s : State) {r : TargetRec} {i : ExchId} (hi : r.id = some i) : (s.dropTarget r).keyFree i := by
  unfold State.dropTarget
  split
  · exact s.freeTarget_keyFree hi
  · exact s.freeTarget_keyFree hi
  · dsimp only
    refine State.keyFree.of_ids ?_ (State.continueRunOut_ids _)
    split
    · exact State.detach_keyFree _ hi
    · exact State.freeTarget_keyFree _ hi
  · split
    · exact s.detach_keyFree hi
    · exact s.freeTarget_keyFree hi
  · exact s.detach_keyFree hi

theorem TargetRec.keyed_id {r : TargetRec} {p : Station} {t : Tag} (h : r.keyed p t = true) :
    ∃ i, r.id = some i ∧ i.peer = p ∧ i.tag = t := by
  unfold TargetRec.keyed at h
  cases hi : r.id with
  | none => simp [hi] at h
  | some i => exact ⟨i, rfl, by simpa [hi] using h⟩

/-! ### Arrivals at the target role -/

theorem State.takeAskFree_moves (s : State) (i : Item) (op : Op) (n : Nat) (a : BlockAddr) (hm : s.member.link = .member)
    (hn : ∀ y ∈ s.exch.targets, y.keyed i.init i.tag = false) : Moves s.track (s.takeAsk i op n a).track := by
  refine s.takeAsk_moves i op n a hm ?_
  exact List.find?_eq_none.2 (fun y hy => by simp [hn y hy])

theorem State.askArrives_moves (s : State) (i : Item) (op : Byte) (n : Nat) (a : BlockAddr) (hl : s.member.link = .member) :
    Moves s.track (s.askArrives i op n a).track := by
  unfold State.askArrives
  dsimp only
  split
  · next r hr =>
    have hm := State.targetRec_mem hr
    refine Moves.ite (fun _ => s.offerTargetOnce_moves _ _ _) (fun _ => ?_)
    split
    · exact s.refuse_moves _ _ hl
    · have h1 := s.dropAndGrant_moves r hm.1
      split
      · refine h1.trans (State.takeAskFree_moves _ _ _ _ _ (h1.link_eq.trans hl) ?_)
        obtain ⟨j, hj, hp, ht⟩ := TargetRec.keyed_id hm.2
        have := (s.dropTarget_keyFree hj).of_ids (State.grant_ids _)
        rwa [State.keyFree, hp, ht] at this
      · exact h1
  · next hr =>
    split
    · exact s.refuse_moves _ _ hl
    · split
      · exact s.takeAskFree_moves _ _ _ _ hl (State.targetRec_none hr)
      · exact .refl

theorem State.creditAtTarget_moves (s : State) (r : TargetRec) (c : SendCounters) (a b : Nat) (hr : r ∈ s.exch.targets) :
    Moves s.track (s.creditAtTarget r c a b).track := by
  unfold State.creditAtTarget
  rcases hc : c.credit r.count a b with ⟨c', hit⟩
  dsimp only
  split
  · next i hi =>
    have hs : TargetRec.Same r { r with flow := .sender c', ring := r.ring.map (fun g => g.passBase c.base c'.base) } :=
      ⟨rfl, ringAreas_map (fun g => g.passBase_areas _ _) _, fun hn => by rw [hn]; rfl, fun h => h, Iff.rfl⟩
    have h1 := s.replaceTarget_moves hr hi hs
    have h2 : ({ r with flow := .sender c', ring := r.ring.map (fun g => g.passBase c.base c'.base) } : TargetRec) ∈
        (s.mapTarget i.peer i.tag (fun _ =>
          { r with flow := .sender c', ring := r.ring.map (fun g => g.passBase c.base c'.base) })).exch.targets :=
      List.mem_map.2 ⟨r, hr, if_pos (TargetRec.keyed_of_id hi)⟩
    refine Moves.ite (fun _ => h1.trans (State.rewindLimitTarget_moves _ _ h2)) (fun _ => ?_)
    split
    · exact h1.trans (State.moverCheck_moves _)
    · refine Moves.ite (fun _ => ?_) (fun _ => h1)
      exact (h1.trans (State.settle_moves _ _ _ _ (fun _ => State.holds_of_mem h2))).trans (State.grant_moves _)
    · exact h1
  · exact .refl

theorem State.creditArrivesTarget_moves (s : State) (r : TargetRec) (a b : Nat) (hr : r ∈ s.exch.targets) :
    Moves s.track (s.creditArrivesTarget r a b).track := by
  unfold State.creditArrivesTarget
  split
  · exact s.creditAtTarget_moves r _ a b hr
  · exact s.creditAtTarget_moves r _ a b hr
  · exact s.creditAtTarget_moves r _ a b hr
  · exact .refl

theorem State.acceptBlock_moves (s : State) (r : TargetRec) (c : RecvCounters) (ring : Ring) (slot : Slot) (d : DataBlock)
    (hr : r ∈ s.exch.targets) (hring : r.ring = some ring) : Moves s.track (s.acceptBlock r c ring slot d).track := by
  unfold State.acceptBlock
  split
  · next i hi =>
    dsimp only
    have h1 := s.writeRam_moves (s.buf.ram.writeBlock slot.area d.bytes) (Memory.writeBlock_wf _ _ _)
    have h2 := h1.trans (State.replaceTarget_moves _ (x := r)
      (r := { r with ring := some (ring.setState d.index (.full d.index)),
                     flow := .receiver { c with expected := c.expected + 1 }, priming := none }) hr hi
      ⟨rfl, by rw [hring]; exact Ring.setState_areas _ _ _, fun hn => absurd hn (by rw [hring]; exact Option.some_ne_none _),
       fun h => h, Iff.rfl⟩)
    refine Relation.ReflTransGen.trans ?_ (State.offerTarget_moves _ _ _ _)
    exact Moves.ite (fun _ => h2.trans (State.startSetup_moves _ _)) (fun _ => h2.trans (State.moverCheck_moves _))
  · exact .refl

theorem State.dataArrivesTarget_moves (s : State) (r : TargetRec) (d : DataBlock) (hr : r ∈ s.exch.targets) :
    Moves s.track (s.dataArrivesTarget r d).track := by
  unfold State.dataArrivesTarget
  split
  · refine Moves.ite (fun _ => ?_) (fun _ => .refl)
    split
    · next ring slot hb =>
      refine Moves.ite (fun _ => ?_) (fun _ => s.offerTarget_moves _ _ _)
      refine s.acceptBlock_moves r _ ring slot d hr ?_
      obtain ⟨g, hg, hgs⟩ := Option.bind_eq_some_iff.1 hb
      obtain ⟨x, _, hx⟩ := Option.map_eq_some_iff.1 hgs
      cases hx
      exact hg
    · exact s.offerTarget_moves _ _ _
  · exact .refl

theorem State.answerForgot_moves (s : State) (i : ExchId) (hm : s.member.link = .member) :
    Moves s.track (s.answerForgot i).track := s.offerOrphan_moves _ hm

theorem State.atTarget_moves (s : State) (i : ExchId) (f : State → TargetRec → State) (hl : s.member.link = .member)
    (hf : ∀ r ∈ s.exch.targets, Moves s.track (f s r).track) : Moves s.track (s.atTarget i f).track := by
  unfold State.atTarget
  split
  · next r hr =>
    have hm := (State.targetRec_mem hr).1
    refine Moves.ite (fun _ => hf r hm) (fun _ => ?_)
    split
    · exact s.dropAndGrant_moves r hm
    · have h1 := s.dropTarget_moves r hm
      exact (h1.trans (State.answerForgot_moves _ _ (h1.link_eq.trans hl))).trans (State.grant_moves _)
  · exact s.answerForgot_moves i hl

theorem State.itemToTarget_moves (s : State) (p : Station) (i : Item) (hl : s.member.link = .member) :
    Moves s.track (s.itemToTarget p i).track := by
  unfold State.itemToTarget
  split
  · exact Moves.ite (fun _ => s.askArrives_moves _ _ _ _ hl) (fun _ => .refl)
  · exact Moves.ite (fun _ => s.atTarget_moves _ _ hl (fun r hr => s.cancelArrives_moves r hr)) (fun _ => .refl)
  · exact Moves.ite (fun _ => s.atTarget_moves _ _ hl (fun r hr => s.creditArrivesTarget_moves r _ _ hr)) (fun _ => .refl)
  · split
    · next r hr => exact Moves.ite (fun _ => s.closeArrives_moves r (State.targetRec_mem hr).1) (fun _ => .refl)
    · exact .refl
  · exact .refl

theorem State.itemArrives_moves (s : State) (p : Station) (i : Item) (hl : s.member.link = .member) :
    Moves s.track (s.itemArrives p i).track := by
  unfold State.itemArrives
  split
  · exact s.itemToTarget_moves p i hl
  · exact s.itemToInit_moves p i hl

theorem State.dataToTarget_moves (s : State) (p : Station) (d : DataBlock) (hl : s.member.link = .member) :
    Moves s.track (s.dataToTarget p d).track :=
  Moves.ite (fun _ => s.atTarget_moves _ _ hl (fun r hr => s.dataArrivesTarget_moves r d hr)) (fun _ => .refl)

theorem State.dataArrives_moves (s : State) (p : Station) (d : DataBlock) (hl : s.member.link = .member) :
    Moves s.track (s.dataArrives p d).track :=
  Moves.ite (fun _ => s.dataToInit_moves p d hl) (fun _ => s.dataToTarget_moves p d hl)

/-! ### The own turn -/

/-- A fold of operations over a list. -/
theorem Moves.foldl {α : Type} (f : State → α → State) (hf : ∀ s a, Moves s.track (f s a).track) (l : List α) (s : State) :
    Moves s.track (l.foldl f s).track := by
  induction l generalizing s with
  | nil => exact .refl
  | cons a l ih => exact (hf s a).trans (ih _)

/-- A fold of operations that are made in MEMBER. -/
theorem Moves.foldlMember {α : Type} (f : State → α → State)
    (hf : ∀ s a, s.member.link = .member → Moves s.track (f s a).track) (l : List α) (s : State) (hm : s.member.link = .member) :
    Moves s.track (l.foldl f s).track := by
  induction l generalizing s with
  | nil => exact .refl
  | cons a l ih =>
    have h := hf s a hm
    exact h.trans (ih _ (h.link_eq.trans hm))

theorem State.offerAskOnce_moves (s : State) (t : Tag) : Moves s.track (s.offerAskOnce t).track := by
  unfold State.offerAskOnce
  split
  · exact Moves.ite (fun _ => .refl) (fun _ => s.offerInit_moves _ _)
  · exact .refl

/-- The watch fields of a record in ASKING. -/
theorem State.countAsk_moves (s : State) (r : InitRec) (hr : r ∈ s.exch.inits) (hl : r.live = true) (a b : Nat) :
    Moves s.track (s.mapInit r.tag (fun x => { x with state := .asking a b })).track :=
  s.mapInit_one _ hr ⟨rfl, rfl, fun h => h, by rw [hl]; rfl⟩

theorem State.askWatch_moves (s : State) (r : InitRec) (a b : Nat) (hr : r ∈ s.exch.inits) (hl : r.live = true) :
    Moves s.track (s.askWatch r a b).1.track := by
  unfold State.askWatch
  split
  · exact s.countAsk_moves r hr hl _ _
  · split
    · exact s.countAsk_moves r hr hl _ _
    · exact s.endAndTake_moves r _ _ _ hr

theorem State.initStallWatch_moves (s : State) (r : InitRec) (hr : r ∈ s.exch.inits) : Moves s.track (s.initStallWatch r).track := by
  unfold State.initStallWatch
  split
  · next c _ =>
    refine Moves.ite (fun _ => ?_) (fun _ => .refl)
    rcases c.stallTurn with ⟨c', hit⟩
    dsimp only
    have hs : InitRec.Same r { r with flow := .sender c' } := ⟨rfl, rfl, fun h => h, rfl⟩
    have h1 := s.setInit_moves hr hs
    exact Moves.ite (fun _ => h1.trans (State.rewindLimitInit_moves _ _ (State.setInit_mem hr rfl))) (fun _ => h1)
  · exact .refl

theorem State.targetStallWatch_moves (s : State) (r : TargetRec) (hr : r ∈ s.exch.targets) :
    Moves s.track (s.targetStallWatch r).track := by
  unfold State.targetStallWatch
  split
  · next c i _ hi =>
    refine Moves.ite (fun _ => ?_) (fun _ => .refl)
    rcases c.stallTurn with ⟨c', hit⟩
    dsimp only
    have h1 := s.replaceTarget_moves (r := { r with flow := .sender c' }) hr hi ⟨rfl, rfl, fun h => h, fun h => h, Iff.rfl⟩
    refine Moves.ite (fun _ => h1.trans (State.rewindLimitTarget_moves _ _ ?_)) (fun _ => h1)
    exact List.mem_map.2 ⟨r, hr, if_pos (TargetRec.keyed_of_id hi)⟩
  · exact .refl

theorem State.primingEnds_moves (s : State) (r : TargetRec) (hr : r ∈ s.exch.targets) : Moves s.track (s.primingEnds r).track :=
  (s.enterIdle_moves.trans (State.settle_moves _ _ _ _ (fun _ _ hi => ⟨r, hr, hi, rfl⟩))).trans (State.grant_moves _)

theorem State.primingWatch_moves (s : State) (r : TargetRec) (i : ExchId) (n : Nat) (hr : r ∈ s.exch.targets) :
    Moves s.track (s.primingWatch r i n).1.track := by
  unfold State.primingWatch
  split
  · exact s.mapTarget_moves _ _ _ (fun x _ => ⟨rfl, rfl, fun h => h, fun h => h, Iff.rfl⟩)
  · exact s.primingEnds_moves r hr

theorem State.starvationWatch_moves (s : State) (i : ExchId) (n : Nat) : Moves s.track (s.starvationWatch i n).track :=
  Moves.ite (fun _ => s.mapTarget_moves _ _ _ (fun _ _ => ⟨rfl, rfl, fun h => h, fun h => h, Iff.rfl⟩))
    (fun _ => s.endByWatch_moves _)

/-- The resend count of a SETTLING record. -/
theorem State.resendWatch_moves (s : State) (i : ExchId) (first : Bool) (n : Nat) :
    Moves s.track (s.resendWatch i first n).1.track := by
  exact .single (Move.targetSettle s.track i (fun x => { x with state := .settling false (if first || decide (Limit.resend ≤ n + 1) then 0 else n + 1) })
    (fun y => ⟨rfl, rfl, by simp, by simp⟩))

theorem State.offerWantedInit_moves (s : State) (t : Tag) : Moves s.track (s.offerWantedInit t).track := by
  unfold State.offerWantedInit
  split
  · refine Relation.ReflTransGen.trans ?_ (Moves.foldl _ (fun u k => u.offerInit_moves t k) _ _)
    exact s.mapInit_moves t _ (fun x _ _ => ⟨rfl, rfl, fun h => h, rfl⟩)
  · exact .refl

theorem State.offerWantedTarget_moves (s : State) (p : Station) (t : Tag) : Moves s.track (s.offerWantedTarget p t).track := by
  unfold State.offerWantedTarget
  split
  · refine Relation.ReflTransGen.trans ?_ (Moves.foldl _ (fun u k => u.offerTarget_moves p t k) _ _)
    exact s.mapTarget_moves p t _ (fun x _ => ⟨rfl, rfl, fun h => h, fun h => h, Iff.rfl⟩)
  · exact .refl

theorem State.initTurn_moves (s : State) (t : Tag) : Moves s.track (s.initTurn t).track := by
  unfold State.initTurn
  split
  · next r hr =>
    have hm := (State.initRec_mem hr).1
    dsimp only
    have key : ∀ q : State × Bool, Moves s.track q.1.track →
        Moves s.track (match (q.1.initRec t).filter (fun (x : InitRec) => decide (x.serial = r.serial)) with
          | some x =>
            let s := q.1.offerWantedInit t
            let s := if q.2 then s.offerAskOnce t else s
            if x.refreshes then s.offerInit t .credit else s
          | none => q.1).track := by
      intro q h
      split
      · dsimp only
        have h1 := h.trans (State.offerWantedInit_moves q.1 t)
        refine Moves.ite (fun _ => Relation.ReflTransGen.trans ?_ (State.offerInit_moves _ _ _)) (fun _ => ?_)
        · exact Moves.ite (fun _ => h1.trans (State.offerAskOnce_moves _ _)) (fun _ => h1)
        · exact Moves.ite (fun _ => h1.trans (State.offerAskOnce_moves _ _)) (fun _ => h1)
      · exact h
    refine key (match r.state with
      | .asking sends turns => s.askWatch r sends turns
      | _ => (s.initStallWatch r, false)) ?_
    split
    · next hst => exact s.askWatch_moves r _ _ hm (by simp [InitRec.live, hst])
    · exact s.initStallWatch_moves r hm
  · exact .refl

theorem State.targetWatches_moves (s : State) (r : TargetRec) (i : ExchId) (hr : r ∈ s.exch.targets) :
    Moves s.track (s.targetWatches r i).1.track := by
  unfold State.targetWatches
  split
  · exact s.resendWatch_moves i _ _
  · split
    · exact s.primingWatch_moves r i _ hr
    · dsimp only
      split
      · next x hx => exact (s.starvationWatch_moves i _).trans (State.targetStallWatch_moves _ x (State.targetRec_mem hx).1)
      · exact s.starvationWatch_moves i _
    · exact s.targetStallWatch_moves r hr
  · exact s.targetStallWatch_moves r hr

theorem State.targetTurn_moves (s : State) (p : Station) (t : Tag) : Moves s.track (s.targetTurn p t).track := by
  unfold State.targetTurn
  split
  · next r hr =>
    split
    · next i _ =>
      have h := s.targetWatches_moves r i (State.targetRec_mem hr).1
      rcases hw : s.targetWatches r i with ⟨u, ordered⟩
      rw [hw] at h
      dsimp only at h ⊢
      have h1 := h.trans (State.offerWantedTarget_moves u p t)
      have h2 : Moves s.track (match ordered with
          | some .outcome => (u.offerWantedTarget p t).offerTargetOnce p t .outcome
          | some k => (u.offerWantedTarget p t).offerTarget p t k
          | none => u.offerWantedTarget p t).track := by
        split
        · exact h1.trans (State.offerTargetOnce_moves _ _ _ _)
        · exact h1.trans (State.offerTarget_moves _ _ _ _)
        · exact h1
      split
      · exact Moves.ite (fun _ => h2.trans (State.offerTarget_moves _ _ _ _)) (fun _ => h2)
      · exact h2
    · exact .refl
  · exact .refl

theorem State.turnOffers_moves (s : State) : Moves s.track s.turnOffers.track := by
  refine Moves.foldl _ (fun u p => ?_) _ _
  split
  · exact u.initTurn_moves _
  · exact u.targetTurn_moves _ _

theorem State.markSent_moves (s : State) (p : Position) : Moves s.track (s.markSent p).track := by
  unfold State.markSent
  dsimp only
  split
  · exact State.mapInit_moves { s with sched := { s.sched with rotation := p } } _ _ (fun x _ _ => ⟨rfl, rfl, fun h => h, rfl⟩)
  · exact State.mapTarget_moves { s with sched := { s.sched with rotation := p } } _ _ _
      (fun x _ => ⟨rfl, rfl, fun h => h, fun h => h, Iff.rfl⟩)

theorem State.picks_moves (n a b : Nat) (s : State) : Moves s.track (State.picks n a b s).1.track := by
  induction n generalizing s a b with
  | zero => exact .refl
  | succ n ih =>
    unfold State.picks
    split
    · exact (s.markSent_moves _).trans (ih _ _ _)
    · exact .refl

theorem walkItems_left_length (own : Station) (l : List PendingItem) : (walkItems own l).left.length ≤ l.length := by
  have : ∀ (l : List PendingItem) (x : ItemSets), (l.foldl (ItemSets.take own) x).left.length ≤ x.left.length + l.length := by
    intro l
    induction l with
    | nil => intro x; simp
    | cons p l ih =>
      intro x
      refine Nat.le_trans (ih _) ?_
      have : (x.take own p).left.length ≤ x.left.length + 1 := by
        unfold ItemSets.take
        split <;> split <;> simp
      simp only [List.length_cons]
      omega
  simpa [walkItems] using this l ⟨[], [], []⟩

theorem State.composeTurn_moves (s : State) (hl : s.member.link = .member) : Moves s.track s.composeTurn.1.track := by
  unfold State.composeTurn
  dsimp only
  have h1 : Moves s.track ({ s with sched := { s.sched with items := (walkItems s.own s.sched.items).left,
                                                            loopItems := (walkItems s.own s.sched.items).loop } } : State).track :=
    .single (Move.items s.track _ (Or.inl (walkItems_left_length _ _)))
  have h2 := h1.trans (State.picks_moves (Limit.turnData + Limit.turnData)
    (if ((walkItems s.own s.sched.items).line.map s.resolve).isEmpty then Limit.turnData else Limit.turnData - 1) Limit.turnData _)
  refine h2.trans (.single (Move.tx _ .ownTurn (fun h => by cases h) ?_))
  rw [Moves.link_eq h2]
  show s.member.link ≠ .unconfigured
  rw [hl]
  exact fun h => by cases h

theorem State.deliverBlock_moves (s : State) (x : Sendable) (hl : s.member.link = .member) :
    Moves s.track (s.deliverBlock x).track := by
  unfold State.deliverBlock
  split
  · exact s.dataToTarget_moves _ _ hl
  · exact s.dataToInit_moves _ _ hl

theorem State.deliverItems_moves (n : Nat) (s : State) (hl : s.member.link = .member) :
    Moves s.track (State.deliverItems n s).track := by
  induction n generalizing s with
  | zero => exact .refl
  | succ n ih =>
    unfold State.deliverItems
    split
    · next p rest _ =>
      have h := State.itemArrives_moves { s with sched := { s.sched with loopItems := rest } } s.own (s.resolve p) hl
      exact Relation.ReflTransGen.trans h (ih _ (h.link_eq.trans hl))
    · exact .refl

theorem State.memberTurn_moves (s : State) (hl : s.member.link = .member) : Moves s.track s.memberTurn.track := by
  unfold State.memberTurn
  dsimp only
  have h1 := s.turnOffers_moves
  have h2 := h1.trans (State.composeTurn_moves _ (h1.link_eq.trans hl))
  have h3 := h2.trans (Moves.foldlMember _ (fun u x hu => u.deliverBlock_moves x hu) s.turnOffers.composeTurn.2 _ ((Moves.link_eq h2).trans hl))
  exact h3.trans (State.deliverItems_moves _ _ ((Moves.link_eq h3).trans hl))

/-- An own turn begins in MEMBER or LEAVING alone. -/
theorem State.ownTurn_moves (s : State) (hl : s.member.link = .member ∨ s.member.link = .leaving) : Moves s.track s.ownTurn.track := by
  unfold State.ownTurn
  split
  · next h => exact .single (Move.tx s.track .leave (fun _ => h) (by show s.member.link ≠ .unconfigured; rw [h]; exact fun h => by cases h))
  · next h => exact s.memberTurn_moves (hl.resolve_right h)

/-! ### Membership -/

theorem State.mapEntry_moves (s : State) (n : Station) (f : RosterEntry → RosterEntry) (h : ∀ e, e.sound → (f e).sound) :
    Moves s.track (s.mapEntry n f).track :=
  .single (Move.roster s.track _ (fun hs => roster_set_sound hs n (h _ (hs n))))

@[simp] theorem State.countChanges_track (s : State) (n : Nat) : (s.countChanges n).track = s.track := rfl

theorem State.addPeer_moves (s : State) (n : Station) (b : Bool) : Moves s.track (s.addPeer n b).track :=
  s.mapEntry_moves n (fun _ => ⟨true, 0, b⟩) (fun _ _ => ⟨Nat.zero_le _, fun h => by cases h⟩)

theorem State.purge_moves (s : State) (n : Station) : Moves s.track (s.purge n).track :=
  .single (Move.items s.track _ (Or.inl (List.length_filter_le _ _)))

theorem State.losePeer_moves (s : State) (n : Station) : Moves s.track (s.losePeer n).track := by
  refine Moves.foldl _ (fun u r => ?_) _ _
  split
  · next x hx => exact u.endInit_moves x _ _ _ (State.initRec_mem hx).1
  · exact .refl

theorem State.dropPeer_moves (s : State) (n : Station) : Moves s.track (s.dropPeer n).track := by
  refine Moves.foldl _ (fun u i => ?_) _ _
  split
  · next r hr => exact u.dropTarget_moves r (State.targetRec_mem hr).1
  · exact .refl

theorem State.dropWantedCancel_moves (s : State) (n : Station) : Moves s.track (s.dropWantedCancel n).track := by
  refine .single (Move.initEdit s.track _ (fun x _ => ?_))
  by_cases h : x.peer = n
  · rw [if_pos h]; exact ⟨rfl, rfl, fun h => h, rfl⟩
  · rw [if_neg h]; exact InitRec.Same.refl x

theorem State.forgetPeer_moves (s : State) (n : Station) : Moves s.track (s.forgetPeer n).track := by
  unfold State.forgetPeer
  dsimp only
  refine Relation.ReflTransGen.trans ?_ (State.purge_moves _ _)
  refine Relation.ReflTransGen.trans ?_ (State.dropWantedCancel_moves _ _)
  refine Relation.ReflTransGen.trans ?_ (State.dropPeer_moves _ _)
  refine Relation.ReflTransGen.trans ?_ (State.losePeer_moves _ _)
  exact s.mapEntry_moves n _ (fun _ _ => RosterEntry.absent_sound)

theorem State.resume_moves (s before : State) : Moves s.track (s.resume before).track :=
  s.grant_moves.trans (State.retakeIfFreed_moves _ _)

theorem State.removePeer_moves (s : State) (n : Station) : Moves s.track (s.removePeer n).track :=
  (s.forgetPeer_moves n).trans (State.resume_moves _ _)

theorem State.restartPeer_moves (s : State) (n : Station) (b : Bool) : Moves s.track (s.restartPeer n b).track :=
  ((s.forgetPeer_moves n).trans (State.addPeer_moves _ _ _)).trans (State.resume_moves _ _)

theorem State.rosterEffect_moves (s : State) (f : Frame) : Moves s.track (s.rosterEffect f).track := by
  unfold State.rosterEffect
  dsimp only
  have key : ∀ u : State, Moves s.track u.track →
      Moves s.track (if u.present f.sender then u.mapEntry f.sender (fun e => { e with misses := 0, ready := f.ready }) else u).track := by
    intro u h
    refine Moves.ite (fun hp => h.trans (.single (Move.roster u.track _ (fun hs => roster_set_sound hs f.sender ?_)))) (fun _ => h)
    refine ⟨Nat.zero_le _, fun hn => ?_⟩
    have hn : u.member.roster[f.sender].present = false := hn
    rw [State.present, hn] at hp
    cases hp
  refine key _ ?_
  split
  · exact s.removePeer_moves _
  · exact .refl
  · exact s.restartPeer_moves _ _
  · exact .refl
  · exact s.addPeer_moves _ _

theorem State.takePayload_moves (s : State) (f : Frame) (hl : s.member.link = .member) : Moves s.track (s.takePayload f).track := by
  unfold State.takePayload
  split
  · exact .refl
  · exact Moves.foldlMember _ (fun u i hu => u.itemArrives_moves _ i hu) _ _ hl
  · exact Moves.ite (fun _ => s.dataArrives_moves _ _ hl) (fun _ => .refl)

end Sys2Proof.Machine
end

