-- ==== Sys2Proof/Laws/StepChanges.lean ====
section
/-! SUPPORT. What a whole command can do: the primitive changes of Track.lean and the changes of the link state, of the
configuration; what a hardware reset leaves; that each invariant of Safety.lean is kept by each of them; and that every command, and the
tick, is a sequence of them. -/

namespace Sys2Proof.Machine

/-- The changes of whole commands. -/
inductive Change : Track → Track → Prop
  | move {t u : Track} (m : Move t u) : Change t u
  | link (t : Track) (k : LinkState) (h : t.link ≠ .member ∧ t.link ≠ .leaving ∧ t.link ≠ .unconfigured) :
      Change t { t with link := k }
  | silent (t : Track) : Change t { t with tx := none }
  | founded (t : Track) (v : Vector RosterEntry 16) (h : t.tx = some .founding) (hv : ∀ n : Station, v[n].sound) :
      Change t { t with tx := none, link := .member, roster := v }
  | left (t : Track) (v : Vector RosterEntry 16) (h : t.tx = some .leave) (hv : ∀ n : Station, v[n].sound) :
      Change t { t with tx := none, link := .offline, roster := v }
  | cleared (t : Track) (k : LinkState) (x : Option TxKind) (rq : List Request) (oc : List OutcomeRec)
      (v : Vector RosterEntry 16) (hc : t.config ≠ none) (hk : k = .leaving ∨ k = .offline ∧ x = none)
      (hr : rq.length ≤ t.requests.length) (ho : oc.length ≤ t.outcomes.length)
      (hv : (∀ n : Station, t.roster[n].sound) → ∀ n : Station, v[n].sound) :
      Change t { t with link := k, tx := x, requests := rq, outcomes := oc, items := [], roster := v, inits := [], targets := [],
                        initFree := (poolsOf t.config).1, servFree := (poolsOf t.config).2 }
  | latch (t : Track) (l : Latch) (h : t.latch ≠ .matched) (hl : l ≠ .matched) : Change t { t with latch := l }
  | matched (t : Track) (c : Cfg) (h : t.latch ≠ .matched) :
      Change t { t with link := .offline, config := some c, latch := .matched, initFree := initPool c, servFree := servPool c }

/-- Any number of changes. -/
abbrev Changes : Track → Track → Prop := Relation.ReflTransGen Change

theorem Moves.changes {t u : Track} (m : Moves t u) : Changes t u := by
  induction m with
  | refl => exact .refl
  | tail _ m ih => exact ih.tail (.move m)

/-! ### What a change keeps -/

theorem Membership.reset_sound : ∀ n : Station, Membership.reset.roster[n].sound := by
  intro n
  have : Membership.reset.roster[n] = RosterEntry.absent := by
    simp only [Membership.reset, Fin.getElem_fin, Vector.getElem_replicate]
  rw [this]
  exact RosterEntry.absent_sound

theorem Change.ramCanonical {t u : Track} (m : Change t u) (h : t.ramCanonical) : u.ramCanonical := by
  cases m with
  | move m => exact m.ramCanonical h
  | _ => exact h

theorem Change.queuesBounded {t u : Track} (m : Change t u) (h : t.queuesBounded) : u.queuesBounded := by
  cases m with
  | move m => exact m.queuesBounded h
  | cleared k x rq oc v hc hk hr ho hv => exact ⟨Nat.le_trans hr h.1, Nat.le_trans ho h.2.1, Nat.zero_le _⟩
  | _ => exact h

theorem Change.rosterSound {t u : Track} (m : Change t u) (h : t.rosterSound) : u.rosterSound := by
  cases m with
  | move m => exact m.rosterSound h
  | founded v _ hv => exact hv
  | left v _ hv => exact hv
  | cleared k x rq oc v hc hk hr ho hv => exact hv h
  | _ => exact h

theorem Track.recordsLimited_nil (t : Track) (h1 : t.inits = []) (h2 : t.targets = []) : t.recordsLimited := by
  refine ⟨by rw [h1]; exact Nat.zero_le _, by rw [h1]; exact List.nodup_nil, by rw [h2]; exact Nat.zero_le _,
    by rw [h2]; exact List.nodup_nil, ?_⟩
  rw [h2]
  exact fun r hr => absurd hr List.not_mem_nil

theorem Change.recordsLimited {t u : Track} (m : Change t u) (h : t.recordsLimited) : u.recordsLimited := by
  cases m with
  | move m => exact m.recordsLimited h
  | cleared => exact Track.recordsLimited_nil _ rfl rfl
  | _ => exact h

theorem Change.linkSound {t u : Track} (m : Change t u) (h : t.linkSound) : u.linkSound := by
  have h0 := h
  obtain ⟨h1, h2, h3, h4⟩ := h
  cases m with
  | move m => exact m.linkSound h0
  | link k hk =>
    exact ⟨fun _ => h1 hk.1, fun hl => absurd (h2 hl) hk.2.1, fun hl => absurd (h3 hl).1 hk.2.2, h4⟩
  | silent => exact ⟨h1, fun hl => (by cases hl), fun hl => ⟨(h3 hl).1, rfl⟩, h4⟩
  | founded v ht hv =>
    exact ⟨fun hm => absurd rfl hm, fun hl => (by cases hl), fun hl => absurd (h3 hl).2 (by rw [ht]; exact fun h => by cases h), h4⟩
  | left v ht hv =>
    have hne : t.link ≠ .member := by rw [h2 ht]; exact fun h => by cases h
    exact ⟨fun _ => h1 hne, fun hl => (by cases hl), fun hl => absurd (h3 hl).2 (by rw [ht]; exact fun h => by cases h), h4⟩
  | cleared k x rq oc v hc hk hr ho hv =>
    refine ⟨fun _ => ⟨rfl, rfl, rfl⟩, fun hl => ?_, fun hl => absurd (h4.2 hl) hc, h4⟩
    rcases hk with hk | ⟨hk, hx⟩
    · exact hk
    · rw [hx] at hl; cases hl
  | latch l ht hl => exact ⟨h1, h2, fun _ => h3 ht, ⟨fun _ => hl, fun _ => h4.2 ht⟩⟩
  | matched c ht =>
    have hu := h3 ht
    have hne : t.link ≠ .member := by rw [hu.1]; exact fun h => by cases h
    refine ⟨fun _ => h1 hne, fun hl => absurd hl (by rw [hu.2]; exact fun h => by cases h), fun hl => absurd rfl hl, ?_⟩
    exact ⟨fun h => (by cases h), fun h => absurd rfl h⟩

theorem Change.areasSafe {t u : Track} (m : Change t u) (h : t.areasSafe) : u.areasSafe := by
  have h0 := h
  obtain ⟨hr, hh, ha⟩ := h
  refine ⟨m.recordsLimited hr, ?_⟩
  cases m with
  | move m => exact (m.areasSafe h0).2
  | cleared k x rq oc v hc hk hreq ho hv =>
    refine ⟨⟨fun r hm => absurd hm List.not_mem_nil, fun r hm => absurd hm List.not_mem_nil, hh.2.2⟩, ?_⟩
    refine ⟨?_, ?_⟩
    · show ((poolsOf t.config).1 ++ initAreas []).Perm (poolsOf t.config).1
      rw [initAreas, List.flatMap_nil, List.append_nil]
    · show ((poolsOf t.config).2 ++ targetAreas []).Perm (poolsOf t.config).2
      rw [targetAreas, List.flatMap_nil, List.append_nil]
  | latch l ht hl => exact ⟨⟨hh.1, hh.2.1, ⟨fun _ => hl, fun _ => hh.2.2.2 ht⟩⟩, ha⟩
  | matched c ht =>
    refine ⟨⟨hh.1, hh.2.1, ⟨fun h => (by cases h), fun h => absurd rfl h⟩⟩, ?_⟩
    have hn := hh.2.2.2 ht
    rw [Track.areasAccounted, hn] at ha
    have h1 := (List.append_eq_nil_iff.1 (List.perm_nil.1 ha.1)).2
    have h2 := (List.append_eq_nil_iff.1 (List.perm_nil.1 ha.2)).2
    refine ⟨?_, ?_⟩
    · show (initPool c ++ initAreas t.inits).Perm (initPool c)
      rw [h1, List.append_nil]
    · show (servPool c ++ targetAreas t.targets).Perm (servPool c)
      rw [h2, List.append_nil]
  | _ => exact ⟨hh, ha⟩

theorem Changes.keeps {P : Track → Prop} (hP : ∀ {t u}, Change t u → P t → P u) {t u : Track} (m : Changes t u) (h : P t) : P u := by
  induction m with
  | refl => exact h
  | tail _ m ih => exact hP m ih

theorem Change.pending_eq {t u : Track} (m : Change t u) : u.pending = t.pending := by
  cases m with
  | move m => exact m.pending_eq
  | _ => rfl

theorem Changes.pending_eq {t u : Track} (m : Changes t u) : u.pending = t.pending := by
  induction m with
  | refl => rfl
  | tail _ m ih => exact m.pending_eq.trans ih

/-- Once the latch has matched, no change alters the latch or the configuration (R187). -/
theorem Change.configured {t u : Track} (m : Change t u) (h : t.latch = .matched) : u.latch = .matched ∧ u.config = t.config := by
  cases m with
  | move m => exact ⟨m.latch_eq.trans h, m.config_eq⟩
  | latch l hl => exact absurd h hl
  | matched c hl => exact absurd h hl
  | _ => exact ⟨h, rfl⟩

theorem Changes.configured {t u : Track} (m : Changes t u) (h : t.latch = .matched) : u.latch = .matched ∧ u.config = t.config := by
  induction m with
  | refl => exact ⟨h, rfl⟩
  | tail _ m ih => exact ⟨(m.configured ih.1).1, (m.configured ih.1).2.trans ih.2⟩

/-! ### The hardware reset -/

/-- What a hardware reset leaves of the tracked part (R183). -/
def Track.reset (t : Track) : Track := { State.reset.track with pending := t.pending, ram := t.ram }

theorem Track.reset_ramCanonical {t : Track} (h : t.ramCanonical) : t.reset.ramCanonical := h

theorem Track.reset_queuesBounded (t : Track) : t.reset.queuesBounded := ⟨Nat.zero_le _, Nat.zero_le _, Nat.zero_le _⟩

theorem Track.reset_rosterSound (t : Track) : t.reset.rosterSound := Membership.reset_sound

theorem Track.reset_recordsLimited (t : Track) : t.reset.recordsLimited := Track.recordsLimited_nil _ rfl rfl

theorem Track.reset_linkSound (t : Track) : t.reset.linkSound :=
  ⟨fun _ => ⟨rfl, rfl, rfl⟩, fun hl => (by cases hl), fun _ => ⟨rfl, rfl⟩, ⟨fun _ => (by intro h; cases h), fun _ => rfl⟩⟩

theorem Track.reset_areasSafe (t : Track) : t.reset.areasSafe :=
  ⟨t.reset_recordsLimited, ⟨fun _ hm => absurd hm List.not_mem_nil, fun _ hm => absurd hm List.not_mem_nil,
    ⟨fun _ => (by intro h; cases h), fun _ => rfl⟩⟩, ⟨List.Perm.refl _, List.Perm.refl _⟩⟩

/-! ### The link -/

theorem Changes.ite {c : Prop} [Decidable c] {t : Track} {a b : State} (h1 : c → Changes t a.track) (h2 : ¬ c → Changes t b.track) :
    Changes t (if c then a else b).track := by
  by_cases h : c
  · rw [if_pos h]; exact h1 h
  · rw [if_neg h]; exact h2 h

/-- A state in which the link may change as the rules of joining say. -/
def LinkState.offLink (k : LinkState) : Prop := k ≠ .member ∧ k ≠ .leaving ∧ k ≠ .unconfigured

theorem LinkState.offLink_listening : LinkState.offLink .listening := ⟨by decide, by decide, by decide⟩
theorem LinkState.offLink_joining : LinkState.offLink .joining := ⟨by decide, by decide, by decide⟩
theorem LinkState.offLink_offline : LinkState.offLink .offline := ⟨by decide, by decide, by decide⟩

theorem State.transmit_moves (s : State) (k : TxKind) (l : List Frame) (h : k ≠ .leave) (hu : s.member.link ≠ .unconfigured) :
    Moves s.track (s.transmit k l).track := .single (Move.tx s.track k (fun hk => absurd hk h) hu)

theorem State.firstJoin_changes (s : State) (h : s.member.link = .listening) : Changes s.track s.firstJoin.track := by
  have h1 : Changes s.track ({ s with member := { s.member with link := .joining } } : State).track :=
    .single (Change.link s.track .joining (show s.member.link.offLink by rw [h]; exact LinkState.offLink_listening))
  exact h1.trans (State.transmit_moves _ _ _ (by decide) (by show LinkState.joining ≠ .unconfigured; decide)).changes

theorem State.joiningOpenTurn_changes (s : State) (h : s.member.link = .joining) : Changes s.track s.joiningOpenTurn.track := by
  unfold State.joiningOpenTurn
  refine Changes.ite (fun _ => Moves.changes ?_) (fun _ => .refl)
  exact State.transmit_moves { s with member := { s.member with openTurns := s.member.openTurns + 1 } } _ _ (by decide)
    (by show s.member.link ≠ .unconfigured; rw [h]; decide)

theorem State.openTurn_changes (s : State) : Changes s.track s.openTurn.track := by
  unfold State.openTurn
  split
  · next h => exact s.firstJoin_changes h
  · next h => exact s.joiningOpenTurn_changes h
  · exact .refl

theorem State.moveHolder_changes (s : State) (h : Option Station) : Changes s.track (s.moveHolder h).track := by
  unfold State.moveHolder
  dsimp only
  split
  · refine Changes.ite (fun hc => Moves.changes (State.ownTurn_moves (s.setHolder (some _)) hc.2)) (fun _ => .refl)
  · refine Changes.ite (fun _ => ?_) (fun _ => .refl)
    exact State.openTurn_changes (s.setHolder none)

theorem State.silentTurn_changes (s : State) (n : Station) : Changes s.track (s.silentTurn n).track := by
  unfold State.silentTurn
  dsimp only
  refine Relation.ReflTransGen.trans (Moves.changes ?_) (State.moveHolder_changes _ _)
  refine Moves.ite (fun hc => ?_) (fun _ => .refl)
  have hp : s.member.roster[n].present = true := by
    simp only [Bool.and_eq_true] at hc
    exact hc.2
  refine Moves.ite (fun hlt => .single (Move.roster s.track _ (fun hs => roster_set_sound hs n ?_))) (fun _ => s.removePeer_moves n)
  refine ⟨Nat.lt_succ_iff.1 hlt, fun h => ?_⟩
  have h : s.member.roster[n].present = false := h
  rw [hp] at h
  cases h

theorem State.silence_changes (s : State) : Changes s.track s.silence.track := by
  unfold State.silence
  split
  · exact s.silentTurn_changes _
  · exact s.moveHolder_changes _

theorem State.ownEntry_sound (s : State) : s.ownEntry.sound := ⟨Nat.zero_le _, fun h => by cases h⟩

theorem State.confirmedRoster_sound (s : State) (f : Frame) : ∀ n : Station, (s.confirmedRoster f)[n].sound := by
  intro n
  simp only [State.confirmedRoster, Fin.getElem_fin, Vector.getElem_ofFn]
  split
  · exact s.ownEntry_sound
  · split
    · exact ⟨Nat.zero_le _, fun h => by cases h⟩
    · split
      · exact ⟨Nat.zero_le _, fun h => by cases h⟩
      · exact RosterEntry.absent_sound

theorem State.confirm_changes (s : State) (f : Frame) (h : s.member.link = .joining) : Changes s.track (s.confirm f).track := by
  have h1 : Changes s.track { s.track with link := .member } :=
    .single (Change.link s.track .member (show s.member.link.offLink by rw [h]; exact LinkState.offLink_joining))
  have h2 : Changes s.track { s.track with link := .member, roster := s.confirmedRoster f } :=
    h1.tail (.move (Move.roster _ _ (fun _ => s.confirmedRoster_sound f)))
  refine Relation.ReflTransGen.trans ?_ (Moves.changes (State.retake_moves _))
  exact h2

theorem State.frameHolder_changes (s : State) (f : Frame) : Changes s.track (s.frameHolder f).track := by
  unfold State.frameHolder
  refine Changes.ite (fun _ => .refl) (fun _ => ?_)
  dsimp only
  refine Changes.ite (fun _ => ?_) (fun _ => .refl)
  exact State.moveHolder_changes ((s.setHolder (some f.sender)).markActivity) _

theorem State.memberFrame_changes (s : State) (f : Frame) : Changes s.track (s.memberFrame f).track := by
  unfold State.memberFrame
  dsimp only
  have h := s.rosterEffect_moves f
  refine Relation.ReflTransGen.trans ?_ (State.frameHolder_changes _ _)
  exact Changes.ite (fun hm => Moves.changes (h.trans (State.takePayload_moves _ _ hm))) (fun _ => h.changes)

theorem State.hearingFrame_changes (s : State) (f : Frame) : Changes s.track (s.hearingFrame f).track := by
  unfold State.hearingFrame
  refine Changes.ite (fun hc => (s.confirm_changes f hc.1).trans (State.memberFrame_changes _ _)) (fun _ => ?_)
  refine Relation.ReflTransGen.trans ?_ (State.frameHolder_changes _ _)
  exact Changes.ite (fun _ => .refl) (fun _ => .refl)

theorem State.intactFrame_changes (s : State) (f : Frame) : Changes s.track (s.intactFrame f).track := by
  unfold State.intactFrame
  split
  · exact s.hearingFrame_changes f
  · exact s.hearingFrame_changes f
  · exact s.memberFrame_changes f
  · exact s.memberFrame_changes f
  · exact .refl

@[simp] theorem State.corrupt_track (s : State) : s.corrupt.track = s.track := by
  unfold State.corrupt
  split <;> rfl

theorem State.frameHeard_changes (s : State) (l : List Byte) : Changes s.track (s.frameHeard l).track := by
  unfold State.frameHeard
  refine Changes.ite (fun _ => .refl) (fun _ => ?_)
  split
  · rw [State.corrupt_track]; exact .refl
  · exact State.intactFrame_changes s.receiverIdle _

theorem State.found_changes (s : State) (h : s.member.link = .listening ∨ s.member.link = .joining) : Changes s.track s.found.track := by
  have h1 : Changes s.track { s.track with link := .founding } :=
    .single (Change.link s.track .founding (show s.member.link.offLink by
      rcases h with h | h <;> rw [h]
      · exact LinkState.offLink_listening
      · exact LinkState.offLink_joining))
  exact h1.tail (.move (Move.tx _ .founding (fun h => by cases h) (by show LinkState.founding ≠ .unconfigured; decide)))

theorem State.foundedRoster_sound (s : State) :
    ∀ n : Station, ((Vector.replicate 16 RosterEntry.absent).set s.own s.ownEntry)[n].sound :=
  roster_set_sound (v := Vector.replicate 16 RosterEntry.absent) (fun n => by
    simp only [Fin.getElem_fin, Vector.getElem_replicate]; exact RosterEntry.absent_sound) s.own s.ownEntry_sound

theorem State.endTransmission_changes (s : State) : Changes s.track s.endTransmission.track := by
  unfold State.endTransmission
  split
  · exact .refl
  · next t ht =>
    have h1 : Changes s.track ({ s with line := { s.line with tx := none } } : State).track := .single (Change.silent s.track)
    dsimp only
    split
    · exact h1.trans (State.moveHolder_changes _ _)
    · exact Changes.ite (fun _ => h1) (fun _ => h1)
    · next hk =>
      have htx : s.track.tx = some .founding := by
        show s.line.tx.map Transmission.kind = _
        rw [ht]; exact congrArg some hk
      refine Relation.ReflTransGen.trans ?_ (State.retake_moves _).changes
      exact .single (Change.founded s.track _ htx s.foundedRoster_sound)
    · next hk =>
      have htx : s.track.tx = some .leave := by
        show s.line.tx.map Transmission.kind = _
        rw [ht]; exact congrArg some hk
      exact .single (Change.left s.track Membership.reset.roster htx Membership.reset_sound)

/-! ### The host's commands -/

theorem State.setCommandStatus_track (s : State) (c : CommandStatus) : (s.setCommandStatus c).track = s.track := rfl

theorem State.hosted_changes (s : State) (f : State → State) (h : s.host.config ≠ none → Changes s.track (f s).track) :
    Changes s.track (s.hosted f).track := by
  refine Changes.ite (fun hc => h ?_) (fun _ => .refl)
  intro hn
  rw [State.configured, hn] at hc
  cases hc

theorem State.setLatch_changes (s : State) (l : Latch) (h : s.host.latch ≠ .matched) (hl : l ≠ .matched) :
    Changes s.track (s.setLatch l).track := .single (Change.latch s.track l h hl)

theorem State.matchConfig_changes (s : State) (c : Cfg) (h : s.host.latch ≠ .matched) : Changes s.track (s.matchConfig c).track := by
  unfold State.matchConfig
  dsimp only
  have h1 : Changes s.track ({ s with
      host := { s.host with config := some c, latch := .matched }
      member := { s.member with link := .offline }
      buf := { s.buf with initFree := initPool c, servFree := servPool c }
      timebase := true } : State).track := .single (Change.matched s.track c h)
  refine Changes.ite (fun _ => ?_) (fun _ => h1.trans (State.withPort_moves _ _).changes)
  rw [State.setFlag_track]
  exact h1.trans (State.withPort_moves _ _).changes

theorem State.writeConfigA_changes (s : State) (w : Word) : Changes s.track (s.writeConfigA w).track := by
  unfold State.writeConfigA
  split <;> rename_i h
  · exact s.setLatch_changes _ (by rw [h]; exact fun h => by cases h) (fun h => by cases h)
  · exact s.setLatch_changes _ (by rw [h]; exact fun h => by cases h) (fun h => by cases h)
  · refine s.setLatch_changes _ (by rw [h]; exact fun h => by cases h) ?_
    split <;> exact fun h => by cases h
  · exact s.setLatch_changes _ (by rw [h]; exact fun h => by cases h) (fun h => by cases h)
  · exact .refl

theorem State.writeConfigB_changes (s : State) (w : Word) : Changes s.track (s.writeConfigB w).track := by
  unfold State.writeConfigB
  split <;> rename_i h
  · exact .refl
  · exact s.setLatch_changes _ (by rw [h]; exact fun h => by cases h) (fun h => by cases h)
  · exact s.setLatch_changes _ (by rw [h]; exact fun h => by cases h) (fun h => by cases h)
  · refine Changes.ite (fun _ => ?_) (fun _ => s.setLatch_changes _ (by rw [h]; exact fun h => by cases h) (fun h => by cases h))
    split
    · exact s.matchConfig_changes _ (by rw [h]; exact fun h => by cases h)
    · exact s.setLatch_changes _ (by rw [h]; exact fun h => by cases h) (fun h => by cases h)
  · exact .refl

theorem State.postRequest_moves (s : State) : Moves s.track s.postRequest.track := by
  unfold State.postRequest
  split
  · exact .refl
  · next q _ =>
    refine Moves.ite (fun h => ?_) (fun _ => .refl)
    have h1 : Moves s.track ({ s with host := { s.host with requests := s.host.requests ++ [q] } } : State).track :=
      .single (Move.requests s.track _ (Or.inl (by
        show (s.host.requests ++ [q]).length ≤ 8
        rw [List.length_append, List.length_singleton]; exact h)))
    refine Moves.ite (fun _ => ?_) (fun _ => h1)
    refine Relation.ReflTransGen.trans ?_ (State.retake_moves _)
    exact h1

theorem State.popOutcome_moves (s : State) : Moves s.track s.popOutcome.track := by
  unfold State.popOutcome
  split
  · exact .refl
  · next o rest h => exact (s.popped_moves o rest h).trans (State.retake_moves _)

theorem State.writeFlags_track (s : State) (w : Word) : (s.writeFlags w).track = s.track := by
  unfold State.writeFlags
  by_cases h : w.getLsbD 7 = true
  · simp only [h, if_true]; rfl
  · simp only [h]; rfl

theorem State.loadScript_moves (s : State) (w : Word) : Moves s.track (s.loadScript w).track := by
  unfold State.loadScript
  refine Moves.ite (fun _ => .refl) (fun _ => ?_)
  split
  · exact State.withPort_moves { s with host := { s.host with stepCount := w.extractLsb' 0 5 } } _
  · exact .refl

theorem State.writeStaging_track (s : State) (k : Nat) (w : Word) : (s.writeStaging k w).track = s.track := by
  unfold State.writeStaging
  dsimp only
  split <;> rfl

theorem State.writePlain_track (s : State) (off : Nat) (w : Word) : (s.writePlain off w).track = s.track := by
  unfold State.writePlain
  split
  · rfl
  · rfl
  · rfl
  · rfl
  · rfl
  · rfl
  · rfl
  · split
    · exact s.writeStaging_track _ w
    · rfl

theorem State.joinLink_changes (s : State) : Changes s.track s.joinLink.track := by
  unfold State.joinLink
  split
  · next h =>
    exact .single (Change.link s.track .listening (show s.member.link.offLink by rw [h]; exact LinkState.offLink_offline))
  · exact .refl

theorem State.goOffline_changes (s : State) (h : s.member.link.offLink) :
    Changes s.track ({ s with member := s.member.offline } : State).track :=
  (Relation.ReflTransGen.single (Change.link s.track .offline h)).tail
    (.move (Move.roster _ Membership.reset.roster (fun _ => Membership.reset_sound)))

theorem State.withdrawAll_moves (s : State) : Moves s.track s.withdrawAll.track := by
  refine Moves.foldl _ (fun u r => ?_) _ _
  split
  · next x hx => exact Moves.ite (fun _ => u.endInit_moves x _ _ _ (State.initRec_mem hx).1) (fun _ => .refl)
  · exact .refl

theorem State.portLeaves_moves (s : State) : Moves s.track s.portLeaves.track := by
  unfold State.portLeaves
  split
  · exact s.enterIdle_moves
  · exact s.enterResetting_moves
  · exact .refl

theorem State.fullPools_eq (s : State) (h : s.host.config ≠ none) :
    s.fullPools.initFree = (poolsOf s.host.config).1 ∧ s.fullPools.servFree = (poolsOf s.host.config).2 ∧
      s.fullPools.ram = s.buf.ram := by
  unfold State.fullPools
  cases hc : s.host.config with
  | none => exact absurd hc h
  | some c => exact ⟨rfl, rfl, rfl⟩

theorem State.enterLeaving_changes (s : State) (hc : s.host.config ≠ none) : Changes s.track s.enterLeaving.track := by
  unfold State.enterLeaving
  dsimp only
  have h1 : Moves s.track s.withdrawAll.portLeaves.track := s.withdrawAll_moves.trans (State.portLeaves_moves _)
  generalize s.withdrawAll.portLeaves = u at h1 ⊢
  have hcu : u.host.config ≠ none := by
    have : u.host.config = s.host.config := h1.config_eq
    rw [this]; exact hc
  refine Relation.ReflTransGen.trans (h1.changes.tail ?_) (State.grant_moves _).changes
  have := Change.cleared u.track .leaving u.track.tx u.track.requests u.track.outcomes u.track.roster hcu (Or.inl rfl)
    (Nat.le_refl _) (Nat.le_refl _) (fun h => h)
  have hf := u.fullPools_eq hcu
  simp only [State.track, hf.1, hf.2.1, hf.2.2] at this ⊢
  exact this

theorem State.leaveLink_changes (s : State) (hc : s.host.config ≠ none) : Changes s.track s.leaveLink.track := by
  unfold State.leaveLink
  split
  · next h => exact s.goOffline_changes (by rw [h]; exact LinkState.offLink_listening)
  · next h => exact s.goOffline_changes (by rw [h]; exact LinkState.offLink_joining)
  · exact Changes.ite (fun _ => s.enterLeaving_changes hc) (fun _ => .refl)
  · exact .refl

theorem State.stationReset_changes (s : State) (hc : s.host.config ≠ none) : Changes s.track s.stationReset.track := by
  have := Change.cleared s.track .offline none [] [] Membership.reset.roster hc (Or.inr ⟨rfl, rfl⟩)
    (Nat.zero_le _) (Nat.zero_le _) (fun _ => Membership.reset_sound)
  have hf := s.fullPools_eq hc
  refine .single ?_
  simp only [State.track, State.stationReset, hf.1, hf.2.1, hf.2.2] at this ⊢
  exact this

theorem State.cancelRequest_moves (s : State) (q : Request) (h : s.host.outcomes.length < 16) :
    Moves s.track (s.cancelRequest q).track := by
  have h1 := (s.setRequests_moves (s.host.requests.eraseP (fun x => decide (x.label = q.label))) List.length_eraseP_le).trans
    (State.pushOutcome_moves _ (q.outcomeRec .cancelled) h)
  unfold State.cancelRequest
  dsimp only
  split
  · exact h1.trans (State.retake_moves _)
  · exact h1

theorem State.cancelLabel_moves (s : State) (l : Label) : Moves s.track (s.cancelLabel l).track := by
  unfold State.cancelLabel
  split
  · next r hr => exact s.endAndTake_moves r _ _ _ (List.mem_of_find?_eq_some hr)
  · split
    · refine Moves.ite (fun hlen => ?_) (fun _ => .refl)
      rw [State.setCommandStatus_track]
      exact s.cancelRequest_moves _ hlen
    · exact .refl

theorem State.runMaint_moves (s : State) : Moves s.track s.runMaint.track := by
  unfold State.runMaint
  refine Moves.ite (fun _ => .refl) (fun _ => Moves.ite (fun _ => .refl) (fun _ => Moves.ite (fun _ => .refl) (fun _ => ?_)))
  rw [State.setCommandStatus_track]
  exact (State.withPort_moves _ _).trans (State.grant_moves _)

theorem State.writeCommand_changes (s : State) (c : BitVec 3) (hc : s.host.config ≠ none) : Changes s.track (s.writeCommand c).track := by
  unfold State.writeCommand
  split
  · exact s.joinLink_changes
  · exact s.leaveLink_changes hc
  · exact s.stationReset_changes hc
  · exact (s.cancelLabel_moves _).changes
  · exact s.runMaint_moves.changes
  · exact .refl

theorem State.writeWindow_changes (s : State) (off : BitVec 7) (w : Word) (hc : s.host.config ≠ none) :
    Changes s.track (s.writeWindow off w).track := by
  unfold State.writeWindow
  split
  · exact s.writeCommand_changes _ hc
  · rw [State.writeFlags_track]
  · exact s.postRequest_moves.changes
  · exact s.popOutcome_moves.changes
  · exact .refl
  · exact (s.loadScript_moves w).changes
  · rw [State.writePlain_track]

/-! ### Channel accesses -/

theorem State.strayAccess_track (s : State) (a : Access) : (s.strayAccess a).track = s.track := by
  cases a <;> rfl

theorem InitRec.same_setState (r : InitRec) (f : Ring → Ring) (h : ∀ g, (f g).areas = g.areas) (m : Nat) (fl : Flow) :
    InitRec.Same r { r with ring := r.ring.map f, moved := m, flow := fl } :=
  ⟨rfl, ringAreas_map h _, fun hn => by rw [hn]; rfl, rfl⟩

theorem State.drainDone_moves (s : State) (r : InitRec) (b : Nat) (hr : r ∈ s.exch.inits) : Moves s.track (s.drainDone r b).track := by
  unfold State.drainDone
  dsimp only
  have h1 := (s.setInit_moves hr (r.same_setState (fun g => g.setState b .empty) (fun g => Ring.setState_areas _ _ _) (r.moved + 1)
    (match r.flow with
      | .receiver c => .receiver { c with consumed := c.consumed + 1 }
      | f => f))).trans (State.offerInit_moves _ r.tag .credit)
  refine Moves.ite (fun _ => ?_) (fun _ => h1)
  split
  · next x hx => exact h1.trans (State.completeInit_moves _ _ (State.initRec_mem hx).1)
  · exact h1

theorem State.drainWord_moves (s : State) (r : InitRec) (slot : Slot) (b w : Nat) (hr : r ∈ s.exch.inits) :
    Moves s.track (s.drainWord r slot b w).track := by
  unfold State.drainWord
  dsimp only
  refine Moves.ite (fun _ => ?_) (fun _ => State.drainDone_moves (s.giveWord (s.buf.ram.readWord slot.area w)) r b hr)
  exact State.setInit_moves (s.giveWord (s.buf.ram.readWord slot.area w)) hr
    (r.same_setState _ (fun g => Ring.setState_areas _ _ _) r.moved r.flow)

theorem State.fillWord_moves (s : State) (r : InitRec) (slot : Slot) (b w : Nat) (v : Word) (hr : r ∈ s.exch.inits) :
    Moves s.track (s.fillWord r slot b w v).track := by
  unfold State.fillWord
  dsimp only
  have h1 := s.writeRam_moves (s.buf.ram.writeWord slot.area w v) (Memory.writeWord_wf _ _ _ _)
  refine Moves.ite (fun _ => h1.trans (State.setInit_moves _ hr ?_)) (fun _ => h1.trans (State.setInit_moves _ hr ?_))
  · exact r.same_setState _ (fun g => Ring.setState_areas _ _ _) r.moved r.flow
  · exact r.same_setState _ (fun g => Ring.setState_areas _ _ _) (r.moved + 1) r.flow

theorem State.accessChannel_moves (s : State) (c : Channel) (a : Access) : Moves s.track (s.accessChannel c a).track := by
  unfold State.accessChannel
  split
  · next r hr =>
    have hm := (State.channelHead_mem hr).1
    refine Moves.ite (fun _ => by rw [State.strayAccess_track]) (fun _ => ?_)
    split
    · split
      · exact s.drainWord_moves r _ _ _ hm
      · exact s.drainWord_moves r _ _ _ hm
    · split
      · exact s.fillWord_moves r _ _ _ _ hm
      · exact s.fillWord_moves r _ _ _ _ hm
    · rw [State.strayAccess_track]
  · rw [State.strayAccess_track]

/-! ### Watches and time -/

theorem State.expire_moves (s : State) (t : Tag) : Moves s.track (s.expire t).track := by
  unfold State.expire
  split
  · next r hr => exact Moves.ite (fun _ => s.endAndTake_moves r _ _ _ (State.initRec_mem hr).1) (fun _ => .refl)
  · exact .refl

theorem State.tickLifetimes_moves (s : State) : Moves s.track s.tickLifetimes.track := by
  unfold State.tickLifetimes
  refine Relation.ReflTransGen.trans (b := ({ s with exch := { s.exch with
    inits := s.exch.inits.map (fun r => { r with lifetime := r.lifetime.map (fun n => n - 1) }) } } : State).track) ?_ ?_
  · exact .single (Move.initEdit s.track _ (fun x _ => ⟨rfl, rfl, fun h => h, rfl⟩))
  · exact Moves.foldl _ (fun u (r : InitRec) => u.expire_moves r.tag) _ _

theorem State.tickWatchdog_moves (s : State) : Moves s.track s.tickWatchdog.track := by
  unfold State.tickWatchdog
  split
  · exact Moves.ite (fun _ => s.withPort_moves _) (fun _ => (s.withPort_moves _).trans (State.watchdogExpires_moves _))
  · exact .refl

theorem State.tickStarting_moves (s : State) : Moves s.track s.tickStarting.track := by
  unfold State.tickStarting
  split
  · exact Moves.ite (fun _ => s.withPort_moves _) (fun _ => (s.withPort_moves _).trans (State.enterFailed_moves _))
  · exact .refl

theorem State.tick_moves (s : State) : Moves s.track s.tick.track :=
  Moves.ite (fun _ => (s.tickLifetimes_moves.trans (State.tickWatchdog_moves _)).trans (State.tickStarting_moves _)) (fun _ => .refl)

/-! ### Commands -/

/-- A command that answers a next state answers one that the changes reach. -/
def Answers (s : State) (o : Host.Outcome State Fault Refusal) : Prop := ∀ u, o = .next u → Changes s.track u.track

theorem Answers.next {s u : State} (h : Changes s.track u.track) : Answers s (.next u) := by
  intro v hv
  cases hv
  exact h

theorem Answers.same (s : State) : Answers s (.next s) := .next .refl

theorem Answers.ite {c : Prop} [Decidable c] {s : State} {a b : Host.Outcome State Fault Refusal} (h1 : c → Answers s a)
    (h2 : ¬ c → Answers s b) : Answers s (if c then a else b) := by
  by_cases h : c
  · rw [if_pos h]; exact h1 h
  · rw [if_neg h]; exact h2 h

theorem execAskResend_answers (t : Tag) (s : State) : Answers s (execAskResend t s) := by
  unfold execAskResend
  split
  · next r hr =>
    split
    · next sends hd =>
      refine Answers.ite (fun _ => .next (Moves.changes ?_)) (fun _ => .same s)
      have hm := State.initRec_mem hr
      have hl : r.live = true := by
        unfold InitRec.askDue at hd
        unfold InitRec.live
        cases hs : r.state <;> simp [hs] at hd ⊢
      have h1 := s.countAsk_moves r hm.1 hl (sends + 1) 0
      rw [hm.2] at h1
      exact h1.trans (State.offerAskOnce_moves _ _)
    · exact .same s
  · exact .same s

theorem execNoReply_answers (t : Tag) (s : State) : Answers s (execNoReply t s) := by
  unfold execNoReply
  split
  · next r hr =>
    split
    · exact Answers.ite (fun _ => .next (s.endAndTake_moves r _ _ _ (State.initRec_mem hr).1).changes) (fun _ => .same s)
    · exact .same s
  · exact .same s

theorem execStallRewind_answers (p : Position) (s : State) : Answers s (execStallRewind p s) := by
  unfold execStallRewind
  split
  · split
    · next r hr =>
      split
      · exact Answers.ite (fun _ => .next (s.initStallWatch_moves r (State.initRec_mem hr).1).changes) (fun _ => .same s)
      · exact .same s
    · exact .same s
  · split
    · next r hr =>
      split
      · exact Answers.ite (fun _ => .next (s.targetStallWatch_moves r (State.targetRec_mem hr).1).changes) (fun _ => .same s)
      · exact .same s
    · exact .same s

theorem execRewindLimitInitiator_answers (t : Tag) (s : State) : Answers s (execRewindLimitInitiator t s) := by
  unfold execRewindLimitInitiator
  split
  · next r hr =>
    have hm := (State.initRec_mem hr).1
    split
    · next c _ =>
      refine Answers.ite (fun _ => .next (Moves.changes ?_)) (fun _ => .same s)
      have hs : InitRec.Same r { r with flow := .sender { c with rewinds := Limit.rewinds } } := ⟨rfl, rfl, fun h => h, rfl⟩
      exact (s.setInit_moves hm hs).trans (State.rewindLimitInit_moves _ _ (State.setInit_mem hm rfl))
    · exact .same s
  · exact .same s

theorem execRewindLimitTarget_answers (p : Station) (t : Tag) (s : State) : Answers s (execRewindLimitTarget p t s) := by
  unfold execRewindLimitTarget
  split
  · next r hr =>
    have hm := State.targetRec_mem hr
    split
    · next c _ =>
      refine Answers.ite (fun _ => .next (Moves.changes ?_)) (fun _ => .same s)
      obtain ⟨i, hi, hp, ht⟩ := TargetRec.keyed_id hm.2
      subst hp ht
      have h1 := s.replaceTarget_moves (r := { r with flow := .sender { c with rewinds := Limit.rewinds } }) hm.1 hi
        ⟨rfl, rfl, fun h => h, fun h => h, Iff.rfl⟩
      exact h1.trans (State.rewindLimitTarget_moves _ _ (List.mem_map.2 ⟨r, hm.1, if_pos (TargetRec.keyed_of_id hi)⟩))
    · exact .same s
  · exact .same s

theorem execPrimingCredit_answers (s : State) : Answers s (execPrimingCredit s) := by
  unfold execPrimingCredit
  split
  · split
    · refine Answers.ite (fun _ => .next (Moves.changes ?_)) (fun _ => .same s)
      refine Relation.ReflTransGen.trans ?_ (State.offerTarget_moves _ _ _ _)
      exact s.mapTarget_moves _ _ _ (fun x _ => ⟨rfl, rfl, fun h => h, fun h => h, Iff.rfl⟩)
    · exact .same s
  · exact .same s

theorem execPrimingLimit_answers (s : State) : Answers s (execPrimingLimit s) := by
  unfold execPrimingLimit
  split
  · next r hr =>
    split
    · exact Answers.ite (fun _ => .next (s.primingEnds_moves r (State.activeRec_mem hr).1).changes) (fun _ => .same s)
    · exact .same s
  · exact .same s

theorem execStarvationLimit_answers (s : State) : Answers s (execStarvationLimit s) := by
  unfold execStarvationLimit
  split
  · split
    · exact Answers.ite (fun _ => .next (s.endByWatch_moves _).changes) (fun _ => .same s)
    · exact .same s
  · exact .same s

theorem execOutcomeResend_answers (p : Station) (t : Tag) (s : State) : Answers s (execOutcomeResend p t s) := by
  unfold execOutcomeResend
  split
  · split
    · exact Answers.ite (fun _ => .next (Moves.changes ((s.resendWatch_moves _ _ _).trans (State.offerTargetOnce_moves _ _ _ _))))
        (fun _ => .same s)
    · exact .same s
  · exact .same s

/-- Every command but a hardware reset is a sequence of changes. -/
theorem exec_answers (i : Instr) (s : State) (h : i ≠ .hardwareReset) : Answers s (exec i s) := by
  cases i with
  | hardwareReset => exact absurd rfl h
  | configAWrite w => exact .next (Changes.ite (fun _ => .refl) (fun _ => s.writeConfigA_changes w))
  | configBWrite w => exact .next (Changes.ite (fun _ => .refl) (fun _ => s.writeConfigB_changes w))
  | registerWrite off w =>
    refine Answers.ite (fun _ => .next (Changes.ite (fun _ => .refl) (fun _ => s.writeConfigA_changes w))) (fun _ => ?_)
    refine Answers.ite (fun _ => .next (Changes.ite (fun _ => .refl) (fun _ => s.writeConfigB_changes w))) (fun _ => ?_)
    exact .next (s.hosted_changes _ (fun hc => s.writeWindow_changes off w hc))
  | post => exact .next (s.hosted_changes _ (fun _ => s.postRequest_moves.changes))
  | outcomePop => exact .next (s.hosted_changes _ (fun _ => s.popOutcome_moves.changes))
  | flagsWrite w => exact .next (s.hosted_changes _ (fun _ => by rw [State.writeFlags_track]))
  | thresholdsWrite w => exact .next (s.hosted_changes _ (fun _ => .refl))
  | maintLoad w => exact .next (s.hosted_changes _ (fun _ => (s.loadScript_moves w).changes))
  | joinLink => exact .next (s.hosted_changes _ (fun _ => s.joinLink_changes))
  | leaveLink => exact .next (s.hosted_changes _ (fun hc => s.leaveLink_changes hc))
  | stationReset => exact .next (s.hosted_changes _ (fun hc => s.stationReset_changes hc))
  | cancel => exact .next (s.hosted_changes _ (fun _ => (s.cancelLabel_moves _).changes))
  | runMaint => exact .next (s.hosted_changes _ (fun _ => s.runMaint_moves.changes))
  | commandInvalidCode code => exact .next (s.hosted_changes _ (fun hc => s.writeCommand_changes code hc))
  | channelAccess ch acc =>
    refine .next (Changes.ite (fun _ => (s.accessChannel_moves ch acc).changes) (fun _ => ?_))
    cases acc <;> exact .refl
  | takeRequest => exact .next (s.hosted_changes _ (fun _ => s.retake_moves.changes))
  | intactFrameReceived bytes => exact .next (Changes.ite (fun _ => s.frameHeard_changes bytes) (fun _ => .refl))
  | corruptFrame => exact .next (Changes.ite (fun _ => by rw [State.corrupt_track]; exact .refl) (fun _ => .refl))
  | silenceEvent => exact .next (Changes.ite (fun _ => s.silence_changes) (fun _ => .refl))
  | missesReach3 n => exact .next (Changes.ite (fun _ => s.silence_changes) (fun _ => .refl))
  | joinResend => exact .next (Changes.ite (fun _ => s.moveHolder_changes none) (fun _ => .refl))
  | foundingWaitExpiry =>
    refine .next (Changes.ite (fun h => s.found_changes ?_) (fun _ => .refl))
    unfold State.foundingWaitRuns at h
    cases hl : s.member.link <;> simp [hl] at h ⊢
  | endOfTransmission => exact .next s.endTransmission_changes
  | askResend t => exact execAskResend_answers t s
  | noReply t => exact execNoReply_answers t s
  | lifetimeExpiry t => exact .next (s.expire_moves t).changes
  | stallRewind p => exact execStallRewind_answers p s
  | rewindLimitInitiator t => exact execRewindLimitInitiator_answers t s
  | rewindLimitTarget n t => exact execRewindLimitTarget_answers n t s
  | primingCredit => exact execPrimingCredit_answers s
  | primingLimit => exact execPrimingLimit_answers s
  | starvationLimit => exact execStarvationLimit_answers s
  | outcomeResend n t => exact execOutcomeResend_answers n t s
  | moduleGrant => exact .next s.grant_moves.changes
  | slotAccessComplete v => exact .next (Changes.ite (fun _ => (s.slotDone_moves v).changes) (fun _ => .refl))
  | blockTransferBegin => exact .next (Changes.ite (fun _ => s.beginTransfer_moves.changes) (fun _ => .refl))
  | xferShown level => exact .next (s.xferLevel_moves level).changes
  | attnRise status detail => exact .next (s.attn_moves status detail).changes
  | watchdogExpiry => exact .next (Changes.ite (fun _ => s.watchdogExpires_moves.changes) (fun _ => .refl))
  | mrstRelease => exact .next (Changes.ite (fun _ => s.releaseReset_moves.changes) (fun _ => .refl))
  | startingTimeout =>
    show Answers s (execStartingTimeout s)
    unfold execStartingTimeout
    split
    · exact .next s.enterFailed_moves.changes
    · exact .same s
  | receivedFrameStart => exact .next (Changes.ite (fun _ => by rw [State.corrupt_track]; exact .refl) (fun _ => .refl))
  | resetNRelease => exact .next .refl

/-- What a step does to the tracked part: changes, or a hardware reset. -/
def Stepped (t u : Track) : Prop := Changes t u ∨ u = t.reset

/-- Every command keeps the queue's rest, and every step does what `Stepped` says of the state without the command it takes. -/
theorem exec_stepped (i : Instr) (s : State) {u : State} (hu : exec i s = .next u) : Stepped s.track u.track := by
  by_cases h : i = .hardwareReset
  · subst h
    cases hu
    exact .inr rfl
  · exact .inl (exec_answers i s h u hu)

theorem step_stepped (s : State) {u : State} (hu : step s = .next u) :
    ∃ l, Stepped { s.track with pending := l } u.track := by
  unfold step at hu
  split at hu
  · next i rest _ => exact ⟨rest, exec_stepped i { s with pending := rest } hu⟩
  · cases hu
    exact ⟨s.pending, .inl s.tick_moves.changes⟩

theorem Stepped.keeps {P : Track → Prop} (hP : ∀ {t u}, Change t u → P t → P u) (hR : ∀ {t : Track}, P t → P t.reset) {t u : Track}
    (m : Stepped t u) (h : P t) : P u := by
  rcases m with m | rfl
  · exact m.keeps hP h
  · exact hR h

/-- A property of the tracked part that no change, no reset and not the queue of commands affects is kept by every step. -/
theorem step_keeps {P : Track → Prop} (hP : ∀ {t u}, Change t u → P t → P u) (hR : ∀ {t : Track}, P t → P t.reset)
    (hq : ∀ {t : Track} (l : List Instr), P t → P { t with pending := l }) {s u : State} (h : P s.track) (hu : step s = .next u) :
    P u.track := by
  obtain ⟨l, m⟩ := step_stepped s hu
  exact m.keeps hP hR (hq l h)

end Sys2Proof.Machine
end

