-- ==== Sys2Proof/Laws/Line.lean ====
section
/-! SUPPORT. The bytes of items and frames read back as they were laid out (R155, R156, R157), part by part. -/

namespace Sys2Proof.Machine

theorem hiNibble_nibbles {a b : Nat} (ha : a < 16) (hb : b < 16) : hiNibble (nibbles a b) = a := by
  simp only [hiNibble, nibbles, bitField, BitVec.toNat_ofNat, Nat.shiftRight_eq_div_pow]
  omega

theorem loNibble_nibbles {a b : Nat} (hb : b < 16) : loNibble (nibbles a b) = b := by
  simp only [loNibble, nibbles, bitField, BitVec.toNat_ofNat, Nat.shiftRight_eq_div_pow]
  omega

theorem ofBe16_be16 {n : Nat} (h : n < 65536) : ofBe16 (BitVec.ofNat 8 (n / 256)) (BitVec.ofNat 8 n) = n := by
  simp only [ofBe16, BitVec.toNat_ofNat]
  omega

theorem ofBe32_be32 {n : Nat} (h : n < 4294967296) :
    ofBe32 (BitVec.ofNat 8 (n / 16777216)) (BitVec.ofNat 8 (n / 65536)) (BitVec.ofNat 8 (n / 256)) (BitVec.ofNat 8 n) = n := by
  simp only [ofBe32, BitVec.toNat_ofNat]
  omega

theorem ItemBody.bytes_length (b : ItemBody) : b.bytes.length = 9 := by
  cases b with
  | reply r => cases r <;> rfl
  | _ => rfl

theorem Item.encode_length (i : Item) : i.encode.length = 12 := by
  simp only [Item.encode, List.length_cons, ItemBody.bytes_length]

theorem itemKindCode_lt (k : ItemKind) : itemKindCode k < 16 := by cases k <;> decide

/-- The second byte of an item: its fields read back. -/
theorem dirTag {a : Nat} (ha : a < 16) (d : Nat) (hd : d < 2) (t : Tag) :
    hiNibble (nibbles a (d * 8 + t)) = a ∧ (nibbles a (d * 8 + t)).getLsbD 3 = decide (d = 1) ∧
      Fin.ofNat 8 (bitField (nibbles a (d * 8 + t)) 0 3) = t := by
  have ht := t.isLt
  refine ⟨?_, ?_, ?_⟩
  · simp only [hiNibble, nibbles, bitField, BitVec.toNat_ofNat, Nat.shiftRight_eq_div_pow]; omega
  · simp only [nibbles, BitVec.getLsbD_ofNat, Nat.testBit_eq_decide_div_mod_eq]
    have : (a * 16 + (d * 8 + t.val)) / 2 ^ 3 % 2 = d := by omega
    rw [this]
    rfl
  · apply Fin.ext
    simp only [nibbles, bitField, BitVec.toNat_ofNat, Nat.shiftRight_eq_div_pow, Fin.ofNat]
    omega

theorem reason_code (r : Reason) : reasonOfCode (BitVec.ofNat 8 (reasonCode r)).toNat = some r ∧ BitVec.ofNat 8 (reasonCode r) ≠ (0 : Byte) := by
  cases r <;> decide

theorem outcome_code (c : OutcomeCode) : outcomeOfCode (BitVec.ofNat 8 (outcomeCode c)).toNat = some c := by
  cases c <;> decide

theorem ItemBody.dirBit_lt (b : ItemBody) : b.dirBit < 2 := by
  cases b with
  | credit d _ _ => cases d with
    | target => exact Nat.zero_lt_two
    | initiator => exact Nat.one_lt_two
  | _ => exact Nat.zero_lt_two

theorem decodeItem_encode (i : Item) (h : i.body.fits) : decodeItem i.encode = some i := by
  obtain ⟨dest, init, tag, serial, body⟩ := i
  have hk := hiNibble_nibbles (itemKindCode_lt body.kind) dest.isLt
  have hl := loNibble_nibbles (a := itemKindCode body.kind) dest.isLt
  have hd := dirTag init.isLt body.dirBit body.dirBit_lt tag
  have key : ∀ b3 b4 b5 b6 b7 b8 b9 b10 b11, body.bytes = [b3, b4, b5, b6, b7, b8, b9, b10, b11] →
      itemBodyOf (itemKindCode body.kind) (decide (body.dirBit = 1)) b3 b4 b5 b6 b7 b8 b9 = some body →
      decodeItem (Item.encode ⟨dest, init, tag, serial, body⟩) = some ⟨dest, init, tag, serial, body⟩ := by
    intro b3 b4 b5 b6 b7 b8 b9 b10 b11 hb hbody
    unfold Item.encode
    dsimp only
    rw [hb]
    unfold decodeItem
    dsimp only
    rw [hk, hl, hd.1, hd.2.1, hd.2.2, hbody]
    simp
  cases body with
  | ask op count addr =>
    refine key _ _ _ _ _ _ _ _ _ rfl ?_
    show some (ItemBody.ask _ _ _) = _
    rw [ofBe16_be16 h, ofBe32_be32 addr.isLt, BitVec.ofNat_toNat, BitVec.setWidth_eq]
  | reply r =>
    cases r with
    | none => exact key _ _ _ _ _ _ _ _ _ rfl rfl
    | some r =>
      refine key _ _ _ _ _ _ _ _ _ rfl ?_
      show (if _ then _ else _) = _
      rw [if_neg (reason_code r).2, (reason_code r).1]
      rfl
  | credit dir next limit =>
    refine key _ _ _ _ _ _ _ _ _ rfl ?_
    show some (ItemBody.credit _ _ _) = _
    rw [ofBe16_be16 h.1, ofBe16_be16 h.2]
    cases dir <;> rfl
  | outcome code done status detail =>
    refine key _ _ _ _ _ _ _ _ _ rfl ?_
    show (outcomeOfCode _).map _ = _
    rw [outcome_code, Option.map_some, ofBe16_be16 h, ofBe16_be16 status.isLt, ofBe16_be16 detail.isLt]
    simp
  | close => exact key _ _ _ _ _ _ _ _ _ rfl rfl
  | cancel => exact key _ _ _ _ _ _ _ _ _ rfl rfl

theorem items_length (l : List Item) : (l.flatMap Item.encode).length = 12 * l.length := by
  induction l with
  | nil => rfl
  | cons i l ih => rw [List.flatMap_cons, List.length_append, Item.encode_length, ih, List.length_cons]; omega

theorem decodeItems_encode (l : List Item) (h : ∀ i ∈ l, i.body.fits) : decodeItems l.length (l.flatMap Item.encode) = l := by
  induction l with
  | nil => rfl
  | cons i l ih =>
    have hl := Item.encode_length i
    rw [List.flatMap_cons, List.length_cons, decodeItems, List.take_append_of_le_length (Nat.le_of_eq hl.symm),
      List.take_of_length_le (Nat.le_of_eq hl), decodeItem_encode i (h i List.mem_cons_self)]
    dsimp only
    rw [List.drop_append_of_le_length (Nat.le_of_eq hl.symm), List.drop_of_length_le (Nat.le_of_eq hl), List.nil_append,
      ih (fun x hx => h x (List.mem_cons_of_mem _ hx))]

theorem flagByte_last (a b : Bool) : (flagByte a b).getLsbD 7 = a ∧ (flagByte a b).getLsbD 6 = b := by
  cases a <;> cases b <;> decide

theorem frameKind_code (k : FrameKind) : frameKindOfCode (frameKindCode k) = k := by cases k <;> rfl

theorem frameKindCode_lt (k : FrameKind) : frameKindCode k < 16 := by cases k <;> decide

/-- The first four bytes of a header read back, for any payload that is read back. -/
theorem frameOfBody_of (f : Frame) (b4 b5 b6 b7 : Byte) (rest : List Byte) (hh : f.payload.headerBytes = [b4, b5, b6, b7])
    (hb : f.payload.bytes = rest) (hp : framePayload f.kind (rest.length + 12) b4 b5 b6 b7 rest = f.payload) :
    frameOfBody f.body = some f := by
  obtain ⟨kind, sender, last, ready, roster, payload⟩ := f
  dsimp only at hh hb hp
  have hk := hiNibble_nibbles (frameKindCode_lt kind) sender.isLt
  have hl := loNibble_nibbles (a := frameKindCode kind) sender.isLt
  have hf := flagByte_last last ready
  unfold Frame.body
  dsimp only
  rw [hh, hb]
  show some (Frame.mk _ _ _ _ _ _) = _
  have hp' : framePayload kind (([].append rest).length + 12) b4 b5 b6 b7 ([].append rest) = payload := hp
  rw [hk, hl, frameKind_code, hp', hf.1, hf.2, ofBe16_be16 roster.isLt]
  simp

theorem frameOfBody_body (f : Frame) (h : f.fits) : frameOfBody f.body = some f := by
  obtain ⟨kind, sender, last, ready, roster, payload⟩ := f
  unfold Frame.fits at h
  dsimp only at h
  split at h
  · exact frameOfBody_of _ _ _ _ _ _ rfl rfl rfl
  · exact frameOfBody_of _ _ _ _ _ _ rfl rfl rfl
  · exact frameOfBody_of _ _ _ _ _ _ rfl rfl rfl
  · next l =>
    obtain ⟨h1, h2, h3⟩ := h
    refine frameOfBody_of _ _ _ _ _ _ rfl rfl ?_
    have hn : (BitVec.ofNat 8 l.length).toNat = l.length := by
      rw [BitVec.toNat_ofNat]; exact Nat.mod_eq_of_lt (Nat.lt_of_le_of_lt h2 (by decide))
    show (if _ then _ else _) = _
    rw [hn]
    rw [if_pos ⟨h1, h2, by show (l.flatMap Item.encode).length + 12 = _; rw [items_length]; omega⟩]
    show Payload.items (decodeItems l.length (l.flatMap Item.encode)) = _
    rw [decodeItems_encode l h3]
  · next d =>
    obtain ⟨h1, h2⟩ := h
    refine frameOfBody_of _ _ _ _ _ _ rfl rfl ?_
    have hc : d.bytes.length + 12 = 12 + Limit.blockBytes := by rw [h2]; rfl
    show (if d.bytes.length + 12 = _ then _ else _) = _
    rw [if_pos hc]
    have hx := hiNibble_nibbles d.dest.isLt d.init.isLt
    have hy := loNibble_nibbles (a := d.dest.val) d.init.isLt
    have ht : Fin.ofNat 8 (bitField (BitVec.ofNat 8 d.tag.val) 0 3) = d.tag := by
      have := d.tag.isLt
      apply Fin.ext
      simp only [bitField, BitVec.toNat_ofNat, Nat.shiftRight_eq_div_pow, Fin.ofNat]
      omega
    have hi : (BitVec.ofNat 8 d.index).toNat = d.index := by rw [BitVec.toNat_ofNat]; exact Nat.mod_eq_of_lt h1
    rw [hx, hy, ht, hi]
    simp [Payload.bytes]
  · exact h.elim

theorem crcBytes_length (c : BitVec 32) : (crcBytes c).length = 4 := rfl

theorem encode_body (f : Frame) : f.encode.take (f.encode.length - 4) = f.body ∧ f.encode.drop (f.encode.length - 4) = crcBytes (crc32 f.body) := by
  have hl : f.encode.length - 4 = f.body.length := by
    rw [Frame.encode, List.length_append, crcBytes_length, Nat.add_sub_cancel]
  rw [hl]
  exact ⟨List.take_left, List.drop_left⟩

end Sys2Proof.Machine
end

