-- ==== Sys2Proof/Laws/Turns.lean ====
section
/-! SUPPORT. The turn order and the frames of the line: the searches over the stations (R143, R146), the sets of stations in headers
(R135), the holder's moves, and what the station hears. -/

namespace Sys2Proof.Machine

/-! ### Searches over the stations -/

theorem Station.all_get (k : Nat) (hk : k < 16) (hl : k < Station.all.length) : Station.all[k] = (⟨k, hk⟩ : Station) := by
  revert hl
  have : ∀ n : Fin 16, ∀ h : n.val < Station.all.length, Station.all[n.val] = n := by decide
  exact fun hl => this ⟨k, hk⟩ hl

/-- The first station for which `p` holds is the lowest one. -/
theorem Station.all_find (p : Station → Bool) (m : Station) :
    Station.all.find? p = some m ↔ p m = true ∧ ∀ k, k < m → p k = false := by
  rw [List.find?_eq_some_iff_getElem]
  constructor
  · rintro ⟨hp, i, hi, hik, hlt⟩
    refine ⟨hp, fun k hk => ?_⟩
    have hmi : m.val = i := by rw [← hik, Station.all_get i hi hi]
    have := hlt k.val (by rw [← hmi]; exact hk)
    simpa [Station.all_get k.val k.isLt] using this
  · rintro ⟨hp, hlt⟩
    refine ⟨hp, m.val, m.isLt, Station.all_get _ m.isLt _, fun j hj => ?_⟩
    have hj16 : j < 16 := by have := m.isLt; omega
    simp [Station.all_get j hj16, hlt ⟨j, hj16⟩ hj]

theorem Station.all_find_none (p : Station → Bool) : Station.all.find? p = none ↔ ∀ k, p k = false := by
  rw [List.find?_eq_none]
  have hm : ∀ k : Station, k ∈ Station.all := by decide
  exact ⟨fun h k => by simpa using h k (hm k), fun h k _ => by simp [h k]⟩

/-! ### Sets of stations -/

theorem sum_bits (x : Nat) (hx : x < 65536) :
    (Station.all.map (fun n => if x.testBit n.val then 2 ^ n.val else 0)).sum = x := by
  have hb : ∀ i, (if x.testBit i then 2 ^ i else 0) = 2 ^ i * (x / 2 ^ i % 2) := by
    intro i
    rw [Nat.testBit_eq_decide_div_mod_eq]
    rcases Nat.mod_two_eq_zero_or_one (x / 2 ^ i) with h | h <;> simp [h]
  simp only [Station.all, hb, List.map, List.sum_cons, List.sum_nil]
  norm_num
  omega

/-- The set of the stations for which `p` holds has their bits. -/
theorem stationSet_eq (p : Station → Bool) (w : BitVec 16) (h : ∀ n : Station, w.getLsbD n.val = p n) : stationSet p = w := by
  apply BitVec.eq_of_toNat_eq
  have hm : (Station.all.map (fun n => if p n then 2 ^ n.val else 0)) =
      (Station.all.map (fun n => if w.toNat.testBit n.val then 2 ^ n.val else 0)) := by
    refine List.map_congr_left (fun n _ => ?_)
    rw [← h n]; rfl
  unfold stationSet
  rw [hm, sum_bits _ w.isLt, BitVec.toNat_ofNat, Nat.mod_eq_of_lt w.isLt]

/-! ### The holder -/

theorem State.setHolder_ne {s : State} {h : Option Station} (hn : s.member.holder ≠ h) :
    s.setHolder h = { s with member := { s.member with holder := h, activity := false } } := by
  unfold State.setHolder; rw [decide_eq_false hn, Bool.and_false]

theorem State.moveHolder_other {s : State} {m : Station} (hm : m ≠ s.own) : s.moveHolder (some m) = s.setHolder (some m) := by
  unfold State.moveHolder; exact if_neg (fun h => hm h.1)

theorem State.moveHolder_own {s : State} {m : Station} (hm : m = s.own) (hl : s.member.link = .member ∨ s.member.link = .leaving) :
    s.moveHolder (some m) = (s.setHolder (some m)).ownTurn := by
  unfold State.moveHolder; exact if_pos ⟨hm, hl⟩

theorem State.moveHolder_hearing {s : State} {m : Station} (hl : s.member.link = .listening ∨ s.member.link = .joining) :
    s.moveHolder (some m) = s.setHolder (some m) := by
  unfold State.moveHolder
  refine if_neg (fun h => ?_)
  rcases hl with hl | hl <;> rw [hl] at h <;> rcases h.2 with h | h <;> cases h

theorem State.moveHolder_open {s : State} (hl : s.member.link = .member ∨ s.member.link = .leaving) :
    s.moveHolder none = s.setHolder none := by
  unfold State.moveHolder
  dsimp only
  split
  · have he : (s.setHolder none).member.link = s.member.link := rfl
    unfold State.openTurn
    rw [he]
    rcases hl with hl | hl <;> rw [hl]
  · rfl

/-! ### The roster -/

theorem roster_set_set (v : Vector RosterEntry 16) (n : Station) (a b : RosterEntry) : (v.set n a).set n b = v.set n b := by simp
theorem roster_get_set (v : Vector RosterEntry 16) (n : Station) (a : RosterEntry) : (v.set n a)[n] = a := by simp

/-- The roster effect of a frame that is neither a JOIN nor a LEAVE, of a present station. -/
theorem State.rosterEffect_present {s : State} {f : Frame} (hj : f.kind ≠ .join) (hl : f.kind ≠ .leave)
    (hp : s.member.roster[f.sender].present = true) :
    s.rosterEffect f = { s with member := { s.member with roster := s.member.roster.set f.sender ⟨true, 0, f.ready⟩ } } := by
  have hs : s.present f.sender = true := hp
  have he : s.mapEntry f.sender (fun e => { e with misses := 0, ready := f.ready }) =
      { s with member := { s.member with roster := s.member.roster.set f.sender ⟨true, 0, f.ready⟩ } } := by
    unfold State.mapEntry
    dsimp only
    rw [hp]
  unfold State.rosterEffect
  rw [hs]
  cases hk : f.kind with
  | join => exact absurd hk hj
  | leave => exact absurd hk hl
  | _ => dsimp only; rw [hs]; exact he

/-- The roster effect of a frame that is neither a JOIN nor a LEAVE, of an absent station (R150). -/
theorem State.rosterEffect_absent {s : State} {f : Frame} (hj : f.kind ≠ .join) (hl : f.kind ≠ .leave)
    (hp : s.member.roster[f.sender].present = false) :
    s.rosterEffect f = { s with
      member := { s.member with roster := s.member.roster.set f.sender ⟨true, 0, f.ready⟩, generation := s.member.generation + 1 }
      host := { s.host with flags := s.host.flags ||| 4 } } := by
  have hs : s.present f.sender = false := hp
  have ha : (s.addPeer f.sender f.ready).present f.sender = true := by
    show ((s.member.roster.set f.sender ⟨true, 0, f.ready⟩)[f.sender]).present = true
    rw [roster_get_set]
  have he : (s.addPeer f.sender f.ready).mapEntry f.sender (fun e => { e with misses := 0, ready := f.ready }) = { s with
      member := { s.member with roster := s.member.roster.set f.sender ⟨true, 0, f.ready⟩, generation := s.member.generation + 1 }
      host := { s.host with flags := s.host.flags ||| 4 } } := by
    show ({ s.addPeer f.sender f.ready with member := { (s.addPeer f.sender f.ready).member with
        roster := (s.member.roster.set f.sender ⟨true, 0, f.ready⟩).set f.sender
          { (s.member.roster.set f.sender ⟨true, 0, f.ready⟩)[f.sender] with misses := 0, ready := f.ready } } } : State) = _
    rw [roster_get_set, roster_set_set]
    rfl
  unfold State.rosterEffect
  rw [hs]
  cases hk : f.kind with
  | join => exact absurd hk hj
  | leave => exact absurd hk hl
  | _ => dsimp only; rw [ha]; exact he

/-! ### The removal of a peer -/

/-- The state after the roster has lost a peer, before the effects on its exchanges. -/
def State.gone (s : State) (n : Station) : State := { s with
  member := { s.member with roster := s.member.roster.set n ⟨false, 0, false⟩, generation := s.member.generation + 1 }
  host := { s.host with flags := s.host.flags ||| 4 } }

theorem State.forgetPeer_eq (s : State) (n : Station) :
    s.forgetPeer n = ((((s.gone n).losePeer n).dropPeer n).dropWantedCancel n).purge n := rfl

/-- A peer with which there is no exchange leaves the roster, and the items toward it go. -/
theorem State.forgetPeer_stranger {s : State} {n : Station} (hi : ∀ r ∈ s.exch.inits, r.peer ≠ n)
    (ht : ∀ r ∈ s.exch.targets, ∀ i, r.id = some i → i.peer ≠ n) :
    s.forgetPeer n = { s.gone n with sched := { s.sched with items := s.sched.items.filter (fun p => decide (p.item.dest ≠ n)) } } := by
  have h1 : (s.gone n).losePeer n = s.gone n := by
    unfold State.losePeer
    have : (s.gone n).exch.inits.filter (fun r => decide (r.peer = n) && r.live) = [] := by
      rw [List.filter_eq_nil_iff]
      intro r hr
      simp [hi r hr]
    rw [this]
    rfl
  have h2 : (s.gone n).dropPeer n = s.gone n := by
    unfold State.dropPeer
    have : (s.gone n).keyedTo n = [] := by
      unfold State.keyedTo
      rw [List.filter_eq_nil_iff]
      intro i hm
      rw [List.mem_filterMap] at hm
      obtain ⟨r, hr, hid⟩ := hm
      simp [ht r hr i hid]
    rw [this]
    rfl
  have h3 : (s.gone n).dropWantedCancel n = s.gone n := by
    unfold State.dropWantedCancel
    have : (s.gone n).exch.inits.map (fun r => if r.peer = n then
        { r with wanted := r.wanted.filter (fun k => decide (k ≠ .cancel)) } else r) = (s.gone n).exch.inits := by
      conv_rhs => rw [← List.map_id (s.gone n).exch.inits]
      refine List.map_congr_left (fun r hr => ?_)
      rw [if_neg (hi r hr)]; rfl
    rw [this]
  rw [State.forgetPeer_eq, h1, h2, h3]
  rfl

/-! ### What the station hears -/

/-- The bytes of a frame of another station are heard as that frame. -/
theorem exec_frame {s : State} {f : Frame} (hc : s.configured = true) (hx : s.line.tx = none) (hf : f.fits) (ho : f.sender ≠ s.own) :
    exec (.intactFrameReceived f.encode) s = .next (State.intactFrame { s with line := { s.line with receiving := false } } f) := by
  have hr : receiveFrame s.own f.encode = .intact f := by
    unfold receiveFrame
    dsimp only
    rw [(encode_body f).1, (encode_body f).2, if_pos rfl, frameOfBody_body f hf]
    exact if_neg ho
  show Host.Outcome.next (if s.configured then s.frameHeard f.encode else s) = _
  rw [if_pos hc]
  unfold State.frameHeard
  rw [if_neg (by rw [hx]; decide), hr]
  rfl

/-- Bytes that fail a check are a corrupt frame. -/
theorem exec_corrupt {s : State} {bytes : List Byte} (hc : s.configured = true) (hx : s.line.tx = none)
    (hr : receiveFrame s.own bytes = .corrupt) : exec (.intactFrameReceived bytes) s = exec .corruptFrame s := by
  show Host.Outcome.next (if s.configured then s.frameHeard bytes else s) =
    Host.Outcome.next (if s.configured = true ∧ s.line.tx.isNone = true then s.receiverIdle.corrupt else s)
  rw [if_pos hc, if_pos ⟨hc, by rw [hx]; rfl⟩]
  unfold State.frameHeard
  rw [if_neg (by rw [hx]; decide), hr]

theorem frameOfBody_short {l : List Byte} (h : l.length < 8) : frameOfBody l = none := by
  unfold frameOfBody
  split
  · simp only [List.length_cons] at h; omega
  · rfl

/-! ### Grants and takes that are not due -/

theorem State.retake_noRequest {s : State} (h : s.host.requests = []) : s.retake = s := by
  unfold State.retake; rw [h]; rfl

theorem State.grant_notIdle {s : State} (h : s.port.state ≠ .idle) : s.grant = s := by
  unfold State.grant; exact if_neg h

theorem State.retakeIfFreed_noRequest {s : State} (before : State) (h : s.host.requests = []) : s.retakeIfFreed before = s := by
  unfold State.retakeIfFreed; rw [State.retake_noRequest h, ite_self]

/-- Nothing is freed by an event that keeps the number of initiator records. -/
theorem State.retakeIfFreed_kept {s before : State} (h : before.exch.inits.length ≤ s.exch.inits.length) :
    s.retakeIfFreed before = s := if_neg (Nat.not_lt.2 h)

theorem State.resume_nothing {s : State} (before : State) (hr : s.host.requests = []) (hp : s.port.state ≠ .idle) :
    s.resume before = s := by
  unfold State.resume; rw [State.grant_notIdle hp, State.retakeIfFreed_noRequest _ hr]

end Sys2Proof.Machine
end

