-- ==== Sys2Proof/Laws/Commands.lean ====
section
/-! SUPPORT. What the commands of the host, the takes, the channel accesses, the items, the target records, the turn order and the module
port do in the states the statements speak of. -/

namespace Sys2Proof.Machine

open State

/-! ### Commands: the gate of the host, and the window -/

/-- A configured part takes a host access (R184). -/
theorem State.hosted_configured {s : State} (h : s.configured = true) (f : State → State) : s.hosted f = f s := by rw [State.hosted, if_pos h]

/-- A write of a window word other than a configuration word. -/
theorem exec_registerWrite (s : State) (off : BitVec 7) (w : Word) (h : s.configured = true) (h0 : off ≠ 0) (h1 : off ≠ 1) :
    exec (.registerWrite off w) s = .next (s.writeWindow off w) := by
  simp only [exec, execRegisterWrite, h0, h1, if_false, State.hosted_configured h]

/-- A window word without a row of its own. -/
theorem State.writeWindow_plain (s : State) (off : BitVec 7) (w : Word) (h : off.toNat ∉ [0x03, 0x05, 0x0D, 0x15, 0x1E, 0x28]) :
    s.writeWindow off w = s.writePlain off.toNat w := by
  unfold State.writeWindow
  split <;> first | rfl | (rename_i he; rw [he] at h; exact absurd (by decide) h)

/-- The words of the step staging list. -/
theorem State.writePlain_step (s : State) (k : Nat) (w : Word) (hk : k < 32) : s.writePlain (0x40 + k) w = s.writeStaging k w := by
  unfold State.writePlain
  dsimp only
  split <;> first | omega | skip
  rw [if_pos (by omega)]; congr 1; omega

/-- A window read of a configured part. -/
theorem State.windowRead_configured (s : State) (h : s.configured = true) (off) : s.windowRead off = s.windowWord off := by rw [State.windowRead, if_pos h]

/-- A word from the bits of another under a mask. -/
theorem word_of_bits (w : Word) (v : Nat) (m : Word) (h : ∀ i < 16, v.testBit i = (w.getLsbD i && m.getLsbD i)) : BitVec.ofNat 16 v = w &&& m := by
  apply BitVec.eq_of_getLsbD_eq
  intro i hi
  rw [BitVec.getLsbD_ofNat, BitVec.getLsbD_and, h i hi]
  simp [hi]

/-- A list with an element that gives nothing gives nothing. -/
theorem mapM_none {α β : Type} (f : α → Option β) : ∀ l : List α, (∃ x ∈ l, f x = none) → l.mapM f = none := by
  intro l
  induction l with
  | nil => rintro ⟨x, hx, _⟩; cases hx
  | cons a l ih =>
    rintro ⟨x, hx, hn⟩
    rw [List.mapM_cons]
    rcases List.mem_cons.1 hx with rfl | hx
    · rw [hn]; rfl
    · rw [ih ⟨x, hx, hn⟩]; cases f a <;> rfl

/-- A list whose elements all give something. -/
theorem mapM_some {α β : Type} (f : α → Option β) : ∀ l : List α, (∀ x ∈ l, f x ≠ none) →
    ∃ m, l.mapM f = some m ∧ m.length = l.length ∧ ∀ i : Nat, m[i]? = (l[i]?).bind f := by
  intro l
  induction l with
  | nil => intro _; exact ⟨[], rfl, rfl, fun i => by simp⟩
  | cons a l ih =>
    intro h
    obtain ⟨m, h1, h2, h3⟩ := ih (fun x hx => h x (List.mem_cons_of_mem _ hx))
    obtain ⟨y, hy⟩ := Option.ne_none_iff_exists'.1 (h a List.mem_cons_self)
    refine ⟨y :: m, by rw [List.mapM_cons, hy, h1]; rfl, by simp [h2], ?_⟩
    intro i
    cases i with
    | zero => simp [hy]
    | succ i => simp [h3]

/-- A staged step is invalid exactly with kind 0 (R191). -/
theorem StagedStep.step_none (x : StagedStep) : x.step = none ↔ x.kind = 0 := by
  obtain ⟨k, a, b⟩ := x
  unfold StagedStep.step
  dsimp only
  revert k
  intro k
  have : k = 0 ∨ k = 1 ∨ k = 2 ∨ k = 3 := by revert k; decide
  rcases this with rfl | rfl | rfl | rfl <;> simp

/-- A load that is BAD_SCRIPT has no script (R174). -/
theorem scriptOf_invalid (s : State) (n : Nat) (h : n = 0 ∨ 16 < n ∨ ∃ j : Fin 16, j.val < n ∧ s.host.steps[j].kind = 0) : scriptOf s.host.steps n = none := by
  unfold scriptOf
  by_cases hn : 1 ≤ n ∧ n ≤ 16
  · rw [if_pos hn]
    rcases h with h | h | ⟨j, hj, hk⟩
    · omega
    · omega
    · apply mapM_none
      refine ⟨s.host.steps[j], ?_, (StagedStep.step_none _).2 hk⟩
      rw [List.mem_take_iff_getElem]
      exact ⟨j, by simp; omega, by simp⟩
  · rw [if_neg hn]

/-! ### Takes and endings at the initiator -/

/-- No take outside MEMBER (R22). -/
theorem State.retake_offLink (s : State) (h : s.member.link ≠ .member) : s.retake = s := by
  unfold State.retake
  cases s.host.requests.length with
  | zero => rfl
  | succ n => simp [State.takes, State.takeHead, h]

/-- A tick at which no lifetime runs out. -/
theorem State.tickLifetimes_none (s : State) (h : ∀ r ∈ s.exch.inits, ∀ n, r.lifetime = some n → 2 ≤ n) :
    s.tickLifetimes = { s with exch := { s.exch with
          inits := s.exch.inits.map (fun r => { r with lifetime := r.lifetime.map (fun n => n - 1) }) } } := by
  have : s.exch.inits.filter InitRec.lastMs = [] := by
    rw [List.filter_eq_nil_iff]
    intro r hr
    unfold InitRec.lastMs
    cases hl : r.lifetime with
    | none => simp
    | some n => have := h r hr n hl; simp; omega
  unfold State.tickLifetimes
  rw [this]; rfl

/-- A tick while the watchdog is stopped. -/
theorem State.tickWatchdog_stopped (s : State) (h : s.port.watchdog = none) : s.tickWatchdog = s := by
  unfold State.tickWatchdog; rw [h]

/-- A tick outside STARTING. -/
theorem State.tickStarting_elsewhere (s : State) (h : ∀ n, s.port.state ≠ .starting n) : s.tickStarting = s := by
  unfold State.tickStarting
  split
  · next n hn => exact absurd hn (h n)
  · rfl

/-- A running watchdog at a tick: it counts, and at its limit expires as by WATCHDOG_EXPIRY (R125). -/
theorem State.tickWatchdog_runs {s : State} {n : Nat} (h : s.port.watchdog = some n) :
    let w : State := s.withPort { s.port with watchdog := some (n + 1) }
    (n + 1 < 2000 → s.tickWatchdog = w) ∧ (2000 ≤ n + 1 → exec .watchdogExpiry w = .next s.tickWatchdog) := by
  unfold State.tickWatchdog
  rw [h]
  exact ⟨fun k => if_pos k, fun k => congrArg Host.Outcome.next (if_neg (Nat.not_lt.mpr k)).symm⟩

/-- A tick in STARTING: its wait counts, and at its limit ends as by STARTING_TIMEOUT (R118). -/
theorem State.tickStarting_runs {s : State} {n : Nat} (h : s.port.state = .starting n) :
    let w : State := s.withPort { s.port with state := .starting (n + 1) }
    (n + 1 < 8000 → s.tickStarting = w) ∧ (8000 ≤ n + 1 → exec .startingTimeout w = .next s.tickStarting) := by
  unfold State.tickStarting
  rw [h]
  exact ⟨fun k => if_pos k, fun k => congrArg Host.Outcome.next (if_neg (Nat.not_lt.mpr k)).symm⟩

/-- The expiry of a lifetime leaves the module port alone (R20). -/
theorem State.expire_port (s : State) (t : Tag) : (s.expire t).port = s.port := by
  unfold State.expire
  split
  · split
    · exact congrArg TargetSide.port (State.endAndTake_targetSide _ _ _ _ _)
    · rfl
  · rfl

/-- Lifetimes that run out one after another, each as by LIFETIME_EXPIRY (R20, log 20). -/
theorem expiries_in_turn (l : List InitRec) : ∀ s : State,
    (l.map InitRec.tag).foldl (fun (o : Host.Outcome State Fault Refusal) t => match o with
      | .next x => exec (.lifetimeExpiry t) x
      | x => x) (.next s) = .next (l.foldl (fun s r => s.expire r.tag) s) ∧
    (l.foldl (fun s r => s.expire r.tag) s).port = s.port := by
  induction l with
  | nil => exact fun s => ⟨rfl, rfl⟩
  | cons r l ih => exact fun s => ⟨(ih (s.expire r.tag)).1, (ih (s.expire r.tag)).2.trans (s.expire_port r.tag)⟩

/-- The records whose lifetime runs out at a tick are those whose lifetime has fallen to 0 (R20). -/
theorem due_tags (l : List InitRec) :
    ((l.map (fun r => { r with lifetime := r.lifetime.map (fun n => n - 1) })).filter (fun r => decide (r.lifetime = some 0))).map InitRec.tag =
      (l.filter InitRec.lastMs).map InitRec.tag := by
  induction l with
  | nil => rfl
  | cons r l ih =>
    have h : decide (r.lifetime.map (fun n => n - 1) = some 0) = r.lastMs := by
      unfold InitRec.lastMs
      cases r.lifetime with
      | none => rfl
      | some n => simp; omega
    simp only [List.map_cons, List.filter_cons, h]
    cases r.lastMs <;> simp [ih]

/-- The lifetimes at a tick: all fall, those that have reached 0 expire in creation order as by LIFETIME_EXPIRY, and the module port
stays as it is (R20, log 20). -/
theorem State.tickLifetimes_runs (s : State) :
    let fallen : State := { s with exch := { s.exch with
      inits := s.exch.inits.map (fun r => { r with lifetime := r.lifetime.map (fun n => n - 1) }) } }
    ((fallen.exch.inits.filter (fun r => decide (r.lifetime = some 0))).map InitRec.tag).foldl
        (fun (o : Host.Outcome State Fault Refusal) t => match o with
          | .next x => exec (.lifetimeExpiry t) x
          | x => x) (.next fallen) = .next s.tickLifetimes ∧
    s.tickLifetimes.port = s.port := by
  dsimp only
  rw [due_tags]
  exact expiries_in_turn _ _

/-- A step on an empty queue (log 1). -/
theorem step_empty (s : State) (h : s.pending = []) : step s = .next s.tick := by
  unfold step; rw [h]

/-- What the withdrawal of every exchange leaves. -/
theorem State.withdrawAll_endSide (s : State) : s.withdrawAll.endSide = s.endSide := by
  unfold State.withdrawAll
  generalize s.exch.inits = l
  induction l generalizing s with
  | nil => rfl
  | cons r l ih =>
    rw [List.foldl_cons, ih]
    split
    · split
      · rw [State.endInit_endSide]
      · rfl
    · rfl

/-- With no initiator record nothing is withdrawn. -/
theorem State.withdrawAll_nil (s : State) (h : s.exch.inits = []) : s.withdrawAll = s := by
  unfold State.withdrawAll; rw [h]; rfl

/-- The first of a list that a test lets through. -/
theorem find_after {α} (p : α → Bool) (pre post : List α) (r : α) (h : ∀ x ∈ pre, p x = false) (hr : p r = true) :
    (pre ++ r :: post).find? p = some r := by
  rw [List.find?_append, List.find?_eq_none.mpr (fun x hx => by rw [h x hx]; decide)]
  simp [hr]

/-- The row TAKE_REQUEST of a configured part. -/
theorem exec_takeRequest (s : State) (h : s.configured = true) : exec .takeRequest s = .next s.retake := congrArg _ (State.hosted_configured h _)

/-- A head that is not taken blocks the queue (R22). -/
theorem State.retake_none {s : State} (h : s.takeHead = none) : s.retake = s := by
  unfold State.retake
  cases s.host.requests.length with
  | zero => rfl
  | succ n => unfold State.takes; rw [h]

/-- A head that is taken, and the heads behind it (R22). -/
theorem State.retake_some {s u : State} {q : Request} {rest : List Request} (hq : s.host.requests = q :: rest) (h : s.takeHead = some u) :
    s.retake = u.takes rest.length := by
  unfold State.retake; rw [hq]; show State.takes (rest.length + 1) s = _; rw [State.takes, h]

/-- The take of a head toward a present station (R24). -/
theorem State.takeHead_present {s : State} {q : Request} {rest : List Request} {t : Tag} (hl : s.member.link = .member)
    (hq : s.host.requests = q :: rest) (ht : s.freeTag = some t) (hp : s.present q.target = true) :
    s.takeHead = some ((s.setRequests rest).createInit q t) := by
  unfold State.takeHead; rw [if_pos hl, hq, ht]; exact if_pos hp

/-- The take of a head toward an absent station (R23). -/
theorem State.takeHead_absent {s : State} {q : Request} {rest : List Request} {t : Tag} (hl : s.member.link = .member)
    (hq : s.host.requests = q :: rest) (ht : s.freeTag = some t) (hp : s.present q.target = false) :
    s.takeHead = if s.host.outcomes.length < 16 then some ((s.setRequests rest).pushOutcome (q.outcomeRec .notPresent)) else none := by
  unfold State.takeHead; rw [if_pos hl, hq, ht]; dsimp only; rw [if_neg (by rw [hp]; decide)]; rfl

/-- The own station number is the configured one (R186). -/
theorem State.own_config (s : State) (c : Cfg) (hc : s.host.config = some c) : s.own = c.station := by unfold State.own; rw [hc]

/-- The state in which a record has been made, before its ASK is offered (R24). -/
def State.madeRecord (s : State) (q : Request) (rest : List Request) (t : Tag) : State :=
  { s.setRequests rest with exch := { s.exch with
    inits := s.exch.inits ++ [newInit q t s.exch.serials[t] s.lifetimeUnits]
    lastTag := t
    serials := s.exch.serials.set t (s.exch.serials[t] + 1) } }

/-- The record made is the one on its tag. -/
theorem State.madeRecord_initRec {s : State} (q : Request) (rest : List Request) {t : Tag} (ht : s.freeTag = some t) :
    (State.madeRecord s q rest t).initRec t = some (newInit q t s.exch.serials[t] s.lifetimeUnits) := by
  have hn : s.initRec t = none := by
    have := List.find?_some ht
    simpa using this
  show (s.exch.inits ++ [_]).find? _ = _
  have hn' : s.exch.inits.find? (fun r => decide (r.tag = t)) = none := hn
  rw [List.find?_append, hn']
  simp [newInit]

/-- The making of a record, its ASK and its place in its channel (R24). -/
theorem State.createInit_eq (s : State) (q : Request) (rest : List Request) (t : Tag) :
    (s.setRequests rest).createInit q t = (match q.channel with
      | some c => ((State.madeRecord s q rest t).offerInit t .ask).becomeHead c
      | none => (State.madeRecord s q rest t).offerInit t .ask) := rfl

/-- An offer frees no record. -/
theorem State.offerInit_keeps (s : State) (t t' : Tag) (k : ItemKind) (h : s.initRec t ≠ none) : (s.offerInit t' k).initRec t ≠ none := by
  by_cases ht : t = t'
  · subst ht
    rcases hr : s.initRec t with _ | r
    · exact absurd hr h
    · rw [State.offerInit_initRec_same k hr]; simp
  · rwa [State.offerInit_initRec_other _ _ _ ht]

/-- A head succession frees no record. -/
theorem State.becomeHead_keeps (s : State) (c : Channel) {t : Tag} (h : s.initRec t ≠ none) : (s.becomeHead c).initRec t ≠ none := by
  unfold State.becomeHead
  split
  · next r _ =>
    split
    · exact h
    · split
      · next ring free _ =>
        dsimp only
        have h1 : (State.mapInit { s with buf := { s.buf with initFree := free } } r.tag (fun x => { x with ring := some ring })).initRec t ≠
            none := by
          rw [State.initRec_mapInit { s with buf := { s.buf with initFree := free } } r.tag (fun x => { x with ring := some ring })
            (fun _ => rfl)]
          have h' : State.initRec { s with buf := { s.buf with initFree := free } } t ≠ none := h
          simpa using h'
        split
        · exact State.offerInit_keeps _ _ _ _ h1
        · exact State.offerInit_keeps _ _ _ _ h1
        · exact h1
      · exact h
  · exact h

/-- A record in ASKING that becomes head takes its ring (R25). -/
theorem State.becomeHead_asking {s : State} {c : Channel} {r : InitRec} {n k : Nat} (h : s.channelHead c = some r) (hr : r.ring = none)
    (hs : r.state = .asking n k) (hf : min 4 r.count ≤ s.buf.initFree.length) :
    s.becomeHead c = State.mapInit { s with buf := { s.buf with initFree := s.buf.initFree.drop (min 4 r.count) } } r.tag
      (fun x => { x with ring := some ((s.buf.initFree.take (min 4 r.count)).map (fun a => ⟨a, .empty⟩)) }) := by
  unfold State.becomeHead
  rw [h]
  dsimp only
  rw [if_neg (by rw [hr]; decide)]
  have hres : reserveRing s.buf.initFree (ringLen r.count) =
    some ((s.buf.initFree.take (min 4 r.count)).map (fun a => ⟨a, .empty⟩), s.buf.initFree.drop (min 4 r.count)) := if_pos hf
  rw [hres]
  dsimp only
  rw [hs]
  cases r.op <;> rfl

/-- The one record on a tag. -/
theorem inits_unique {l : List InitRec} {r : InitRec} (hm : r ∈ l) (h : (l.filter (fun x => decide (x.tag = r.tag))).length = 1) :
    ∀ x ∈ l, x.tag = r.tag → x = r := by
  intro x hx ht
  have h1 : r ∈ l.filter (fun x => decide (x.tag = r.tag)) := List.mem_filter.mpr ⟨hm, by simp⟩
  have h2 : x ∈ l.filter (fun x => decide (x.tag = r.tag)) := List.mem_filter.mpr ⟨hx, by simp [ht]⟩
  obtain ⟨y, hf⟩ := List.length_eq_one_iff.mp h
  rw [hf, List.mem_singleton] at h1 h2
  rw [h1, h2]

/-- A record whose outcome is not decided is live. -/
theorem InitRec.live_of {r : InitRec} (h : ∀ b, r.state ≠ .delivering b) : r.live = true := by
  unfold InitRec.live
  split
  · next b hb => exact absurd hb (h b)
  · rfl

/-- A record in DELIVERING is not live. -/
theorem InitRec.dead_of {r : InitRec} {b : Bool} (h : r.state = .delivering b) : r.live = false := by
  unfold InitRec.live; rw [h]

/-- A record in ASKING. -/
theorem InitRec.asking_of {r : InitRec} {n k : Nat} (h : r.state = .asking n k) : r.asking = true := by
  unfold InitRec.asking; rw [h]

/-- A record that has left ASKING. -/
theorem InitRec.not_asking {r : InitRec} (h : ∀ n k, r.state ≠ .asking n k) : r.asking = false := by
  unfold InitRec.asking
  split
  · next hb => exact absurd hb (h _ _)
  · rfl

/-! ### Channel accesses -/

/-- The row CHANNEL_ACCESS of a configured part. -/
theorem exec_channelAccess (s : State) (c : Channel) (a : Access) (h : s.configured = true) :
    exec (.channelAccess c a) s = .next (s.accessChannel c a) := congrArg _ (if_pos h)

/-- The slot of a block (R6). -/
theorem Ring.slot_eq (g : Ring) (b : Nat) : g.slot b = g[b % g.length]? := rfl

/-- The byte address of a word below 256. -/
theorem wordAddr_eq (a : AreaNo) (w : Nat) (h : w < 256) : wordAddr a w = a.val * 512 + 2 * w := by
  unfold wordAddr; rw [Nat.mod_eq_of_lt h]

/-- The words a READ head offers, from the state of the slot of block consumed count (R75). -/
theorem InitRec.offered_read {r : InitRec} {ring : Ring} {slot : Slot} (ho : r.op = .read) (hr : r.ring = some ring)
    (hs : ring[r.flow.consumed % ring.length]? = some slot) :
    r.offered = match slot.st with
      | .full _ => 256
      | .draining _ w => 256 - w
      | _ => 0 := by
  have h : ring.stateOf r.flow.consumed = some slot.st := by unfold Ring.stateOf; rw [Ring.slot_eq, hs]; rfl
  unfold InitRec.offered
  rw [hr, ho]
  dsimp only
  rw [h]
  cases slot.st <;> rfl

/-- The words a WRITE head with blocks left to fill offers, from the state of the slot of block blocks moved locally (R69, R75). -/
theorem InitRec.offered_write {r : InitRec} {ring : Ring} {slot : Slot} (ho : r.op = .write) (hr : r.ring = some ring)
    (hm : r.moved < r.count) (hs : ring[r.moved % ring.length]? = some slot) :
    r.offered = match slot.st with
      | .empty => if r.moved < r.flow.base + min 4 r.count then 256 else 0
      | .filling _ w => 256 - w
      | _ => 0 := by
  have h : ring.stateOf r.moved = some slot.st := by unfold Ring.stateOf; rw [Ring.slot_eq, hs]; rfl
  unfold InitRec.offered
  rw [hr, ho]
  dsimp only
  rw [if_pos hm, h]
  cases slot.st <;> rfl

/-- A record without a ring offers no word (R75). -/
theorem InitRec.offered_no_ring {r : InitRec} (hr : r.ring = none) : r.offered = 0 := by unfold InitRec.offered; rw [hr]

/-- A WRITE that has filled every block offers no word (R69, R75). -/
theorem InitRec.offered_filled {r : InitRec} (ho : r.op = .write) (h : r.count ≤ r.moved) : r.offered = 0 := by
  unfold InitRec.offered
  rw [ho]
  cases r.ring with
  | none => rfl
  | some ring => exact if_neg (Nat.not_lt.mpr h)

/-- Once every block has been moved no word remains (R178). -/
theorem InitRec.remaining_moved {r : InitRec} (h : r.count ≤ r.currentBlock) : r.remaining = 0 := if_neg (Nat.not_lt.mpr h)

/-- A record without a ring has moved no word of its current block (R178). -/
theorem InitRec.remaining_no_ring {r : InitRec} (h : r.currentBlock < r.count) (hr : r.ring = none) : r.remaining = 256 := by
  unfold InitRec.remaining
  rw [hr]
  exact if_pos h

/-- The words that remain to be moved within the current block (R178). -/
theorem InitRec.remaining_slot {r : InitRec} {ring : Ring} {slot : Slot} (h : r.currentBlock < r.count) (hr : r.ring = some ring)
    (hs : ring[r.currentBlock % ring.length]? = some slot) :
    r.remaining = match slot.st with
      | .draining _ w => 256 - w
      | .filling _ w => 256 - w
      | _ => 256 := by
  have hst : r.ring.bind (fun g => g.stateOf r.currentBlock) = some slot.st := by
    rw [hr]; show ring.stateOf r.currentBlock = _; unfold Ring.stateOf; rw [Ring.slot_eq, hs]; rfl
  unfold InitRec.currentBlock at h hst
  unfold InitRec.remaining
  dsimp only
  rw [if_pos h, hst]
  cases slot.st <;> rfl

/-- Where the slot of the current block offers words, words remain in the block (R75, R178). -/
theorem InitRec.remaining_of_offered {r : InitRec} (h : r.currentBlock < r.count) (ho : r.offered ≠ 0) : r.remaining ≠ 0 := by
  cases hr : r.ring with
  | none => exact absurd (InitRec.offered_no_ring hr) ho
  | some ring =>
    cases hop : r.op with
    | sync => exact absurd (by unfold InitRec.offered; rw [hr, hop]) ho
    | read =>
      have hc : r.currentBlock = r.flow.consumed := if_pos hop
      cases hs : ring[r.currentBlock % ring.length]? with
      | none =>
        refine absurd ?_ ho
        unfold InitRec.offered
        rw [hr, hop]
        dsimp only
        unfold Ring.stateOf
        rw [Ring.slot_eq, ← hc, hs]; rfl
      | some slot =>
        rw [InitRec.offered_read hop hr (hc ▸ hs)] at ho
        rw [InitRec.remaining_slot h hr hs]
        cases hst : slot.st <;> rw [hst] at ho <;> first | exact ho | (exact absurd rfl ho)
    | write =>
      have hc : r.currentBlock = r.moved := if_neg (by rw [hop]; decide)
      cases hs : ring[r.currentBlock % ring.length]? with
      | none =>
        refine absurd ?_ ho
        unfold InitRec.offered
        rw [hr, hop]
        dsimp only
        unfold Ring.stateOf
        rw [Ring.slot_eq, ← hc, hs, if_pos (hc ▸ h)]; rfl
      | some slot =>
        rw [InitRec.offered_write hop hr (hc ▸ h) (hc ▸ hs)] at ho
        rw [InitRec.remaining_slot h hr hs]
        cases hst : slot.st <;> rw [hst] at ho <;> first | exact ho | (dsimp only; omega) | (exact absurd rfl ho)

/-- A read access of a head that offers words (R75, R179). -/
theorem State.accessChannel_read {s : State} {ch : Channel} {r : InitRec} {ring : Ring} {slot : Slot} {b w : Nat}
    (hh : s.channelHead ch = some r) (hd : (s.chan ch).held = false) (ho : r.op = .read) (hr : r.ring = some ring)
    (hc : r.flow.consumed = b) (hb : b < r.count) (hs : ring[b % ring.length]? = some slot)
    (hst : ((∃ b, slot.st = .full b) ∧ w = 0 ∨ ∃ b, slot.st = .draining b w)) (hw : w < 256) :
    s.accessChannel ch .read = s.drainWord r slot b w := by
  subst hc
  unfold State.accessChannel
  rw [hh]
  dsimp only
  have hoff : r.offered ≠ 0 := by
    rw [InitRec.offered_read ho hr hs]
    rcases hst with ⟨⟨b, hb⟩, _⟩ | ⟨b, hb⟩
    · rw [hb]; simp
    · rw [hb]; show 256 - w ≠ 0; omega
  have hcur : r.currentBlock = r.flow.consumed := if_pos ho
  have hbd : r.ring.bind (fun g => g.slot r.currentBlock) = some slot := by rw [hr, hcur]; exact hs
  rw [if_neg (by rw [hd]; simp [hoff, InitRec.remaining_of_offered (hcur ▸ hb) hoff]), hbd, hcur, ho]
  dsimp only
  rcases hst with ⟨⟨b, hb⟩, rfl⟩ | ⟨b, hb⟩ <;> rw [hb]

/-- A write access of a head that offers words (R75, R179). -/
theorem State.accessChannel_write {s : State} {ch : Channel} {r : InitRec} {ring : Ring} {slot : Slot} {w : Nat} {v : Word}
    (hh : s.channelHead ch = some r) (hd : (s.chan ch).held = false) (ho : r.op = .write) (hr : r.ring = some ring)
    (hm : r.moved < r.count) (hs : ring[r.moved % ring.length]? = some slot)
    (hst : slot.st = .empty ∧ w = 0 ∧ r.moved < r.flow.base + min 4 r.count ∨ ∃ b, slot.st = .filling b w) (hw : w < 256) :
    s.accessChannel ch (.write v) = s.fillWord r slot r.moved w v := by
  unfold State.accessChannel
  rw [hh]
  dsimp only
  have hoff : r.offered ≠ 0 := by
    rw [InitRec.offered_write ho hr hm hs]
    rcases hst with ⟨hb, _, hlt⟩ | ⟨b, hb⟩
    · rw [hb]; dsimp only; rw [if_pos hlt]; decide
    · rw [hb]; show 256 - w ≠ 0; omega
  have hcur : r.currentBlock = r.moved := if_neg (by rw [ho]; decide)
  have hbd : r.ring.bind (fun g => g.slot r.currentBlock) = some slot := by rw [hr, hcur]; exact hs
  rw [if_neg (by rw [hd]; simp [hoff, InitRec.remaining_of_offered (hcur ▸ hm) hoff]), hbd, hcur, ho]
  dsimp only
  rcases hst with ⟨hb, rfl, _⟩ | ⟨b, hb⟩ <;> rw [hb]

/-! ### Items -/

/-- No item of the exchange waits. -/
theorem State.waits_false {s : State} {i : Item} {o : Origin} (h : ∀ p ∈ s.sched.items, ¬ (p.item.init = i.init ∧ p.item.tag = i.tag ∧ p.item.serial = i.serial)) :
    s.waits i o = false := by
  unfold State.waits
  rw [List.any_eq_false]
  intro p hp hc
  simp only [Item.sameExchange, Bool.and_eq_true, decide_eq_true_eq] at hc
  exact h p hp ⟨hc.1.1.1.1, hc.1.1.1.2, hc.1.1.2⟩

/-- The item itself waits. -/
theorem State.waits_true {s : State} {i : Item} {o : Origin} (h : ⟨i, o⟩ ∈ s.sched.items) : s.waits i o = true := by
  unfold State.waits
  rw [List.any_eq_true]
  exact ⟨_, h, by simp [Item.sameExchange]⟩

/-- An item that is placed (R160). -/
theorem State.offer_placed {s : State} {i : Item} (o : Origin) (hk : i.body.kind ≠ .credit) (hl : s.sched.items.length < 32) :
    s.offer i o = { s with sched := { s.sched with items := s.sched.items ++ [⟨i, o⟩] } } := by
  unfold State.offer State.itemsAfter
  rw [if_neg (fun hc => hk hc.1), if_pos (by exact hl)]

/-- An item that finds 32 items (R160). -/
theorem State.offer_full {s : State} {i : Item} (o : Origin) (hk : i.body.kind ≠ .credit) (hl : 32 ≤ s.sched.items.length) :
    s.offer i o = s := by
  unfold State.offer State.itemsAfter
  rw [if_neg (fun hc => hk hc.1), if_neg (by exact Nat.not_lt.mpr hl)]

/-! ### Target records -/

/-- The areas a ring gives back. -/
theorem ringAreas_eq (r : Option Ring) : ringAreas r = r.elim [] (List.map Slot.area) := by cases r <;> rfl

/-- The record on a key after a change that keeps keys. -/
theorem find_map_key (l : List TargetRec) (g : TargetRec → TargetRec) (hg : ∀ x, (g x).id = x.id) (p : Station) (t : Tag) :
    (l.map g).find? (fun r => r.keyed p t) = (l.find? (fun r => r.keyed p t)).map g := by
  rw [List.find?_map]
  congr 2
  funext x
  simp only [Function.comp, TargetRec.keyed, hg]

/-- The record on a key has the key. -/
theorem State.targetRec_keyed {s : State} {p : Station} {t : Tag} {r : TargetRec} (h : s.targetRec p t = some r) : r.keyed p t = true := by
  have := List.find?_some h
  simpa using this

/-- The record on a key in a state whose records have changed. -/
theorem State.targetRec_map (s u : State) (g : TargetRec → TargetRec) (hg : ∀ x, (g x).id = x.id) (h : u.exch.targets = s.exch.targets.map g)
    (p : Station) (t : Tag) : u.targetRec p t = (s.targetRec p t).map g := by
  unfold State.targetRec
  rw [h]
  exact find_map_key _ g hg p t

/-- Cut transfers keep the areas. -/
theorem Ring.cutTransfers_slotAreas (g : Ring) : (Ring.cutTransfers g).map Slot.area = List.map Slot.area g := by
  unfold Ring.cutTransfers
  rw [List.map_map]
  refine List.map_congr_left (fun x _ => ?_)
  simp only [Function.comp]
  split <;> rfl

/-- Emptied slots keep the areas. -/
theorem Ring.dropFull_slotAreas (g : Ring) : (Ring.dropFull g).map Slot.area = List.map Slot.area g := by
  unfold Ring.dropFull
  rw [List.map_map]
  refine List.map_congr_left (fun x _ => ?_)
  simp only [Function.comp]
  split <;> rfl

/-- A FINISHING record settles. -/
theorem State.settleStopped_finishing {s : State} {r : TargetRec} (code : OutcomeCode) (h : r.state = .finishing) :
    s.settleStopped r code = s.settle r ⟨code, r.count, true, none⟩ false := by
  unfold State.settleStopped; rw [h]

/-- An ACTIVE record settles as the port stops serving it. -/
theorem State.settleStopped_active {s u : State} {r : TargetRec} {keep : Bool} (code : OutcomeCode) (h : r.state = .active)
    (hs : s.stopServing r = (u, keep)) : s.settleStopped r code = (u.settle r ⟨code, r.moved, true, none⟩ keep).continueRunOut := by
  unfold State.settleStopped; rw [h]; dsimp only; rw [hs]

/-- A record with an identity settles (R53). -/
theorem State.settle_eq {s : State} {r : TargetRec} {i : ExchId} (o : Outcome) (keep : Bool) (h : r.id = some i) :
    s.settle r o keep = (if keep then s else s.releaseServ r.ring).mapTarget i.peer i.tag (fun x => x.settled o keep) := by
  unfold State.settle; rw [h]

/-- The serial of the record on a key, in its identity. -/
theorem State.serial_of {s : State} {p : Station} {t : Tag} {r : TargetRec} (h : s.targetRec p t = some r) (se : Serial) :
    r.serial = se ↔ r.id = some ⟨p, t, se⟩ := by
  have hk := List.find?_some h
  simp only [TargetRec.keyed] at hk
  split at hk
  · next x hx =>
    obtain ⟨p', t', se'⟩ := x
    simp only [Bool.and_eq_true, decide_eq_true_eq] at hk
    unfold TargetRec.serial
    rw [hx]
    simp [hk.1, hk.2]
  · cases hk

/-- The serial of a record with an identity. -/
theorem TargetRec.serial_eq {r : TargetRec} {i : ExchId} (h : r.id = some i) : r.serial = i.serial := by unfold TargetRec.serial; rw [h]

/-- Two changes of the record on a key. -/
theorem map_keyed_twice (l : List TargetRec) (i : ExchId) (y : TargetRec) (hy : y.id = some i) (g : TargetRec → TargetRec) :
    (l.map (fun x => if x.keyed i.peer i.tag then y else x)).map (fun x => if x.keyed i.peer i.tag then g x else x) =
      l.map (fun x => if x.keyed i.peer i.tag then g y else x) := by
  rw [List.map_map]
  refine List.map_congr_left (fun x _ => ?_)
  by_cases hx : x.keyed i.peer i.tag = true
  · simp [hx, TargetRec.keyed_of_id hy]
  · simp [hx]

/-- The module is ready in IDLE, SERVING and MAINTAINING (R120). -/
theorem PortState.ready_iff (p : PortState) : p.ready = true ↔ (p = .idle ∨ (∃ x, p = .serving x) ∨ ∃ k, p = .maintaining k) := by
  cases p <;> simp [PortState.ready]

/-- A byte that names no operation. -/
theorem opOfCode_none (op : Byte) : opOfCode op.toNat = none ↔ op ≠ 1 ∧ op ≠ 2 ∧ op ≠ 3 := by
  revert op; decide

/-- A byte that names an operation. -/
theorem opOfCode_some (op : Byte) (o : Op) : opOfCode op.toNat = some o ↔ op.toNat = opCode o := by
  revert op; cases o <;> decide

/-! ### The turn order -/

/-- The next station is another. -/
theorem State.nextAfter_ne {s : State} {n m : Station} (h : s.nextAfter n = some m) : n ≠ m := by
  unfold State.nextAfter at h
  rw [Station.all_find] at h
  simp only [Bool.and_eq_true, decide_eq_true_eq] at h
  intro hc; cases hc
  exact absurd h.1.1 (lt_irrefl _)

/-- The next station hangs on the stations after it. -/
theorem State.nextAfter_congr {s u : State} {n : Station} (hl : u.member.link = s.member.link) (hv : u.member.view = s.member.view)
    (hr : ∀ m, n < m → u.member.roster[m].present = s.member.roster[m].present) : u.nextAfter n = s.nextAfter n := by
  unfold State.nextAfter
  congr 1
  funext m
  by_cases h : n < m
  · have := hr m h
    simp only [h, decide_true, Bool.true_and]
    unfold State.inTurn State.present
    rw [hl, hv, this]
  · simp [h]

/-- An entry of another station. -/
theorem roster_set_other (v : Vector RosterEntry 16) (n m : Station) (e : RosterEntry) (h : n < m) : (v.set n e)[m] = v[m] := by
  have hv : n.val < m.val := h
  exact Vector.getElem_set_ne _ _ (Nat.ne_of_lt hv)

/-- The rotation order of one record. -/
theorem positions_one (p0 : Station) (t0 : Tag) :
    (Station.all.flatMap fun p => Tag.all.flatMap fun t =>
      if p0 = p ∧ t0 = t then [(⟨p, t, .target⟩ : Position)] else []) = [⟨p0, t0, .target⟩] := by
  revert p0 t0; decide +kernel

/-! ### The module port -/

/-- No record waits for the module. -/
theorem State.serviceQueue_none {s : State} (h : ∀ r ∈ s.exch.targets, r.state ≠ .queued) : s.serviceQueue = [] := by
  unfold State.serviceQueue
  rw [List.filter_eq_nil_iff]
  intro r hr; simpa using h r hr

/-- The Service Queue head is the first record in QUEUED (R46). -/
theorem State.serviceQueue_first {s : State} {pre post : List TargetRec} {r : TargetRec} (h : s.exch.targets = pre ++ r :: post)
    (hp : ∀ x ∈ pre, x.state ≠ .queued) (hr : r.state = .queued) : ∃ l, s.serviceQueue = r :: l := by
  unfold State.serviceQueue
  refine ⟨post.filter (fun r => r.state = .queued), ?_⟩
  rw [h, List.filter_append, (List.filter_eq_nil_iff (l := pre)).2 (fun x hx => by simpa using hp x hx), List.nil_append, List.filter_cons,
    if_pos (by simpa using hr)]

/-- A change of the only record on a key. -/
theorem map_keyed_only {pre post : List TargetRec} {r : TargetRec} {i : ExchId} (f : TargetRec → TargetRec) (hid : r.id = some i)
    (hu : ∀ x ∈ pre ++ post, x.keyed i.peer i.tag = false) :
    (pre ++ r :: post).map (fun x => if x.keyed i.peer i.tag then f x else x) = pre ++ f r :: post := by
  have hn : ∀ l : List TargetRec, (∀ x ∈ l, x.keyed i.peer i.tag = false) →
      l.map (fun x => if x.keyed i.peer i.tag then f x else x) = l := by
    intro l hl
    conv_rhs => rw [← List.map_id l]
    refine List.map_congr_left (fun x hx => ?_)
    rw [if_neg (by rw [hl x hx]; simp)]; rfl
  rw [List.map_append, List.map_cons, hn _ (fun x hx => hu x (List.mem_append_left _ hx)),
    hn _ (fun x hx => hu x (List.mem_append_right _ hx)), if_pos (TargetRec.keyed_of_id hid)]

/-- Nothing to grant (R121). -/
theorem State.grant_nothing {s : State} (hp : s.port.result ≠ .posted) (h : ∀ r ∈ s.exch.targets, r.state ≠ .queued) : s.grant = s := by
  unfold State.grant
  by_cases hi : s.port.state = .idle
  · rw [if_pos hi, if_neg hp, State.serviceQueue_none h]
  · rw [if_neg hi]

/-- The row SLOT_ACCESS_COMPLETE with an access in flight. -/
theorem exec_slotAccessComplete {s : State} {v : Word} (h : s.port.access.isSome = true) :
    exec (.slotAccessComplete v) s = .next (s.slotDone v) := congrArg _ (if_pos h)

/-- No block transfer may begin (R122). -/
theorem State.transferMayBegin_false {s : State} (h : s.port.xfer = false ∨ s.port.transfer ≠ none ∨ s.port.access ≠ none ∨
    s.port.state = .serving .closing ∨ (∀ p, s.port.state ≠ .serving p)) : s.transferMayBegin = false := by
  unfold State.transferMayBegin
  rcases h with h | h | h | h | h
  · rw [h]; rfl
  · rcases ht : s.port.transfer with _ | b
    · exact absurd ht h
    · simp
  · rcases ht : s.port.access with _ | b
    · exact absurd ht h
    · simp
  · rw [h]; simp
  · rcases hs : s.port.state with _ | _ | _ | _ | _ | p | _ | _ <;> simp
    exact absurd hs (h p)

/-- In the data phase the ACTIVE record is served. -/
theorem State.isServed_data {s : State} (h : s.port.state = .serving .data) (x : TargetRec) : s.isServed x = decide (x.state = .active) := by
  unfold State.isServed; rw [h]

/-- The record served in the data phase. -/
theorem State.servedRec_data {s : State} (h : s.port.state = .serving .data) : s.servedRec = s.activeRec := by
  unfold State.servedRec State.activeRec
  congr 1
  funext x
  exact State.isServed_data h x

/-- A change of the record served in the data phase. -/
theorem State.mapServed_data {s : State} (h : s.port.state = .serving .data) (f : TargetRec → TargetRec) : s.mapServed f =
    { s with exch := { s.exch with targets := s.exch.targets.map (fun x => if x.state = .active then f x else x) } } := by
  unfold State.mapServed
  simp only [State.isServed_data h, decide_eq_true_eq]

/-- Two changes that agree on the one ACTIVE record. -/
theorem map_active_only {l : List TargetRec} {r : TargetRec} {f g : TargetRec → TargetRec} (hu : ∀ x ∈ l, x.state = .active → x = r)
    (h : f r = g r) : l.map (fun x => if x.state = .active then f x else x) = l.map (fun x => if x.state = .active then g x else x) := by
  refine List.map_congr_left (fun x hx => ?_)
  by_cases hs : x.state = .active
  · rw [if_pos hs, if_pos hs, hu x hx hs, h]
  · rw [if_neg hs, if_neg hs]

/-- Two changes of the port around a change of the flags. -/
theorem State.withPort_flags (s : State) (f : BitVec 8) (p q : Port) :
    ({ (s.withPort p) with host := { s.host with flags := f } } : State).withPort q =
      { (s.withPort q) with host := { s.host with flags := f } } :=
  State.withPort_withPort (s := { s with host := { s.host with flags := f } }) p q

/-- No record is served outside SERVING. -/
theorem State.isServed_out {s : State} (h : ∀ p, s.port.state ≠ .serving p) (x : TargetRec) : s.isServed x = false := by
  unfold State.isServed
  rcases hs : s.port.state with _ | _ | _ | _ | _ | p | _ | _ <;> first | rfl | exact absurd hs (h p)

/-- A change of the record served, where none is. -/
theorem State.mapServed_none {s : State} (f : TargetRec → TargetRec) (h : ∀ x ∈ s.exch.targets, s.isServed x = false) : s.mapServed f = s := by
  unfold State.mapServed
  have : s.exch.targets.map (fun x => if s.isServed x then f x else x) = s.exch.targets := by
    conv_rhs => rw [← List.map_id s.exch.targets]
    refine List.map_congr_left (fun x hx => ?_)
    rw [if_neg (by rw [h x hx]; simp)]; rfl
  rw [this]

/-- Entry to RESETTING outside SERVING. -/
theorem State.enterResetting_out {s : State} (h : ∀ p, s.port.state ≠ .serving p) : s.enterResetting = { (s.withPort { s.port with
    state := .resetting true, access := none, transfer := none, attention := none, watchdog := none }) with
    host := { s.host with flags := s.host.flags ||| 16 } } := by
  unfold State.enterResetting State.assertReset State.mapServedRing
  rw [State.mapServed_none _ (fun x _ => State.isServed_out h x)]
  rfl

/-- The only target record settles and gives its ring back. -/
theorem State.settle_single {s : State} {x r : TargetRec} {i : ExchId} (o : Outcome) (ht : s.exch.targets = [x]) (hx : x.id = some i)
    (hr : r.id = some i) :
    s.settle r o false = { s with
      exch := { s.exch with targets := [x.settled o false] }
      buf := { s.buf with servFree := s.buf.servFree ++ ringAreas r.ring } } := by
  unfold State.settle
  rw [hr]
  dsimp only
  unfold State.mapTarget State.releaseServ
  simp only [if_false, Bool.false_eq_true]
  rw [ht, List.map_cons, List.map_nil, if_pos (TargetRec.keyed_of_id hx)]

/-- The only target record settles and keeps its ring. -/
theorem State.settle_kept_single {s : State} {x r : TargetRec} {i : ExchId} (o : Outcome) (ht : s.exch.targets = [x]) (hx : x.id = some i)
    (hr : r.id = some i) :
    s.settle r o true = { s with exch := { s.exch with targets := [x.settled o true] } } := by
  unfold State.settle
  rw [hr]
  dsimp only
  unfold State.mapTarget
  simp only [if_true]
  rw [ht, List.map_cons, List.map_nil, if_pos (TargetRec.keyed_of_id hx)]

/-- A change of the only record, which is served. -/
theorem State.mapServed_single {s : State} {r : TargetRec} (f : TargetRec → TargetRec) (ht : s.exch.targets = [r]) (hs : s.isServed r = true) :
    s.mapServed f = { s with exch := { s.exch with targets := [f r] } } := by
  unfold State.mapServed
  rw [ht, List.map_cons, List.map_nil, if_pos hs]

/-- The ACTIVE record is served. -/
theorem State.isServed_active {s : State} {r : TargetRec} (hr : r.state = .active)
    (hs : (∃ k, s.port.state = .serving (.setup k)) ∨ s.port.state = .serving .data ∨ s.port.state = .serving .closing ∨
      s.port.state = .serving .priming) : s.isServed r = true := by
  unfold State.isServed
  rcases hs with ⟨k, h⟩ | h | h | h <;> rw [h] <;> simp [hr]

/-- The only record is the ACTIVE one. -/
theorem State.activeRec_single {s : State} {r : TargetRec} (ht : s.exch.targets = [r]) (hr : r.state = .active) : s.activeRec = some r := by
  unfold State.activeRec
  rw [ht, List.find?_cons]
  simp [hr]

/-- Entry to RESETTING while the only record is served. -/
theorem State.enterResetting_served {s : State} {r : TargetRec} (ht : s.exch.targets = [r]) (hs : s.isServed r = true) :
    s.enterResetting = { (s.withPort { s.port with
      state := .resetting true, access := none, transfer := none, attention := none, watchdog := none }) with
      host := { s.host with flags := s.host.flags ||| 16 }
      exch := { s.exch with targets := [{ r with ring := r.ring.map Ring.cutTransfers }] } } := by
  unfold State.enterResetting State.assertReset State.mapServedRing
  rw [State.mapServed_single _ ht hs]
  rfl

end Sys2Proof.Machine
end

