-- ==== Sys2Proof/Laws/Records.lean ====
section
/-! SUPPORT. What the endings of initiator records make of the other records: each keeps everything but its ring, which it may be
given as head of its channel, and its wanted items (R12, R63, R175). -/

namespace Sys2Proof.Machine

/-- A change of a record that leaves everything but its ring and its wanted items. -/
def RingOrWanted (f : InitRec → InitRec) : Prop := ∀ x, f x = { x with ring := (f x).ring, wanted := (f x).wanted }

theorem RingOrWanted.id : RingOrWanted (fun x => x) := fun _ => rfl

theorem RingOrWanted.comp {f g : InitRec → InitRec} (hf : RingOrWanted f) (hg : RingOrWanted g) : RingOrWanted (fun x => g (f x)) := by
  intro x
  dsimp only
  generalize hy : f x = y
  have h1 := hf x
  rw [hy] at h1
  rw [h1]
  exact hg _

/-- Such a change of the record of one tag alone. -/
theorem RingOrWanted.onTag {f : InitRec → InitRec} (hf : RingOrWanted f) (t : Tag) :
    RingOrWanted (fun x => if x.tag = t then f x else x) := by
  intro x
  dsimp only
  split
  · exact hf x
  · rfl

theorem RingOrWanted.tag {f : InitRec → InitRec} (hf : RingOrWanted f) (x : InitRec) : (f x).tag = x.tag := by rw [hf x]

/-- What an operation makes of the initiator records, none of them made or freed. -/
def KeepsInits (s u : State) : Prop := ∃ f, RingOrWanted f ∧ u.exch.inits = s.exch.inits.map f

theorem KeepsInits.of_eq {s u : State} (h : u.exch.inits = s.exch.inits) : KeepsInits s u :=
  ⟨fun x => x, RingOrWanted.id, by rw [h, List.map_id']⟩

theorem KeepsInits.trans {s u v : State} (h : KeepsInits s u) (k : KeepsInits u v) : KeepsInits s v := by
  obtain ⟨f, hf, hu⟩ := h
  obtain ⟨g, hg, hv⟩ := k
  exact ⟨_, hf.comp hg, by rw [hv, hu, List.map_map]; rfl⟩

theorem State.mapInit_keepsInits (s : State) (t : Tag) {f : InitRec → InitRec} (hf : RingOrWanted f) : KeepsInits s (s.mapInit t f) :=
  ⟨_, hf.onTag t, rfl⟩

theorem State.offerInit_keepsInits (s : State) (t : Tag) (k : ItemKind) : KeepsInits s (s.offerInit t k) := by
  unfold State.offerInit
  split
  · dsimp only
    split
    · exact .of_eq rfl
    · exact s.mapInit_keepsInits t (fun _ => rfl)
  · exact .of_eq rfl

theorem State.becomeHead_keepsInits (s : State) (c : Channel) : KeepsInits s (s.becomeHead c) := by
  unfold State.becomeHead
  split
  · split
    · exact .of_eq rfl
    · split
      · next r _ _ _ ring free _ =>
        dsimp only
        have h : KeepsInits s (State.mapInit { s with buf := { s.buf with initFree := free } } r.tag
            (fun x => { x with ring := some ring })) :=
          KeepsInits.trans (.of_eq rfl) (State.mapInit_keepsInits _ r.tag (fun _ => rfl))
        split
        · exact h.trans (State.offerInit_keepsInits _ _ _)
        · exact h.trans (State.offerInit_keepsInits _ _ _)
        · exact h
      · exact .of_eq rfl
  · exact .of_eq rfl

/-- A departure: the record that leaves its channel is changed, the others keep all but ring and wanted items. -/
theorem State.leaveChannel_keepsInits (s : State) (r : InitRec) (d : Departure) (f : InitRec → InitRec) :
    KeepsInits (s.leftChannel r f) (s.leaveChannel r d f) := by
  cases h : s.headsChannel r with
  | false => exact .of_eq (by rw [State.leaveChannel_waiting d f h])
  | true =>
    obtain ⟨c, hc⟩ := State.headsChannel_some h
    rw [State.leaveChannel_head d f h hc]
    exact KeepsInits.trans (.of_eq (by rw [State.recordDeparture_keepsInits])) (State.becomeHead_keepsInits _ c)

theorem State.beforeDelivery_keepsInits (s : State) (r : InitRec) (o : Outcome) (a b : Bool) :
    KeepsInits (s.leftChannel r (fun x => x.ended o b)) (s.beforeDelivery r o a b) := by
  unfold State.beforeDelivery
  dsimp only
  split
  · exact (State.leaveChannel_keepsInits s r _ _).trans (State.offerInit_keepsInits _ _ _)
  · exact State.leaveChannel_keepsInits s r _ _

theorem filter_map_tag (l : List InitRec) (t : Tag) (g : InitRec → InitRec) (f : InitRec → InitRec) (hf : ∀ x, (f x).tag = x.tag)
    (hg : ∀ x, (g x).tag = x.tag) :
    ((l.map (fun x => if x.tag = t then g x else x)).map f).filter (fun x => decide (x.tag ≠ t)) =
      (l.filter (fun x => decide (x.tag ≠ t))).map f := by
  induction l with
  | nil => rfl
  | cons x l ih =>
    rw [List.map_cons, List.map_cons, List.filter_cons, List.filter_cons, ih]
    by_cases hx : x.tag = t
    · rw [if_pos hx, if_neg (by simp [hf, hg, hx]), if_neg (by simp [hx])]
    · rw [if_neg hx, if_pos (by simp [hf, hx]), if_pos (by simp [hx])]; rfl

/-- The records after an ending that finds room in the Outcome Queue: the record is freed (R38). -/
theorem State.endInit_inits_freed {s : State} {r : InitRec} (o : Outcome) (a b : Bool) (h : s.initRec r.tag = some r)
    (hl : s.host.outcomes.length < 16) :
    ∃ f, RingOrWanted f ∧ (s.endInit r o a b).exch.inits = (s.exch.inits.filter (fun x => decide (x.tag ≠ r.tag))).map f := by
  obtain ⟨f, hf, hu⟩ := State.beforeDelivery_keepsInits s r o a b
  obtain ⟨w, hw, _⟩ := State.beforeDelivery_initRec o a b h
  refine ⟨f, hf, ?_⟩
  rw [State.endInit_eq]
  unfold State.deliver
  rw [hw]
  dsimp only
  rw [if_pos (by rw [(s.beforeDelivery_rest r o a b).1]; exact hl)]
  unfold State.enterQueue
  have : (if b = true then
      (((s.beforeDelivery r o a b).pushOutcome (InitRec.outcomeRec { r.ended o b with wanted := w } o)).freeInit
        { r.ended o b with wanted := w }).offer (InitRec.item (State.own (((s.beforeDelivery r o a b).pushOutcome
          (InitRec.outcomeRec { r.ended o b with wanted := w } o)).freeInit { r.ended o b with wanted := w }))
          { r.ended o b with wanted := w } .close) .fixed
      else ((s.beforeDelivery r o a b).pushOutcome (InitRec.outcomeRec { r.ended o b with wanted := w } o)).freeInit
        { r.ended o b with wanted := w }).exch.inits =
      (s.beforeDelivery r o a b).exch.inits.filter (fun x => decide (x.tag ≠ r.tag)) := by
    split <;> rfl
  refine this.trans ?_
  rw [hu]
  exact filter_map_tag _ _ (fun x => ({ x with ring := none } : InitRec).ended o b) f hf.tag (fun _ => rfl)

/-- The records after an ending that finds the Outcome Queue full: the record stands in DELIVERING (R38). -/
theorem State.endInit_inits_kept {s : State} {r : InitRec} (o : Outcome) (a b : Bool) (h : s.initRec r.tag = some r)
    (hl : 16 ≤ s.host.outcomes.length) :
    ∃ f, RingOrWanted f ∧ (s.endInit r o a b).exch.inits =
      (s.exch.inits.map (fun x => if x.tag = r.tag then ({ x with ring := none } : InitRec).ended o b else x)).map f := by
  obtain ⟨f, hf, hu⟩ := State.beforeDelivery_keepsInits s r o a b
  obtain ⟨w, hw, _⟩ := State.beforeDelivery_initRec o a b h
  refine ⟨f, hf, ?_⟩
  rw [State.endInit_eq]
  unfold State.deliver
  rw [hw]
  dsimp only
  rw [if_neg (by rw [(s.beforeDelivery_rest r o a b).1]; exact Nat.not_lt.2 hl)]
  exact hu

/-- The take conditions are read after an ending exactly where it frees its record (R22, R38). -/
theorem State.endAndTake_eq {s : State} {r : InitRec} (o : Outcome) (a b : Bool) (h : s.initRec r.tag = some r) :
    s.endAndTake r o a b = if s.host.outcomes.length < 16 then (s.endInit r o a b).retake else s.endInit r o a b := by
  have hm : r ∈ s.exch.inits := List.mem_of_find?_eq_some h
  show (if _ then _ else _) = _
  by_cases hl : s.host.outcomes.length < 16
  · obtain ⟨f, _, hu⟩ := State.endInit_inits_freed o a b h hl
    rw [if_pos hl, if_pos]
    rw [hu, List.length_map]
    exact List.length_filter_lt_length_iff_exists.2 ⟨r, hm, by simp⟩
  · obtain ⟨f, _, hu⟩ := State.endInit_inits_kept o a b h (Nat.not_lt.1 hl)
    rw [if_neg hl, if_neg]
    rw [hu, List.length_map, List.length_map]
    exact Nat.lt_irrefl _

/-! ### Endings in succession -/

theorem RingOrWanted.live {f : InitRec → InitRec} (hf : RingOrWanted f) (x : InitRec) : (f x).live = x.live := by rw [hf x]; rfl

theorem RingOrWanted.outcomeRec {f : InitRec → InitRec} (hf : RingOrWanted f) (x : InitRec) (code : OutcomeCode) :
    (f x).outcomeRec ((f x).localOutcome code) = x.outcomeRec (x.localOutcome code) := by rw [hf x]; rfl

theorem RingOrWanted.inChannel {f : InitRec → InitRec} (hf : RingOrWanted f) (x : InitRec) (c : Channel) :
    (f x).inChannel c = x.inChannel c := by rw [hf x]; rfl

theorem find_of_nodup {l : List InitRec} (hn : (l.map InitRec.tag).Nodup) {r : InitRec} (hr : r ∈ l) :
    l.find? (fun x => decide (x.tag = r.tag)) = some r := by
  induction l with
  | nil => cases hr
  | cons x l ih =>
    rw [List.map_cons, List.nodup_cons] at hn
    rw [List.find?_cons]
    rcases List.mem_cons.1 hr with rfl | h
    · simp
    · have : x.tag ≠ r.tag := fun e => hn.1 (e ▸ List.mem_map_of_mem h)
      simp only [this, decide_false]
      exact ih hn.2 h

/-- The local ending of a record, where it is still live, by one of a succession of endings (R104, R108). -/
def EndsLocally (code : OutcomeCode) (step : State → InitRec → State) : Prop :=
  ∀ (s : State) (r x : InitRec), s.initRec r.tag = some x → x.live = true →
    step s r = s.endInit x (x.localOutcome code) false false

/-- Such a succession passes over the records of a list that are no longer live. -/
def PassesOver (step : State → InitRec → State) (L : List InitRec) : Prop :=
  ∀ r ∈ L, r.live = false → ∀ (s : State) (x : InitRec), s.initRec r.tag = some x → x.live = false → step s r = s

theorem InitRec.asking_live {r : InitRec} (h : r.live = false) : r.asking = false := by
  unfold InitRec.live at h
  unfold InitRec.asking
  split at h
  · next hs => rw [hs]
  · cases h

/-- Endings one after another while the Outcome Queue has room for all of them: the outcomes enter in the order of the list, and
every live record of the list is freed. -/
theorem endings_fold {code : OutcomeCode} {step : State → InitRec → State} (hstep : EndsLocally code step) (L : List InitRec) :
    PassesOver step L → ∀ (s : State) (E : List InitRec) (f : InitRec → InitRec), RingOrWanted f → s.exch.inits = E.map f → (E.map InitRec.tag).Nodup →
      L.Sublist E → s.host.outcomes.length + (L.filter InitRec.live).length ≤ 16 →
      (L.foldl step s).host.outcomes =
          s.host.outcomes ++ (L.filter InitRec.live).map (fun r => r.outcomeRec (r.localOutcome code)) ∧
        ∃ g, RingOrWanted g ∧ (L.foldl step s).exch.inits =
          (E.filter (fun x => decide (x ∉ L.filter InitRec.live))).map g := by
  induction L with
  | nil =>
    intro _ s E f hf hE _ _ _
    refine ⟨by simp, f, hf, ?_⟩
    rw [List.foldl_nil, hE, List.filter_eq_self.2 (by simp)]
  | cons r L ih =>
    intro hpass s E f hf hE hn hL hroom
    have ih := ih (fun x hx => hpass x (List.mem_cons_of_mem r hx))
    have hr : r ∈ E := hL.subset (List.mem_cons_self ..)
    have hrec : s.initRec r.tag = some (f r) := by
      show s.exch.inits.find? _ = _
      rw [hE, find_map_tag E f hf.tag, find_of_nodup hn hr]; rfl
    have hLn : ((r :: L).map InitRec.tag).Nodup := (hL.map InitRec.tag).nodup hn
    rw [List.map_cons, List.nodup_cons] at hLn
    have hsub : L.Sublist E := (List.sublist_cons_self r L).trans hL
    cases hlive : r.live with
    | false =>
      rw [List.filter_cons, if_neg (by simp [hlive])] at hroom ⊢
      rw [List.foldl_cons, hpass r (List.mem_cons_self ..) hlive s _ hrec (by rw [hf.live, hlive])]
      exact ih s E f hf hE hn hsub hroom
    | true =>
      rw [List.filter_cons, if_pos hlive] at hroom ⊢
      rw [List.length_cons] at hroom
      rw [List.foldl_cons, hstep s r _ hrec (by rw [hf.live, hlive])]
      have htag : (f r).tag = r.tag := hf.tag r
      have hself : s.initRec (f r).tag = some (f r) := by rw [htag]; exact hrec
      have hl : s.host.outcomes.length < 16 := by omega
      obtain ⟨g, hg, hu⟩ := State.endInit_inits_freed ((f r).localOutcome code) false false hself hl
      have hout := (State.endInit_delivered ((f r).localOutcome code) false false hself hl).1
      have hfil : (E.map f).filter (fun x => decide (x.tag ≠ (f r).tag)) = (E.filter (fun x => decide (x.tag ≠ r.tag))).map f := by
        rw [List.filter_map]
        congr 1
        refine List.filter_congr (fun x _ => ?_)
        simp [Function.comp, hf.tag]
      rw [hE, hfil, List.map_map] at hu
      have hE' : ((E.filter (fun x => decide (x.tag ≠ r.tag))).map InitRec.tag).Nodup :=
        ((List.filter_sublist (l := E)).map InitRec.tag).nodup hn
      have hL' : L.Sublist (E.filter (fun x => decide (x.tag ≠ r.tag))) := by
        have h1 : L.filter (fun x => decide (x.tag ≠ r.tag)) = L :=
          List.filter_eq_self.2 (fun x hx => by
            simp only [decide_eq_true_eq]
            exact fun e => hLn.1 (e ▸ List.mem_map_of_mem hx))
        have h2 := hsub.filter (fun x => decide (x.tag ≠ r.tag))
        rwa [h1] at h2
      obtain ⟨i1, g', hg', i2⟩ := ih _ _ _ (hf.comp hg) hu hE' hL' (by rw [hout, List.length_append]; simp only [List.length_singleton]; omega)
      refine ⟨?_, g', hg', ?_⟩
      · rw [i1, hout, List.append_assoc]
        have : (⟨(f r).label, (f r).op, (f r).peer, (f r).localOutcome code⟩ : OutcomeRec) = r.outcomeRec (r.localOutcome code) :=
          hf.outcomeRec r code
        rw [this]; rfl
      · rw [i2, List.filter_filter]
        congr 1
        refine List.filter_congr (fun x hx => ?_)
        have key : x.tag = r.tag ↔ x = r := by
          constructor
          · intro e
            have h1 := find_of_nodup hn hx
            have h2 := find_of_nodup hn hr
            rw [e] at h1
            exact Option.some.inj (h1.symm.trans h2)
          · rintro rfl; rfl
        rw [Bool.eq_iff_iff]
        simp only [List.mem_cons, not_or, key, ne_eq, Bool.and_eq_true, decide_eq_true_eq]
        exact And.comm

/-- One ending of an entry to LEAVING. -/
def State.withdrawOne (s : State) (r : InitRec) : State :=
  match s.initRec r.tag with
  | some x => if x.live then s.endInit x (x.localOutcome .withdrawn) false false else s
  | none => s

theorem State.withdrawOne_ends : EndsLocally .withdrawn State.withdrawOne := by
  intro s r x hx hl
  unfold State.withdrawOne
  rw [hx]
  exact if_pos hl

theorem State.withdrawOne_passes (L : List InitRec) : PassesOver State.withdrawOne L := by
  intro r _ _ s x hx hl
  unfold State.withdrawOne
  rw [hx]
  exact if_neg (by rw [hl]; simp)

/-- Every live record ends WITHDRAWN, in creation order (R108). -/
theorem State.withdrawAll_outcomes (s : State) (hn : (s.exch.inits.map InitRec.tag).Nodup)
    (hl : s.host.outcomes.length + (s.exch.inits.filter InitRec.live).length ≤ 16) :
    s.withdrawAll.host.outcomes = s.host.outcomes ++
      (s.exch.inits.filter InitRec.live).map (fun r => r.outcomeRec (r.localOutcome .withdrawn)) :=
  (endings_fold State.withdrawOne_ends s.exch.inits (State.withdrawOne_passes _) s s.exch.inits _ RingOrWanted.id (List.map_id' _).symm hn (List.Sublist.refl _) hl).1

/-- An ending sets flags only (R180). -/
theorem State.endInit_flags {s : State} {r : InitRec} (o : Outcome) (a b : Bool) (h : s.initRec r.tag = some r) :
    s.host.flags ||| (s.endInit r o a b).host.flags = (s.endInit r o a b).host.flags := by
  have hl : s.host.flags ||| (s.leaveChannel r .aborted (fun x => x.ended o b)).host.flags =
      (s.leaveChannel r .aborted (fun x => x.ended o b)).host.flags := by
    cases hh : s.headsChannel r with
    | false => rw [State.leaveChannel_waiting _ _ hh]; exact BitVec.or_self
    | true =>
      obtain ⟨c, hc⟩ := State.headsChannel_some hh
      rw [(State.leaveChannel_chan .aborted _ hh hc).2, ← BitVec.or_assoc, BitVec.or_self]
  by_cases hr : s.host.outcomes.length < 16
  · rw [(State.endInit_delivered o a b h hr).2.2.1, ← BitVec.or_assoc, hl]
  · rw [(State.endInit_waits o a b h (Nat.not_lt.1 hr)).2.2.2.1, hl]

theorem InitRec.ended_live (r : InitRec) (o : Outcome) (b : Bool) : (r.ended o b).live = false := rfl

/-- A record that is live after an ending is the record of another tag, as it was but for its ring and its wanted items. -/
theorem State.endInit_live {s : State} {r : InitRec} (o : Outcome) (a b : Bool) (h : s.initRec r.tag = some r) {x : InitRec}
    (hx : x ∈ (s.endInit r o a b).exch.inits) (hl : x.live = true) :
    ∃ y ∈ s.exch.inits, y.tag ≠ r.tag ∧ ∃ f, RingOrWanted f ∧ x = f y := by
  by_cases hr : s.host.outcomes.length < 16
  · obtain ⟨f, hf, hu⟩ := State.endInit_inits_freed o a b h hr
    rw [hu] at hx
    obtain ⟨y, hy, rfl⟩ := List.mem_map.1 hx
    rw [List.mem_filter] at hy
    exact ⟨y, hy.1, by simpa using hy.2, f, hf, rfl⟩
  · obtain ⟨f, hf, hu⟩ := State.endInit_inits_kept o a b h (Nat.not_lt.1 hr)
    rw [hu] at hx
    obtain ⟨z, hz, rfl⟩ := List.mem_map.1 hx
    obtain ⟨y, hy, rfl⟩ := List.mem_map.1 hz
    rw [hf.live] at hl
    by_cases hc : y.tag = r.tag
    · rw [if_pos hc, InitRec.ended_live] at hl; cases hl
    · rw [if_neg hc]
      exact ⟨y, hy, hc, f, hf, rfl⟩

/-- The endings of a lost peer's records (R104): none toward it is live afterward, flags are set only, and nothing outside the
initiator path changes. -/
theorem State.losePeer_ends (s : State) (n : Station) :
    (∀ x ∈ (s.losePeer n).exch.inits, x.peer = n → x.live = false) ∧ (s.losePeer n).endSide = s.endSide ∧
      s.host.flags ||| (s.losePeer n).host.flags = (s.losePeer n).host.flags := by
  have key : ∀ (L : List InitRec) (u : State),
      (∀ x ∈ u.exch.inits, x.peer = n → x.live = true → ∃ r ∈ L, r.tag = x.tag) →
      let v := L.foldl (fun s r => match s.initRec r.tag with
        | some x => s.endInit x (x.localOutcome .peerLost) false false
        | none => s) u
      (∀ x ∈ v.exch.inits, x.peer = n → x.live = false) ∧ v.endSide = u.endSide ∧ u.host.flags ||| v.host.flags = v.host.flags := by
    intro L
    induction L with
    | nil =>
      intro u hu
      refine ⟨fun x hx hn => ?_, rfl, BitVec.or_self⟩
      cases hl : x.live with
      | false => rfl
      | true => obtain ⟨r, hr, _⟩ := hu x hx hn hl; cases hr
    | cons r L ih =>
      intro u hu
      rw [List.foldl_cons]
      cases hr : u.initRec r.tag with
      | none =>
        refine ih u (fun x hx hn hl => ?_)
        obtain ⟨y, hy, ht⟩ := hu x hx hn hl
        rcases List.mem_cons.1 hy with rfl | hy
        · have := List.find?_eq_none.1 hr x hx
          simp [ht] at this
        · exact ⟨y, hy, ht⟩
      | some y =>
        dsimp only
        have ht : y.tag = r.tag := State.initRec_tag hr
        have hy : u.initRec y.tag = some y := by rw [ht]; exact hr
        obtain ⟨h1, h2, h3⟩ := ih (u.endInit y (y.localOutcome .peerLost) false false) (fun x hx hn hl => by
          obtain ⟨z, hz, hzt, f, hf, rfl⟩ := State.endInit_live _ _ _ hy hx hl
          have hzp : z.peer = n := by rw [hf z] at hn; exact hn
          obtain ⟨w, hw, hwt⟩ := hu z hz hzp (by rw [hf.live] at hl; exact hl)
          rcases List.mem_cons.1 hw with rfl | hw
          · exact absurd (hwt.symm.trans ht.symm) hzt
          · exact ⟨w, hw, hwt.trans (hf.tag z).symm⟩)
        refine ⟨h1, h2.trans (State.endInit_endSide _ _ _ _ _), ?_⟩
        rw [← h3, ← BitVec.or_assoc, State.endInit_flags _ _ _ hy]
  refine key _ s (fun x hx hn hl => ⟨x, ?_, rfl⟩)
  rw [List.mem_filter]
  exact ⟨hx, by simp [hn, hl]⟩

/-- Every live record toward a lost peer ends PEER_LOST, in creation order, while the Outcome Queue has room (R104). -/
theorem State.losePeer_outcomes (s : State) (n : Station) (hn : (s.exch.inits.map InitRec.tag).Nodup)
    (hl : s.host.outcomes.length + s.exch.inits.length ≤ 16) :
    (s.losePeer n).host.outcomes = s.host.outcomes ++
      (s.exch.inits.filter (fun r => decide (r.peer = n) && r.live)).map (fun r => r.outcomeRec (r.localOutcome .peerLost)) := by
  have hlive : (s.exch.inits.filter (fun r => decide (r.peer = n) && r.live)).filter InitRec.live =
      s.exch.inits.filter (fun r => decide (r.peer = n) && r.live) :=
    List.filter_eq_self.2 (fun x hx => (Bool.and_eq_true _ _ ▸ (List.mem_filter.1 hx).2).2)
  have hsteps : EndsLocally .peerLost (fun s r => match s.initRec r.tag with
      | some x => s.endInit x (x.localOutcome .peerLost) false false
      | none => s) := by
    intro s r x hx _
    dsimp only
    rw [hx]
  have key := endings_fold hsteps (s.exch.inits.filter (fun r => decide (r.peer = n) && r.live))
    (fun r hr hd => by
      rw [List.mem_filter] at hr
      simp [hd] at hr) s s.exch.inits _ RingOrWanted.id (List.map_id' _).symm hn
    (List.filter_sublist (l := s.exch.inits)) (by
      rw [hlive]
      exact Nat.le_trans (Nat.add_le_add_left (List.length_filter_le _ _) _) hl)
  rw [hlive] at key
  exact key.1

/-- Flags that are all set stay set while flags are set only. -/
theorem flags_trans {a b c : BitVec 8} (h : a ||| b = b) (k : b ||| c = c) : a ||| c = c := by
  rw [← k, ← BitVec.or_assoc, h]

theorem State.flagSet_of_or {s : State} {f : Flag} (h : f.mask ||| s.host.flags = s.host.flags) : s.flagSet f = true := by
  unfold State.flagSet
  revert h
  generalize s.host.flags = g
  cases f <;> (revert g; decide)

/-- A departure from one channel leaves the other channel alone. -/
theorem State.leaveChannel_other {s : State} {r : InitRec} {c c' : Channel} (d : Departure) (f : InitRec → InitRec) (hc : r.channel = some c) (hn : c' ≠ c) :
    (s.leaveChannel r d f).chan c' = s.chan c' := by
  cases h : s.headsChannel r with
  | false => rw [State.leaveChannel_waiting d f h]; cases c' <;> rfl
  | true =>
    rw [State.leaveChannel_head d f h hc]
    have key := State.becomeHead_rest ((s.leftChannel r f).recordDeparture c d r.label) c
    cases c' <;> cases c <;> first | exact absurd rfl hn | exact key.2.2.1.trans rfl | exact key.2.2.2.1.trans rfl

/-- The withdrawals of the records of a list, after records that are no longer live: each channel with a record in the list ends
held, with the departure of the last of them, and its flag set (R108, R175, R177). -/
theorem withdraw_channels (L : List InitRec) : ∀ (s : State) (D : List InitRec) (f : InitRec → InitRec), RingOrWanted f →
    s.exch.inits = (D ++ L).map f → ((D ++ L).map InitRec.tag).Nodup → (∀ x ∈ D, x.live = false) →
    s.host.outcomes.length + (L.filter InitRec.live).length ≤ 16 →
    let u := L.foldl State.withdrawOne s
    s.host.flags ||| u.host.flags = u.host.flags ∧ ((∃ r ∈ L, r.live = true) → (1 : BitVec 8) ||| u.host.flags = u.host.flags) ∧
    ∀ ch, u.chan ch = (match (L.filter (fun r => r.inChannel ch)).getLast? with
        | some r => { s.chan ch with held := true, departure := .aborted, lastLabel := r.label }
        | none => s.chan ch) ∧
      (L.filter (fun r => r.inChannel ch) ≠ [] → (chanFlag ch).mask ||| u.host.flags = u.host.flags) := by
  induction L with
  | nil =>
    intro s D f _ _ _ _ _ u
    exact ⟨BitVec.or_self, fun h => (by obtain ⟨r, h, _⟩ := h; cases h), fun ch => ⟨rfl, fun h => absurd rfl h⟩⟩
  | cons r L ih =>
    intro s D f hf hE hn hD hroom
    have hr : r ∈ D ++ r :: L := List.mem_append_right _ (List.mem_cons_self ..)
    have hrec : s.initRec r.tag = some (f r) := by
      show s.exch.inits.find? _ = _
      rw [hE, find_map_tag _ f hf.tag, find_of_nodup hn hr]; rfl
    cases hlive : r.live with
    | false =>
      have hst : State.withdrawOne s r = s := State.withdrawOne_passes [r] r (List.mem_cons_self ..) hlive s _ hrec (by rw [hf.live, hlive])
      have hnc : ∀ ch, r.inChannel ch = false := fun ch => by
        cases h : r.inChannel ch with
        | false => rfl
        | true => rw [InitRec.live_of_inChannel h] at hlive; cases hlive
      have key := ih s (D ++ [r]) f hf (by rw [hE, List.append_assoc]; rfl) (by rw [List.append_assoc]; exact hn)
        (fun x hx => (List.mem_append.1 hx).elim (hD x) (fun h => by rw [List.mem_singleton.1 h]; exact hlive))
        (by rw [List.filter_cons, if_neg (by simp [hlive])] at hroom; exact hroom)
      rw [List.foldl_cons, hst]
      refine ⟨key.1, fun ⟨x, hx, hl⟩ => key.2.1 ⟨x, ?_, hl⟩, fun ch => ?_⟩
      · rcases List.mem_cons.1 hx with rfl | h
        · rw [hl] at hlive; cases hlive
        · exact h
      · rw [List.filter_cons, if_neg (by rw [hnc ch]; simp)]
        exact key.2.2 ch
    | true =>
      rw [List.filter_cons, if_pos hlive, List.length_cons] at hroom
      have hst : State.withdrawOne s r = s.endInit (f r) ((f r).localOutcome .withdrawn) false false :=
        State.withdrawOne_ends s r _ hrec (by rw [hf.live, hlive])
      have htag : (f r).tag = r.tag := hf.tag r
      have hself : s.initRec (f r).tag = some (f r) := by rw [htag]; exact hrec
      have hl : s.host.outcomes.length < 16 := by omega
      obtain ⟨g, hg, hu⟩ := State.endInit_inits_freed ((f r).localOutcome .withdrawn) false false hself hl
      have hdel := State.endInit_delivered ((f r).localOutcome .withdrawn) false false hself hl
      have hfil : (D ++ r :: L).filter (fun x => decide (x.tag ≠ r.tag)) = D ++ L := by
        rw [List.map_append, List.map_cons] at hn
        have h1 := (List.nodup_append.1 hn)
        have h2 := List.nodup_cons.1 h1.2.1
        rw [List.filter_append, List.filter_cons, if_neg (by simp)]
        have a1 : L.filter (fun x => decide (x.tag ≠ r.tag)) = L := List.filter_eq_self.2 (by
          intro x hx; simp only [decide_eq_true_eq]; exact fun e => h2.1 (e ▸ List.mem_map_of_mem hx))
        have a2 : D.filter (fun x => decide (x.tag ≠ r.tag)) = D := List.filter_eq_self.2 (by
          intro x hx; simp only [decide_eq_true_eq]
          exact fun e => h1.2.2 _ (List.mem_map_of_mem hx) _ (List.mem_cons_self ..) e)
        rw [a1, a2]
      have hu' : (State.withdrawOne s r).exch.inits = (D ++ L).map (fun x => g (f x)) := by
        rw [hst, hu, hE, List.filter_map]
        have : (fun x : InitRec => decide (x.tag ≠ (f r).tag)) ∘ f = fun x => decide (x.tag ≠ r.tag) :=
          funext (fun x => by simp [Function.comp, hf.tag])
        rw [this, hfil, List.map_map]; rfl
      have hn' : ((D ++ L).map InitRec.tag).Nodup := by
        rw [← hfil]; exact ((List.filter_sublist (l := D ++ r :: L)).map InitRec.tag).nodup hn
      have key := ih (State.withdrawOne s r) D (fun x => g (f x)) (hf.comp hg) hu' hn' hD (by rw [hst, hdel.1, List.length_append]; simp only [List.length_singleton]; omega)
      rw [List.foldl_cons]
      -- which channel the record heads
      have hhead : ∀ c, r.inChannel c = true → s.headsChannel (f r) = true ∧ (f r).channel = some c := by
        intro c hc
        have hch : (f r).channel = some c := by
          have := hf.inChannel r c
          rw [hc] at this
          unfold InitRec.inChannel at this
          simp only [Bool.and_eq_true, decide_eq_true_eq] at this
          exact this.1
        refine ⟨?_, hch⟩
        unfold State.headsChannel
        rw [hch]
        dsimp only
        have : s.channelHead c = some (f r) := by
          show (s.exch.inits.filter (fun x => x.inChannel c)).head? = _
          rw [hE, List.filter_map]
          have : (fun x : InitRec => x.inChannel c) ∘ f = fun x => x.inChannel c := funext (fun x => hf.inChannel x c)
          have hDn : D.filter (fun x => x.inChannel c) = [] := List.filter_eq_nil_iff.2 (by
            intro x hx h
            have := InitRec.live_of_inChannel h
            rw [hD x hx] at this; cases this)
          rw [this, List.filter_append, hDn, List.nil_append, List.filter_cons, if_pos hc]
          rfl
        rw [this]; simp
      have hnot : (∀ c, r.inChannel c = false) → s.headsChannel (f r) = false := by
        intro hall
        cases h : s.headsChannel (f r) with
        | false => rfl
        | true =>
          obtain ⟨c, hc⟩ := State.headsChannel_some h
          unfold State.headsChannel at h
          rw [hc] at h
          simp only [decide_eq_true_eq] at h
          obtain ⟨y, hy, hyt⟩ := Option.map_eq_some_iff.1 h
          have hm := State.channelHead_mem hy
          rw [hE] at hm
          obtain ⟨z, hz, rfl⟩ := List.mem_map.1 hm.1
          rw [hf.tag, hf.tag] at hyt
          have e1 := find_of_nodup hn hz
          have e2 := find_of_nodup hn hr
          rw [hyt] at e1
          have : z = r := Option.some.inj (e1.symm.trans e2)
          rw [this] at hm
          have := hm.2
          rw [hf.inChannel, hall c] at this
          cases this
      have hflag : s.host.flags ||| (State.withdrawOne s r).host.flags = (State.withdrawOne s r).host.flags ∧ (1 : BitVec 8) ||| (State.withdrawOne s r).host.flags = (State.withdrawOne s r).host.flags ∧
          ∀ c, ((State.withdrawOne s r).chan c = if r.inChannel c then { s.chan c with held := true, departure := .aborted, lastLabel := r.label } else s.chan c) ∧
            (r.inChannel c = true → (chanFlag c).mask ||| (State.withdrawOne s r).host.flags = (State.withdrawOne s r).host.flags) := by
        rw [hst, hdel.2.2.1]
        by_cases hany : ∃ c, r.inChannel c = true
        · obtain ⟨c, hc⟩ := hany
          obtain ⟨h1, h2⟩ := hhead c hc
          have hlc := State.leaveChannel_chan .aborted (fun x => x.ended ((f r).localOutcome .withdrawn) false) h1 h2
          rw [hlc.2]
          have huniq : ∀ c', r.inChannel c' = true → c' = c := fun c' h => by
            have := (hhead c' h).2
            rw [h2] at this; exact (Option.some.inj this).symm
          have hlab : (f r).label = r.label := by rw [hf r]
          refine ⟨?_, ?_, fun c' => ⟨?_, fun h => ?_⟩⟩
          · generalize s.host.flags = a; generalize (chanFlag c).mask = b
            rw [BitVec.or_assoc, ← BitVec.or_assoc, BitVec.or_self]
          · generalize s.host.flags = a; generalize (chanFlag c).mask = b
            rw [BitVec.or_comm 1, BitVec.or_assoc, BitVec.or_self]
          · rw [hdel.2.2.2 c']
            by_cases hcc : c' = c
            · subst hcc
              rw [hlc.1, if_pos hc, hlab]; simp
            · rw [State.leaveChannel_other _ _ h2 hcc, if_neg (fun h => hcc (huniq c' h))]
          · rw [huniq c' h]
            generalize s.host.flags = a
            cases c <;> (revert a; decide)
        · have hall : ∀ c, r.inChannel c = false := fun c => by
            cases h : r.inChannel c with
            | false => rfl
            | true => exact absurd ⟨c, h⟩ hany
          have hw := State.leaveChannel_waiting .aborted (fun (x : InitRec) => x.ended ((f r).localOutcome .withdrawn) false) (hnot hall)
          rw [hw]
          have hfl : (s.leftChannel (f r) (fun x => x.ended ((f r).localOutcome .withdrawn) false)).host.flags = s.host.flags := rfl
          rw [hfl]
          refine ⟨?_, ?_, fun c' => ⟨?_, fun h => ?_⟩⟩
          · rw [← BitVec.or_assoc, BitVec.or_self]
          · rw [BitVec.or_comm 1, BitVec.or_assoc, BitVec.or_self]
          · rw [hdel.2.2.2 c', hw, if_neg (by rw [hall c']; simp)]
            cases c' <;> rfl
          · rw [hall c'] at h; cases h
      refine ⟨flags_trans hflag.1 key.1, fun _ => flags_trans hflag.2.1 key.1, fun ch => ?_⟩
      have kc := key.2.2 ch
      have hc := hflag.2.2 ch
      rw [List.filter_cons]
      cases hin : r.inChannel ch with
      | false =>
        rw [if_neg (by simp)]
        rw [hin] at hc
        refine ⟨kc.1.trans ?_, kc.2⟩
        rw [hc.1]
        rfl
      | true =>
        rw [if_pos rfl]
        rw [hin] at hc
        refine ⟨kc.1.trans ?_, fun _ => flags_trans (hc.2 rfl) key.1⟩
        rw [hc.1, if_pos rfl, List.getLast?_cons]
        cases hl' : (L.filter (fun r => r.inChannel ch)).getLast? with
        | none => rfl
        | some y => rfl


end Sys2Proof.Machine
end

