-- ==== Sys2Proof/Laws/Drops.lean ====
section
/-! SUPPORT. What giving a target record up leaves alone (R17, R57, R105): the initiator records, the queues of the host, the roster
but for the own module ready; that the key of a record given up is free afterward; and what a removal of a peer, with the grants and takes
after it, leaves of the roster (R149). -/

namespace Sys2Proof.Machine

/-- The work of the module port and of the target records changes nothing of the initiator records, of the Membership Controller
but the own module ready, nor of the host's queues; flags are set only; no target record gets a key it did not have. -/
structure State.PortWork (s u : State) : Prop where
  host : u.host = { s.host with flags := u.host.flags }
  flags : s.host.flags ||| u.host.flags = u.host.flags
  inits : u.exch.inits = s.exch.inits
  member : u.member = { s.member with roster := u.member.roster }
  entries : ∀ m : Station, u.member.roster[m].present = s.member.roster[m].present ∧
    u.member.roster[m].misses = s.member.roster[m].misses ∧ (m ≠ s.own → u.member.roster[m] = s.member.roster[m]) ∧
    (s.member.roster[m] = RosterEntry.absent → u.member.roster[m] = RosterEntry.absent)
  keys : ∀ x ∈ u.exch.targets, x.id = none ∨ ∃ y ∈ s.exch.targets, y.id = x.id

theorem State.PortWork.refl (s : State) : s.PortWork s :=
  ⟨rfl, BitVec.or_self, rfl, rfl, fun _ => ⟨rfl, rfl, fun _ => rfl, id⟩, fun x hx => Or.inr ⟨x, hx, rfl⟩⟩

theorem State.PortWork.own {s u : State} (h : s.PortWork u) : u.own = s.own := by
  have := congrArg HostPort.config h.host
  unfold State.own
  rw [this]

theorem State.PortWork.trans {s u v : State} (h : s.PortWork u) (k : u.PortWork v) : s.PortWork v where
  host := k.host.trans (by rw [h.host])
  flags := by rw [← k.flags, ← BitVec.or_assoc, h.flags]
  inits := k.inits.trans h.inits
  member := k.member.trans (by rw [h.member])
  entries := fun m =>
    ⟨(k.entries m).1.trans (h.entries m).1, (k.entries m).2.1.trans (h.entries m).2.1,
      fun hm => ((k.entries m).2.2.1 (by rw [h.own]; exact hm)).trans ((h.entries m).2.2.1 hm),
      fun hm => (k.entries m).2.2.2 ((h.entries m).2.2.2 hm)⟩
  keys := fun x hx => by
    rcases k.keys x hx with hn | ⟨y, hy, e⟩
    · exact Or.inl hn
    · rcases h.keys y hy with hn | ⟨z, hz, e'⟩
      · exact Or.inl (e ▸ hn)
      · exact Or.inr ⟨z, hz, e'.trans e⟩

theorem State.withPort_work (s : State) (p : Port) : s.PortWork (s.withPort p) where
  host := rfl
  flags := BitVec.or_self
  inits := rfl
  member := rfl
  entries := fun m => by
    have hg : (s.withPort p).member.roster[m] =
        if s.own = m then { s.member.roster[s.own] with ready := s.member.roster[s.own].present && p.state.ready }
        else s.member.roster[m] := by
      show (s.member.roster.set s.own _)[m] = _
      simp only [Fin.getElem_fin, Vector.getElem_set, Fin.ext_iff]
    rw [hg]
    by_cases h : s.own = m
    · rw [if_pos h]
      obtain rfl : m = s.own := h.symm
      refine ⟨rfl, rfl, fun hm => absurd rfl hm, fun hm => ?_⟩
      rw [hm]; rfl
    · rw [if_neg h]
      exact ⟨rfl, rfl, fun _ => rfl, id⟩
  keys := fun x hx => Or.inr ⟨x, hx, rfl⟩

theorem State.setFlag_work (s : State) (f : Flag) : s.PortWork (s.setFlag f) where
  host := rfl
  flags := by
    show s.host.flags ||| (s.host.flags ||| f.mask) = s.host.flags ||| f.mask
    rw [← BitVec.or_assoc, BitVec.or_self]
  inits := rfl
  member := rfl
  entries := fun _ => ⟨rfl, rfl, fun _ => rfl, id⟩
  keys := fun x hx => Or.inr ⟨x, hx, rfl⟩

/-- A change of the target records, the pools and the waiting items alone, that gives no record a key. -/
theorem State.PortWork.ofTargets {s u : State} (h1 : u.host = s.host) (h2 : u.exch.inits = s.exch.inits) (h3 : u.member = s.member)
    (h4 : ∀ x ∈ u.exch.targets, x.id = none ∨ ∃ y ∈ s.exch.targets, y.id = x.id) : s.PortWork u where
  host := by rw [h1]
  flags := by rw [h1]; exact BitVec.or_self
  inits := h2
  member := by rw [h3]
  entries := fun m => by rw [h3]; exact ⟨rfl, rfl, fun _ => rfl, id⟩
  keys := h4

theorem mapped_keys {l : List TargetRec} {c : TargetRec → Bool} {f : TargetRec → TargetRec} (hf : ∀ x, (f x).id = none ∨ (f x).id = x.id) :
    ∀ x ∈ l.map (fun x => if c x then f x else x), x.id = none ∨ ∃ y ∈ l, y.id = x.id := by
  intro x hx
  obtain ⟨y, hy, rfl⟩ := List.mem_map.1 hx
  split
  · rcases hf y with h | h
    · exact Or.inl h
    · exact Or.inr ⟨y, hy, h.symm⟩
  · exact Or.inr ⟨y, hy, rfl⟩

theorem State.mapServed_work (s : State) (f : TargetRec → TargetRec) (hf : ∀ x, (f x).id = x.id) : s.PortWork (s.mapServed f) :=
  .ofTargets rfl rfl rfl (mapped_keys fun x => Or.inr (hf x))

theorem State.servedPort_work (s : State) (f : TargetRec → TargetRec) (p : Port) (hf : ∀ x, (f x).id = x.id) :
    s.PortWork ((s.mapServed f).withPort p) := (s.mapServed_work f hf).trans (State.withPort_work _ p)

theorem State.enterResetting_work (s : State) : s.PortWork s.enterResetting := by
  have h : s.PortWork s.assertReset := by
    unfold State.assertReset State.mapServedRing
    exact s.servedPort_work _ _ fun _ => rfl
  exact h.trans (State.setFlag_work _ _)

theorem State.startRunOut_work (s : State) (r : TargetRec) : s.PortWork (s.startRunOut r) := by
  unfold State.startRunOut State.mapServedRing
  exact s.servedPort_work _ _ fun _ => rfl

theorem State.stopServing_work (s : State) (r : TargetRec) : s.PortWork (s.stopServing r).1 := by
  have hop : ∀ p : State × Bool, p = (match r.op with
      | .read => (s.startRunOut r, true)
      | .write => (s.enterResetting, true)
      | .sync => (s.startRunOut r, false)) → s.PortWork p.1 := by
    rintro p rfl
    cases r.op
    · exact s.startRunOut_work r
    · exact s.enterResetting_work
    · exact s.startRunOut_work r
  unfold State.stopServing
  dsimp only
  split
  · exact s.withPort_work _
  · split
    · exact hop _ rfl
    · exact s.withPort_work _
  · exact hop _ rfl
  · exact hop _ rfl
  · exact .refl s

theorem State.moverCheck_work (s : State) : s.PortWork s.moverCheck := by
  unfold State.moverCheck
  split
  · unfold State.beginTransfer
    split
    · exact s.servedPort_work _ _ fun _ => rfl
    · exact .refl s
  · split
    · unfold State.waitForTransfer
      split
      · exact s.servedPort_work _ _ fun _ => rfl
      · exact s.servedPort_work _ _ fun _ => rfl
    · exact .refl s

theorem State.continueRunOut_work (s : State) : s.PortWork s.continueRunOut := by
  unfold State.continueRunOut
  split
  · exact s.moverCheck_work
  · exact .refl s

/-- No target record has this key. -/
def State.keyUnused (s : State) (p : Station) (t : Tag) : Prop := ∀ x ∈ s.exch.targets, x.keyed p t = false

theorem State.keyUnused.work {s u : State} {p : Station} {t : Tag} (h : s.keyUnused p t) (k : s.PortWork u) : u.keyUnused p t := by
  intro x hx
  rcases k.keys x hx with hn | ⟨y, hy, e⟩
  · unfold TargetRec.keyed; rw [hn]
  · have := h y hy
    unfold TargetRec.keyed at this ⊢
    rw [← e]; exact this

theorem State.freeTarget_work {s : State} {r : TargetRec} {i : ExchId} (hid : r.id = some i) :
    s.PortWork (s.freeTarget r) ∧ (s.freeTarget r).keyUnused i.peer i.tag := by
  unfold State.freeTarget
  rw [hid]
  dsimp only
  refine ⟨.ofTargets rfl rfl rfl (fun x hx => Or.inr ⟨x, (List.mem_filter.1 hx).1, rfl⟩), fun x hx => ?_⟩
  simpa using (List.mem_filter.1 hx).2

theorem State.detach_work {s : State} {r : TargetRec} {i : ExchId} (hid : r.id = some i) :
    s.PortWork (s.detach r) ∧ (s.detach r).keyUnused i.peer i.tag := by
  unfold State.detach
  rw [hid]
  dsimp only
  refine ⟨.ofTargets rfl rfl rfl (mapped_keys fun _ => Or.inl rfl), fun x hx => ?_⟩
  obtain ⟨y, _, rfl⟩ := List.mem_map.1 hx
  split
  · rfl
  · next h => simpa using h

/-- A record given up: the work this is, and its key is free (R17, R57). -/
theorem State.dropTarget_work {s : State} {r : TargetRec} {i : ExchId} (hid : r.id = some i) :
    s.PortWork (s.dropTarget r) ∧ (s.dropTarget r).keyUnused i.peer i.tag := by
  unfold State.dropTarget
  split
  · exact State.freeTarget_work hid
  · exact State.freeTarget_work hid
  · dsimp only
    have h := s.stopServing_work r
    split
    · have k := State.detach_work (s := (s.stopServing r).1) hid
      exact ⟨(h.trans k.1).trans (State.continueRunOut_work _), k.2.work (State.continueRunOut_work _)⟩
    · have k := State.freeTarget_work (s := (s.stopServing r).1) hid
      exact ⟨(h.trans k.1).trans (State.continueRunOut_work _), k.2.work (State.continueRunOut_work _)⟩
  · split
    · exact State.detach_work hid
    · exact State.freeTarget_work hid
  · exact State.detach_work hid

/-- The target records of a lost peer are given up (R105): none keyed to it is left. -/
theorem State.dropPeer_work (s : State) (n : Station) :
    s.PortWork (s.dropPeer n) ∧ ∀ x ∈ (s.dropPeer n).exch.targets, ∀ i, x.id = some i → i.peer ≠ n := by
  have key : ∀ (L : List ExchId) (u : State), s.PortWork u →
      s.PortWork (L.foldl (fun s i => match s.targetRec i.peer i.tag with | some r => s.dropTarget r | none => s) u) ∧
      (∀ i : ExchId, (u.keyUnused i.peer i.tag ∨ ∃ j ∈ L, j.peer = i.peer ∧ j.tag = i.tag) →
        (L.foldl (fun s i => match s.targetRec i.peer i.tag with | some r => s.dropTarget r | none => s) u).keyUnused i.peer i.tag) := by
    intro L
    induction L with
    | nil =>
      intro u hu
      refine ⟨hu, fun i hi => ?_⟩
      rcases hi with hi | ⟨j, hj, _⟩
      · exact hi
      · cases hj
    | cons j L ih =>
      intro u hu
      rw [List.foldl_cons]
      cases ht : u.targetRec j.peer j.tag with
      | none =>
        dsimp only
        have hfree : u.keyUnused j.peer j.tag := fun x hx => by
          have h0 := List.find?_eq_none.1 ht x hx
          simpa using h0
        refine ⟨(ih u hu).1, fun i hi => (ih u hu).2 i ?_⟩
        rcases hi with hi | ⟨k, hk, h1, h2⟩
        · exact Or.inl hi
        · rcases List.mem_cons.1 hk with rfl | hk
          · exact Or.inl (by rw [← h1, ← h2]; exact hfree)
          · exact Or.inr ⟨k, hk, h1, h2⟩
      | some r =>
        dsimp only
        have hkey : r.keyed j.peer j.tag = true := by
          have := List.find?_some (p := fun x : TargetRec => x.keyed j.peer j.tag) ht
          exact this
        obtain ⟨k, hk, hp, htg⟩ : ∃ k, r.id = some k ∧ k.peer = j.peer ∧ k.tag = j.tag := by
          unfold TargetRec.keyed at hkey
          cases hr : r.id with
          | none => rw [hr] at hkey; cases hkey
          | some k => rw [hr] at hkey; simp at hkey; exact ⟨k, rfl, hkey.1, hkey.2⟩
        have hd := State.dropTarget_work (s := u) hk
        have hi' := ih (u.dropTarget r) (hu.trans hd.1)
        refine ⟨hi'.1, fun i hi => hi'.2 i ?_⟩
        rcases hi with hi | ⟨m, hm, h1, h2⟩
        · exact Or.inl (hi.work hd.1)
        · rcases List.mem_cons.1 hm with rfl | hm
          · exact Or.inl (by rw [← h1, ← h2, ← hp, ← htg]; exact hd.2)
          · exact Or.inr ⟨m, hm, h1, h2⟩
  have hw := key (s.keyedTo n) s (.refl s)
  refine ⟨hw.1, fun x hx i hi hn => ?_⟩
  rcases hw.1.keys x hx with h | ⟨y, hy, e⟩
  · rw [hi] at h; cases h
  · have hmem : i ∈ s.keyedTo n := by
      unfold State.keyedTo
      rw [List.mem_filter, List.mem_filterMap]
      exact ⟨⟨y, hy, e.trans hi⟩, by simpa using hn⟩
    have := hw.2 i (Or.inr ⟨i, hmem, rfl, rfl⟩) x hx
    unfold TargetRec.keyed at this
    rw [hi] at this
    simp at this

/-! ### The grants and takes after a removal -/

/-- The arbiter's decision (R121, R49). -/
theorem State.grant_work (s : State) : s.PortWork s.grant := by
  have hoff : ∀ (u : State) (p : Station) (t : Tag) (k : ItemKind), u.PortWork (u.offerTarget p t k) := by
    intro u p t k
    unfold State.offerTarget
    split
    · split
      · dsimp only
        split
        · exact .ofTargets rfl rfl rfl fun x hx => Or.inr ⟨x, hx, rfl⟩
        · exact .ofTargets rfl rfl rfl (mapped_keys fun _ => Or.inr rfl)
      · exact .refl u
    · exact .refl u
  have hact : ∀ r ring free, s.PortWork (s.activate r ring free) := by
    intro r ring free
    unfold State.activate State.startSetup
    split
    · dsimp only
      have h1 : ∀ i : ExchId, s.PortWork (State.mapTarget { s with buf := { s.buf with servFree := free } } i.peer i.tag (fun x =>
          { x with state := .active, ring := ring, priming := if x.op = .write then some 0 else none })) :=
        fun i => .ofTargets rfl rfl rfl (mapped_keys fun _ => Or.inr rfl)
      split
      · exact ((h1 _).trans (State.withPort_work _ _)).trans (hoff _ _ _ _)
      · exact (h1 _).trans (State.withPort_work _ _)
    · exact .refl s
  unfold State.grant
  split
  · split
    · split
      · exact (s.withPort_work _).trans (State.withPort_work _ _)
      · exact .refl s
    · split
      · split
        · exact hact _ _ _
        · split
          · exact hact _ _ _
          · exact .refl s
      · exact .refl s
  · exact .refl s

/-- The takes leave the Membership Controller alone (R22). -/
theorem State.retake_member (s : State) : s.retake.member = s.member := congrArg TargetSide.member s.retake_targetSide

theorem State.retake_own (s : State) : s.retake.own = s.own := by
  have h : s.retake.host.config = s.host.config := congrArg TargetSide.config s.retake_targetSide
  unfold State.own
  rw [h]

/-- What the grants and takes after a removal leave of the roster: presence, misses and every entry but the own one. -/
theorem State.resume_member (s before : State) : (s.resume before).own = s.own ∧
    (s.resume before).member = { s.member with roster := (s.resume before).member.roster } ∧
    ∀ m : Station, (s.resume before).member.roster[m].present = s.member.roster[m].present ∧
      (m ≠ s.own → (s.resume before).member.roster[m] = s.member.roster[m]) := by
  have hg := s.grant_work
  have hm : (s.resume before).member = s.grant.member := by
    unfold State.resume State.retakeIfFreed
    split
    · exact State.retake_member _
    · rfl
  have ho : (s.resume before).own = s.grant.own := by
    unfold State.resume State.retakeIfFreed
    split
    · exact State.retake_own _
    · rfl
  rw [hm, ho]
  exact ⟨hg.own, hg.member, fun m => ⟨(hg.entries m).1, (hg.entries m).2.2.1⟩⟩

/-- What a removal leaves of the Membership Controller (R149): the entry is absent and the generation has risen. -/
theorem State.forgetPeer_member (s : State) (n : Station) : (s.forgetPeer n).own = s.own ∧
    (s.forgetPeer n).member = { s.member with roster := (s.forgetPeer n).member.roster, generation := s.member.generation + 1 } ∧
    (s.forgetPeer n).member.roster[n] = RosterEntry.absent := by
  have hL := State.losePeer_ends (s.gone n) n
  have hW := (State.dropPeer_work ((s.gone n).losePeer n) n).1
  have hm0 : ((s.gone n).losePeer n).member = (s.gone n).member := congrArg (fun x : EndSide => x.side.member) hL.2.1
  have hown : ((s.gone n).losePeer n).own = s.own := by
    have h2 : ((s.gone n).losePeer n).host.config = s.host.config := congrArg (fun x : EndSide => x.side.config) hL.2.1
    unfold State.own
    rw [h2]
  have hum : (s.forgetPeer n).member = (((s.gone n).losePeer n).dropPeer n).member := rfl
  refine ⟨hW.own.trans hown, ?_, ?_⟩
  · rw [hum, hW.member]
    show ({ ((s.gone n).losePeer n).member with roster := _ } : Membership) = _
    rw [hm0]
    rfl
  · rw [hum]
    refine (hW.entries n).2.2.2 ?_
    rw [hm0]
    show (s.member.roster.set n _)[n] = _
    exact roster_get_set _ _ _

end Sys2Proof.Machine
end

