-- ==== Sys2Proof/Laws/OwnTurns.lean ====
section
/-! SUPPORT. What an own turn does: its picks over several records, the walk of the Pending Item Queue, and the offers of a record. -/

namespace Sys2Proof.Machine

open State

/-! ### The picks of a turn -/

/-- The block nearest after the position served last (R81). -/
theorem nearest_spec (last : Position) : ∀ l : List Sendable,
    (nearest last l = none ↔ l = []) ∧ ∀ x, nearest last l = some x → x ∈ l ∧ ∀ y ∈ l, positionDistance last x.position ≤ positionDistance last y.position := by
  intro l
  induction l with
  | nil => exact ⟨by simp [nearest], fun x h => by cases h⟩
  | cons a l ih =>
    unfold nearest
    cases hn : nearest last l with
    | none =>
      have hl : l = [] := ih.1.1 hn
      subst hl
      refine ⟨by simp, fun x h => ?_⟩
      cases h
      exact ⟨List.mem_cons_self .., fun y hy => by rw [List.mem_singleton] at hy; rw [hy]⟩
    | some y =>
      have hy := ih.2 y hn
      dsimp only
      split
      · next hle =>
        refine ⟨by simp, fun x h => ?_⟩
        cases h
        refine ⟨List.mem_cons_self .., fun z hz => ?_⟩
        rcases List.mem_cons.1 hz with rfl | hz
        · exact Nat.le_refl _
        · exact Nat.le_trans hle (hy.2 z hz)
      · next hle =>
        refine ⟨by simp, fun x h => ?_⟩
        cases h
        refine ⟨List.mem_cons_of_mem _ hy.1, fun z hz => ?_⟩
        rcases List.mem_cons.1 hz with rfl | hz
        · omega
        · exact hy.2 z hz

/-- No block is left whose budget is not spent (R81). -/
theorem State.picks_none {s : State} {line loop : Nat} (h : nearest s.sched.rotation
    (s.sendables.filter (fun x => if x.data.dest = s.own then decide (0 < loop) else decide (0 < line))) = none) (fuel : Nat) :
    s.picks fuel line loop = (s, []) := by
  cases fuel with
  | zero => rfl
  | succ n => unfold State.picks; rw [h]

/-- One pick (R81, R80). -/
theorem State.picks_some {s : State} {line loop fuel : Nat} {x : Sendable} (h : nearest s.sched.rotation
    (s.sendables.filter (fun x => if x.data.dest = s.own then decide (0 < loop) else decide (0 < line))) = some x) :
    s.picks (fuel + 1) line loop =
      (((s.markSent x.position).picks fuel (if x.data.dest = s.own then line else line - 1) (if x.data.dest = s.own then loop - 1 else loop)).1,
       x :: ((s.markSent x.position).picks fuel (if x.data.dest = s.own then line else line - 1) (if x.data.dest = s.own then loop - 1 else loop)).2) := by
  conv_lhs => unfold State.picks
  rw [h]
  simp

/-- A pick has its budget. -/
theorem State.picks_budget {s : State} {line loop : Nat} {x : Sendable} (h : nearest s.sched.rotation
    (s.sendables.filter (fun x => if x.data.dest = s.own then decide (0 < loop) else decide (0 < line))) = some x) :
    x ∈ s.sendables ∧ (if x.data.dest = s.own then 0 < loop else 0 < line) := by
  have := ((nearest_spec _ _).2 x h).1
  rw [List.mem_filter] at this
  refine ⟨this.1, ?_⟩
  have h2 := this.2
  by_cases hd : x.data.dest = s.own
  · rw [if_pos hd] at h2 ⊢; simpa using h2
  · rw [if_neg hd] at h2 ⊢; simpa using h2

/-- The picks end with the budgets, whatever bound they are given above them. -/
theorem State.picks_fuel : ∀ (fuel line loop : Nat) (s : State), line + loop ≤ fuel → ∀ fuel', line + loop ≤ fuel' → s.picks fuel line loop = s.picks fuel' line loop := by
  intro fuel
  induction fuel with
  | zero =>
    intro line loop s h fuel' h'
    cases hn : nearest s.sched.rotation (s.sendables.filter (fun x => if x.data.dest = s.own then decide (0 < loop) else decide (0 < line))) with
    | none => rw [State.picks_none hn, State.picks_none hn]
    | some x =>
      have := (State.picks_budget hn).2
      split at this <;> omega
  | succ n ih =>
    intro line loop s h fuel' h'
    cases hn : nearest s.sched.rotation (s.sendables.filter (fun x => if x.data.dest = s.own then decide (0 < loop) else decide (0 < line))) with
    | none => rw [State.picks_none hn, State.picks_none hn]
    | some x =>
      have hb := (State.picks_budget hn).2
      cases fuel' with
      | zero => split at hb <;> omega
      | succ m =>
        rw [State.picks_some hn, State.picks_some hn]
        by_cases hd : x.data.dest = s.own
        · rw [if_pos hd] at hb
          simp only [if_pos hd]
          rw [ih _ _ _ (by omega) m (by omega)]
        · rw [if_neg hd] at hb
          simp only [if_neg hd]
          rw [ih _ _ _ (by omega) m (by omega)]

/-- Positions are numbered below 256. -/
theorem positionNumber_lt (p : Position) : positionNumber p < 256 := by
  unfold positionNumber
  have h1 := p.station.isLt
  have h2 := p.tag.isLt
  cases p.role <;> dsimp only <;> omega

/-- A number names one position. -/
theorem positionNumber_inj {p q : Position} (h : positionNumber p = positionNumber q) : p = q := by
  obtain ⟨a, b, c⟩ := p
  obtain ⟨a', b', c'⟩ := q
  unfold positionNumber at h
  have h1 := a.isLt; have h2 := a'.isLt; have h3 := b.isLt; have h4 := b'.isLt
  have : a = a' ∧ b = b' ∧ c = c' := by
    refine ⟨Fin.ext ?_, Fin.ext ?_, ?_⟩
    · cases c <;> cases c' <;> simp at h <;> omega
    · cases c <;> cases c' <;> simp at h <;> omega
    · cases c <;> cases c' <;> first | rfl | (simp at h; omega)
  rw [this.1, this.2.1, this.2.2]

/-- A distance names one position. -/
theorem positionDistance_inj {last p q : Position} (h : positionDistance last p = positionDistance last q) : p = q := by
  refine positionNumber_inj ?_
  unfold positionDistance at h
  have h1 := positionNumber_lt p
  have h2 := positionNumber_lt q
  have h3 := positionNumber_lt last
  omega

/-- The position of the block of an initiator record. -/
theorem State.initSendable_position {s : State} {r : InitRec} {x : Sendable} (h : s.initSendable r = some x) : x.position = ⟨s.own, r.tag, .initiator⟩ := by
  unfold State.initSendable at h
  split at h
  · split at h
    · obtain ⟨y, _, rfl⟩ := Option.map_eq_some_iff.1 h; rfl
    · cases h
  · cases h

/-- The position of the block of a target record. -/
theorem State.targetSendable_position {s : State} {r : TargetRec} {x : Sendable} (h : s.targetSendable r = some x) :
    ∃ i, r.id = some i ∧ x.position = ⟨i.peer, i.tag, .target⟩ := by
  unfold State.targetSendable at h
  split at h
  · next c g i _ _ hi =>
    split at h
    · obtain ⟨y, _, rfl⟩ := Option.map_eq_some_iff.1 h; exact ⟨i, hi, rfl⟩
    · cases h
  · cases h

/-- A key names one target record (R17). -/
theorem targets_sameKey {l : List TargetRec} (hn : (l.filterMap TargetRec.key).Nodup) {x y : TargetRec} (hx : x ∈ l) (hy : y ∈ l)
    {k} (kx : x.key = some k) (ky : y.key = some k) : x = y := by
  induction l with
  | nil => cases hx
  | cons a l ih =>
    have hn' : (l.filterMap TargetRec.key).Nodup := by
      rw [List.filterMap_cons] at hn
      split at hn
      · exact hn
      · exact (List.nodup_cons.1 hn).2
    rcases List.mem_cons.1 hx with hxa | hx' <;> rcases List.mem_cons.1 hy with hya | hy'
    · exact hxa.trans hya.symm
    · subst hxa
      rw [List.filterMap_cons, kx] at hn
      exact absurd (List.mem_filterMap.2 ⟨y, hy', ky⟩ : k ∈ l.filterMap TargetRec.key) (List.nodup_cons.1 hn).1
    · subst hya
      rw [List.filterMap_cons, ky] at hn
      exact absurd (List.mem_filterMap.2 ⟨x, hx', kx⟩ : k ∈ l.filterMap TargetRec.key) (List.nodup_cons.1 hn).1
    · exact ih hn' hx' hy'

/-- A position has one block (R3, R17). -/
theorem State.sendables_unique {s : State} (hr : s.recordsLimited) {x y : Sendable} (hx : x ∈ s.sendables) (hy : y ∈ s.sendables)
    (h : x.position = y.position) : x = y := by
  unfold State.sendables at hx hy
  rw [List.mem_append, List.mem_filterMap, List.mem_filterMap] at hx hy
  rcases hx with ⟨r, hr1, hr2⟩ | ⟨r, hr1, hr2⟩ <;> rcases hy with ⟨q, hq1, hq2⟩ | ⟨q, hq1, hq2⟩
  · have e1 := State.initSendable_position hr2
    have e2 := State.initSendable_position hq2
    rw [e1, e2] at h
    have htag : r.tag = q.tag := congrArg Position.tag h
    have f1 := find_of_nodup hr.2.1 hr1
    have f2 := find_of_nodup hr.2.1 hq1
    rw [htag] at f1
    have : r = q := Option.some.inj (f1.symm.trans f2)
    subst this
    exact Option.some.inj (hr2.symm.trans hq2)
  · have e1 := State.initSendable_position hr2
    obtain ⟨i, _, e2⟩ := State.targetSendable_position hq2
    rw [e1, e2] at h; exact absurd (congrArg Position.role h) (by simp)
  · have e1 := State.initSendable_position hq2
    obtain ⟨i, _, e2⟩ := State.targetSendable_position hr2
    rw [e1, e2] at h; exact absurd (congrArg Position.role h) (by simp)
  · obtain ⟨i, hi, e1⟩ := State.targetSendable_position hr2
    obtain ⟨j, hj, e2⟩ := State.targetSendable_position hq2
    rw [e1, e2] at h
    have h1 : i.peer = j.peer := congrArg Position.station h
    have h2 : i.tag = j.tag := congrArg Position.tag h
    have k1 : r.key = some (i.peer, i.tag) := by unfold TargetRec.key; rw [hi]; rfl
    have k2 : q.key = some (i.peer, i.tag) := by unfold TargetRec.key; rw [hj, h1, h2]; rfl
    have : r = q := targets_sameKey hr.2.2.2.1 hr1 hq1 k1 k2
    subst this
    exact Option.some.inj (hr2.symm.trans hq2)

/-- What the picks leave alone. -/
theorem State.picks_keeps : ∀ (fuel line loop : Nat) (s : State), (s.picks fuel line loop).1.member = s.member ∧
    (s.picks fuel line loop).1.host = s.host ∧ (s.picks fuel line loop).1.port = s.port := by
  intro fuel
  induction fuel with
  | zero => intro _ _ s; exact ⟨rfl, rfl, rfl⟩
  | succ n ih =>
    intro line loop s
    unfold State.picks
    split
    · next x _ =>
      dsimp only
      have hm : ∀ p, (s.markSent p).member = s.member ∧ (s.markSent p).host = s.host ∧ (s.markSent p).port = s.port := by
        intro p; unfold State.markSent; rcases p.role <;> exact ⟨rfl, rfl, rfl⟩
      have h := ih (if decide (x.data.dest = s.own) = true then line else line - 1) (if decide (x.data.dest = s.own) = true then loop - 1 else loop) (s.markSent x.position)
      exact ⟨h.1.trans (hm _).1, h.2.1.trans (hm _).2.1, h.2.2.trans (hm _).2.2⟩
    · exact ⟨rfl, rfl, rfl⟩

/-! ### The composition of a turn -/

/-- The walk of the Pending Item Queue (R163). -/
theorem walkItems_spec (own : Station) (other self : PendingItem → Bool) (hother : ∀ p, other p = decide (p.item.dest ≠ own))
    (hself : ∀ p, self p = decide (p.item.dest = own)) : ∀ (l : List PendingItem) (x : ItemSets), x.line.length ≤ 16 → x.loop.length ≤ 16 →
    let y := l.foldl (ItemSets.take own) x
    y.line = x.line ++ (l.filter other).take (16 - x.line.length) ∧ y.loop = x.loop ++ (l.filter self).take (16 - x.loop.length) ∧
      ∃ d, y.left = x.left ++ d ∧ d.Sublist l ∧ d.filter other = (l.filter other).drop (16 - x.line.length) ∧
        d.filter self = (l.filter self).drop (16 - x.loop.length) := by
  intro l
  induction l with
  | nil => intro x _ _; exact ⟨by simp, by simp, [], by simp⟩
  | cons p l ih =>
    intro x h1 h2 y
    have hy : y = l.foldl (ItemSets.take own) (ItemSets.take own x p) := rfl
    by_cases hd : p.item.dest = own
    · have ho : other p = false := by simp [hother, hd]
      have hs : self p = true := by simp [hself, hd]
      rw [List.filter_cons_of_neg (by rw [ho]; simp), List.filter_cons_of_pos hs]
      by_cases hl : x.loop.length < 16
      · have ht : ItemSets.take own x p = { x with loop := x.loop ++ [p] } := by
          unfold ItemSets.take; rw [if_pos hd]; exact if_pos hl
        rw [ht] at hy
        have := ih { x with loop := x.loop ++ [p] } h1 (by simp; omega)
        rw [← hy] at this
        obtain ⟨a1, a2, d, a3, a4, a5, a6⟩ := this
        have e : 16 - x.loop.length = (16 - (x.loop ++ [p]).length) + 1 := by simp; omega
        rw [e, List.take_succ_cons, List.drop_succ_cons]
        exact ⟨a1, by rw [a2]; simp, d, a3, a4.cons p, a5, a6⟩
      · have ht : ItemSets.take own x p = { x with left := x.left ++ [p] } := by
          unfold ItemSets.take; rw [if_pos hd]; exact if_neg hl
        rw [ht] at hy
        have := ih { x with left := x.left ++ [p] } h1 h2
        rw [← hy] at this
        obtain ⟨a1, a2, d, a3, a4, a5, a6⟩ := this
        have e : 16 - x.loop.length = 0 := by omega
        rw [e]
        rw [show ({ x with left := x.left ++ [p] } : ItemSets).loop = x.loop from rfl, e] at a2 a6
        refine ⟨a1, by rw [a2]; simp, p :: d, by rw [a3]; simp, a4.cons_cons p, ?_, ?_⟩
        · rw [List.filter_cons_of_neg (by rw [ho]; simp)]; exact a5
        · rw [List.filter_cons_of_pos hs, a6]; simp
    · have ho : other p = true := by simp [hother, hd]
      have hs : self p = false := by simp [hself, hd]
      rw [List.filter_cons_of_neg (p := self) (by rw [hs]; simp), List.filter_cons_of_pos ho]
      by_cases hl : x.line.length < 16
      · have ht : ItemSets.take own x p = { x with line := x.line ++ [p] } := by
          unfold ItemSets.take; rw [if_neg hd]; exact if_pos hl
        rw [ht] at hy
        have := ih { x with line := x.line ++ [p] } (by simp; omega) h2
        rw [← hy] at this
        obtain ⟨a1, a2, d, a3, a4, a5, a6⟩ := this
        have e : 16 - x.line.length = (16 - (x.line ++ [p]).length) + 1 := by simp; omega
        rw [e, List.take_succ_cons, List.drop_succ_cons]
        exact ⟨by rw [a1]; simp, a2, d, a3, a4.cons p, a5, a6⟩
      · have ht : ItemSets.take own x p = { x with left := x.left ++ [p] } := by
          unfold ItemSets.take; rw [if_neg hd]; exact if_neg hl
        rw [ht] at hy
        have := ih { x with left := x.left ++ [p] } h1 h2
        rw [← hy] at this
        obtain ⟨a1, a2, d, a3, a4, a5, a6⟩ := this
        have e : 16 - x.line.length = 0 := by omega
        rw [e]
        rw [show ({ x with left := x.left ++ [p] } : ItemSets).line = x.line from rfl, e] at a1 a5
        refine ⟨by rw [a1]; simp, a2, p :: d, by rw [a3]; simp, a4.cons_cons p, ?_, ?_⟩
        · rw [List.filter_cons_of_pos ho, a5]; simp
        · rw [List.filter_cons_of_neg (by rw [hs]; simp)]; exact a6

/-- The last-in-turn flag falls on the last frame alone (R164). -/
theorem markLast_eq : ∀ l : List Frame, markLast l = l.dropLast ++ (l.getLast?.map (fun f => { f with last := true })).toList := by
  intro l
  induction l with
  | nil => rfl
  | cons a l ih =>
    cases l with
    | nil => rfl
    | cons b l =>
      unfold markLast
      rw [ih]
      simp [List.getLast?_cons_cons]

/-! ### The positions of a turn -/

/-- Every position of the rotation, in its order (R81). -/
def allPositions : List Position := Station.all.flatMap fun p => Tag.all.flatMap fun t => [⟨p, t, .initiator⟩, ⟨p, t, .target⟩]

/-- The positions of an own turn are those whose record is there (R162). -/
theorem State.positions_filter (s : State) : s.positions = allPositions.filter (fun p => match p.role with
    | .initiator => decide (p.station = s.own) && (s.initRec p.tag).isSome
    | .target => (s.targetRec p.station p.tag).isSome) := by
  unfold State.positions allPositions
  rw [List.filter_flatMap]
  congr 1
  funext p
  rw [List.filter_flatMap]
  congr 1
  funext t
  rw [List.filter_cons, List.filter_cons, List.filter_nil]
  simp only [Bool.and_eq_true, decide_eq_true_eq]
  split_ifs <;> rfl

/-- The order of the rotation. -/
theorem allPositions_sorted : (allPositions.map (fun p : Position => p.station.val * 16 + p.tag.val * 2 + (if p.role = .initiator then 0 else 1))).Pairwise (· < ·) := by
  have : allPositions.map (fun p : Position => p.station.val * 16 + p.tag.val * 2 + (if p.role = .initiator then 0 else 1)) = List.range 256 := by
    decide +kernel
  rw [this]
  exact List.pairwise_lt_range

/-- Every position is in the rotation. -/
theorem allPositions_mem (p : Position) : p ∈ allPositions := by
  obtain ⟨a, b, c⟩ := p
  have : ∀ (a : Station) (b : Tag), (⟨a, b, .initiator⟩ : Position) ∈ allPositions ∧ (⟨a, b, .target⟩ : Position) ∈ allPositions := by
    decide +kernel
  cases c
  · exact (this a b).1
  · exact (this a b).2

/-- An own turn walks in the order of the rotation (R162). -/
theorem State.positions_sorted (s : State) : (s.positions.map (fun p : Position => p.station.val * 16 + p.tag.val * 2 + (if p.role = .initiator then 0 else 1))).Pairwise (· < ·) := by
  rw [State.positions_filter]
  exact allPositions_sorted.sublist (List.filter_sublist.map _)

/-- The records an own turn walks over (R162). -/
theorem State.positions_mem (s : State) (p : Position) : p ∈ s.positions ↔ if p.role = .initiator then p.station = s.own ∧ s.initRec p.tag ≠ none
      else s.targetRec p.station p.tag ≠ none := by
  rw [State.positions_filter, List.mem_filter]
  cases hr : p.role <;> simp [allPositions_mem, Option.isSome_iff_ne_none]

/-! records by tag -/

/-! ### The offers of an initiator record -/

/-- A change on a tag reaches one record. -/
theorem inits_map_only {l : List InitRec} (hn : (l.map InitRec.tag).Nodup) {r : InitRec} (hr : r ∈ l) {f g : InitRec → InitRec} (h : f r = g r) :
    l.map (fun x => if x.tag = r.tag then f x else x) = l.map (fun x => if x.tag = r.tag then g x else x) := by
  refine List.map_congr_left (fun x hx => ?_)
  by_cases ht : x.tag = r.tag
  · have e1 := find_of_nodup hn hx
    have e2 := find_of_nodup hn hr
    rw [ht] at e1
    have : x = r := Option.some.inj (e1.symm.trans e2)
    rw [this, if_pos rfl, if_pos rfl, h]
  · rw [if_neg ht, if_neg ht]

/-- Two changes that agree on the record of a tag are one. -/
theorem State.mapInit_only {s : State} (hl : s.recordsLimited) {r : InitRec} (hr : s.initRec r.tag = some r) {f g : InitRec → InitRec} (h : f r = g r) :
    s.mapInit r.tag f = s.mapInit r.tag g := by
  unfold State.mapInit
  rw [inits_map_only hl.2.1 (State.initRec_mem hr).1 h]

/-- A record put in place of the one on its tag. -/
theorem State.setInit_only {s : State} (hl : s.recordsLimited) {r r' : InitRec} (hr : s.initRec r.tag = some r) (ht : r'.tag = r.tag) {g : InitRec → InitRec} (h : r' = g r) :
    s.setInit r' = s.mapInit r.tag g := by
  have : s.setInit r' = s.mapInit r.tag (fun _ => r') := by unfold State.setInit State.mapInit; rw [ht]
  rw [this]; exact State.mapInit_only hl hr h

/-- The record on a tag after a change of it. -/
theorem State.mapInit_found {s : State} {r : InitRec} (hr : s.initRec r.tag = some r) (f : InitRec → InitRec) (hf : ∀ x, (f x).tag = x.tag) :
    (s.mapInit r.tag f).initRec r.tag = some (f r) := by
  unfold State.initRec State.mapInit at *
  dsimp only
  rw [List.find?_map]
  have : (fun x : InitRec => decide (x.tag = r.tag)) ∘ (fun x => if x.tag = r.tag then f x else x) = fun x => decide (x.tag = r.tag) := by
    funext x
    simp only [Function.comp]
    have : (if x.tag = r.tag then f x else x).tag = x.tag := by split <;> simp [hf]
    simp only [this]
  rw [this, hr, Option.map_some, if_pos rfl]

/-- Two changes of one record. -/
theorem State.mapInit_mapInit (s : State) (t : Tag) (f g : InitRec → InitRec) (hf : ∀ x, (f x).tag = x.tag) :
    (s.mapInit t f).mapInit t g = s.mapInit t (fun x => g (f x)) := by
  unfold State.mapInit
  dsimp only
  rw [List.map_map]
  congr 2
  refine List.map_congr_left (fun x _ => ?_)
  simp only [Function.comp]
  by_cases h : x.tag = t
  · rw [if_pos h, if_pos ((hf x).trans h), if_pos h]
  · rw [if_neg h, if_neg h, if_neg h]

/-- What a record offers once its watches are done (R162). -/
theorem State.initTurn_offers {u : State} {t : Tag} {r x : InitRec} (hx : u.initRec t = some x) (hs : x.serial = r.serial) (due : Bool) :
    (match (u.initRec t).filter (fun x => decide (x.serial = r.serial)) with
    | some x =>
      let s := u.offerWantedInit t
      let s := if due then s.offerAskOnce t else s
      if x.refreshes then s.offerInit t .credit else s
    | none => u) =
      (let v := x.wanted.foldl (fun s k => s.offerInit t k) (u.mapInit t (fun x => { x with wanted := [] }))
       let v := if due then v.offerAskOnce t else v
       if x.refreshes then v.offerInit t .credit else v) := by
  rw [hx]
  have : (some x).filter (fun x => decide (x.serial = r.serial)) = some x := by simp [hs]
  rw [this]
  dsimp only
  unfold State.offerWantedInit
  rw [hx]

/-- A record that its watch has freed offers nothing. -/
theorem State.initTurn_gone {u : State} {t : Tag} {r : InitRec} (hx : u.initRec t = none) (due : Bool) :
    (match (u.initRec t).filter (fun x => decide (x.serial = r.serial)) with
    | some x =>
      let s := u.offerWantedInit t
      let s := if due then s.offerAskOnce t else s
      if x.refreshes then s.offerInit t .credit else s
    | none => u) = u := by rw [hx]; rfl

/-- An ending that frees its record, with no request waiting. -/
theorem State.endAndTake_freed {s : State} {r : InitRec} (o : Outcome) (a b : Bool) (hr : s.initRec r.tag = some r) (hl : s.host.outcomes.length < 16)
    (hq : s.host.requests = []) : (s.endAndTake r o a b).initRec r.tag = none := by
  unfold State.endAndTake
  have hreq : (s.endInit r o a b).host.requests = [] := (congrArg EndSide.requests (State.endInit_endSide s r o a b)).trans hq
  rw [State.retakeIfFreed_noRequest _ hreq]
  obtain ⟨g, hg, he⟩ := State.endInit_inits_freed o a b hr hl
  unfold State.initRec
  rw [he, List.find?_eq_none]
  intro x hx
  obtain ⟨y, hy, rfl⟩ := List.mem_map.1 hx
  have := (List.mem_filter.1 hy).2
  rw [hg.tag]
  simpa using this

/-- The turn of a record past ASKING (R90, R162). -/
theorem State.initTurn_found {s : State} {r : InitRec} (hr : s.initRec r.tag = some r) (hs : ∀ n k, r.state ≠ .asking n k) :
    s.initTurn r.tag = (match ((s.initStallWatch r).initRec r.tag).filter (fun x => decide (x.serial = r.serial)) with
    | some x =>
      let s := (s.initStallWatch r).offerWantedInit r.tag
      let s := if false then s.offerAskOnce r.tag else s
      if x.refreshes then s.offerInit r.tag .credit else s
    | none => s.initStallWatch r) := by
  unfold State.initTurn
  rw [hr]
  dsimp only
  cases hst : r.state with
  | asking n k => exact absurd hst (hs n k)
  | _ => rfl

/-! ### The offers of a target record -/

/-- One record is on a key. -/
def State.KeyIs (u : State) (i : ExchId) (x : TargetRec) : Prop := ∀ y ∈ u.exch.targets, y.keyed i.peer i.tag = true → y = x

/-- The record found on a key is the one on it (R17). -/
theorem State.keyIs_of {s : State} (hl : s.recordsLimited) {r : TargetRec} {i : ExchId} (hr : s.targetRec i.peer i.tag = some r) : State.KeyIs s i r := by
  have hm := State.targetRec_mem hr
  have key_of : ∀ y : TargetRec, y.keyed i.peer i.tag = true → y.key = some (i.peer, i.tag) := by
    intro y hy
    unfold TargetRec.keyed at hy
    unfold TargetRec.key
    cases hid : y.id with
    | none => rw [hid] at hy; cases hy
    | some j => rw [hid] at hy; simp at hy; simp [hy.1, hy.2]
  exact fun y hy hk => targets_sameKey hl.2.2.2.1 hy hm.1 (key_of y hk) (key_of r hm.2)

/-- Two changes that agree on the record of a key are one. -/
theorem State.mapTarget_only {s : State} {i : ExchId} {r : TargetRec} (h : State.KeyIs s i r) {f g : TargetRec → TargetRec} (e : f r = g r) :
    s.mapTarget i.peer i.tag f = s.mapTarget i.peer i.tag g := by
  unfold State.mapTarget
  have : s.exch.targets.map (fun x => if x.keyed i.peer i.tag then f x else x) = s.exch.targets.map (fun x => if x.keyed i.peer i.tag then g x else x) := by
    refine List.map_congr_left (fun x hx => ?_)
    by_cases hk : x.keyed i.peer i.tag = true
    · rw [if_pos hk, if_pos hk, h x hx hk, e]
    · rw [if_neg hk, if_neg hk]
  rw [this]

/-- A change that leaves the record of a key as it is. -/
theorem State.mapTarget_same {s : State} {i : ExchId} {r : TargetRec} (h : State.KeyIs s i r) {f : TargetRec → TargetRec} (e : f r = r) :
    s.mapTarget i.peer i.tag f = s := by
  unfold State.mapTarget
  have : s.exch.targets.map (fun x => if x.keyed i.peer i.tag then f x else x) = s.exch.targets := by
    conv_rhs => rw [← List.map_id s.exch.targets]
    refine List.map_congr_left (fun x hx => ?_)
    by_cases hk : x.keyed i.peer i.tag = true
    · rw [if_pos hk, h x hx hk, e]; rfl
    · rw [if_neg hk]; rfl
  rw [this]

/-- A change that leaves the identity leaves the key. -/
theorem TargetRec.keyed_map {f : TargetRec → TargetRec} (hf : ∀ x, (f x).id = x.id) (x : TargetRec) (p : Station) (t : Tag) : (f x).keyed p t = x.keyed p t := by
  unfold TargetRec.keyed; rw [hf]

/-- One record is on a key after a change of it. -/
theorem State.mapTarget_keyIs {s : State} {i : ExchId} {r : TargetRec} (h : State.KeyIs s i r) {f : TargetRec → TargetRec} (hf : ∀ x, (f x).id = x.id) :
    State.KeyIs (s.mapTarget i.peer i.tag f) i (f r) := by
  have _ := hf
  intro y hy hk
  obtain ⟨x, hx, rfl⟩ := List.mem_map.1 (show y ∈ s.exch.targets.map _ from hy)
  by_cases hkx : x.keyed i.peer i.tag = true
  · rw [if_pos hkx, h x hx hkx]
  · rw [if_neg hkx] at hk; exact absurd hk hkx

/-- The record on a key after a change of it. -/
theorem State.mapTarget_foundOn {s : State} {p : Station} {t : Tag} {r : TargetRec} (hr : s.targetRec p t = some r) {f : TargetRec → TargetRec}
    (hf : ∀ x, (f x).id = x.id) : (s.mapTarget p t f).targetRec p t = some (f r) := by
  unfold State.targetRec State.mapTarget at *
  dsimp only
  rw [List.find?_map]
  have : (fun x : TargetRec => x.keyed p t) ∘ (fun x => if x.keyed p t then f x else x) = fun x => x.keyed p t := by
    funext x
    simp only [Function.comp]
    split
    · exact TargetRec.keyed_map hf x p t
    · rfl
  rw [this, hr, Option.map_some, if_pos (by simpa using List.find?_some hr)]

/-- Two changes of one record. -/
theorem State.mapTarget_mapTarget (s : State) (p : Station) (t : Tag) (f g : TargetRec → TargetRec) (hf : ∀ x, (f x).id = x.id) :
    (s.mapTarget p t f).mapTarget p t g = s.mapTarget p t (fun x => g (f x)) := by
  unfold State.mapTarget
  dsimp only
  rw [List.map_map]
  congr 2
  refine List.map_congr_left (fun x _ => ?_)
  simp only [Function.comp]
  by_cases h : x.keyed p t = true
  · rw [if_pos h, if_pos ((TargetRec.keyed_map hf x p t).trans h), if_pos h]
  · rw [if_neg h, if_neg h, if_neg h]

/-- The record after an offer for it. -/
theorem State.offerTarget_found {s : State} {p : Station} {t : Tag} {r : TargetRec} (hr : s.targetRec p t = some r) (k : ItemKind) :
    ∃ w, (s.offerTarget p t k).targetRec p t = some { r with wanted := w } := by
  unfold State.offerTarget
  rw [hr]
  dsimp only
  split
  · split
    · exact ⟨r.wanted, hr⟩
    · exact ⟨wantKind r.wanted k, State.mapTarget_foundOn (f := fun x => { x with wanted := wantKind x.wanted k }) hr (fun _ => rfl)⟩
  · exact ⟨r.wanted, hr⟩

/-- The record after an offer for it of an item that it has at most once. -/
theorem State.offerTargetOnce_found {s : State} {p : Station} {t : Tag} {r : TargetRec} (hr : s.targetRec p t = some r) (k : ItemKind) :
    ∃ w, (s.offerTargetOnce p t k).targetRec p t = some { r with wanted := w } := by
  unfold State.offerTargetOnce
  rw [hr]
  dsimp only
  split
  · split
    · exact ⟨r.wanted, hr⟩
    · exact State.offerTarget_found hr k
  · exact ⟨r.wanted, hr⟩

/-- The record after the offers of its wanted items. -/
theorem State.offers_found (p : Station) (t : Tag) : ∀ (l : List ItemKind) (s : State) (r : TargetRec), s.targetRec p t = some r →
    ∃ w, (l.foldl (fun s k => s.offerTarget p t k) s).targetRec p t = some { r with wanted := w } := by
  intro l
  induction l with
  | nil => intro s r hr; exact ⟨r.wanted, hr⟩
  | cons k l ih =>
    intro s r hr
    obtain ⟨w, hw⟩ := State.offerTarget_found hr k
    obtain ⟨w', hw'⟩ := ih _ _ hw
    exact ⟨w', hw'⟩

/-- What a target record offers once its watches are done (R162). -/
def State.afterWatches (u : State) (p : Station) (t : Tag) (ordered : Option ItemKind) : State :=
  let s := u.offerWantedTarget p t
  let s :=
    match ordered with
    | some .outcome => s.offerTargetOnce p t .outcome
    | some k => s.offerTarget p t k
    | none => s
  match s.targetRec p t with
  | some x => if x.refreshes then s.offerTarget p t .credit else s
  | none => s

/-- The turn of a target record: its watches, then its offers (R162). -/
theorem State.targetTurn_eq {s : State} {r : TargetRec} {i : ExchId} (hr : s.targetRec i.peer i.tag = some r) (hid : r.id = some i) :
    s.targetTurn i.peer i.tag = State.afterWatches (s.targetWatches r i).1 i.peer i.tag (s.targetWatches r i).2 := by
  unfold State.targetTurn
  rw [hr]
  dsimp only
  rw [hid]
  rfl

/-- The offers of a target record whose wanted items are known. -/
theorem State.afterWatches_eq {u : State} {p : Station} {t : Tag} {x : TargetRec} (hx : u.targetRec p t = some x) (o : Option ItemKind) :
    State.afterWatches u p t o =
      (let v := x.wanted.foldl (fun s k => s.offerTarget p t k) (u.mapTarget p t (fun x => { x with wanted := [] }))
       let v := match o with
         | some .outcome => v.offerTargetOnce p t .outcome
         | some k => v.offerTarget p t k
         | none => v
       if x.refreshes then v.offerTarget p t .credit else v) := by
  unfold State.afterWatches State.offerWantedTarget
  rw [hx]
  dsimp only
  obtain ⟨w, hw⟩ := State.offers_found p t x.wanted (u.mapTarget p t (fun x => { x with wanted := [] })) _
    (State.mapTarget_foundOn (f := fun x => { x with wanted := [] }) hx (fun _ => rfl))
  generalize x.wanted.foldl (fun s k => s.offerTarget p t k) (u.mapTarget p t (fun x => { x with wanted := [] })) = v at hw
  have key : ∀ z : State, (∃ w, z.targetRec p t = some { x with wanted := w }) →
      (match z.targetRec p t with | some x => if x.refreshes then z.offerTarget p t .credit else z | none => z) =
        if x.refreshes then z.offerTarget p t .credit else z := by
    rintro z ⟨w, h⟩
    rw [h]; rfl
  rcases o with _ | k
  · exact key v ⟨w, hw⟩
  · cases k
    case outcome => exact key _ (State.offerTargetOnce_found hw .outcome)
    all_goals exact key _ (State.offerTarget_found hw _)

/-- The record on a key has nothing to offer. -/
def State.Quiet (u : State) (i : ExchId) : Prop :=
  ∀ x ∈ u.exch.targets, x.keyed i.peer i.tag = true → x.wanted = [] ∧ ∃ b k, x.state = .settling b k

/-- A record with nothing to offer offers nothing. -/
theorem State.afterWatches_quiet {u : State} {i : ExchId} (h : State.Quiet u i) : State.afterWatches u i.peer i.tag none = u := by
  cases hx : u.targetRec i.peer i.tag with
  | none =>
    unfold State.afterWatches State.offerWantedTarget
    rw [hx]
    dsimp only
    rw [hx]
  | some x =>
    have hm := State.targetRec_mem hx
    obtain ⟨hw, b, k, hs⟩ := h x hm.1 hm.2
    have hr : x.refreshes = false := by unfold TargetRec.refreshes; rw [hs]; simp
    rw [State.afterWatches_eq hx, hw, hr]
    show u.mapTarget i.peer i.tag (fun x => { x with wanted := [] }) = u
    unfold State.mapTarget
    have : u.exch.targets.map (fun x => if x.keyed i.peer i.tag then { x with wanted := [] } else x) = u.exch.targets := by
      conv_rhs => rw [← List.map_id u.exch.targets]
      refine List.map_congr_left (fun y hy => ?_)
      by_cases hk : y.keyed i.peer i.tag = true
      · rw [if_pos hk]
        have := (h y hy hk).1
        obtain ⟨y1, y2, y3, y4, y5, y6, y7, y8, y9, y10, y11, y12⟩ := y
        cases this; rfl
      · rw [if_neg hk]; rfl
    rw [this]

/-- A record that has just settled with no wanted item has nothing to offer. -/
theorem State.settle_quiet {u : State} {r : TargetRec} {i : ExchId} (hid : r.id = some i) (h : ∀ x ∈ u.exch.targets, x.keyed i.peer i.tag = true → x.wanted = [])
    (o : Outcome) (b : Bool) : State.Quiet (u.settle r o b) i := by
  unfold State.settle
  rw [hid]
  intro x hx hk
  have hx' : x ∈ u.exch.targets.map (fun x => if x.keyed i.peer i.tag then x.settled o b else x) := by
    cases b <;> exact hx
  obtain ⟨y, hy, rfl⟩ := List.mem_map.1 hx'
  by_cases hky : y.keyed i.peer i.tag = true
  · rw [if_pos hky]
    refine ⟨?_, true, 0, rfl⟩
    show y.wanted.filter _ = []
    rw [h y hy hky]; rfl
  · rw [if_neg hky] at hk; exact absurd hk hky

/-- The states after a settling. -/
theorem State.settle_states {u : State} {r : TargetRec} {o : Outcome} {b : Bool} {x : TargetRec} (hx : x ∈ (u.settle r o b).exch.targets) :
    (∃ o b, ∃ z : TargetRec, x = z.settled o b) ∨ x ∈ u.exch.targets := by
  unfold State.settle at hx
  split at hx
  · next i _ =>
    have hx' : x ∈ u.exch.targets.map (fun x => if x.keyed i.peer i.tag then x.settled o b else x) := by
      cases b <;> exact hx
    obtain ⟨y, hy, rfl⟩ := List.mem_map.1 hx'
    split
    · exact .inl ⟨o, b, y, rfl⟩
    · exact .inr hy
  · exact .inr hx

/-- A record outside the stall watch (R90). -/
theorem State.stallWatch_quiet {u : State} {i : ExchId} {x : TargetRec} (h : State.KeyIs u i x) (hid : x.id = some i)
    (hq : ∀ c, x.flow = .sender c → c.base = c.next ∨ u.targetStallRuns x = false) : u.targetStallWatch x = u := by
  unfold State.targetStallWatch
  split
  · next c j hf hj =>
    rw [hid] at hj
    cases hj
    split
    · next hr =>
      rcases hq c hf with e | e
      · have hd : c.stallTurn = (c, false) := by unfold SendCounters.stallTurn; rw [if_neg (by omega)]
        rw [hd]
        dsimp only
        rw [if_neg (by simp)]
        exact State.mapTarget_same h (by rw [← hf])
      · rw [e] at hr; cases hr
    · rfl
  · rfl

/-- A record inside the stall watch (R90). -/
theorem State.stallWatch_counts {u : State} {i : ExchId} {x : TargetRec} {c d : SendCounters} (h : State.KeyIs u i x) (hid : x.id = some i)
    (hf : x.flow = .sender c) (hr : u.targetStallRuns x = true) (hd : c.stallTurn = (d, false)) :
    u.targetStallWatch x = u.mapTarget i.peer i.tag (fun x => { x with flow := .sender d }) := by
  unfold State.targetStallWatch
  rw [hf, hid]
  dsimp only
  rw [if_pos hr, hd]
  dsimp only
  rw [if_neg (by simp)]
  exact State.mapTarget_only h (by rw [← hid])

end Sys2Proof.Machine
end

