-- ==== Sys2Proof/Laws/Service.lean ====
section
/-! SUPPORT. What the module port does in the data phase and in a run-out, in the states the statements speak of. -/

namespace Sys2Proof.Machine

open State

/-! ### The record in service and the run-out -/

/-- In a run-out the record served is the one run out (R127). -/
theorem State.isServed_runOut {s : State} {n c : Nat} (h : s.port.state = .serving (.runOut n c)) (x : TargetRec) : s.isServed x = x.inRunOut := by
  unfold State.isServed; rw [h]

/-- In a stopping setup the record served is the ACTIVE one, if any is left (R127). -/
theorem State.isServed_stopping {s : State} (h : s.port.state = .serving .stopping) (x : TargetRec) : s.isServed x = decide (x.state = .active) := by
  unfold State.isServed; rw [h]

/-- An attention that is not good (R124). -/
theorem attentionGood_not {w : Word} : (¬ (w.getLsbD 0 = true ∧ w.getLsbD 3 = false)) → ¬ attentionGood w = true := by
  intro h k
  refine h ?_
  have : (w.getLsbD 0 && !w.getLsbD 3) = true := k
  simpa using this

/-- An attention that is good (R124). -/
theorem attentionGood_of {w : Word} : (w.getLsbD 0 = true ∧ w.getLsbD 3 = false) → attentionGood w = true := by
  intro h
  show (w.getLsbD 0 && !w.getLsbD 3) = true
  rw [h.1, h.2]; rfl

/-- The completion of a setup step with no attention held (R122). -/
theorem State.setupStep_ready {s : State} {i : Nat} {v : Word} (hs : s.port.state = .serving (.setup i)) (ha : s.port.attention = none) :
    s.slotDone v = s.setupStepDone i := by
  unfold State.slotDone
  rw [hs]
  dsimp only
  rw [ha]

/-! ### The mover -/

/-- The ring slot of the mover's next block is ready (R69, R73, R76). -/
theorem TargetRec.slotReady_iff (r : TargetRec) : r.slotReady = true ↔ ∃ ring slot, r.ring = some ring ∧
    ((r.op = .read ∧ r.moved < r.count ∧ r.moved < r.flow.base + min 4 r.count ∧ ring[r.moved % ring.length]? = some slot ∧
        slot.st = .empty) ∨
      (r.op = .write ∧ r.flow.consumed < r.count ∧ ring[r.flow.consumed % ring.length]? = some slot ∧
        slot.st = .full r.flow.consumed)) := by
  have hst (ring : Ring) (b : Nat) (st : SlotState) : ring.stateOf b = some st ↔ ∃ slot, ring[b % ring.length]? = some slot ∧ slot.st = st := by
    unfold Ring.stateOf
    rw [Ring.slot_eq, Option.map_eq_some_iff]
  have hk : ringLen r.count = min 4 r.count := rfl
  unfold TargetRec.slotReady
  cases hr : r.ring with
  | none => simp
  | some ring => cases ho : r.op <;> simp [hst, hk, and_assoc]

/-- When a block transfer may begin (R122, R123, R127). -/
theorem State.transferMayBegin_iff (s : State) : s.transferMayBegin = true ↔
    s.port.xfer = true ∧ s.port.transfer = none ∧ s.port.access = none ∧
      ((s.port.state = .serving .data ∧ ∃ r, s.activeRec = some r ∧ r.slotReady = true) ∨
        (∃ next count r, s.port.state = .serving (.runOut next count) ∧ next < count ∧
          s.exch.targets.find? TargetRec.inRunOut = some r ∧ r.ring ≠ none)) := by
  have hd (h : s.port.state = .serving .data) : s.servedRec = s.activeRec := by
    unfold State.servedRec State.activeRec State.isServed; rw [h]
  have hn (n k : Nat) (h : s.port.state = .serving (.runOut n k)) : s.servedRec = s.exch.targets.find? TargetRec.inRunOut := by
    unfold State.servedRec State.isServed; rw [h]
  unfold State.transferMayBegin
  simp only [Bool.and_eq_true, Option.isNone_iff_eq_none, and_assoc]
  refine and_congr_right fun _ => and_congr_right fun _ => and_congr_right fun _ => ?_
  split
  · next r hs hr => rw [hd hs] at hr; simp [hs, hr]
  · next n k r hs hr => rw [hn n k hs] at hr; simp [hs, hr, Option.isSome_iff_ne_none]
  · next h1 h2 =>
    refine ⟨fun h => absurd h (by decide), ?_⟩
    rintro (⟨hs, r, hr, _⟩ | ⟨n, k, r, hs, _, hr, _⟩)
    · exact absurd ((hd hs).trans hr) (h1 r hs)
    · exact absurd ((hn n k hs).trans hr) (h2 n k r hs)

/-- Where no transfer may begin the row begins none (R76). -/
theorem exec_blockTransferBegin_stays {s : State} (h : s.transferMayBegin = false) : exec .blockTransferBegin s = .next s :=
  congrArg _ (if_neg (by rw [h]; decide))

/-- In the data phase no transfer may begin while the slot of the ACTIVE record is not ready (R76, R123). -/
theorem State.transferMayBegin_not_ready {s : State} {r : TargetRec} (hs : s.port.state = .serving .data) (hr : s.activeRec = some r)
    (h : r.slotReady = false) : s.transferMayBegin = false := by
  rw [Bool.eq_false_iff, ne_eq, State.transferMayBegin_iff]
  rintro ⟨_, _, _, ⟨_, x, hx, hxr⟩ | ⟨n, k, _, hn, _⟩⟩
  · rw [hr] at hx; cases hx; rw [h] at hxr; exact absurd hxr (by decide)
  · rw [hs] at hn; cases hn

/-- Where no transfer may begin outside the data phase the mover does nothing (R76). -/
theorem State.moverCheck_stays {s : State} (h1 : s.transferMayBegin = false) (h2 : s.port.state ≠ .serving .data) : s.moverCheck = s := by
  unfold State.moverCheck
  rw [if_neg (by rw [h1]; simp), if_neg (fun h => h2 h.1)]

/-- While a block transfer is in flight the mover begins none and no wait is judged (R76, R123). -/
theorem State.moverCheck_busy {s : State} (h : s.port.transfer ≠ none) : s.moverCheck = s := by
  have hn : s.port.transfer.isNone = false := by cases k : s.port.transfer <;> first | exact absurd k h | rfl
  unfold State.moverCheck State.transferMayBegin
  rw [hn, if_neg (by simp), if_neg (by simp)]

/-- Outside the data phase and a run-out the mover does nothing (R76). -/
theorem State.moverCheck_elsewhere {s : State} (h1 : s.port.state ≠ .serving .data) (h2 : ∀ n k, s.port.state ≠ .serving (.runOut n k)) :
    s.moverCheck = s := by
  refine State.moverCheck_stays ?_ h1
  unfold State.transferMayBegin
  split
  · next h _ => exact absurd h h1
  · next h _ => exact absurd h (h2 _ _)
  · exact Bool.and_false _

/-- Where a transfer may begin the mover begins it (R76). -/
theorem State.moverCheck_begins {s : State} (h1 : s.transferMayBegin = true) : Host.Outcome.next s.moverCheck = exec .blockTransferBegin s := by
  show _ = Host.Outcome.next (if s.transferMayBegin then s.beginTransfer else s)
  unfold State.moverCheck
  rw [if_pos h1, if_pos h1]

/-- Where no transfer may begin in the data phase a wait is judged (R123, R126). -/
theorem State.moverCheck_waits {u : State} (h1 : u.transferMayBegin = false) (hs : u.port.state = .serving .data) (ht : u.port.transfer = none) :
    (u.port.xfer = true → u.moverCheck = ({ u with exch := { u.exch with targets := u.exch.targets.map (fun x =>
      if x.state = .active then { x with starvation := some (x.starvation.getD 0) } else x) } } : State).withPort
        { u.port with watchdog := none }) ∧
    (u.port.xfer = false → u.moverCheck = ({ u with exch := { u.exch with targets := u.exch.targets.map (fun x =>
      if x.state = .active then { x with starvation := none } else x) } } : State).withPort
        { u.port with watchdog := some (u.port.watchdog.getD 0) }) := by
  have h : u.moverCheck = u.waitForTransfer := by
    unfold State.moverCheck
    rw [if_neg (by rw [h1]; simp), if_pos ⟨hs, by rw [ht]; rfl⟩]
  rw [h]
  unfold State.waitForTransfer
  refine ⟨fun hx => ?_, fun hx => ?_⟩
  · rw [if_pos hx, State.mapServed_data hs]
  · rw [if_neg (by rw [hx]; simp), State.mapServed_data hs]

/-- A change that reaches one record. -/
theorem targets_map_only {l : List TargetRec} {r : TargetRec} {p : TargetRec → Bool} {f g : TargetRec → TargetRec}
    (hr : r ∈ l → p r = true) (hu : ∀ x ∈ l, p x = true → x = r) (h : f r = g r) :
    l.map (fun x => if p x then f x else x) = l.map (fun x => if x = r then g x else x) := by
  refine List.map_congr_left (fun x hx => ?_)
  by_cases hp : p x = true
  · have hxr := hu x hx hp
    subst hxr
    rw [if_pos hp, if_pos rfl, h]
  · have hne : x ≠ r := by
      intro e; subst e; exact hp (hr hx)
    rw [if_neg hp, if_neg hne]

end Sys2Proof.Machine
end

