-- ==== Sys2Proof/WellFormed.lean ====
section
/-! DEFINITION. Which operands spell a row of the table: a write of a window word that has a row of its own is
spelled by that row, an invalid code is one that names no command, an intact frame has a header and a CRC-32. -/

namespace Sys2Proof

/-- The window offsets whose write is a row of its own: CONFIG_A, CONFIG_B, COMMAND, FLAGS, POST, OUTCOME_POP,
THRESHOLDS, MAINT_COUNT (13 §13.2). -/
def ownRowOffsets : List (BitVec 7) := [0x00, 0x01, 0x03, 0x05, 0x0D, 0x15, 0x1E, 0x28]

/-- The COMMAND codes that name a command (13 §13.2). -/
def commandCodes : List (BitVec 3) := [1, 2, 3, 4, 5]

/-- The shortest frame of the link: PASS, JOIN, LEAVE, 12 bytes (R155); a shorter one is corrupt (R157). -/
def shortestFrame : Nat := 12

/-- A command spells its row. -/
def Instr.wf : Instr → Bool
  | .hardwareReset => true
  | .configAWrite _ => true
  | .configBWrite _ => true
  | .registerWrite off _ => !(ownRowOffsets.contains off)
  | .post => true
  | .outcomePop => true
  | .flagsWrite _ => true
  | .thresholdsWrite _ => true
  | .maintLoad _ => true
  | .joinLink => true
  | .leaveLink => true
  | .stationReset => true
  | .cancel => true
  | .runMaint => true
  | .commandInvalidCode code => !(commandCodes.contains code)
  | .channelAccess _ _ => true
  | .takeRequest => true
  | .intactFrameReceived bytes => decide (shortestFrame ≤ bytes.length)
  | .corruptFrame => true
  | .silenceEvent => true
  | .missesReach3 _ => true
  | .joinResend => true
  | .foundingWaitExpiry => true
  | .endOfTransmission => true
  | .askResend _ => true
  | .noReply _ => true
  | .lifetimeExpiry _ => true
  | .stallRewind _ => true
  | .rewindLimitInitiator _ => true
  | .rewindLimitTarget _ _ => true
  | .primingCredit => true
  | .primingLimit => true
  | .starvationLimit => true
  | .outcomeResend _ _ => true
  | .moduleGrant => true
  | .slotAccessComplete _ => true
  | .blockTransferBegin => true
  | .xferShown _ => true
  | .attnRise _ _ => true
  | .watchdogExpiry => true
  | .mrstRelease => true
  | .startingTimeout => true
  | .receivedFrameStart => true
  | .resetNRelease => true

end Sys2Proof
end

