-- ==== Sys2Proof/Tests/Slice0.lean ====
section
/-! SUPPORT. Tests on small states: ill-formed terms that the check refuses, values that the manual gives, one step of commands, and for
every statement that has hypotheses a state and operands that meet them. -/

namespace Sys2Proof.Tests

open Sys2Proof Sys2Proof.Machine

/-! ### Well-formed commands -/

theorem test_registerWrite_own_row_refused : (Instr.registerWrite 0x0D 0).wf = false := by decide
theorem test_registerWrite_plain_accepted : (Instr.registerWrite 0x06 0).wf = true := by decide
theorem test_commandInvalidCode_valid_code_refused : (Instr.commandInvalidCode 4).wf = false := by decide
theorem test_commandInvalidCode_accepted : (Instr.commandInvalidCode 6).wf = true := by decide
theorem test_intactFrame_short_refused : (Instr.intactFrameReceived (List.replicate 11 0)).wf = false := by decide
theorem test_intactFrame_shortest_accepted : (Instr.intactFrameReceived (List.replicate 12 0)).wf = true := by decide

/-! ### Words of the table -/

theorem test_no_word_spells_a_row : decodeTableWord 16 0x0001 = none := by decide
theorem test_withFetchWord_keeps_state : (State.reset.withFetchWord 16 1).pending = [] := by decide

/-! ### The line -/

/-- The check value of R157: the CRC-32 of 31h to 39h. -/
theorem test_crc_check_value : crc32 [0x31, 0x32, 0x33, 0x34, 0x35, 0x36, 0x37, 0x38, 0x39] = 0xCBF43926 := by decide +kernel

def passFrame : Frame := ⟨.pass, 5, true, true, 0x0024, .none⟩

theorem test_pass_header : passFrame.body = [0x15, 0xC0, 0x00, 0x24, 0, 0, 0, 0] := by decide
theorem test_pass_heard : receiveFrame 2 passFrame.encode = .intact passFrame := by decide +kernel
theorem test_own_frame_is_corrupt : receiveFrame 5 passFrame.encode = .corrupt := by decide +kernel
theorem test_ask_item : (⟨5, 2, 3, 9, .ask 1 256 0x00010002⟩ : Item).encode = [0x15, 0x23, 9, 1, 1, 0, 0, 1, 0, 2, 0, 0] := by decide
theorem test_credit_item : (⟨5, 5, 3, 9, .credit .initiator 2 6⟩ : Item).encode = [0x35, 0x5B, 9, 0, 2, 0, 6, 0, 0, 0, 0, 0] := by decide
theorem test_gap : Limit.gapBits = 96 ∧ foundingLimit 2 = 960 := by decide

/-! ### States -/

def cfg : Cfg := ⟨2, .mbit10, true, .areas8, 1⟩

/-- A configured station 2, OFFLINE, its module IDLE. -/
def base : State := { State.reset with
  timebase := true
  host := { State.reset.host with config := some cfg, latch := .matched }
  member := { State.reset.member with link := .offline }
  buf := ⟨[], AreaNo.all.take 8, AreaNo.all.drop 8⟩
  port := { Port.reset with state := .idle, capacity := 1000 } }

/-- The station as MEMBER, station 5 present, which holds the turn. -/
def linked : State := { base with member := { base.member with
  link := .member, holder := some 5
  roster := ((Vector.replicate 16 RosterEntry.absent).set 2 ⟨true, 0, true⟩).set 5 ⟨true, 0, true⟩ } }

/-- The same station in another link state. -/
def inLink (k : LinkState) : State := { linked with member := { linked.member with link := k } }

/-- The same station with the module port in another state. -/
def atPort (p : PortState) : State := { linked with port := { linked.port with state := p } }

/-- The same station with one slot access in flight. -/
def accessing (p : PortState) : State := { atPort p with port := { (atPort p).port with access := some ⟨6, none⟩ } }

/-- The same station with some initiator records. -/
def withInits (l : List InitRec) : State := { linked with exch := { linked.exch with inits := l } }

/-- The same station with some target records, at a port state. -/
def withTargets (p : PortState) (l : List TargetRec) : State := { atPort p with exch := { linked.exch with targets := l } }

/-- The same station with some waiting items. -/
def withItems (l : List PendingItem) : State := { linked with sched := { linked.sched with items := l } }

/-- The same station with requests queued. -/
def withRequests (l : List Request) : State := { linked with host := { linked.host with requests := l } }

/-- The same station with a number of outcomes queued. -/
def withOutcomes (n : Nat) : State := { linked with host := { linked.host with
  outcomes := List.replicate n ⟨1, .sync, 5, ⟨.done, 0, true, none⟩⟩ } }

/-- Items that fill the Pending Item Queue. -/
def fullQueue : List PendingItem := List.replicate 32 ⟨⟨7, 7, 1, 1, .close⟩, .fixed⟩

def readRec : InitRec where
  peer := 5
  tag := 0
  serial := 0
  op := .read
  addr := 7
  count := 3
  channel := some .a
  label := 9
  state := .moving
  ring := some [⟨0, .full 0⟩, ⟨1, .empty⟩, ⟨2, .empty⟩]
  flow := .receiver ⟨1, 0⟩
  moved := 0
  lifetime := some 10
  wanted := []
  outcome := none

def writeRec : InitRec := { readRec with
  op := .write, ring := some [⟨0, .empty⟩, ⟨1, .empty⟩, ⟨2, .empty⟩], flow := .sender ⟨0, 0, 3, 0, 0⟩ }

def syncRec : InitRec := { readRec with op := .sync, count := 0, channel := none, ring := none, flow := .none, state := .asking 1 0 }

def askId : ExchId := ⟨5, 1, 4⟩

def readTarget : TargetRec where
  id := some askId
  op := .read
  addr := 7
  count := 3
  state := .active
  ring := some [⟨8, .empty⟩, ⟨9, .empty⟩, ⟨10, .empty⟩]
  flow := .sender ⟨0, 0, 3, 0, 0⟩
  moved := 0
  priming := none
  starvation := none
  wanted := []
  outcome := none

def writeTarget : TargetRec := { readTarget with op := .write, flow := .receiver ⟨0, 0⟩ }

def syncTarget : TargetRec := { readTarget with op := .sync, count := 0, ring := none, flow := .none }

def queuedTarget (o : Op) : TargetRec := { readTarget with
  op := o, count := if o = .sync then 0 else 3, state := .queued, ring := none, flow := newFlow .target o }

/-! ### One step of commands -/

/-- The state after a command. -/
def after (c : Instr) (s : State) : State :=
  match exec c s with
  | .next t => t
  | _ => s

/-- Commands one after another. -/
def run (l : List Instr) (s : State) : State := l.foldl (fun s c => after c s) s

theorem test_four_writes_configure :
    let s := run [.configAWrite 0x52, .configBWrite 0x100, .configAWrite 0x52, .configBWrite 0x100] State.reset
    s.host.config = some cfg ∧ s.member.link = .offline ∧ s.port.state = .resetting true ∧ s.buf.initFree.length = 8 := by decide
theorem test_join_listens : (after .joinLink base).member.link = .listening := by decide
theorem test_join_refused_in_member : (after .joinLink linked).host.commandStatus = .wrongState := by decide
theorem test_leave_takes : (after .leaveLink linked).member.link = .leaving := by decide
theorem test_post_makes_a_record : (after .post { linked with host := { linked.host with staging := ⟨5, 1, 0, 3, 0, 7, 9⟩ } }).exch.inits.length = 1 := by
  decide
theorem test_pop_of_nothing_faults : (after .outcomePop base).host.cause = .emptyPop := by decide
theorem test_thresholds : (after (.thresholdsWrite 0x6) base).chanA.threshold = 2 ∧ (after (.thresholdsWrite 0x6) base).chanB.threshold = 1 := by decide
theorem test_read_access_gives_a_word :
    let m : Memory := [(0, 0x12), (1, 0x34)]
    (after (.channelAccess .a .read) { withInits [readRec] with buf := { linked.buf with ram := m } }).host.hostData = 0x1234 := by decide
theorem test_write_access_stores_a_word : (after (.channelAccess .a (.write 0x1200)) (withInits [writeRec])).buf.ram = [(0, 0x12)] := by decide
theorem test_request_line_of_a_full_slot : (withInits [readRec]).requestLine .a = true := by decide
theorem test_stray_access : (after (.channelAccess .b .read) linked).host.cause = .strayAccess := by decide
theorem test_starting_ready : (after (.slotAccessComplete 1) (accessing (.starting 3))).port.state = .describing .command := by decide
theorem test_description_gives_capacity : (after (.slotAccessComplete 1) (accessing (.describing (.readHi 2)))).port.capacity = 0x00010002 := by decide
theorem test_grant_of_a_sync : (after .moduleGrant (withTargets .idle [queuedTarget .sync])).port.access = some ⟨5, some 3⟩ := by decide
theorem test_closing_of_a_write : (after (.attnRise 1 0) (withTargets (.serving .closing) [{ writeTarget with moved := 3 }])).exch.targets.map TargetRec.outcome
    = [some ⟨.done, 3, true, none⟩] := by decide
theorem test_watchdog_of_data : (after .watchdogExpiry { withTargets (.serving .data) [readTarget] with port :=
    { (atPort (.serving .data)).port with watchdog := some 2000 } }).port.state = .resetting true := by decide
theorem test_pass_moves_the_turn : (after (.intactFrameReceived passFrame.encode) linked).member.holder = none := by decide +kernel
theorem test_silence_is_a_miss : (after .silenceEvent linked).member.roster[(5 : Station)].misses = 1 := by decide
theorem test_founding_wait : (after .foundingWaitExpiry (inLink .listening)).member.link = .founding := by decide
theorem test_cancel_of_head_takes_next :
    let t := after .cancel { withRequests [⟨5, .sync, 0, 0, 0, 9⟩, ⟨5, .sync, 0, 0, 0, 8⟩] with host :=
      { (withRequests [⟨5, .sync, 0, 0, 0, 9⟩, ⟨5, .sync, 0, 0, 0, 8⟩]).host with commandArg := 9 } }
    t.host.requests = [] ∧ t.exch.inits.map InitRec.label = [8] ∧ t.host.outcomes.map OutcomeRec.outcome = [⟨.cancelled, 0, true, none⟩] := by
  decide
theorem test_lifetime : (after (.lifetimeExpiry 0) (withInits [readRec])).host.outcomes.map OutcomeRec.outcome = [⟨.expired, 0, true, none⟩] := by decide

/-! ### Witnesses: what the hypotheses of each statement allow -/

/-- The premise of the statements about a configured part alone: FlagsAndInterruptLine, ThresholdsAndRequestLine and more. -/
theorem witness_configured : base.configured = true ∧ linked.configured = true ∧ base.host.config = some cfg := by decide

theorem witness_EmptyQueueTicks :
    (State.reset.pending = [] ∧ State.reset.timebase = false) ∧
    ((withInits [{ readRec with lifetime := some 2 }]).pending = [] ∧ (withInits [{ readRec with lifetime := some 2 }]).timebase = true ∧
      (∀ r ∈ [{ readRec with lifetime := some 2 }], ∀ n, r.lifetime = some n → 2 ≤ n) ∧ linked.port.watchdog = none ∧
      ∀ n, linked.port.state ≠ .starting n) ∧
    ((withInits [{ readRec with lifetime := some 1 }]).exch.inits = [{ readRec with lifetime := some 1 }] ∧ 1 ≤ 1) ∧
    (linked.exch.inits = [] ∧ ∀ n ∈ [1998, 1999], ({ linked.port with watchdog := some n } : Port).watchdog = some n ∧
      (n + 1 < 2000 ∨ 2000 ≤ n + 1)) ∧
    ((atPort (.starting 7998)).port.state = .starting 7998 ∧ 7998 + 1 < 8000 ∧ (atPort (.starting 7999)).port.watchdog = none ∧
      8000 ≤ 7999 + 1) := by
  refine ⟨by decide, ⟨by decide, by decide, ?_, by decide, fun n h => by cases h⟩, by decide, by decide, by decide⟩
  intro r hr n hn
  rw [List.mem_singleton] at hr
  subst hr
  cases hn
  decide

/-- The station at a state of its port, with three records whose lifetimes stand as told and a watchdog. -/
def ticking (p : PortState) (watchdog : Option Nat) (a b c : Nat) : State := { withTargets p [readTarget] with
  exch := { (withTargets p [readTarget]).exch with inits :=
    [{ syncRec with tag := 1, label := 11, lifetime := some a }, { syncRec with tag := 0, label := 10, lifetime := some b },
     { syncRec with tag := 2, label := 12, lifetime := some c }] }
  port := { (atPort p).port with watchdog := watchdog } }

/-- The whole tick: two of three records run out, one stands; the watchdog one below its limit and at it; STARTING likewise. -/
theorem witness_EmptyQueueTicks_whole :
    (∀ n ∈ [1998, 1999], (ticking (.serving .data) (some n) 1 1 5).pending = [] ∧ (ticking (.serving .data) (some n) 1 1 5).timebase = true ∧
      (ticking (.serving .data) (some n) 1 1 5).port.watchdog = some n ∧ (n + 1 < 2000 ∨ 2000 ≤ n + 1)) ∧
    (∀ n ∈ [7998, 7999], (ticking (.starting n) none 1 2 1).port.state = .starting n ∧ (ticking (.starting n) none 1 2 1).port.watchdog = none ∧
      (n + 1 < 8000 ∨ 8000 ≤ n + 1)) := by decide

/-- The state after a step. -/
def stepped (s : State) : State :=
  match step s with
  | .next t => t
  | _ => s

/-- R20, R125, log 20: the two that reach 0 expire in creation order, the third falls by one, and the watchdog expires behind them. -/
theorem test_tick_with_records_and_watchdog :
    let t := stepped (ticking (.serving .data) (some 1999) 1 1 5)
    t.host.outcomes.map OutcomeRec.label = [11, 10] ∧ t.exch.inits.map InitRec.lifetime = [some 4] ∧ t.port.state = .resetting true ∧
    t.exch.targets.map TargetRec.outcome = [some ⟨.moduleStall, 0, true, none⟩] := by decide

/-- R20, R118: the wait of STARTING ends at the tick at which two of three records expire. -/
theorem test_tick_with_records_and_starting :
    let t := stepped (ticking (.starting 7999) none 1 2 1)
    t.host.outcomes.map OutcomeRec.label = [11, 12] ∧ t.exch.inits.map InitRec.lifetime = [some 1] ∧ t.port.state = .failed := by decide

theorem witness_GateIgnoresHostAndLine : State.reset.configured = false ∧ ({ base with inReset := true } : State).configured = false ∧
    ({ base with inReset := true } : State).inReset = true ∧ (0x02 : BitVec 7) ≠ 0 ∧ (0x02 : BitVec 7) ≠ 1 := by decide

/-- The latch at a position. -/
def atLatch (l : Latch) : State := { State.reset with host := { State.reset.host with latch := l } }

theorem witness_ConfigurationLatch : State.reset.inReset = false ∧ State.reset.host.latch = .awaitA1 ∧
    (atLatch (.awaitB1 0x52)).host.latch = .awaitB1 0x52 ∧ (atLatch (.awaitA2 0x52 0x100)).host.latch = .awaitA2 0x52 0x100 ∧
    (0x0052 : Word) &&& 0x007F = 0x52 ∧ (0x0053 : Word) &&& 0x007F ≠ 0x52 ∧
    (atLatch (.awaitB2 0x52 0x100)).host.latch = .awaitB2 0x52 0x100 ∧ (0x0101 : Word) &&& 0xFF03 ≠ 0x100 ∧
    (atLatch (.awaitB2 0x42 0x100)).host.latch = .awaitB2 0x42 0x100 ∧ bitField (0x42 : Word) 4 2 = 0 := by decide

theorem witness_MatchConfigures : (atLatch (.awaitB2 0x52 0x100)).inReset = false ∧ (0x0100 : Word) &&& 0xFF03 = 0x100 ∧
    bitField (0x52 : Word) 4 2 ≠ 0 ∧ bitField (0x32 : Word) 4 2 = 3 := by decide

theorem witness_ConfigurationFixedUntilReset : Instr.joinLink ≠ .hardwareReset ∧ base.host.latch = .matched ∧
    ∃ t, exec .joinLink base = .next t := ⟨by decide, by decide, _, rfl⟩

theorem witness_StationResetState : linked.configured = true ∧ linked.host.config = some cfg ∧
    ∀ p ∈ [PortState.absent, .idle, .resetting true, .starting 5, .describing .await, .serving .priming, .serving .data, .maintaining 0, .failed],
      (atPort p).configured = true ∧ (atPort p).port.state = p := by decide

theorem witness_RegisterWrites : base.configured = true ∧
    ∀ off ∈ ([0x04, 0x07, 0x3F, 0x60, 0x7F] : List (BitVec 7)),
      off ∉ ([0x00, 0x01, 0x02, 0x03, 0x05, 0x06, 0x08, 0x09, 0x0A, 0x0B, 0x0C, 0x0D, 0x15, 0x1E, 0x28] : List (BitVec 7)) ∧
      (off.toNat < 0x40 ∨ 0x5F < off.toNat) := by decide

theorem witness_WrittenWordsReadBack : base.configured = true ∧ (∃ t, exec (.registerWrite 0x02 0xFFFF) base = .next t) ∧
    (∃ t, exec (.registerWrite 0x5F 0xFFFF) base = .next t) ∧ (∃ t, exec (.thresholdsWrite 0xFFFF) base = .next t) ∧
    (∃ t, exec (.maintLoad 1) base = .next t) ∧ base.host.steps[(0 : Fin 16)].kind = 0 ∧ base.port.result ≠ .posted ∧
    base.port.result ≠ .running ∧ (∀ off ∈ ([0x2B, 0x2F, 0x60, 0x7F] : List (BitVec 7)),
      (0x2B ≤ off.toNat ∧ off.toNat < 0x30) ∨ 0x60 ≤ off.toNat) ∧
    ¬ (0x2B ≤ (0x30 : BitVec 7).toNat ∧ (0x30 : BitVec 7).toNat < 0x30) :=
  ⟨by decide, ⟨_, rfl⟩, ⟨_, rfl⟩, ⟨_, rfl⟩, ⟨_, rfl⟩, by decide, by decide, by decide, by decide, by decide⟩

theorem witness_ReadOnlyWords : linked.configured = true ∧ linked.host.outcomes = [] ∧
    (withOutcomes 1).host.outcomes = ⟨1, .sync, 5, ⟨.done, 0, true, none⟩⟩ :: [] ∧ linked.channelHead .a = none ∧
    (withInits [readRec]).channelHead .a = some readRec ∧ (withOutcomes 1).windowRead 0x10 = 0x05E1 ∧
    (withInits [readRec]).windowRead 0x18 = 0x0005 ∧ linked.windowRead 0x20 = 0x0025 := by decide

/-- The station with a staged request. -/
def staged (op : BitVec 3) (chan : BitVec 2) (count : BitVec 9) : State := { base with host := { base.host with
  staging := ⟨5, op, chan, count, 0, 7, 9⟩ } }

theorem witness_PostJudgesTheStagedRecord : (staged 4 0 1).configured = true ∧ 4 ≤ (staged 4 0 1).host.staging.op.toNat ∧
    (staged 1 2 1).host.staging.chan.toNat = 2 ∧ 256 < (staged 2 0 257).host.staging.count.toNat ∧
    (staged 3 0 1).host.staging.count.toNat ≠ 0 ∧ (staged 1 1 256).host.staging.count.toNat = 256 ∧
    (staged 1 1 256).host.requests.length < 8 ∧ (withRequests (List.replicate 8 ⟨5, .sync, 0, 0, 0, 9⟩)).host.requests.length = 8 ∧
    base.member.link ≠ .member := by decide

theorem witness_PopRemovesTheHead : linked.configured = true ∧ linked.host.outcomes = [] ∧ linked.exch.delivering = [] ∧
    (∃ o rest, (withOutcomes 1).host.outcomes = o :: rest) ∧
    (let r := { readRec with state := .delivering true, outcome := some ⟨.done, 3, true, none⟩ }
     let s : State := { withOutcomes 16 with exch := { linked.exch with inits := [r], delivering := [0] } }
     s.exch.delivering = [0] ∧ s.initRec 0 = some r ∧ s.sched.items.length < 32) :=
  ⟨by decide, by decide, by decide, ⟨_, _, rfl⟩, by decide⟩

/-- A CLOSE owed at a pop with the Pending Item Queue full is dropped. -/
theorem witness_PopRemovesTheHead_full :
    let r := { readRec with state := .delivering true, outcome := some ⟨.done, 3, true, none⟩ }
    let s : State := { withOutcomes 16 with exch := { linked.exch with inits := [r], delivering := [0] }, sched := (withItems fullQueue).sched }
    32 ≤ s.sched.items.length ∧ (after .outcomePop s).sched.items = fullQueue := by decide

theorem witness_HostMisuse : linked.configured = true ∧ linked.host.latch = .matched ∧ linked.channelHead .a = none ∧
    (let s : State := { withInits [readRec] with chanA := { linked.chanA with held := true } }
     (s.chan .a).held = true ∧ s.channelHead .a = some readRec ∧ readRec.op ≠ .write) ∧
    (withInits [writeRec]).channelHead .a = some writeRec ∧ writeRec.op ≠ .read ∧
    ({ linked.port with result := .posted } : Port).result = .posted ∧
    ((17 : Word).truncate 5 : BitVec 5).toNat = 17 ∧ ((16 : Word).truncate 5 : BitVec 5).toNat = 16 ∧ linked.host.steps[(15 : Fin 16)].kind = 0 ∧
    linked.port.result ≠ .posted ∧ linked.port.result ≠ .running ∧ (0x0080 : Word).getLsbD 7 = true := by decide

/-- The cases of the words offered and of R: each slot state at a READ and at a WRITE, a block that the fill rule does not allow, no block
left, no ring; the words at 1 and 255 moved. -/
theorem witness_ThresholdsAndRequestLine_words :
    (∀ st ∈ [SlotState.full 0, .draining 0 1, .draining 0 255, .empty],
      let r : InitRec := { readRec with ring := some [⟨0, st⟩, ⟨1, .empty⟩, ⟨2, .empty⟩] }
      r.op = .read ∧ r.flow = .receiver ⟨1, 0⟩ ∧ 0 < r.count ∧ r.ring = some [⟨0, st⟩, ⟨1, .empty⟩, ⟨2, .empty⟩] ∧
      ([⟨0, st⟩, ⟨1, .empty⟩, ⟨2, .empty⟩] : Ring)[0 % 3]? = some ⟨0, st⟩) ∧
    (∀ st ∈ [SlotState.empty, .filling 0 1, .filling 0 255, .full 0], ∀ m ∈ [0, 3], ∀ n ∈ [3, 6],
      let r : InitRec := { writeRec with count := n, moved := m, ring := some [⟨0, st⟩, ⟨1, .empty⟩, ⟨2, .empty⟩] }
      r.op = .write ∧ r.flow = .sender ⟨0, 0, 3, 0, 0⟩ ∧ (r.moved < r.count ∨ r.count ≤ r.moved) ∧
      ([⟨0, st⟩, ⟨1, .empty⟩, ⟨2, .empty⟩] : Ring)[m % 3]? = some ⟨0, st⟩) ∧
    (let r : InitRec := { writeRec with count := 6, moved := 4 }
     0 + min 4 r.count ≤ r.moved ∧ r.moved < r.count) ∧
    (let r : InitRec := { readRec with flow := .receiver ⟨3, 3⟩, ring := none }
     r.ring = none ∧ r.count ≤ 3 ∧ r.remaining = 0) := by decide

/-- The table of R75 and R178, and the example of chapter 10: 96 words written leave 160, ten more leave 150. -/
theorem test_words_offered_and_remaining :
    let reading (st : SlotState) : InitRec := { readRec with ring := some [⟨0, st⟩, ⟨1, .empty⟩, ⟨2, .empty⟩] }
    let writing (st : SlotState) : InitRec := { writeRec with ring := some [⟨0, st⟩, ⟨1, .empty⟩, ⟨2, .empty⟩] }
    (reading (.full 0)).offered = 256 ∧ (reading (.draining 0 255)).offered = 1 ∧ (reading .empty).offered = 0 ∧
    (reading .empty).remaining = 256 ∧ (writing .empty).offered = 256 ∧ (writing (.filling 0 96)).offered = 160 ∧
    (writing (.filling 0 106)).remaining = 150 ∧ ({ writing .empty with count := 6, moved := 4 } : InitRec).offered = 0 ∧
    ({ writing .empty with moved := 3 } : InitRec).remaining = 0 := by decide

/-- R75, R179: an access where words are offered but no block remains is stray. -/
theorem test_access_with_no_block_left_is_stray :
    let r : InitRec := { readRec with count := 1, flow := .receiver ⟨1, 1⟩, ring := some [⟨0, .full 0⟩] }
    (withInits [r]).channelHead .a = some r ∧ r.offered = 256 ∧ r.remaining = 0 ∧
    (after (.channelAccess .a .read) (withInits [r])).host.cause = .strayAccess := by decide

theorem witness_InvalidCodes : base.configured = true ∧ base.host.staging.op.toNat = 0 ∧ (staged 7 0 1).host.staging.op.toNat = 7 ∧
    (staged 2 3 1).host.staging.chan.toNat = 3 ∧ base.port.scriptBusy = false ∧ (0 : Fin 16).val < ((1 : Word).truncate 5 : BitVec 5).toNat ∧
    base.host.steps[(0 : Fin 16)].kind = 0 ∧ State.reset.inReset = false ∧ bitField (0x0F : Word) 4 2 = 0 := by decide

/-- The station with every staged step of a kind. -/
def stepsOf (k : BitVec 2) : State := { base with host := { base.host with steps := Vector.replicate 16 ⟨k, 5, 1⟩ } }

theorem witness_MaintenanceLoad : ∀ k ∈ ([1, 2, 3] : List (BitVec 2)), (stepsOf k).configured = true ∧ (stepsOf k).port.result ≠ .posted ∧
    (stepsOf k).port.result ≠ .running ∧ 1 ≤ ((16 : Word).truncate 5 : BitVec 5).toNat ∧ ((16 : Word).truncate 5 : BitVec 5).toNat ≤ 16 ∧
    ∀ j : Fin 16, j.val < ((16 : Word).truncate 5 : BitVec 5).toNat → (stepsOf k).host.steps[j].kind ≠ 0 := by decide

theorem witness_JoinAndLeaveCommands : base.configured = true ∧ base.member.link = .offline ∧ linked.member.link ≠ .offline ∧
    (inLink .listening).member.link = .listening ∧ (inLink .founding).member.link = .founding ∧ linked.member.link = .member ∧
    (withOutcomes 16).host.outcomes.length + (withInits [readRec]).exch.inits.length = 17 ∧
    linked.host.outcomes.length + linked.exch.inits.length ≤ 16 ∧ linked.exch.inits = [] ∧ linked.exch.targets = [] ∧
    linked.exch.delivering = [] ∧ linked.port.state = .idle ∧ linked.port.result ≠ .posted ∧
    (atPort (.serving .closing)).port.state = .serving .closing ∧ Serving.closing ≠ .priming ∧
    (atPort (.serving .priming)).port.state = .serving .priming := by decide

/-- Limits of the Exchange Table hold in states with records. -/
theorem witness_recordsLimited : (withInits [readRec, { syncRec with tag := 1 }]).recordsLimited ∧
    (withTargets .idle [queuedTarget .read, { syncTarget with id := none, state := .detached }]).recordsLimited := by
  refine ⟨⟨by decide, by decide, by decide, by decide, by decide⟩, by decide, by decide, by decide, by decide, by decide⟩

theorem witness_LeavingWithdraws :
    (let s := withInits [readRec, { syncRec with tag := 1 }]
     s.configured = true ∧ s.member.link = .member ∧ s.host.outcomes.length + s.exch.inits.length ≤ 16 ∧
     (∃ r ∈ s.exch.inits, r.live = true) ∧ s.channelQueue .b = [] ∧ s.channelQueue .a = [] ++ [readRec]) ∧
    (let s : State := { withInits [readRec] with host := (withOutcomes 15).host }
     s.host.outcomes.length + s.exch.inits.length = 16) :=
  ⟨⟨by decide, by decide, by decide, ⟨readRec, by decide, by decide⟩, by decide, by decide⟩, by decide⟩

theorem witness_CancelResolvesTheLabel :
    (let s : State := { withInits [syncRec, readRec] with host := { linked.host with commandArg := 9 } }
     s.configured = true ∧ s.exch.inits = [] ++ syncRec :: [readRec] ∧ syncRec.label = s.host.commandArg ∧ syncRec.live = true) ∧
    (let q : Request := ⟨5, .sync, 0, 0, 0, 9⟩
     let s : State := { base with host := { base.host with commandArg := 9, requests := [q, q] } }
     s.host.requests = [] ++ q :: [q] ∧ q.label = s.host.commandArg ∧ s.host.outcomes.length < 16 ∧
     (withOutcomes 16).host.outcomes.length = 16 ∧
     ({ q with label := 8 } : Request).label ≠ s.host.commandArg ∧ [{ q with label := 8 }, q] = [{ q with label := 8 }] ++ q :: []) ∧
    (∀ x ∈ linked.exch.inits, x.label ≠ linked.host.commandArg ∨ x.live = false) ∧
    ∀ x ∈ linked.host.requests, x.label ≠ linked.host.commandArg := by decide

/-- The station with a held script. -/
def scripted (p : PortState) (x : MaintResult) : State := { atPort p with port := { (atPort p).port with
  script := some [.write 5 4, .waitReady, .read 2], result := x } }

theorem witness_RunMaint : (atPort .failed).configured = true ∧ (scripted .idle .running).port.result = .running ∧
    linked.port.script = none ∧ ({ (scripted .idle .done).port with spent := true } : Port).spent = true ∧
    (scripted .idle .none).port.spent = false ∧ (scripted .idle .none).port.state = .idle ∧
    (scripted (.starting 1) .none).port.state ≠ .idle ∧ (scripted (.starting 1) .none).port.script.isSome = true := by decide

theorem witness_ChannelAccesses : (withInits [readRec]).configured = true ∧ (withInits [readRec]).channelHead .a = some readRec ∧
    ((withInits [readRec]).chan .a).held = false ∧ readRec.ring = some [⟨0, .full 0⟩, ⟨1, .empty⟩, ⟨2, .empty⟩] ∧
    (∃ b, (⟨0, .full 0⟩ : Slot).st = .full b) ∧ (∃ b, (⟨0, .draining 0 254⟩ : Slot).st = .draining b 254) ∧
    (withInits [writeRec]).channelHead .a = some writeRec ∧ writeRec.moved < writeRec.count ∧
    writeRec.moved < writeRec.flow.base + min 4 writeRec.count ∧ (∃ b, (⟨0, .filling 0 254⟩ : Slot).st = .filling b 254) ∧
    linked.buf.ram.wf = true ∧ readRec.flow = .receiver ⟨1, 0⟩ ∧ 0 + 1 < readRec.count :=
  ⟨by decide, by decide, by decide, by decide, ⟨_, rfl⟩, ⟨_, rfl⟩, by decide, by decide, by decide, ⟨_, rfl⟩, by decide, by decide, by decide⟩

theorem witness_ChannelAccesses_last_word :
    (let ring : Ring := [⟨0, .draining 0 255⟩, ⟨1, .empty⟩, ⟨2, .empty⟩]
     let r : InitRec := { readRec with ring := some ring }
     (withInits [r]).channelHead .a = some r ∧ ((withInits [r]).chan .a).held = false ∧ r.flow = .receiver ⟨1, 0⟩ ∧
     ring[0 % ring.length]? = some ⟨0, .draining 0 255⟩ ∧ 0 + 1 < r.count ∧
     (withInits [{ r with count := 1 }]).channelHead .a = some { r with count := 1 } ∧ 0 + 1 = ({ r with count := 1 } : InitRec).count) ∧
    (let ring : Ring := [⟨0, .filling 0 255⟩, ⟨1, .empty⟩, ⟨2, .empty⟩]
     let r : InitRec := { writeRec with ring := some ring }
     (withInits [r]).channelHead .a = some r ∧ ((withInits [r]).chan .a).held = false ∧ r.moved < r.count ∧
     ring[r.moved % ring.length]? = some ⟨0, .filling 0 255⟩) := by decide

/-- Requests of the station: a SYNC, a READ and one toward an absent station. -/
def syncReq : Request := ⟨5, .sync, 0, 0, 0, 9⟩
def readReq : Request := ⟨5, .read, 1, 256, 7, 9⟩
def absentReq : Request := ⟨6, .read, 1, 256, 7, 9⟩

theorem witness_TagAllocation : linked.configured = true ∧ (withRequests [readReq]).member.link = .member ∧
    (withRequests [readReq]).host.requests = readReq :: [] ∧ (withRequests [readReq]).freeTag = some 0 ∧
    (withRequests [readReq]).present readReq.target = true ∧
    (withInits (Tag.all.map (fun t => { syncRec with tag := t }))).freeTag = none ∧
    ∃ u, exec .leaveLink linked = .next u := ⟨by decide, by decide, by decide, by decide, by decide, by decide, _, rfl⟩

/-- What LEAVE_LINK keeps of the port: a script in progress; and the grant of a posted script at IDLE and out of priming. -/
theorem witness_LeavingKeepsThePort : (withInits [readRec]).configured = true ∧ (withInits [readRec]).member.link = .member ∧
    (withInits [readRec]).host.outcomes.length + (withInits [readRec]).exch.inits.length ≤ 16 ∧
    (after .leaveLink (scripted (.maintaining 1) .running)).port = (scripted (.maintaining 1) .running).port ∧
    (∀ p ∈ [PortState.idle, .serving .priming], (after .leaveLink (scripted p .posted)).port.state = .maintaining 0) ∧
    (after .leaveLink (scripted (.serving .data) .posted)).port.state = .resetting true ∧
    (after .leaveLink (scripted (.serving .data) .posted)).port.script = some [.write 5 4, .waitReady, .read 2] := by decide

theorem witness_TakesOfRequests : (withRequests [syncReq]).configured = true ∧ (withRequests [syncReq]).host.config = some cfg ∧
    (withRequests [syncReq]).host.requests = syncReq :: [] ∧ (withRequests [syncReq]).freeTag = some 0 ∧
    (withRequests [syncReq]).member.roster[syncReq.target].present = true ∧ syncReq.op = .sync ∧
    (withRequests [syncReq]).sched.items.length < 32 ∧ 32 ≤ (withItems fullQueue).sched.items.length ∧
    readReq.op ≠ .sync ∧ readReq.chan = 1 ∧ (withRequests [readReq]).channelQueue .b = [] ∧
    min 4 readReq.count ≤ (withRequests [readReq]).buf.initFree.length ∧
    (withRequests [absentReq]).member.roster[absentReq.target].present = false ∧ (withOutcomes 15).host.outcomes.length < 16 ∧
    16 ≤ (withOutcomes 16).host.outcomes.length ∧ base.member.link ≠ .member := by decide

/-- A READ taken behind another record and one taken with the Pending Item Queue full. -/
theorem witness_TakesOntoAnyQueue :
    (let s : State := { withRequests [{ readReq with chan := 0 }] with exch := { linked.exch with inits := [readRec] } }
     s.channelHead .a = some readRec ∧ readRec.ring ≠ none ∧ s.freeTag = some 1 ∧ s.sched.items.length < 32 ∧
     (after .takeRequest s).exch.inits.map InitRec.ring = [readRec.ring, none]) ∧
    (let s : State := { withRequests [readReq] with sched := (withItems fullQueue).sched }
     s.channelQueue .b = [] ∧ 32 ≤ s.sched.items.length ∧ s.member.roster[readReq.target].present = true ∧ s.freeTag = some 0 ∧
     (after .takeRequest s).exch.inits.map InitRec.wanted = [[.ask]]) := by decide

theorem witness_OutcomeTable : readRec.op = .read ∧ syncRec.op = .sync ∧ writeRec.op = .write ∧ (∃ n k, syncRec.state = .asking n k) ∧
    (∀ n k, writeRec.state ≠ .asking n k) ∧ OutcomeCode.done ≠ .peerForgot ∧ 3 ≤ writeRec.count ∧ writeRec.count ≤ 3 :=
  ⟨by decide, by decide, by decide, ⟨_, _, rfl⟩, fun _ _ h => (by cases h), by decide, by decide, by decide⟩

theorem witness_InitiatorEnds : (withInits [readRec]).initRec readRec.tag = some readRec ∧ readRec.channel = some .a ∧
    (withInits [readRec]).headsChannel readRec = true ∧ (withInits [syncRec]).headsChannel syncRec = false ∧
    (withInits [syncRec]).host.outcomes.length < 16 ∧ ¬ (withOutcomes 16).host.outcomes.length < 16 ∧
    (withInits [syncRec]).sched.items = [] := by decide

theorem witness_HeadSuccession : linked.channelHead .a = none ∧
    (∀ st ∈ [InitState.waiting, .moving], (withInits [{ readRec with ring := none, state := st }]).channelHead .a =
      some { readRec with ring := none, state := st }) ∧
    (withInits [{ writeRec with ring := none }]).channelHead .a = some { writeRec with ring := none } ∧ readRec.ring ≠ none ∧
    min 4 readRec.count ≤ linked.buf.initFree.length ∧
    ({ linked.buf with initFree := [0, 1] } : Buffers).initFree.length < min 4 readRec.count ∧
    (withInits [readRec]).initRec readRec.tag = some readRec ∧ readRec.channel = some .a ∧
    (withInits [readRec]).headsChannel readRec = true ∧ 16 ≤ (withOutcomes 16).host.outcomes.length ∧
    (withOutcomes 15).host.outcomes.length < 16 := by decide

/-- A head and a SYNC that end owing a CANCEL or a CLOSE, with room for it and with the Pending Item Queue full, freed and waiting. -/
theorem witness_EndingsWithWhatTheyOwe : (withInits [readRec]).initRec readRec.tag = some readRec ∧ readRec.channel = some .a ∧
    (withInits [readRec]).headsChannel readRec = true ∧ (withInits [syncRec]).headsChannel syncRec = false ∧
    ((withInits [readRec]).endInit readRec ⟨.cancelled, 0, true, none⟩ true false).sched.items =
      [⟨⟨5, 2, 0, 0, .cancel⟩, .fixed⟩] ∧
    (let s : State := { withInits [readRec] with host := (withOutcomes 16).host, sched := (withItems fullQueue).sched }
     16 ≤ s.host.outcomes.length ∧ 32 ≤ s.sched.items.length ∧
     (s.endInit readRec ⟨.cancelled, 0, true, none⟩ true false).exch.inits.map InitRec.wanted = [[.cancel]]) ∧
    (let s : State := { withInits [syncRec] with sched := (withItems fullQueue).sched }
     (s.endInit syncRec ⟨.done, 0, true, none⟩ false true).sched.items = fullQueue) := by decide

theorem witness_WatchesOfAnInitiatorRecord :
    (withInits [{ syncRec with state := .asking 2 2 }]).initRec syncRec.tag = some { syncRec with state := .asking 2 2 } ∧ 2 < 3 ∧ 3 ≤ 2 + 1 ∧
    ((withInits [{ syncRec with state := .asking 2 2 }]).exch.inits.filter (fun x => decide (x.tag = syncRec.tag))).length = 1 ∧
    (withInits [syncRec]).sched.items.length < 32 ∧ ItemKind.ask ∈ ({ syncRec with wanted := [.ask] } : InitRec).wanted ∧
    (withInits [{ syncRec with state := .asking 3 2 }]).initRec syncRec.tag = some { syncRec with state := .asking 3 2 } ∧
    (withInits [readRec]).initRec readRec.tag = some readRec ∧ readRec.lifetime = some 10 ∧ (∀ b, readRec.state ≠ .delivering b) ∧
    ({ readRec with lifetime := none } : InitRec).lifetime = none ∧
    ∃ b, ({ readRec with state := .delivering true } : InitRec).state = .delivering b :=
  ⟨by decide, by decide, by decide, by decide, by decide, by decide, by decide, by decide, by decide, fun _ h => (by cases h), by decide, _, rfl⟩

theorem witness_RewindsAndTheirLimits :
    (let c : SendCounters := ⟨0, 2, 3, 3, 6⟩
     c.base < c.next ∧ c.stall = 3 ∧ c.rewinds < 7 ∧
     (withInits [{ writeRec with flow := .sender c }]).initRec writeRec.tag = some { writeRec with flow := .sender c } ∧
     (withInits [{ writeRec with flow := .sender c }]).headsChannel { writeRec with flow := .sender c } = true ∧ writeRec.peer ≠ linked.own ∧
     (withTargets (.serving .data) [{ readTarget with flow := .sender c }]).targetRec 5 1 = some { readTarget with flow := .sender c } ∧
     askId.peer ≠ linked.own) ∧
    (let c : SendCounters := ⟨0, 2, 3, 3, 7⟩
     c.base < c.next ∧ 7 ≤ c.rewinds ∧ (withInits [{ writeRec with flow := .sender c }]).initRec writeRec.tag = some { writeRec with flow := .sender c } ∧
     (withTargets .idle [{ readTarget with flow := .sender c, state := .finishing }]).targetRec 5 1 =
       some { readTarget with flow := .sender c, state := .finishing } ∧
     (withTargets (.serving .data) [{ readTarget with flow := .sender c }]).targetRec 5 1 = some { readTarget with flow := .sender c } ∧
     (withTargets (.serving .data) [readTarget]).port.xfer = false) := by decide

theorem witness_WatchesOfATargetRecord :
    (withTargets (.serving .priming) [{ writeTarget with priming := some 27 }]).activeRec = some { writeTarget with priming := some 27 } ∧
    writeTarget.id = some askId ∧ 27 + 1 ∈ [4, 8, 12, 16, 20, 24, 28] ∧ 31 + 1 = 32 ∧ 30 + 1 < 32 ∧
    (withTargets (.serving .data) [{ readTarget with starvation := some 63 }]).activeRec = some { readTarget with starvation := some 63 } ∧
    64 ≤ 63 + 1 ∧ 62 + 1 < 64 ∧
    (withTargets (.serving .data) [{ readTarget with starvation := some 63 }]).targetRec 5 1 = some { readTarget with starvation := some 63 } ∧
    (let r : TargetRec := { readTarget with state := .settling false 3, ring := none, outcome := some ⟨.done, 3, true, none⟩ }
     (withTargets .idle [r]).targetRec 5 1 = some r ∧ r.outcome = some ⟨.done, 3, true, none⟩ ∧ 3 ≤ 3 ∧ ItemKind.outcome ∉ r.wanted ∧
     (withTargets .idle [r]).sched.items.length < 32 ∧ 32 ≤ fullQueue.length) := by decide

/-- An OUTCOME resend with a REPLY and a CREDIT of the exchange waiting, with an OUTCOME of it waiting, and with the queue full. -/
theorem witness_OutcomeResend :
    let r : TargetRec := { readTarget with state := .settling true 0, ring := none, outcome := some ⟨.done, 3, true, none⟩ }
    let s (l : List PendingItem) : State := { withTargets .idle [r] with sched := { linked.sched with items := l } }
    let reply : PendingItem := ⟨⟨5, 5, 1, 4, .reply none⟩, .record⟩
    let out : PendingItem := ⟨⟨5, 5, 1, 4, .outcome .done 3 0 0⟩, .record⟩
    (after (.outcomeResend 5 1) (s [reply])).sched.items = [reply, out] ∧ (after (.outcomeResend 5 1) (s [out])).sched.items = [out] ∧
    (after (.outcomeResend 5 1) (s fullQueue)).exch.targets.map TargetRec.wanted = [[.outcome]] := by decide

/-- An ACTIVE READ with blocks outstanding that waits on the ring: both counts rise, it rewinds, it ends. -/
theorem witness_BothWatchesOfARead :
    let r (stall rewinds n : Nat) : TargetRec := { readTarget with flow := .sender ⟨0, 2, 3, stall, rewinds⟩, starvation := some n }
    let s (x : TargetRec) : State := withTargets (.serving .data) [x]
    (s (r 2 0 5)).recordsLimited ∧ (s (r 2 0 5)).targetRec askId.peer askId.tag = some (r 2 0 5) ∧ (r 2 0 5).id = some askId ∧
    askId.peer ≠ linked.own ∧ (r 2 0 5).wanted = [] ∧
    ((s (r 2 0 5)).targetTurn 5 1).exch.targets = [r 3 0 6] ∧
    ((s (r 3 6 62)).targetTurn 5 1).exch.targets = [{ r 0 7 63 with flow := .sender ⟨0, 0, 3, 0, 7⟩ }] ∧
    ((s (r 3 7 5)).targetTurn 5 1).exch.targets.map TargetRec.state = [.settling true 0] ∧
    ((s { r 3 7 5 with starvation := none }).targetTurn 5 1).exch.targets.map TargetRec.state = [.settling true 0] :=
  ⟨⟨by decide, by decide, by decide, by decide, by decide⟩, by decide⟩

/-- A CREDIT of an exchange, and an item that is none. -/
def creditItem : Item := ⟨5, 2, 0, 0, .credit .target 0 0⟩
def closeItem : Item := ⟨5, 2, 0, 0, .close⟩

theorem witness_OfferOfAnItem :
    (((∃ d n l, creditItem.body = .credit d n l) ∧ ∃ p ∈ (withItems [⟨creditItem, .record⟩]).sched.items, p.item.init = creditItem.init ∧
      p.item.tag = creditItem.tag ∧ p.item.serial = creditItem.serial ∧ ∃ d n l, p.item.body = .credit d n l)) ∧
    (¬ (∃ d n l, closeItem.body = .credit d n l)) ∧ (withItems (fullQueue.drop 1)).sched.items.length = 31 ∧
    32 ≤ (withItems fullQueue).sched.items.length :=
  ⟨⟨⟨_, _, _, rfl⟩, ⟨creditItem, .record⟩, by decide, rfl, rfl, rfl, _, _, _, rfl⟩, fun ⟨_, _, _, h⟩ => (by cases h), by decide, by decide⟩

theorem witness_OffersOfRecords : (withInits [readRec]).initRec readRec.tag = some readRec ∧
    (withTargets .idle [writeTarget]).targetRec 5 1 = some writeTarget ∧ writeTarget.id = some askId ∧
    linked.takesItem creditItem = true ∧ (withItems fullQueue).takesItem creditItem = false ∧
    ({ readTarget with outcome := some ⟨.done, 3, true, none⟩ } : TargetRec).outcome = some ⟨.done, 3, true, none⟩ := by decide

theorem witness_CreditAtTheSender : ∀ c ∈ [(⟨2, 2, 6, 1, 0⟩ : SendCounters), ⟨2, 4, 6, 1, 6⟩, ⟨2, 4, 6, 1, 7⟩], c.base ≤ c.next ∧ c.next ≤ 8 ∧
    c.limit ≤ 8 ∧ c.rewinds < 8 ∧ min 1 8 < c.base ∧ min 2 8 = c.base ∧ c.base < min 3 8 ∧ c.next ≤ min 9 8 := by decide

theorem witness_AskOfAStation :
    (withTargets .idle [queuedTarget .read]).targetRec 5 1 = some (queuedTarget .read) ∧ (queuedTarget .read).id = some ⟨5, 1, 4⟩ ∧
    opCode (queuedTarget .read).op = (1 : Byte).toNat ∧ (queuedTarget .read).count = 3 ∧ (queuedTarget .read).addr = 7 ∧
    (withTargets .idle [queuedTarget .read]).sched.items.length < 32 ∧ (32 ≤ (withItems fullQueue).sched.items.length) ∧
    linked.targetRec 5 1 = none ∧ (4 : Byte) ≠ 1 ∧ 256 < 257 ∧ (atPort .failed).targetRec 5 1 = none ∧
    linked.port.capacity.toNat < (998 : BlockAddr).toNat + 3 ∧ ¬ linked.port.capacity.toNat < (997 : BlockAddr).toNat + 3 ∧
    8 ≤ ((withTargets .idle (List.replicate 8 (queuedTarget .read))).exch.targets.filter (fun r => decide (r.state = .queued))).length ∧
    16 ≤ (withTargets .idle (List.replicate 16 writeTarget)).exch.targets.length ∧ linked.exch.targets.length < 16 := by decide

/-- An ASK on a full Pending Item Queue: a duplicate whose REPLY waits, one whose REPLY becomes wanted, and a new record. -/
theorem witness_AskOfAStation_full :
    let ask : Item := ⟨2, 5, 1, 4, .ask 1 3 7⟩
    let full (l : List TargetRec) (q : List PendingItem) : State := { withTargets (.starting 1) l with sched := (withItems q).sched }
    let reply : PendingItem := ⟨⟨5, 5, 1, 4, .reply none⟩, .record⟩
    (full [queuedTarget .read] (reply :: fullQueue.drop 1)).itemArrives 5 ask = full [queuedTarget .read] (reply :: fullQueue.drop 1) ∧
    ((full [queuedTarget .read] fullQueue).itemArrives 5 ask).exch.targets.map TargetRec.wanted = [[.reply]] ∧
    (let s := { full [] fullQueue with port := { linked.port with state := .serving .data } }
     s.targetRec 5 1 = none ∧ (s.itemArrives 5 ask).exch.targets.map TargetRec.wanted = [[.reply]]) := by decide

theorem witness_ArrivalsAtTheInitiator : (withInits [syncRec]).initRec 0 = some syncRec ∧ syncRec.peer = 5 ∧ syncRec.serial = 0 ∧
    (∃ n k, syncRec.state = .asking n k) ∧ (∀ n k, readRec.state ≠ .asking n k) ∧ (∀ b, readRec.state ≠ .delivering b) ∧
    readRec.op = .read ∧ readRec.flow.consumed < readRec.count ∧ OutcomeCode.moduleFault ≠ .done ∧
    (withInits [{ readRec with state := .delivering true }]).initRec 0 = some { readRec with state := .delivering true } ∧
    linked.initRec 0 = none ∧ syncRec.serial ≠ 1 ∧ linked.sched.items.length < 32 ∧ 32 ≤ (withItems fullQueue).sched.items.length :=
  ⟨by decide, by decide, by decide, ⟨_, _, rfl⟩, fun _ _ h => (by cases h), fun _ h => (by cases h), by decide, by decide, by decide, by decide,
    by decide, by decide, by decide, by decide⟩

theorem witness_CreditAtAnInitiator : (withInits [syncRec]).initRec syncRec.tag = some syncRec ∧
    (∃ n k, ({ writeRec with state := .asking 1 0 } : InitRec).state = .asking n k) ∧ (∀ n k, writeRec.state ≠ .asking n k) ∧
    (∀ b, writeRec.state ≠ .delivering b) ∧ readRec.op ≠ .write ∧ writeRec.op ≠ .read ∧ writeRec.op = .write ∧
    readRec.op = .read ∧ readRec.ring ≠ none ∧ (withInits [writeRec]).initRec writeRec.tag = some writeRec ∧
    (let c : SendCounters := ⟨0, 2, 3, 0, 7⟩
     (c.credit 3 0 3).2 = true ∧ (c.credit 3 2 3).2 = false ∧ (c.credit 3 2 3).1.base ≠ 3) ∧
    (let c : SendCounters := ⟨0, 3, 3, 0, 0⟩
     (c.credit 3 3 3).2 = false ∧ (c.credit 3 3 3).1.base = 3) ∧
    (let c : SendCounters := ⟨0, 0, 0, 0, 0⟩
     (c.credit 3 0 3).2 = false ∧ 0 < (c.credit 3 0 3).1.limit) :=
  ⟨by decide, ⟨_, _, rfl⟩, fun _ _ h => (by cases h), fun _ h => (by cases h), by decide, by decide, by decide, by decide, by decide,
    by decide, by decide, by decide, by decide⟩

/-- Orphan answers beside another orphan answer: one of another exchange, one alike, and one that finds the queue full. -/
theorem witness_OffersOfOrphanAnswers :
    let forgot (t : Tag) : Item := ⟨5, 5, t, 4, .outcome .peerForgot 0 0 0⟩
    ((withItems [⟨forgot 2, .orphan⟩]).offerOrphan (forgot 1)).sched.items = [⟨forgot 2, .orphan⟩, ⟨forgot 1, .orphan⟩] ∧
    ((withItems [⟨forgot 1, .orphan⟩]).offerOrphan (forgot 1)).sched.items = [⟨forgot 1, .orphan⟩] ∧
    ((withItems [⟨forgot 1, .record⟩]).offerOrphan (forgot 1)).sched.items = [⟨forgot 1, .record⟩, ⟨forgot 1, .orphan⟩] ∧
    ((withItems fullQueue).offerOrphan (forgot 1)).sched.items = fullQueue := by decide

/-- A block of the exchange of `readRec`. -/
def blockOf (index : Nat) : DataBlock := ⟨2, 2, 0, 0, index, List.replicate 512 1⟩

theorem witness_DataAtAnInitiatorRead : (blockOf 1).bytes.length = 512 ∧ (withInits [readRec]).initRec (blockOf 1).tag = some readRec ∧ readRec.serial = (blockOf 1).serial ∧
    readRec.op = .read ∧ readRec.state = .moving ∧ readRec.flow = .receiver ⟨1, 0⟩ ∧
    ([⟨0, .full 0⟩, ⟨1, .empty⟩, ⟨2, .empty⟩] : Ring)[1 % 3]? = some ⟨1, .empty⟩ ∧ (blockOf 1).index = 1 ∧ (blockOf 1).index < readRec.count ∧
    linked.buf.ram.wf = true ∧ (blockOf 2).index ≠ 1 ∧
    ([⟨0, .full 0⟩, ⟨1, .empty⟩, ⟨2, .empty⟩] : Ring)[2 % 3]? = some ⟨2, .empty⟩ := ⟨List.length_replicate, by decide⟩

theorem witness_DataWithoutARing :
    (∀ st ∈ [InitState.waiting, .moving, .awaitOutcome, .delivering true], let r := { readRec with ring := none, state := st }
      (withInits [r]).initRec (blockOf 1).tag = some r ∧ r.serial = (blockOf 1).serial ∧ r.op = .read ∧ r.ring = none) ∧
    InitState.delivering true = .delivering true := by decide

theorem witness_ArrivalsAtTheTarget : linked.targetRec 5 1 = none ∧
    (withTargets .idle [queuedTarget .sync]).targetRec 5 1 = some (queuedTarget .sync) ∧ (queuedTarget .sync).id = some ⟨5, 1, 4⟩ ∧
    (queuedTarget .sync).id ≠ some ⟨5, 1, 3⟩ ∧ (queuedTarget .sync).state = .queued ∧ (queuedTarget .sync).ring = none ∧
    (withTargets .idle [{ readTarget with state := .finishing }]).targetRec 5 1 = some { readTarget with state := .finishing } ∧
    (let r : TargetRec := { readTarget with state := .settling false 3, ring := none }
     (withTargets .idle [r]).targetRec 5 1 = some r ∧ r.ring = none) ∧
    ∀ p ∈ linked.sched.items ++ linked.sched.loopItems, p.origin ≠ .record := by decide

theorem witness_ArrivalsThatATargetDiscards :
    (∀ r ∈ [readTarget, syncTarget, writeTarget, { readTarget with state := .settling true 0 }, { writeTarget with state := .settling true 0 }],
      (withTargets .idle [r]).targetRec askId.peer askId.tag = some r ∧ r.id = some askId) ∧
    readTarget.flow = .sender ⟨0, 0, 3, 0, 0⟩ ∧ syncTarget.flow = .none ∧ writeTarget.flow = .receiver ⟨0, 0⟩ ∧ readTarget.op = .read ∧
    syncTarget.op = .sync ∧ writeTarget.op = .write := by decide

theorem witness_TargetRecordsGivenUp :
    (∀ r ∈ [queuedTarget .read, readTarget, { readTarget with state := .finishing }, { readTarget with state := .settling true 0 },
        { readTarget with state := .settling true 0, ring := none }],
      (withTargets .idle [r]).targetRec askId.peer askId.tag = some r ∧ r.id = some askId) ∧
    (∀ r ∈ [readTarget, writeTarget, syncTarget], r.state = .active ∧
      (∀ p ∈ [PortState.serving .priming, .serving (.setup 3), .serving .data, .serving .closing],
        (withTargets p [r]).targetRec askId.peer askId.tag = some r ∧ (withTargets p [r]).port.state = p)) ∧
    3 + 1 ≠ (if readTarget.op = .sync then 1 else 5) ∧ 4 + 1 = (if readTarget.op = .sync then 1 else 5) ∧
    0 + 1 = (if syncTarget.op = .sync then 1 else 5) ∧
    (atPort (.serving (.runOut 1 3))).port.state = .serving (.runOut 1 3) ∧ linked.port.xfer = false := by decide

theorem witness_ArrivalsUnderAnotherSerial : (withTargets .idle [queuedTarget .read]).targetRec 5 1 = some (queuedTarget .read) ∧
    (queuedTarget .read).serial ≠ 5 ∧ (⟨2, 5, 1, 5, 0, []⟩ : DataBlock).serial = 5 ∧
    (∃ b k, ({ readTarget with state := .settling true 0 } : TargetRec).state = .settling b k) ∧
    (∀ b k, (queuedTarget .read).state ≠ .settling b k) ∧ (997 : BlockAddr).toNat + 3 ≤ linked.port.capacity.toNat ∧
    linked.port.state = .idle ∧
    (let u := ((withTargets .idle [queuedTarget .read]).dropTarget (queuedTarget .read)).grant
     ¬ (8 ≤ (u.exch.targets.filter (fun x => decide (x.state = .queued))).length ∨ 16 ≤ u.exch.targets.length)) ∧
    (let other (p : Station) (t : Tag) : TargetRec := { queuedTarget .read with id := some ⟨p, t, 4⟩, state := .settling true 0 }
     let others : List TargetRec := Tag.all.map (other 6) ++ (Tag.all.drop 1).map (other 7)
     let u := ((withTargets (.starting 1) (queuedTarget .read :: others)).dropTarget (queuedTarget .read)).grant
     u.exch.targets.length = 15) :=
  ⟨by decide, by decide, by decide, ⟨_, _, rfl⟩, fun _ _ h => (by cases h), by decide, by decide, by decide, by decide⟩

/-- An ASK with the serial of the record and another block count. -/
theorem witness_ArrivalsUnderAnotherSerial_sameSerial : (queuedTarget .read).serial = 4 ∧ (queuedTarget .read).count ≠ 2 ∧
    opCode (queuedTarget .read).op ≠ (2 : Byte).toNat ∧ ((queuedTarget .read).op ≠ .sync ∧ (queuedTarget .read).addr ≠ 8) ∧
    ((withTargets (.serving .data) [queuedTarget .read]).itemArrives 5 ⟨2, 5, 1, 4, .ask 1 2 7⟩).exch.targets.map TargetRec.count = [2] := by
  decide

/-- A READ of which block 2 is the last to send. -/
def lastBlock : TargetRec := { readTarget with
  state := .finishing, ring := some [⟨8, .empty⟩, ⟨9, .empty⟩, ⟨10, .full 2⟩], flow := .sender ⟨2, 2, 3, 0, 0⟩, moved := 3 }

theorem witness_OwnTurnSendsABlock :
    (let r := { writeRec with ring := some [⟨0, .full 0⟩, ⟨1, .empty⟩, ⟨2, .empty⟩] }
     r.flow = .sender ⟨0, 0, 3, 0, 0⟩ ∧ r.state = .moving ∧ (withInits [r]).headsChannel r = true ∧
     ([⟨0, .full 0⟩, ⟨1, .empty⟩, ⟨2, .empty⟩] : Ring)[0 % 3]? = some ⟨0, .full 0⟩) ∧
    (∀ n : Station, (0x0024 : BitVec 16).getLsbD n.val = (withTargets .idle [lastBlock]).member.roster[n].present) ∧
    (withTargets .idle [lastBlock]).sched.items = [] ∧ (withTargets .idle [lastBlock]).exch.inits = [] ∧
    lastBlock.id = some askId ∧ askId.peer ≠ linked.own ∧ lastBlock.op = .read ∧ lastBlock.state = .finishing ∧ lastBlock.wanted = [] ∧
    lastBlock.flow = .sender ⟨2, 2, 3, 0, 0⟩ ∧ 2 + 1 = 3 ∧
    ([⟨8, .empty⟩, ⟨9, .empty⟩, ⟨10, .full 2⟩] : Ring)[2 % 3]? = some ⟨10, .full 2⟩ := by decide

theorem witness_PicksOfATurn : (∃ x, x ∈ (withTargets .idle [lastBlock]).sendables ∧ x.data.dest ≠ linked.own) ∧
    (withTargets .idle [lastBlock]).recordsLimited ∧ linked.sendables = [] :=
  ⟨⟨_, List.mem_singleton.mpr rfl, by decide⟩, ⟨by decide, by decide, by decide, by decide, by decide⟩, by decide⟩

/-- The station in a block transfer of block 0. -/
def moving (p : PortState) (shown : Bool) (r : TargetRec) : State := { withTargets p [r] with port :=
  { (atPort p).port with transfer := some 0, access := some ⟨0, none⟩, xfer := shown } }

/-- A block of the exchange of `writeTarget`. -/
def blockFor (index : Nat) : DataBlock := ⟨2, 5, 1, 4, index, List.replicate 512 1⟩

theorem witness_DataAtATargetWrite :
    (withTargets .idle [queuedTarget .write]).targetRec (blockFor 0).init (blockFor 0).tag = some (queuedTarget .write) ∧
    writeTarget.id = some ⟨(blockFor 0).init, (blockFor 0).tag, (blockFor 0).serial⟩ ∧ writeTarget.flow = .receiver ⟨0, 0⟩ ∧
    (queuedTarget .write).ring = none ∧
    (withTargets (.serving (.setup 1)) [writeTarget]).targetRec (blockFor 0).init (blockFor 0).tag = some writeTarget ∧
    ([⟨8, .empty⟩, ⟨9, .empty⟩, ⟨10, .empty⟩] : Ring)[(blockFor 0).index % 3]? = some ⟨8, .empty⟩ ∧ (blockFor 1).index ≠ 0 ∧
    (withTargets (.serving .priming) [{ writeTarget with priming := some 31 }]).targetRec 5 1 = some { writeTarget with priming := some 31 } ∧
    (withTargets (.serving (.setup 1)) [writeTarget]).port.state = .serving (.setup 1) := by decide

theorem witness_CreditAtATargetRead :
    (withTargets .idle [queuedTarget .read]).targetRec 5 1 = some (queuedTarget .read) ∧ (queuedTarget .read).id = some ⟨5, 1, 4⟩ ∧
    ((⟨0, 0, 3, 0, 0⟩ : SendCounters).credit 3 0 0).2 = false ∧ (queuedTarget .read).ring = none ∧
    (withTargets .idle [lastBlock]).targetRec 5 1 = some lastBlock ∧ lastBlock.state = .finishing ∧ 2 < lastBlock.count ∧ lastBlock.count ≤ 3 ∧
    (let r : TargetRec := { readTarget with state := .settling true 0 }
     (withTargets .idle [r]).targetRec 5 1 = some r) := by decide

/-- A block that arrives in the data phase: a wait that it ends, one that it leaves, a transfer that is on its way. -/
theorem witness_DataAtAServedWrite :
    (let s := withTargets (.serving .data) [{ writeTarget with starvation := some 3 }]
     s.targetRec (blockFor 0).init (blockFor 0).tag = some { writeTarget with starvation := some 3 } ∧
     ((s.withPort { s.port with xfer := true }).dataToTarget 5 (blockFor 0)).port.transfer = some 0 ∧
     ((s.withPort { s.port with watchdog := some 7 }).dataToTarget 5 (blockFor 0)).port.watchdog = some 7 ∧
     ((s.withPort { s.port with xfer := true, access := some ⟨6, none⟩ }).dataToTarget 5 (blockFor 0)).exch.targets.map TargetRec.starvation
       = [some 3]) ∧
    (let r := { writeTarget with ring := some [⟨8, .draining 0 4⟩, ⟨9, .empty⟩, ⟨10, .empty⟩], flow := .receiver ⟨1, 0⟩ }
     (moving (.serving .data) true r).targetRec (blockFor 1).init (blockFor 1).tag = some r ∧ (blockFor 1).index = 1 ∧
     ([⟨8, .draining 0 4⟩, ⟨9, .empty⟩, ⟨10, .empty⟩] : Ring)[1 % 3]? = some ⟨9, .empty⟩ ∧
     (moving (.serving .data) true r).port.transfer ≠ none) ∧
    (withTargets (.serving (.setup 1)) [writeTarget]).port.state ≠ .serving .data := by decide

/-- A READ of six blocks over four slots, all full, that waits on the ring. -/
def waitingRead : TargetRec := { readTarget with
  count := 6, ring := some [⟨8, .full 0⟩, ⟨9, .full 1⟩, ⟨10, .full 2⟩, ⟨11, .full 3⟩], flow := .sender ⟨0, 4, 4, 0, 0⟩, moved := 4
  starvation := some 5 }

/-- A CREDIT for the exchange of `waitingRead` as it arrives. -/
def creditFor (expected limit : Nat) : Item := ⟨2, 5, 1, 4, .credit .target expected limit⟩

theorem witness_CreditAtASendingRead :
    ((⟨1, 2, 3, 0, 0⟩ : SendCounters).credit 3 2 3 = (⟨2, 2, 3, 0, 0⟩, false) ∧
     ((⟨1, 2, 3, 0, 0⟩ : SendCounters).credit 3 3 3).1.base = 3 ∧ ((⟨1, 2, 3, 0, 7⟩ : SendCounters).credit 3 1 3).2 = true ∧
     (withTargets .idle [lastBlock]).targetRec 5 1 = some lastBlock) ∧
    (let s := withTargets (.serving .data) [waitingRead]
     let shown := s.withPort { s.port with xfer := true }
     s.targetRec 5 1 = some waitingRead ∧ waitingRead.id = some ⟨5, 1, 4⟩ ∧ ((⟨0, 4, 4, 0, 0⟩ : SendCounters).credit 6 4 6).2 = false ∧
     (shown.itemToTarget 5 (creditFor 4 6)).port.transfer = some 4 ∧
     (shown.itemToTarget 5 (creditFor 4 6)).exch.targets.map TargetRec.starvation = [none] ∧
     (shown.itemToTarget 5 (creditFor 0 4)).exch.targets.map TargetRec.starvation = [some 5] ∧
     (s.itemToTarget 5 (creditFor 4 6)).port.watchdog = some 0) ∧
    (moving (.serving .data) true readTarget).port.transfer ≠ none ∧
    (withTargets (.serving .closing) [waitingRead]).port.state ≠ .serving .data := by decide

theorem witness_LineActivity : linked.configured = true ∧ linked.line.tx = none ∧ linked.member.link = .member ∧ base.member.link = .offline ∧
    ([] : List Byte).length < 12 ∧ passFrame.fits ∧ ({ passFrame with sender := 2 } : Frame).sender = linked.own ∧
    ({ linked with line := ⟨false, some ⟨.ownTurn, []⟩⟩ } : State).line.tx ≠ none :=
  ⟨by decide, by decide, by decide, by decide, by decide, trivial, by decide, by decide⟩

/-- A frame of station 7, which is absent. -/
def newcomer : Frame := { passFrame with sender := 7 }

theorem witness_IntactFrameAtAMember : linked.configured = true ∧ linked.line.tx = none ∧ linked.member.link = .member ∧ passFrame.fits ∧
    passFrame.sender ≠ linked.own ∧ passFrame.kind ≠ .join ∧ passFrame.kind ≠ .leave ∧ passFrame.last = true ∧
    linked.member.roster[passFrame.sender].present = true ∧ linked.member.roster[newcomer.sender].present = false ∧
    linked.nextAfter passFrame.sender = none ∧ linked.nextAfter 2 = some 5 ∧ linked.nextAfter 1 = some linked.own :=
  ⟨by decide, by decide, by decide, trivial, by decide, by decide, by decide, by decide, by decide, by decide, by decide, by decide, by decide⟩

/-- A frame heard in LEAVING, from a present and from an absent station, and the turns that follow. -/
theorem witness_IntactFrameAtALeavingStation : (inLink .leaving).configured = true ∧ (inLink .leaving).line.tx = none ∧
    (inLink .leaving).member.link = .leaving ∧ passFrame.fits ∧ ({ passFrame with kind := .control, payload := .items [closeItem] } : Frame).fits ∧
    passFrame.last = true ∧ (inLink .leaving).member.roster[newcomer.sender].present = false ∧ (inLink .leaving).nextAfter 5 = none ∧
    (inLink .leaving).nextAfter 3 = some 5 ∧ (inLink .leaving).nextAfter 1 = some (inLink .leaving).own ∧
    ∀ n : Station, (0x0022 : BitVec 16).getLsbD n.val =
      ((((inLink .leaving).member.roster.set 1 ⟨true, 0, true⟩)[n]).present && decide (n ≠ (inLink .leaving).own)) :=
  ⟨by decide, by decide, by decide, trivial, ⟨by decide, by decide, fun _ h => List.mem_singleton.mp h ▸ trivial⟩, by decide, by decide,
    by decide, by decide, by decide, by decide⟩

/-- Frames of which the header alone is taken: reserved kinds, item counts of 0 and 17, a length that is not called for; and a frame with
an item of a reserved kind beside one that is taken. -/
theorem witness_FramesTakenByTheirHeader :
    (∀ b ∈ ([0x05, 0x65, 0xF5] : List Byte), b.toNat / 16 = 0 ∨ 5 < b.toNat / 16) ∧
    (∀ c ∈ ([0x00, 0x11, 0x01] : List Byte), c.toNat = 0 ∨ 16 < c.toNat ∨ ([] : List Byte).length ≠ 12 * c.toNat) ∧
    (0x45 : Byte).toNat / 16 = 4 ∧ (0x55 : Byte).toNat / 16 = 5 ∧ ([] : List Byte).length ≠ 512 ∧
    closeItem.body.fits ∧ (([0x75, 0x20, 0, 0, 0, 0, 0, 0, 0, 0, 0, 0] : List Byte).length = 12 ∧ 6 < (0x75 : Byte).toNat / 16) ∧
    ([.inr [0x75, 0x20, 0, 0, 0, 0, 0, 0, 0, 0, 0, 0], .inl closeItem] : List (Sum Item (List Byte))).filterMap Sum.getLeft? = [closeItem] ∧
    ([.inr [0x75, 0x20, 0, 0, 0, 0, 0, 0, 0, 0, 0, 0]] : List (Sum Item (List Byte))).filterMap Sum.getLeft? = [] :=
  ⟨by decide, by decide, by decide, by decide, by decide, trivial, by decide, by decide, by decide⟩

theorem witness_JoinAndLeaveAtAMember : (atPort (.starting 1)).configured = true ∧ ({ passFrame with kind := .join } : Frame).fits ∧
    (∀ r ∈ (atPort (.starting 1)).exch.inits, r.peer ≠ 5) ∧ (∀ r ∈ (atPort (.starting 1)).exch.targets, ∀ i, r.id = some i → i.peer ≠ 5) ∧
    linked.host.requests = [] ∧ (atPort (.starting 1)).port.state ≠ .idle ∧
    ({ linked.member with holder := none } : Membership).holder = none ∧ ({ passFrame with kind := .leave, last := false } : Frame).fits :=
  ⟨by decide, trivial, by decide, fun r hr => absurd hr List.not_mem_nil, by decide, by decide, by decide, trivial⟩

/-- The holder after a JOIN or a LEAVE with the last-in-turn flag: OPEN, another station, the own station. -/
theorem witness_JoinAndLeaveAtAMember_last : linked.member.holder ≠ none ∧ passFrame.last = true ∧
    linked.member.roster[passFrame.sender].present = true ∧ linked.member.roster[newcomer.sender].present = false ∧
    ({ newcomer with kind := .join } : Frame).fits ∧ ({ passFrame with kind := .leave } : Frame).fits ∧
    linked.nextAfter 5 = none ∧ linked.nextAfter 3 = some 5 ∧ linked.nextAfter 1 = some linked.own :=
  ⟨by decide, by decide, by decide, by decide, trivial, trivial, by decide, by decide, by decide⟩

/-- A MEMBER and a LEAVING station with an exchange with station 5, a request that waits and the port IDLE. -/
def meeting (k : LinkState) (h : Option Station) : State := { withInits [readRec] with
  host := { linked.host with requests := [⟨5, .sync, 0, 0, 0, 9⟩] }
  member := { (inLink k).member with holder := h } }

theorem witness_JoinAndLeaveOfAnyStation : (meeting .member none).configured = true ∧ (meeting .member none).line.tx = none ∧
    (meeting .leaving none).member.link = .leaving ∧ (meeting .member none).port.state = .idle ∧ (meeting .member none).host.requests ≠ [] ∧
    ({ passFrame with kind := .join } : Frame).fits ∧ ({ newcomer with kind := .leave } : Frame).fits ∧ passFrame.sender ≠ linked.own ∧
    (meeting .member none).member.roster[passFrame.sender].present = true ∧
    (meeting .member none).member.roster[newcomer.sender].present = false ∧
    ((meeting .member none).forgetPeer 5).grant.exch.inits.length < (meeting .member none).exch.inits.length ∧
    ((meeting .member (some 5)).forgetPeer 5).nextAfter 5 = none ∧ (meeting .member (some 5)).nextAfter 3 = some 5 ∧
    (meeting .member (some 5)).nextAfter 1 = some linked.own :=
  ⟨by decide, by decide, by decide, by decide, by decide, trivial, trivial, by decide, by decide, by decide, by decide, by decide,
    by decide, by decide⟩

theorem witness_IntactFrameOffTheLink : base.configured = true ∧ base.line.tx = none ∧ base.member.link = .offline ∧
    (inLink .listening).member.link = .listening ∧ (inLink .joining).member.link = .joining ∧
    ({ passFrame with last := false, roster := 0x0020 } : Frame).roster.getLsbD 2 = false ∧
    ({ passFrame with last := false } : Frame).roster.getLsbD 2 = true ∧ ({ passFrame with last := false } : Frame).fits ∧
    base.host.requests = [] :=
  ⟨by decide, by decide, by decide, by decide, by decide, by decide, by decide, trivial, by decide⟩

theorem witness_IntactFrameOffTheLink_last : passFrame.last = true ∧ passFrame.roster.getLsbD 2 = true ∧ passFrame.payload = .none ∧
    passFrame.kind ≠ .leave ∧ passFrame.kind ≠ .join ∧ (inLink .listening).member.holder ≠ none ∧
    (let s : State := { inLink .joining with member := { (inLink .joining).member with view := 0x0060, openTurns := 4 } }
     s.nextAfter 5 = some 6 ∧ s.nextAfter 6 = none ∧ s.member.openTurns + 1 = s.own.val % 4 + 3) ∧
    (inLink .joining).member.openTurns + 1 ≠ (inLink .joining).own.val % 4 + 3 ∧
    ({ inLink .listening with member := { (inLink .listening).member with holder := none } } : State).member.holder = none := by decide

/-- A confirming frame with items, one with a LEAVE, and requests that wait for the entry to MEMBER. -/
theorem witness_ConfirmingFrameOfAnyKind :
    (let s : State := { inLink .joining with host := (withRequests [syncReq]).host }
     s.configured = true ∧ s.line.tx = none ∧ s.member.link = .joining ∧ s.host.requests ≠ [] ∧ passFrame.sender ≠ s.own ∧
     passFrame.roster.getLsbD s.own.val = true) ∧
    ({ passFrame with kind := .control, payload := .items [closeItem] } : Frame).fits ∧ ({ passFrame with kind := .leave } : Frame).fits ∧
    FrameKind.leave ≠ .join :=
  ⟨by decide, ⟨by decide, by decide, fun _ h => List.mem_singleton.mp h ▸ trivial⟩, trivial, by decide⟩

/-- The station as MEMBER with its peer at a number of misses, the activity mark as given. -/
def silent (misses : Nat) (mark : Bool) (h : Option Station) : State := { atPort (.starting 1) with member := { linked.member with
  activity := mark, holder := h
  roster := ((Vector.replicate 16 RosterEntry.absent).set 2 ⟨true, 0, true⟩).set 1 ⟨true, misses, true⟩ |>.set 5 ⟨true, 0, true⟩ } }

theorem witness_SilenceEvents : base.silenceTimerRuns = false ∧ (silent 1 false (some 5)).silenceTimerRuns = true ∧
    (let s : State := { silent 1 false (some 1) with member := { (silent 1 false (some 1)).member with
       roster := (silent 1 false (some 1)).member.roster.set 2 RosterEntry.absent } }
     s.nextAfter 1 = some 5 ∧ 5 ≠ s.own ∧ s.member.roster[(1 : Station)].present = true ∧ s.member.roster[(1 : Station)].misses < 2 ∧
     s.member.activity = false) ∧
    (silent 2 false (some 1)).member.roster[(1 : Station)].misses = 2 ∧ (silent 2 false (some 1)).host.requests = [] ∧
    (silent 2 false (some 1)).port.state ≠ .idle ∧ (silent 0 true (some 5)).nextAfter 5 = none ∧
    (silent 0 true none).lowest = some 1 ∧ 1 ≠ (silent 0 true none).own ∧
    (let s : State := { inLink .listening with member := { (inLink .listening).member with holder := none } }
     s.lowest = none ∧ s.member.holder = none) := by decide

theorem witness_SilenceOfAnyTurn :
    (let s := meeting .member (some 5)
     s.line.tx = none ∧ s.line.receiving = false ∧ s.member.roster[(5 : Station)].present = true ∧ s.member.roster[(5 : Station)].misses < 2 ∧
     s.nextAfter 5 = none ∧ 5 ≠ s.own) ∧
    (let s : State := { meeting .leaving (some 1) with member := { (silent 2 false (some 1)).member with link := .leaving } }
     s.member.link = .leaving ∧ s.member.activity = false ∧ 2 ≤ s.member.roster[(1 : Station)].misses ∧ s.port.state = .idle ∧
     (s.forgetPeer 1).nextAfter 1 = some s.own) ∧
    (meeting .member (some 3)).nextAfter 3 = some 5 ∧ (meeting .member none).lowest = some (meeting .member none).own ∧
    (silent 0 true none).lowest = some 1 ∧
    (let s : State := { meeting .member none with member := { linked.member with holder := none, roster := Vector.replicate 16 RosterEntry.absent } }
     s.lowest = none) ∧
    (inLink .listening).nextAfter 2 = none ∧
    (let s : State := { inLink .joining with member := { (inLink .joining).member with view := 0x0060, holder := none } }
     s.lowest = some 5 ∧ s.nextAfter 5 = some 6) := by decide

theorem witness_PeerRemoval : (withInits [readRec]).host.outcomes.length + (withInits [readRec]).exch.inits.length ≤ 16 ∧
    (withInits [readRec]).exch.inits.filter (fun x => decide (x.peer = 5) && x.live) = [readRec] ∧
    (withInits [readRec]).initRec readRec.tag = some readRec ∧ (withInits [readRec]).exch.targets = [] ∧
    (withTargets .idle [queuedTarget .sync]).exch.inits = [] ∧ (queuedTarget .sync).id = some askId ∧ askId.peer = 5 ∧
    ∀ p ∈ linked.sched.items ++ linked.sched.loopItems, p.origin ≠ .record := by decide

/-- The station in LISTENING or JOINING, station 5 in its view and holding the turn. -/
def hearing (k : LinkState) (turns : Nat) : State := { linked with member := { linked.member with
  link := k, view := 0x0020, openTurns := turns } }

theorem witness_JoiningAndFounding : (hearing .listening 0).member.holder = some 5 ∧ (hearing .listening 0).nextAfter 5 = none ∧
    (hearing .listening 0).line.tx = none ∧ (hearing .listening 0).line.receiving = false ∧
    (hearing .joining 4).member.link = .joining ∧ 4 + 1 = (hearing .joining 4).own.val % 4 + 3 ∧ 3 + 1 ≠ (hearing .joining 3).own.val % 4 + 3 ∧
    linked.member.link ≠ .joining ∧ linked.member.link ≠ .listening := by decide

theorem witness_OpenTurnOfAJoiner : ∀ k ∈ [3, 4], (hearing .joining k).member.link = .joining ∧ (hearing .joining k).line.tx = none ∧
    (hearing .joining k).line.receiving = false ∧ (hearing .joining k).member.holder = some 5 ∧ (hearing .joining k).nextAfter 5 = none ∧
    (k + 1 = (hearing .joining k).own.val % 4 + 3 ↔ k = 4) := by decide

/-- The station at the end of a transmission. -/
def sending (k : LinkState) (t : TxKind) : State := { inLink k with
  line := ⟨false, some ⟨t, []⟩⟩, member := { (inLink k).member with holder := some 2 } }

theorem witness_EndOfTransmission : linked.line.tx = none ∧ (sending .member .ownTurn).line.tx = some ⟨.ownTurn, []⟩ ∧
    (sending .member .ownTurn).nextAfter (sending .member .ownTurn).own = some 5 ∧
    (sending .member .ownTurn).member.holder = some (sending .member .ownTurn).own ∧
    (let s : State := { sending .member .ownTurn with member := { (sending .member .ownTurn).member with
       roster := (Vector.replicate 16 RosterEntry.absent).set 2 ⟨true, 0, true⟩ } }
     s.nextAfter s.own = none ∧ s.member.holder = some s.own) ∧
    (sending .joining .join).member.link = .joining ∧ (sending .founding .founding).host.requests = [] ∧
    (sending .leaving .leave).line.tx = some ⟨.leave, []⟩ := by decide

theorem witness_EntryToMemberTakesRequests :
    (let s : State := { sending .founding .founding with host := (withRequests [syncReq]).host }
     s.configured = true ∧ s.line.tx = some ⟨.founding, []⟩ ∧ s.host.requests ≠ []) ∧
    (sending .member .join).line.tx = some ⟨.join, []⟩ ∧ (sending .member .join).member.link ≠ .joining := by decide

theorem witness_OwnTurnFrames : (∀ n : Station, (0x0024 : BitVec 16).getLsbD n.val = linked.member.roster[n].present) ∧
    linked.exch.inits = [] ∧ linked.exch.targets = [] ∧ linked.sched.loopItems = [] ∧ (withItems fullQueue).sched.items ≠ [] ∧
    (∀ p ∈ (withItems fullQueue).sched.items, p.item.dest ≠ linked.own ∧ p.origin ≠ .record) ∧
    (∀ n : Station, (0x0020 : BitVec 16).getLsbD n.val = ((inLink .leaving).member.roster[n].present && decide (n ≠ (inLink .leaving).own))) ∧
    (inLink .leaving).member.link = .leaving := by decide

theorem witness_OffersOfAnOwnTurn : (withInits [syncRec]).initRec syncRec.tag = some syncRec ∧ (withInits [syncRec]).recordsLimited ∧
    (∀ k ∈ [1, 2], k + 1 < 3 ∨ 3 ≤ k + 1) ∧ 2 < 3 ∧ (3 : Nat) ≤ 3 ∧ linked.host.requests = [] ∧ linked.host.outcomes.length < 16 ∧
    (∀ c ∈ [(⟨0, 2, 3, 2, 0⟩ : SendCounters), ⟨0, 2, 3, 3, 6⟩, ⟨0, 2, 3, 3, 7⟩],
      (withInits [{ writeRec with flow := .sender c }]).headsChannel { writeRec with flow := .sender c } = true ∧ c.base < c.next ∧
      (c.stall < 3 ∨ c.stall = 3 ∧ (c.rewinds < 7 ∨ 7 ≤ c.rewinds))) ∧ writeRec.peer ≠ linked.own ∧
    readRec.flow.expected < min (readRec.flow.consumed + min 4 readRec.count) readRec.count ∧
    ¬ 3 < min (({ readRec with flow := .receiver ⟨3, 3⟩ } : InitRec).flow.consumed + min 4 readRec.count) readRec.count :=
  ⟨by decide, ⟨by decide, by decide, by decide, by decide, by decide⟩, by decide, by decide, by decide, by decide, by decide, by decide,
    by decide, by decide, by decide⟩

theorem witness_TargetOffersOfAnOwnTurn :
    (∀ r ∈ [{ readTarget with state := .settling false 2 }, { readTarget with state := .settling true 0 },
        { readTarget with state := .settling false 3 }, { writeTarget with priming := some 30 }, { writeTarget with priming := some 27 },
        { writeTarget with priming := some 31 }, { readTarget with starvation := some 62 }, { readTarget with starvation := some 63 },
        { readTarget with state := .finishing, flow := .sender ⟨0, 2, 3, 3, 7⟩ }, queuedTarget .sync],
      (withTargets (.serving .data) [r]).targetRec askId.peer askId.tag = some r ∧ r.id = some askId ∧ r.wanted = []) ∧
    (withTargets (.serving .data) [{ writeTarget with priming := some 30 }]).recordsLimited ∧ (30 + 1) % 4 ≠ 0 ∧ (27 + 1) % 4 = 0 ∧
    (withTargets (.serving .data) [{ writeTarget with priming := some 31 }]).activeRec = some { writeTarget with priming := some 31 } ∧
    writeTarget.flow.expected < min (writeTarget.flow.consumed + min 4 writeTarget.count) writeTarget.count ∧ askId.peer ≠ linked.own :=
  ⟨by decide, ⟨by decide, by decide, by decide, by decide, by decide⟩, by decide, by decide, by decide, by decide, by decide⟩

theorem witness_CompositionOfATurn : linked.member.link = .member ∧ linked.sched.loopItems = [] ∧
    (∃ n l r, creditItem.body = .credit .target n l ∧ (withInits [r]).initRec creditItem.tag = some r) ∧
    ({ linked with sched := { linked.sched with loopItems := fullQueue } } : State).sched.loopItems ≠ [] :=
  ⟨by decide, by decide, ⟨0, 0, readRec, by decide, by decide⟩, by decide⟩

theorem witness_ModuleGrant : (atPort .failed).port.state ≠ .idle ∧ (scripted .idle .posted).port.state = .idle ∧
    (scripted .idle .posted).port.result = .posted ∧ (scripted .idle .posted).port.script = some [.write 5 4, .waitReady, .read 2] ∧
    linked.port.result ≠ .posted ∧ (∀ r ∈ linked.exch.targets, r.state ≠ .queued) ∧
    (∀ o ∈ [Op.read, .write, .sync], (withTargets .idle [queuedTarget o]).exch.targets = [] ++ queuedTarget o :: [] ∧
      (queuedTarget o).state = .queued ∧ (queuedTarget o).id = some askId ∧ min 4 (queuedTarget o).count ≤ linked.buf.servFree.length) ∧
    ({ linked.buf with servFree := [8, 9] } : Buffers).servFree.length < min 4 (queuedTarget .read).count := by decide

theorem witness_SlotAccessesOfSetupAndScripts : linked.port.access = none ∧
    (∀ p ∈ [PortState.starting 1, .describing .command, .describing .readLo, .describing (.readHi 5), .serving (.setup 3), .serving (.setup 4),
      .maintaining 0], (accessing p).port.access.isSome = true ∧ (accessing p).port.state = p ∧ (accessing p).port.attention = none) ∧
    (withTargets (.serving (.setup 4)) [readTarget]).activeRec = some readTarget ∧
    (withTargets (.serving (.setup 0)) [syncTarget]).activeRec = some syncTarget ∧ linked.port.xfer = false ∧
    ({ withTargets (.serving .data) [readTarget] with port := { (withTargets (.serving .data) [readTarget]).port with
      access := none, transfer := none, watchdog := some 0, xfer := true } } : State).transferMayBegin = true ∧
    ([.write 5 4, .waitReady, .read 2] : List ScriptStep)[1]? = some .waitReady ∧
    ([.write 5 4, .waitReady, .read 2] : List ScriptStep)[3]? = none ∧ (1 : Word).getLsbD 0 = true ∧ (3 : Word).getLsbD 1 = true := by decide

theorem witness_SlotAccessesBeyondSetup : (accessing (.describing .ended)).port.state = .describing .ended ∧
    ((1 : Word).getLsbD 0 = true ∧ (1 : Word).getLsbD 3 = false) ∧ ¬ ((9 : Word).getLsbD 0 = true ∧ (9 : Word).getLsbD 3 = false) ∧
    (withTargets (.serving (.setup 4)) [readTarget]).exch.targets = [readTarget] ∧ readTarget.state = .active ∧ readTarget.id = some askId ∧
    (∀ p ∈ [PortState.serving .stopping, .serving (.runOut 0 3)], (accessing p).port.state = p ∧ (accessing p).port.access.isSome = true ∧
      (accessing p).port.transfer = none ∧ (accessing p).port.attention = none) ∧ linked.exch.targets = [] := by decide

theorem witness_SlotAccessesBeyondSetup_transfers :
    (let r : TargetRec := { readTarget with ring := some [⟨8, .full 0⟩, ⟨9, .empty⟩, ⟨10, .empty⟩] }
     let s := withTargets (.serving .data) [r]
     (s.withPort { s.port with xfer := true }).transferMayBegin = false) ∧
    (let s := withTargets (.serving (.runOut 0 3)) [{ readTarget with state := .settling true 0 }]
     (s.withPort { s.port with xfer := true }).transferMayBegin = true ∧ s.transferMayBegin = false) := by decide

theorem witness_SetupAttentionOverAnyTable :
    let other : TargetRec := { queuedTarget .write with id := some ⟨5, 2, 4⟩ }
    let s := withTargets (.serving (.setup 2)) (other :: readTarget :: [])
    s.exch.targets = [other] ++ readTarget :: [] ∧ readTarget.state = .active ∧ readTarget.id = some askId ∧
    (∀ x ∈ [other] ++ [], x.state ≠ .active ∧ x.keyed askId.peer askId.tag = false) ∧
    (∀ a : Word, a = 9 ∨ a = 1 → ({ s.port with access := some ⟨6, none⟩, attention := some (a, 0) } : Port).access.isSome = true) ∧
    ¬ ((9 : Word).getLsbD 0 = true ∧ (9 : Word).getLsbD 3 = false) := ⟨by decide, by decide, by decide, by decide, fun _ _ => rfl, by decide⟩

theorem witness_BlockTransfers : linked.port.xfer = false ∧ (withTargets (.serving .data) [readTarget]).port.state = .serving .data ∧
    (withTargets (.serving .data) [readTarget]).activeRec = some readTarget ∧ (∀ x ∈ [readTarget], x.state = .active → x = readTarget) ∧
    readTarget.moved < readTarget.count ∧ readTarget.moved < readTarget.flow.base + min 4 readTarget.count ∧
    ([⟨8, .empty⟩, ⟨9, .empty⟩, ⟨10, .empty⟩] : Ring)[0 % 3]? = some ⟨8, .empty⟩ ∧
    (let r := { writeTarget with ring := some [⟨8, .full 0⟩, ⟨9, .empty⟩, ⟨10, .empty⟩] }
     (withTargets (.serving .data) [r]).activeRec = some r ∧ r.flow.consumed < r.count ∧
     ([⟨8, .full 0⟩, ⟨9, .empty⟩, ⟨10, .empty⟩] : Ring)[0 % 3]? = some ⟨8, .full 0⟩) ∧
    (∀ w ∈ [0, 254], w + 1 < 256 ∧ ([⟨8, .filling 0 w⟩] : Ring)[0 % 1]? = some ⟨8, .filling 0 w⟩ ∧
      ([⟨8, .draining 0 w⟩] : Ring)[0 % 1]? = some ⟨8, .draining 0 w⟩) ∧
    (let r : TargetRec := { readTarget with count := 1, ring := some [⟨8, .filling 0 255⟩] }
     r.moved + 1 = r.count ∧ r.flow = .sender ⟨0, 0, 3, 0, 0⟩) := by decide

/-- XFER is shown in the data phase and nothing is in flight, but the slot is not ready: nothing begins. In a run-out a SYNC has no ring. -/
theorem witness_BlockTransfers_not_ready :
    (∀ r ∈ [{ readTarget with moved := 3 },
        { readTarget with count := 6, moved := 4, ring := some [⟨8, .empty⟩, ⟨9, .full 1⟩, ⟨10, .full 2⟩, ⟨11, .full 3⟩] },
        { readTarget with ring := some [⟨8, .full 0⟩, ⟨9, .empty⟩, ⟨10, .empty⟩] }, { writeTarget with flow := .receiver ⟨3, 3⟩ }, writeTarget],
      let s := withTargets (.serving .data) [r]
      let shown := s.withPort { s.port with xfer := true }
      shown.port.state = .serving .data ∧ shown.port.xfer = true ∧ shown.port.transfer = none ∧ shown.port.access = none ∧
      shown.activeRec = some r ∧ r.ring ≠ none ∧ (∀ x ∈ shown.exch.targets, x.state = .active → x = r) ∧
      (r.op = .read ∧ (r.count ≤ r.moved ∨ r.flow.base + min 4 r.count ≤ r.moved ∨ r.ring ≠ readTarget.ring) ∨
        r.op = .write ∧ (r.count ≤ r.flow.consumed ∨ r.flow.consumed = 0)) ∧
      after .blockTransferBegin shown = shown) ∧
    (let s := withTargets (.serving (.runOut 0 0)) [{ syncTarget with state := .settling true 0 }]
     (s.withPort { s.port with xfer := true }).transferMayBegin = false) := by decide

theorem witness_BlockTransfersGoOn :
    (∀ shown ∈ [true, false], ∀ n ∈ [2, 1],
      let r : TargetRec := { readTarget with count := n, ring := some [⟨8, .filling 0 255⟩, ⟨9, .empty⟩] }
      let w : TargetRec := { writeTarget with count := n, ring := some [⟨8, .draining 0 255⟩, ⟨9, .empty⟩] }
      (moving (.serving .data) shown r).activeRec = some r ∧ (moving (.serving .data) shown w).activeRec = some w ∧
      (moving (.serving .data) shown w).port.transfer = some 0 ∧ w.flow = .receiver ⟨0, 0⟩ ∧ r.flow = .sender ⟨0, 0, 3, 0, 0⟩ ∧
      (r.moved + 1 < r.count ∨ r.moved + 1 = r.count)) ∧
    (let r : TargetRec := { readTarget with moved := 1, ring := some [⟨8, .full 0⟩, ⟨9, .empty⟩, ⟨10, .empty⟩] }
     let s := (withTargets (.serving .data) [r])
     (s.withPort { s.port with xfer := true }).transferMayBegin = true ∧ s.transferMayBegin = false) := by decide

theorem witness_RunOutTransfers :
    ∀ r ∈ [{ readTarget with state := .settling true 0, ring := some [⟨8, .filling 0 255⟩, ⟨9, .empty⟩] },
        { readTarget with id := none, state := .detached, ring := some [⟨8, .filling 0 254⟩, ⟨9, .empty⟩] }],
      let s := moving (.serving (.runOut 0 2)) true r
      r ∈ s.exch.targets ∧ s.port.state = .serving (.runOut 0 2) ∧ s.port.transfer = some 0 ∧ s.port.access.isSome = true ∧
      s.port.xfer = true ∧ 0 + 1 < 2 ∧ ({ s.port with transfer := none, access := none } : Port).transfer = none := by decide

theorem witness_XferShown : (atPort (.resetting true)).port.state = .resetting true ∧ (atPort .idle).port.state = .idle ∧
    (atPort (.maintaining 0)).port.state = .maintaining 0 ∧ (withTargets (.serving .data) [readTarget]).port.state = .serving .data ∧
    ((withTargets (.serving .data) [readTarget]).withPort { (withTargets (.serving .data) [readTarget]).port with xfer := true }).transferMayBegin
      = true := by decide

/-- A shown XFER that waits on the ring, and one that is withdrawn. -/
theorem witness_XferShown_waits :
    (let r : TargetRec := { readTarget with ring := some [⟨8, .full 0⟩, ⟨9, .empty⟩, ⟨10, .empty⟩] }
     let s := withTargets (.serving .data) [r]
     s.port.transfer = none ∧ (s.withPort { s.port with xfer := true }).transferMayBegin = false ∧
     (s.withPort { s.port with xfer := false }).transferMayBegin = false) ∧
    (moving (.serving .data) true readTarget).port.transfer ≠ none ∧
    (let s := withTargets (.serving (.runOut 3 3)) [{ readTarget with state := .settling true 0 }]
     (s.withPort { s.port with xfer := true }).transferMayBegin = false) := by decide

theorem witness_AttentionRises : (atPort .failed).port.state = .failed ∧ linked.port.state = .idle ∧ linked.activeRec = none ∧
    (atPort (.describing .await)).port.state = .describing .await ∧ (atPort (.maintaining 0)).port.state = .maintaining 0 ∧
    (1 : Word).getLsbD 0 = true ∧ (1 : Word).getLsbD 3 = false ∧ (9 : Word).getLsbD 3 = true ∧ (0 : Word).getLsbD 0 = false ∧
    (∀ p ∈ [PortState.serving .priming, .serving .data, .serving .closing], (withTargets p [readTarget]).exch.targets = [readTarget] ∧
      (withTargets p [readTarget]).port.state = p ∧ (withTargets p [readTarget]).port.result ≠ .posted) ∧ readTarget.state = .active ∧
    readTarget.id = some askId ∧ readTarget.op = .read ∧ readTarget.flow.base < readTarget.count ∧ writeTarget.op ≠ .read := by decide

theorem witness_AttentionBeyondService : (∀ p ∈ [PortState.describing .command, .describing .ended, .describing .readLo,
      .describing (.readHi 5), .serving .stopping, .serving (.runOut 1 3)], (accessing p).port.state = p) ∧
    (9 : Word).getLsbD 3 = true ∧ (1 : Word).getLsbD 3 = false ∧
    (accessing (.serving (.runOut 1 3))).port.access ≠ none ∧ (accessing (.serving (.runOut 1 3))).port.transfer = none ∧
    (atPort (.serving (.runOut 1 3))).port.access = none := by decide

/-- The head that waits behind a record in service, and a posted script, are granted at the event of the attention. -/
theorem witness_AttentionsOverAnyTable :
    let next : TargetRec := { queuedTarget .sync with id := some ⟨5, 2, 4⟩ }
    let s (p : PortState) : State := withTargets p (readTarget :: next :: [])
    (∀ x ∈ [] ++ [next], x.state ≠ .active ∧ x.keyed askId.peer askId.tag = false) ∧
    (s (.serving .data)).exch.targets = [] ++ readTarget :: [next] ∧
    (after (.attnRise 1 0) (s (.serving .data))).port.state = .serving (.setup 0) ∧
    (after (.attnRise 9 0) { s (.serving .closing) with port := (scripted (.serving .closing) .posted).port }).port.state = .maintaining 0 ∧
    (after (.attnRise 1 0) (s (.serving .priming))) = s (.serving .priming) := by decide

theorem witness_ModuleTimers : linked.port.watchdog = none ∧
    (∀ p ∈ [PortState.describing .await, .maintaining 0, .serving (.setup 0), .serving .data, .serving .closing],
      (withTargets p [readTarget]).exch.targets = [readTarget] ∧ (withTargets p [readTarget]).port.state = p ∧
      ({ (atPort p).port with watchdog := some 2000 } : Port).watchdog = some 2000) ∧ readTarget.state = .active ∧
    readTarget.id = some askId ∧ (atPort (.resetting false)).port.state ≠ .resetting true ∧ linked.exch.targets = [] ∧
    (let r : TargetRec := { readTarget with id := none, state := .detached }
     (withTargets (.resetting true) [r]).exch.targets = [r] ∧ r.state = .detached) ∧
    (let r : TargetRec := { readTarget with state := .settling true 0 }
     (withTargets (.resetting true) [r]).exch.targets = [r] ∧ r.state = .settling true 0) ∧
    (atPort (.starting 7999)).port.state = .starting 7999 := by decide

theorem witness_WatchdogBeyondService : ∀ p ∈ [PortState.serving .stopping, .serving (.runOut 1 3)],
    (let s := withTargets p [{ readTarget with state := .settling true 0 }]
     s.port.state = p ∧ ({ s.port with watchdog := some 5 } : Port).watchdog = some 5 ∧ ∀ r ∈ s.exch.targets, r.state ≠ .active) := by decide

/-- A release and a watchdog expiry with the QUEUED head of the worked example 7.6 beside the record that ends. -/
theorem witness_TimersOverAnyTable :
    let next : TargetRec := { queuedTarget .sync with id := some ⟨5, 2, 4⟩ }
    (∀ x ∈ [] ++ [next], x.state ≠ .active ∧ x.keyed askId.peer askId.tag = false) ∧
    (let s := after .mrstRelease (withTargets (.resetting true) ({ readTarget with state := .settling true 0 } :: next :: []))
     s.port.state = .starting 0 ∧ s.exch.targets.map TargetRec.ring = [none, none] ∧ s.mrst = false) ∧
    (∀ p ∈ [PortState.serving (.setup 2), .serving .data, .serving .closing],
      let s := withTargets p (readTarget :: next :: [])
      s.exch.targets = [] ++ readTarget :: [next] ∧
      (after .watchdogExpiry (s.withPort { s.port with watchdog := some 2000 })).port.state = .resetting true) ∧
    (atPort .absent).mrst = true ∧ (atPort .failed).mrst = true ∧ (atPort (.starting 0)).mrst = false := by decide

theorem witness_FramesReadBack : passFrame.fits ∧ (⟨.control, 5, true, true, 0, .items [creditItem]⟩ : Frame).fits ∧
    (⟨.data, 5, true, true, 0, .data (blockOf 255)⟩ : Frame).fits ∧ ([0, 0, 0, 0] : List Byte).length = 4 := by
  refine ⟨trivial, ⟨by decide, by decide, fun i hi => ?_⟩, ⟨by decide, List.length_replicate⟩, by decide⟩
  rw [List.mem_singleton] at hi
  subst hi
  exact ⟨by decide, by decide⟩

theorem witness_StepsKeep : (∃ u, step linked = .next u) ∧ linked.ramCanonical ∧ linked.queuesBounded :=
  ⟨⟨_, rfl⟩, rfl, by decide, by decide, by decide⟩

end Sys2Proof.Tests
end

