-- ==== Sys2Proof/Proofs/RecordsKept.lean ====
section
/-! SUPPORT. The invariant of the records (O59), from what a step can do. -/

namespace Sys2Proof.Machine

/-- Settles O59: the areas and the link state are properties of the tracked part that every change and the hardware reset keep. -/
theorem stepsKeepTheRecords : Obligations.StepsKeepTheRecords := by
  intro s u hu
  refine ⟨fun h => ?_, fun h => ?_⟩
  · rw [State.areasSafe_iff] at h ⊢
    exact step_keeps Change.areasSafe (fun _ => Track.reset_areasSafe _) (fun _ h => h) h hu
  · rw [State.linkSound_iff] at h ⊢
    exact step_keeps Change.linkSound (fun _ => Track.reset_linkSound _) (fun _ h => h) h hu

end Sys2Proof.Machine
end

