-- ==== Sys2Proof/Proofs/Offers.lean ====
section
/-! SUPPORT. The offer of an item (O31): merged, placed or refused, and the offers of records. -/

namespace Sys2Proof.Machine

/-! ### The offer of an item (R160) -/

theorem ItemBody.kind_credit_iff (b : ItemBody) : b.kind = .credit ↔ ∃ d n l, b = .credit d n l := by
  cases b <;> simp [ItemBody.kind]

theorem State.creditWaits_iff (s : State) (i : Item) : s.creditWaits i = true ↔ ∃ p ∈ s.sched.items,
    p.item.init = i.init ∧ p.item.tag = i.tag ∧ p.item.serial = i.serial ∧ p.item.body.kind = .credit := by
  simp only [State.creditWaits, Item.sameExchange, List.any_eq_true, Bool.and_eq_true, decide_eq_true_eq, and_assoc]

theorem State.offer_merged {s : State} {i : Item} (o : Origin) (h : i.body.kind = .credit ∧ s.creditWaits i = true) :
    s.offer i o = s ∧ s.takesItem i = true := by
  refine ⟨?_, by simp [State.takesItem, h]⟩
  rw [State.offer, State.itemsAfter, if_pos h]

theorem State.offer_appended {s : State} {i : Item} (o : Origin) (h : ¬ (i.body.kind = .credit ∧ s.creditWaits i = true))
    (hl : s.sched.items.length < 32) :
    s.offer i o = { s with sched := { s.sched with items := s.sched.items ++ [⟨i, o⟩] } } ∧ s.takesItem i = true := by
  refine ⟨?_, by simp [State.takesItem, Limit.items, hl]⟩
  rw [State.offer, State.itemsAfter, if_neg h, if_pos (show _ < Limit.items from hl)]

theorem State.offer_refused {s : State} {i : Item} (o : Origin) (h : ¬ (i.body.kind = .credit ∧ s.creditWaits i = true))
    (hl : 32 ≤ s.sched.items.length) : s.offer i o = s ∧ s.takesItem i = false := by
  refine ⟨?_, by simpa [State.takesItem, Limit.items, Nat.not_lt.mpr hl] using h⟩
  rw [State.offer, State.itemsAfter, if_neg h, if_neg (show ¬ _ < Limit.items from Nat.not_lt.mpr hl)]

/-! ### The offers of records (R12) -/

theorem wantKind_eq (l : List ItemKind) (k : ItemKind) : wantKind l k = if k ∈ l then l else l ++ [k] := by
  simp only [wantKind, List.contains_iff_mem]

theorem State.offerInit_of {s : State} {t : Tag} {r : InitRec} (h : s.initRec t = some r) (k : ItemKind) :
    s.offerInit t k = if s.takesItem (r.item s.own k) then s.offer (r.item s.own k) .record
      else s.mapInit t (fun x => { x with wanted := wantKind x.wanted k }) := by
  rw [State.offerInit, h]

theorem State.offerTarget_of {s : State} {p : Station} {t : Tag} {r : TargetRec} {i : ExchId} (h : s.targetRec p t = some r)
    (hid : r.id = some i) (k : ItemKind) :
    s.offerTarget p t k = if s.takesItem (r.item i k) then s.offer (r.item i k) .record
      else s.mapTarget p t (fun x => { x with wanted := wantKind x.wanted k }) := by
  simp only [State.offerTarget, h, hid]

/-- An item of a record that is no CREDIT is placed, or wanted on a full queue (R12, R160). -/
theorem State.offerInit_uncredited {s : State} {t : Tag} {r : InitRec} (h : s.initRec t = some r) {k : ItemKind}
    (hk : (r.item s.own k).body.kind ≠ .credit) :
    s.offerInit t k = if s.sched.items.length < 32
      then { s with sched := { s.sched with items := s.sched.items ++ [⟨r.item s.own k, .record⟩] } }
      else s.mapInit t (fun x => { x with wanted := wantKind x.wanted k }) := by
  have hmerge : ¬ ((r.item s.own k).body.kind = .credit ∧ s.creditWaits (r.item s.own k) = true) := fun h => hk h.1
  rw [State.offerInit_of h]
  by_cases hl : s.sched.items.length < 32
  · obtain ⟨hplaced, htakes⟩ := State.offer_appended .record hmerge hl
    rw [if_pos htakes, if_pos hl, hplaced]
  · rw [if_neg (by rw [(State.offer_refused .record hmerge (Nat.not_lt.mp hl)).2]; decide), if_neg hl]

theorem State.offerTarget_uncredited {s : State} {p : Station} {t : Tag} {r : TargetRec} {i : ExchId} (h : s.targetRec p t = some r)
    (hid : r.id = some i) {k : ItemKind} (hk : (r.item i k).body.kind ≠ .credit) :
    s.offerTarget p t k = if s.sched.items.length < 32
      then { s with sched := { s.sched with items := s.sched.items ++ [⟨r.item i k, .record⟩] } }
      else s.mapTarget p t (fun x => { x with wanted := wantKind x.wanted k }) := by
  have hmerge : ¬ ((r.item i k).body.kind = .credit ∧ s.creditWaits (r.item i k) = true) := fun h => hk h.1
  rw [State.offerTarget_of h hid]
  by_cases hl : s.sched.items.length < 32
  · obtain ⟨hplaced, htakes⟩ := State.offer_appended .record hmerge hl
    rw [if_pos htakes, if_pos hl, hplaced]
  · rw [if_neg (by rw [(State.offer_refused .record hmerge (Nat.not_lt.mp hl)).2]; decide), if_neg hl]

/-! ### An item that is offered once (R28, R43, R54) -/

theorem ItemBody.kind_reply_iff (b : ItemBody) : b.kind = .reply ↔ ∃ why, b = .reply why := by
  cases b <;> simp [ItemBody.kind]

theorem ItemBody.kind_outcome_iff (b : ItemBody) : b.kind = .outcome ↔ ∃ code done status detail, b = .outcome code done status detail := by
  cases b <;> simp [ItemBody.kind]

theorem State.waits_record_iff (s : State) (i : Item) : s.waits i .record = true ↔ ∃ p ∈ s.sched.items, p.origin = .record ∧
    p.item.init = i.init ∧ p.item.tag = i.tag ∧ p.item.serial = i.serial ∧ p.item.body.kind = i.body.kind := by
  simp only [State.waits, Item.sameExchange, List.any_eq_true, Bool.and_eq_true, decide_eq_true_eq]
  exact exists_congr fun p => by tauto

theorem State.offerTargetOnce_kept {s : State} {p : Station} {t : Tag} {r : TargetRec} {i : ExchId} {k : ItemKind}
    (h : s.targetRec p t = some r) (hid : r.id = some i) (hw : s.waits (r.item i k) .record = true ∨ k ∈ r.wanted) :
    s.offerTargetOnce p t k = s := by
  simp only [State.offerTargetOnce, h, hid]
  exact if_pos (by simpa using hw)

theorem State.offerTargetOnce_offers {s : State} {p : Station} {t : Tag} {r : TargetRec} {i : ExchId} {k : ItemKind}
    (h : s.targetRec p t = some r) (hid : r.id = some i) (hwaits : ¬ s.waits (r.item i k) .record = true) (hwanted : k ∉ r.wanted) :
    s.offerTargetOnce p t k = s.offerTarget p t k := by
  simp only [State.offerTargetOnce, h, hid]
  exact if_neg (by simpa using ⟨by simpa using hwaits, hwanted⟩)

/-- Settles O31: the three ways of an offered item, and the item that becomes wanted where it is not taken. -/
theorem offerOfAnItem : Obligations.OfferOfAnItem := by
  refine ⟨fun s i o => ?_, fun s k => ⟨fun t r hr => ?_, fun p t r i hr hid => ?_⟩⟩
  · simp only [← ItemBody.kind_credit_iff, ← State.creditWaits_iff]
    exact ⟨State.offer_merged o, State.offer_appended o, State.offer_refused o⟩
  · dsimp only
    rw [State.offerInit_of hr]
    simp only [State.mapInit, wantKind_eq]
    refine ⟨?_, ?_, ?_⟩ <;> rintro rfl
    · cases hop : r.op <;> simp +contextual [InitRec.item, hop, opCode]
    · simp +contextual [InitRec.item]
    · simp +contextual [InitRec.item]
  · dsimp only
    rw [State.offerTarget_of hr hid]
    simp only [State.mapTarget, wantKind_eq]
    refine ⟨?_, ?_, fun o => ?_⟩ <;> rintro rfl
    · simp +contextual [TargetRec.item]
    · simp +contextual [TargetRec.item]
    · intro ho
      simp +contextual [TargetRec.item, outcomeBody, ho]

end Sys2Proof.Machine
end

