-- ==== Sys2Proof/Proofs/Tags.lean ====
section
/-! SUPPORT. Tag allocation (O24): what the search for a free tag finds, and what leaves the tag allocated last. -/

namespace Sys2Proof.Machine

/-! ### The search for a free tag (R18) -/

theorem Tag.all_getElem {n : Nat} (h : n < Tag.all.length) : Tag.all[n] = (⟨n, h⟩ : Fin 8) :=
  (by decide : ∀ i : Fin 8, Tag.all[i.val]'i.isLt = i) ⟨n, h⟩

theorem State.freeTag_some_iff (s : State) (t : Tag) : s.freeTag = some t ↔
    ∃ k : Fin 8, t = s.exch.lastTag + 1 + k ∧ s.initRec t = none ∧ ∀ j : Fin 8, j < k → s.initRec (s.exch.lastTag + 1 + j) ≠ none := by
  unfold State.freeTag
  simp only [List.find?_eq_some_iff_getElem, List.getElem_map, List.length_map, Tag.all_getElem, Option.isNone_iff_eq_none]
  constructor
  · rintro ⟨hfree, i, hi, rfl, hbefore⟩
    exact ⟨⟨i, hi⟩, rfl, hfree, fun j hj => Option.isSome_iff_ne_none.mp (by simpa using hbefore j.val hj)⟩
  · rintro ⟨k, rfl, hfree, hbefore⟩
    exact ⟨hfree, k.val, k.isLt, rfl, fun j hj => by
      simpa using Option.isSome_iff_ne_none.mpr (hbefore ⟨j, hj.trans k.isLt⟩ hj)⟩

theorem Tag.mem_all (t : Tag) : t ∈ Tag.all := by revert t; decide

theorem State.freeTag_none_iff (s : State) : s.freeTag = none ↔ ∀ t, s.initRec t ≠ none := by
  simp only [State.freeTag, List.find?_eq_none, List.mem_map, Option.isNone_iff_eq_none]
  constructor
  · exact fun h t => h t ⟨t - (s.exch.lastTag + 1), Tag.mem_all _, add_sub_cancel _ _⟩
  · exact fun h t _ => h t

theorem State.initRec_none_iff (s : State) (t : Tag) : s.initRec t = none ↔ ∀ r ∈ s.exch.inits, r.tag ≠ t := by
  simp only [State.initRec, List.find?_eq_none, decide_eq_true_eq, ne_eq]

/-- With tag 7 allocated last and no record the next tag is 0. -/
theorem State.freeTag_first {s : State} (hi : s.exch.inits = []) (hl : s.exch.lastTag = 7) : s.freeTag = some 0 := by
  refine (s.freeTag_some_iff 0).mpr ⟨0, ?_, ?_, fun j hj => absurd hj (Fin.not_lt_zero j)⟩
  · rw [hl]; rfl
  · rw [State.initRec_none_iff, hi]; exact fun r hr => absurd hr List.not_mem_nil

/-! ### What leaves the tag allocated last -/

theorem State.offerTarget_lastTag (s : State) (p : Station) (t : Tag) (k : ItemKind) :
    (s.offerTarget p t k).exch.lastTag = s.exch.lastTag := by
  unfold State.offerTarget
  split
  · split
    · dsimp only
      split <;> rfl
    · rfl
  · rfl

theorem State.activate_lastTag (s : State) (r : TargetRec) (ring : Option Ring) (free : List AreaNo) :
    (s.activate r ring free).exch.lastTag = s.exch.lastTag := by
  unfold State.activate
  split
  · dsimp only
    split
    · exact State.offerTarget_lastTag _ _ _ _
    · rfl
  · rfl

theorem State.grant_lastTag (s : State) : s.grant.exch.lastTag = s.exch.lastTag := by
  unfold State.grant
  split
  · split
    · split <;> rfl
    · split
      · split
        · exact State.activate_lastTag _ _ _ _
        · split
          · exact State.activate_lastTag _ _ _ _
          · rfl
      · rfl
  · rfl

theorem State.portLeaves_lastTag (s : State) : s.portLeaves.exch.lastTag = s.exch.lastTag := by
  unfold State.portLeaves
  split <;> rfl

theorem State.enterLeaving_lastTag (s : State) : s.enterLeaving.exch.lastTag = s.exch.lastTag := by
  unfold State.enterLeaving
  dsimp only
  rw [State.grant_lastTag]
  exact (State.portLeaves_lastTag _).trans (congrArg EndSide.lastTag s.withdrawAll_endSide)

theorem State.leaveLink_lastTag (s : State) : s.leaveLink.exch.lastTag = s.exch.lastTag := by
  unfold State.leaveLink
  split
  · rfl
  · rfl
  · split
    · exact s.enterLeaving_lastTag
    · rfl
  · rfl

/-! ### A take -/

theorem State.createInit_lastTag (s : State) (q : Request) (t : Tag) : (s.createInit q t).exch.lastTag = t := by
  unfold State.createInit
  dsimp only
  split
  · exact (congrArg EndSide.lastTag (State.becomeHead_endSide _ _)).trans (congrArg EndSide.lastTag (State.offerInit_endSide _ _ _))
  · exact congrArg EndSide.lastTag (State.offerInit_endSide _ _ _)

theorem State.createInit_holdsTag {s : State} (q : Request) (rest : List Request) {t : Tag} (ht : s.freeTag = some t) :
    ((s.setRequests rest).createInit q t).initRec t ≠ none := by
  have made : (s.madeRecord q rest t).initRec t ≠ none := by rw [State.madeRecord_initRec q rest ht]; exact Option.some_ne_none _
  rw [State.createInit_eq]
  split
  · exact State.becomeHead_keeps _ _ (State.offerInit_keeps _ _ _ _ made)
  · exact State.offerInit_keeps _ _ _ _ made

theorem State.takeHead_none_of_tags {s : State} (h : s.freeTag = none) : s.takeHead = none := by
  unfold State.takeHead
  rw [h]
  split
  · cases s.host.requests <;> rfl
  · rfl

/-- Settles O24: the search gives the first free tag, and the resets, the entry to LEAVING and the take say where it begins. -/
theorem tagAllocation : Obligations.TagAllocation := by
  refine ⟨State.freeTag_some_iff, State.freeTag_none_iff, State.initRec_none_iff, fun s => ⟨_, rfl, rfl, State.freeTag_first rfl rfl⟩,
    fun s hc => ⟨s.stationReset, congrArg _ (State.hosted_configured hc _), rfl, State.freeTag_first rfl rfl⟩, fun s u hc hu => ?_,
    fun s q rest t hc hl hq hrest ht hp => ?_, fun s hc hn => ?_⟩
  · have he : exec .leaveLink s = .next s.leaveLink := congrArg _ (State.hosted_configured hc _)
    obtain rfl : s.leaveLink = u := Host.Outcome.next.inj (he.symm.trans hu)
    exact s.leaveLink_lastTag
  · have htake := State.retake_some hq (State.takeHead_present hl hq ht hp)
    subst hrest
    exact ⟨_, (exec_takeRequest s hc).trans (congrArg _ htake), State.createInit_lastTag _ _ _, State.createInit_holdsTag q [] ht⟩
  · rw [exec_takeRequest s hc, State.retake_none (State.takeHead_none_of_tags hn)]

end Sys2Proof.Machine
end

