-- ==== Sys2Proof/Proofs/Takes.lean ====
section
/-! SUPPORT. The takes (O25): the record a take makes, with its ASK and its place in its channel. -/

namespace Sys2Proof.Machine

/-! ### The record a take makes (R24) -/

theorem map_tag_appended {l : List InitRec} {t : Tag} (hl : ∀ x ∈ l, x.tag ≠ t) {r : InitRec} (hr : r.tag = t) (f : InitRec → InitRec) :
    (l ++ [r]).map (fun x => if x.tag = t then f x else x) = l ++ [f r] := by
  rw [List.map_append, List.map_singleton, if_pos hr, List.map_congr_left (fun x hx => if_neg (hl x hx)), List.map_id']

/-- The state with the record of a taken request, its ASK placed or wanted, and its ring (R24, R12). -/
def State.asked (s : State) (q : Request) (rest : List Request) (t : Tag) (ring : Option Ring) (free : List AreaNo) : State :=
  let r := newInit q t s.exch.serials[t] s.lifetimeUnits
  { s.madeRecord q rest t with
    exch := { (s.madeRecord q rest t).exch with
      inits := s.exch.inits ++ [{ r with ring := ring, wanted := if 32 ≤ s.sched.items.length then [.ask] else [] }] }
    sched := { s.sched with
      items := if 32 ≤ s.sched.items.length then s.sched.items else s.sched.items ++ [⟨r.item s.own .ask, .record⟩] }
    buf := { s.buf with initFree := free } }

theorem State.madeRecord_asks {s : State} (q : Request) (rest : List Request) {t : Tag} (ht : s.freeTag = some t) :
    (s.madeRecord q rest t).offerInit t .ask = s.asked q rest t none s.buf.initFree := by
  have hnew := State.initRec_none (State.freeTag_free ht)
  have hown : (s.madeRecord q rest t).own = s.own := rfl
  rw [State.offerInit_uncredited (State.madeRecord_initRec q rest ht) (fun hk => ItemKind.noConfusion hk), hown, State.asked]
  by_cases hl : 32 ≤ s.sched.items.length
  · rw [if_neg (show ¬ (s.madeRecord q rest t).sched.items.length < 32 from Nat.not_lt.mpr hl), if_pos hl, if_pos hl]
    simp only [State.mapInit, State.madeRecord, map_tag_appended hnew (show (newInit q t _ _).tag = t from rfl)]
    rfl
  · rw [if_pos (show (s.madeRecord q rest t).sched.items.length < 32 from Nat.not_le.mp hl), if_neg hl, if_neg hl]
    rfl

theorem State.createInit_sync {s : State} {q : Request} (rest : List Request) {t : Tag} (ht : s.freeTag = some t) (hc : q.channel = none) :
    (s.setRequests rest).createInit q t = s.asked q rest t none s.buf.initFree := by
  rw [State.createInit_eq, hc]
  exact State.madeRecord_asks q rest ht

theorem State.createInit_transfer {s : State} {q : Request} (rest : List Request) {t : Tag} (ht : s.freeTag = some t) {c : Channel}
    (hc : q.channel = some c) :
    (s.setRequests rest).createInit q t = (s.asked q rest t none s.buf.initFree).becomeHead c := by
  rw [State.createInit_eq, hc]
  exact congrArg (fun u : State => u.becomeHead c) (State.madeRecord_asks q rest ht)

/-- The record made stands at the tail of its channel (R175). -/
theorem State.asked_channelQueue (s : State) {q : Request} (rest : List Request) (t : Tag) (ring : Option Ring) (free : List AreaNo)
    {c : Channel} (hc : q.channel = some c) : (s.asked q rest t ring free).channelQueue c = s.channelQueue c ++
      [{ newInit q t s.exch.serials[t] s.lifetimeUnits with
          ring := ring, wanted := if 32 ≤ s.sched.items.length then [.ask] else [] }] := by
  simp [State.channelQueue, State.asked, InitRec.inChannel, newInit, hc]

theorem State.asked_behind {s : State} {q : Request} (rest : List Request) (t : Tag) (ring : Option Ring) (free : List AreaNo)
    {c : Channel} (hc : q.channel = some c) {h : InitRec} (hh : s.channelHead c = some h) :
    (s.asked q rest t ring free).channelHead c = some h := by
  rw [State.channelHead, State.asked_channelQueue s rest t ring free hc, List.head?_append]
  simp [show (s.channelQueue c).head? = some h from hh]

/-- Onto an empty channel the record is head at once and takes its ring (R63, R25). -/
theorem State.asked_becomesHead {s : State} {q : Request} (rest : List Request) {t : Tag} (ht : s.freeTag = some t) {c : Channel}
    (hc : q.channel = some c) (he : s.channelQueue c = []) (hf : min 4 q.count ≤ s.buf.initFree.length) :
    (s.asked q rest t none s.buf.initFree).becomeHead c = s.asked q rest t
      (some ((s.buf.initFree.take (min 4 q.count)).map (fun a => ⟨a, .empty⟩))) (s.buf.initFree.drop (min 4 q.count)) := by
  have hnew := State.initRec_none (State.freeTag_free ht)
  have hhead := congrArg List.head? (State.asked_channelQueue s rest t none s.buf.initFree hc)
  rw [he] at hhead
  rw [State.becomeHead_asking hhead rfl rfl hf, State.mapInit]
  exact congrArg (fun l : List InitRec => { s.asked q rest t none (s.buf.initFree.drop (min 4 q.count)) with
    exch := { (s.asked q rest t none s.buf.initFree).exch with inits := l } }) (map_tag_appended hnew
      (r := { newInit q t s.exch.serials[t] s.lifetimeUnits with wanted := if 32 ≤ s.sched.items.length then [.ask] else [] }) rfl _)

/-- A head that holds its ring keeps it. -/
theorem State.becomeHead_held {s : State} {c : Channel} {h : InitRec} (hh : s.channelHead c = some h) (hr : h.ring ≠ none) :
    s.becomeHead c = s := by
  rw [State.becomeHead, hh]
  exact if_pos (Option.isSome_iff_ne_none.mpr hr)

/-! ### The fields of the record -/

theorem Request.channel_of {q : Request} {ch : Channel} (ho : q.op ≠ .sync) (hc : q.chan = if ch = .a then 0 else 1) :
    q.channel = some ch := by
  unfold Request.channel
  cases hop : q.op <;> cases ch <;> simp_all

theorem newInit_lifetime (q : Request) (t : Tag) (serial : Serial) (lifetime : BitVec 8) :
    (newInit q t serial lifetime).lifetime = if lifetime.toNat = 0 then none else some (lifetime.toNat * 10) := by
  have h : lifetime = 0 ↔ lifetime.toNat = 0 := by bv_omega
  simp only [newInit, h, Limit.lifetimeUnit]

theorem State.lifetimeUnits_config {s : State} {c : Cfg} (h : s.host.config = some c) : s.lifetimeUnits = c.lifetime := by
  rw [State.lifetimeUnits, h]

theorem newInit_transfer {q : Request} (t : Tag) (serial : Serial) (lifetime : BitVec 8) {ch : Channel} (ho : q.op ≠ .sync)
    (hc : q.chan = if ch = .a then 0 else 1) : newInit q t serial lifetime =
      { peer := q.target, tag := t, serial := serial, op := q.op, addr := q.addr, count := q.count, channel := some ch, label := q.label,
        state := .asking 1 0, ring := none, flow := if q.op = .write then .sender ⟨0, 0, 0, 0, 0⟩ else .receiver ⟨0, 0⟩, moved := 0,
        lifetime := if lifetime.toNat = 0 then none else some (lifetime.toNat * 10), wanted := [], outcome := none } := by
  rw [← newInit_lifetime q t serial lifetime, newInit, Request.channel_of ho hc]
  cases h : q.op
  · rfl
  · rfl
  · exact absurd h ho

theorem newInit_ask {q : Request} (own : Station) (t : Tag) (serial : Serial) (lifetime : BitVec 8) (ho : q.op ≠ .sync) :
    (newInit q t serial lifetime).item own .ask =
      ⟨q.target, own, t, serial, .ask (if q.op = .write then 2 else 1) q.count q.addr⟩ := by
  obtain ⟨_, op, _, _, _, _⟩ := q
  cases op
  · rfl
  · rfl
  · exact absurd rfl ho

theorem newInit_sync {q : Request} (t : Tag) (serial : Serial) (lifetime : BitVec 8) (ho : q.op = .sync) :
    newInit q t serial lifetime =
      { peer := q.target, tag := t, serial := serial, op := .sync, addr := q.addr, count := q.count, channel := none, label := q.label,
        state := .asking 1 0, ring := none, flow := .none, moved := 0,
        lifetime := if lifetime.toNat = 0 then none else some (lifetime.toNat * 10), wanted := [], outcome := none } := by
  rw [← newInit_lifetime q t serial lifetime, newInit, Request.channel, ho]
  rfl

/-! ### The takes -/

theorem exec_take {s : State} {q : Request} {rest : List Request} {t : Tag} (hs : s.configured = true) (hl : s.member.link = .member)
    (hq : s.host.requests = q :: rest) (ht : s.freeTag = some t) (hp : s.present q.target = true) :
    exec .takeRequest s = .next (((s.setRequests rest).createInit q t).takes rest.length) := by
  rw [exec_takeRequest s hs, State.retake_some hq (State.takeHead_present hl hq ht hp)]

theorem exec_take_sync {s : State} {q : Request} {rest : List Request} {t : Tag} (hs : s.configured = true) (hl : s.member.link = .member)
    (hq : s.host.requests = q :: rest) (ht : s.freeTag = some t) (hp : s.present q.target = true) (ho : q.op = .sync) :
    exec .takeRequest s = .next ((s.asked q rest t none s.buf.initFree).takes rest.length) := by
  rw [exec_take hs hl hq ht hp, State.createInit_sync rest ht (by rw [Request.channel, ho])]

theorem exec_take_transfer {s : State} {q : Request} {rest : List Request} {t : Tag} {ch : Channel} (hs : s.configured = true)
    (hl : s.member.link = .member) (hq : s.host.requests = q :: rest) (ht : s.freeTag = some t) (hp : s.present q.target = true)
    (hch : q.channel = some ch) :
    exec .takeRequest s = .next (((s.asked q rest t none s.buf.initFree).becomeHead ch).takes rest.length) := by
  rw [exec_take hs hl hq ht hp, State.createInit_transfer rest ht hch]

theorem exec_take_absent {s : State} {q : Request} {rest : List Request} {t : Tag} (hs : s.configured = true)
    (hl : s.member.link = .member) (hq : s.host.requests = q :: rest) (ht : s.freeTag = some t) (hp : s.present q.target = false) :
    (s.host.outcomes.length < 16 → exec .takeRequest s =
      .next (((s.setRequests rest).pushOutcome (q.outcomeRec .notPresent)).takes rest.length)) ∧
    (16 ≤ s.host.outcomes.length → exec .takeRequest s = .next s) := by
  have htake := State.takeHead_absent hl hq ht hp
  rw [exec_takeRequest s hs]
  exact ⟨fun h => by rw [State.retake_some hq (htake.trans (if_pos h))],
    fun h => by rw [State.retake_none (htake.trans (if_neg (Nat.not_lt.mpr h)))]⟩

theorem State.takeHead_not_due {s : State} (h : s.member.link ≠ .member ∨ s.host.requests = [] ∨ s.freeTag = none) : s.takeHead = none := by
  unfold State.takeHead
  split
  · next hl =>
    split
    · next hq ht => simp [hl, hq, ht] at h
    · rfl
  · rfl

/-- Settles O25: every take goes on from `State.asked`, and onto an empty channel the record made becomes head. -/
theorem takesOfRequests : Obligations.TakesOfRequests := by
  refine ⟨?_, ?_, fun s hs => ⟨fun q rest t hl hq ht hp => exec_take_absent hs hl hq ht hp, fun h => ?_⟩, ?_⟩
  · intro s c q rest t hs hc hl hq ht hp ho
    dsimp only
    rw [exec_take_sync hs hl hq ht hp ho]
    refine ⟨fun hroom => ?_, fun hfull => ?_, fun _ => rfl⟩
    · simp only [State.asked, State.madeRecord, State.lifetimeUnits_config hc, newInit_sync _ _ _ ho, if_neg (Nat.not_le.mpr hroom),
        ← State.own_config s c hc]
      rfl
    · simp only [State.asked, State.madeRecord, State.lifetimeUnits_config hc, newInit_sync _ _ _ ho, if_pos hfull]
      rfl
  · intro s c q rest t ch hs hc hl hq ht hp ho hchan he hroom hf
    have hch := Request.channel_of ho hchan
    dsimp only
    rw [exec_take_transfer hs hl hq ht hp hch, State.asked_becomesHead rest ht hch he hf]
    simp only [State.asked, State.madeRecord, newInit_ask _ _ _ _ ho, if_neg (Nat.not_le.mpr hroom)]
    simp only [State.lifetimeUnits_config hc, newInit_transfer _ _ _ ho hchan, State.own_config s c hc]
    rfl
  · rw [exec_takeRequest s hs, State.retake_none (State.takeHead_not_due h)]
  · intro s c q rest t ch hs hc hl hq ht hp ho hchan
    have hch := Request.channel_of ho hchan
    refine ⟨fun he hf => ?_, fun h hh => ?_⟩
    · rw [exec_take_transfer hs hl hq ht hp hch, State.asked_becomesHead rest ht hch he hf]
      simp only [State.asked, State.madeRecord, newInit_ask _ _ _ _ ho]
      simp only [State.lifetimeUnits_config hc, newInit_transfer _ _ _ ho hchan, State.own_config s c hc]
      rfl
    · have hbehind := State.asked_behind rest t none s.buf.initFree hch hh
      have htake := exec_take_transfer hs hl hq ht hp hch
      have hheld := State.becomeHead_held hbehind
      simp only [State.asked, State.madeRecord, newInit_ask _ _ _ _ ho] at hbehind htake hheld
      simp only [State.lifetimeUnits_config hc, newInit_transfer _ _ _ ho hchan, State.own_config s c hc] at hbehind htake hheld
      exact ⟨hbehind, htake, hheld⟩

end Sys2Proof.Machine
end

