-- ==== Sys2Proof/Proofs/Ticks.lean ====
section
/-! SUPPORT. The tick of the timebase (O3): the watchdog takes no port to STARTING, and a tick over few records is one row. -/

namespace Sys2Proof.Machine

theorem State.settle_port (s : State) (r : TargetRec) (o : Outcome) (k : Bool) : (s.settle r o k).port = s.port := by
  unfold State.settle
  cases r.id <;> cases k <;> rfl

theorem State.enterFailed_state (s : State) : s.enterFailed.port.state = .failed := by
  unfold State.enterFailed
  dsimp only
  split <;> rfl

/-- Ended by a watch of the port, the ACTIVE record leaves the port in RESETTING (R128). -/
theorem State.endByWatch_state (s : State) (code : OutcomeCode) :
    (s.endByWatch code).port.state = .resetting true ∨ s.endByWatch code = s := by
  unfold State.endByWatch
  cases s.activeRec with
  | none => exact .inr rfl
  | some r => exact .inl (congrArg Port.state (State.settle_port _ _ _ _))

/-- The watchdog takes no port to STARTING (R125). -/
theorem State.watchdogExpires_not_starting {s : State} (h : ∀ n, s.port.state ≠ .starting n) (n : Nat) :
    s.watchdogExpires.port.state ≠ .starting n := by
  have served (code : OutcomeCode) : (s.endByWatch code).port.state ≠ .starting n := by
    rcases s.endByWatch_state code with hr | hs
    · rw [hr]; exact PortState.noConfusion
    · rw [hs]; exact h n
  unfold State.watchdogExpires
  split
  · rw [State.enterFailed_state]; exact PortState.noConfusion
  · exact PortState.noConfusion
  · exact served _
  · exact served _
  · exact served _
  · exact PortState.noConfusion
  · exact PortState.noConfusion
  · exact h n

theorem State.tickWatchdog_not_starting {s : State} (h : ∀ n, s.port.state ≠ .starting n) (n : Nat) :
    s.tickWatchdog.port.state ≠ .starting n := by
  unfold State.tickWatchdog
  split
  · dsimp only
    split
    · exact h n
    · refine State.watchdogExpires_not_starting ?_ n
      exact h
  · exact h n

theorem State.tick_running {s : State} (h : s.timebase = true) : s.tick = s.tickLifetimes.tickWatchdog.tickStarting := if_pos h

theorem State.tickLifetimes_no_records {s : State} (h : s.exch.inits = []) : s.tickLifetimes = s := by
  unfold State.tickLifetimes
  rw [h, List.filter_nil, List.map_nil, List.foldl_nil, ← h]

/-- A tick at which the only record runs out is its LIFETIME_EXPIRY (R20). -/
theorem State.tickLifetimes_one {s : State} {r : InitRec} {n : Nat} (hi : s.exch.inits = [r]) (hl : r.lifetime = some n) (hn : n ≤ 1) :
    exec (.lifetimeExpiry r.tag) { s with exch := { s.exch with inits := [{ r with lifetime := some (n - 1) }] } } =
      .next s.tickLifetimes := by
  have hdue : r.lastMs = true := by simpa [InitRec.lastMs, hl] using hn
  unfold State.tickLifetimes
  simp only [hi, List.filter_cons_of_pos hdue, List.filter_nil, List.map_cons, List.map_nil, hl, Option.map_some,
    List.foldl_cons, List.foldl_nil]
  rfl

/-- Settles O3: the tick is the fall of the lifetimes, then the watchdog, then the wait of STARTING. -/
theorem emptyQueueTicks : Obligations.EmptyQueueTicks := by
  intro s hp
  rw [step_empty s hp]
  refine ⟨fun ht => congrArg _ (if_neg (by simp [ht])), fun ht hl hw hs => ?_, fun r n ht hi hl hn hw hs => ?_, fun n ht hi hw hs => ?_,
    fun n ht hi hw hs => ?_, fun ht => ?_⟩
  · have hport := s.tickLifetimes_runs.2
    rw [State.tick_running ht, State.tickWatchdog_stopped _ (by rw [hport]; exact hw),
      State.tickStarting_elsewhere _ (by rw [hport]; exact hs), State.tickLifetimes_none s hl]
  · have hport := s.tickLifetimes_runs.2
    rw [State.tick_running ht, State.tickWatchdog_stopped _ (by rw [hport]; exact hw),
      State.tickStarting_elsewhere _ (by rw [hport]; exact hs), State.tickLifetimes_one hi hl hn]
  · rw [State.tick_running ht, State.tickLifetimes_no_records hi, State.tickStarting_elsewhere _ (State.tickWatchdog_not_starting hs)]
    obtain ⟨below, limit⟩ := State.tickWatchdog_runs hw
    exact ⟨fun h => congrArg _ (below h), fun h => (limit h).symm⟩
  · rw [State.tick_running ht, State.tickLifetimes_no_records hi, State.tickWatchdog_stopped _ hw]
    obtain ⟨below, limit⟩ := State.tickStarting_runs hs
    exact ⟨fun h => congrArg _ (below h), fun h => (limit h).symm⟩
  · obtain ⟨hfold, hport⟩ := s.tickLifetimes_runs
    rw [State.tick_running ht]
    refine ⟨s.tickLifetimes, s.tickLifetimes.tickWatchdog, hfold, hport, fun hw => ?_, fun n hw => ?_, fun hs => ?_, fun n hs => ?_⟩
    · exact State.tickWatchdog_stopped _ (by rw [hport]; exact hw)
    · exact State.tickWatchdog_runs (by rw [hport]; exact hw)
    · rw [State.tickStarting_elsewhere _ hs]
    · obtain ⟨below, limit⟩ := State.tickStarting_runs hs
      exact ⟨fun h => congrArg _ (below h), fun h => (limit h).symm⟩

end Sys2Proof.Machine
end

