-- ==== Sys2Proof/Proofs/InitiatorWatches.lean ====
section
/-! SUPPORT. The watches of an initiator record (O28): the rows ASK_RESEND, NO_REPLY and LIFETIME_EXPIRY where they are due. -/

namespace Sys2Proof.Machine

/-! ### The ASK of a record (R28) -/

theorem InitRec.ask_item (r : InitRec) (own : Station) : r.item own .ask = ⟨r.peer, own, r.tag, r.serial,
    .ask (if r.op = .read then 1 else if r.op = .write then 2 else 3) r.count (if r.op = .sync then 0 else r.addr)⟩ := by
  obtain ⟨_, _, _, op, _, _, _, _, _, _, _, _, _, _, _⟩ := r
  cases op <;> rfl

theorem State.offerAskOnce_of {s : State} {t : Tag} {r : InitRec} (h : s.initRec t = some r) :
    s.offerAskOnce t = if s.waits (r.item s.own .ask) .record || r.wanted.contains .ask then s else s.offerInit t .ask := by
  rw [State.offerAskOnce, h]

theorem State.offerAskOnce_waiting {s : State} {t : Tag} {r : InitRec} (h : s.initRec t = some r)
    (hw : ⟨r.item s.own .ask, .record⟩ ∈ s.sched.items ∨ .ask ∈ r.wanted) : s.offerAskOnce t = s := by
  rw [State.offerAskOnce_of h]
  refine if_pos ?_
  rcases hw with hwaits | hwanted
  · rw [State.waits_true hwaits, Bool.true_or]
  · rw [List.contains_iff_mem.mpr hwanted, Bool.or_true]

theorem State.offerAskOnce_free {s : State} {t : Tag} {r : InitRec} (h : s.initRec t = some r) (hw : r.wanted = [])
    (hnone : ∀ p ∈ s.sched.items, ¬ (p.item.init = s.own ∧ p.item.tag = r.tag ∧ p.item.serial = r.serial)) :
    s.offerAskOnce t = if s.sched.items.length < 32
      then { s with sched := { s.sched with items := s.sched.items ++ [⟨r.item s.own .ask, .record⟩] } }
      else s.mapInit t (fun x => { x with wanted := wantKind x.wanted .ask }) := by
  have hwaits : s.waits (r.item s.own .ask) .record = false := State.waits_false hnone
  rw [State.offerAskOnce_of h, if_neg (by rw [hwaits, hw]; decide), State.offerInit_uncredited h (fun hk => ItemKind.noConfusion hk)]

/-! ### The rows -/

theorem InitRec.askDue_of {r : InitRec} {n k : Nat} (hs : r.state = .asking n k) (hk : 3 ≤ k + 1) : r.askDue = some n := by
  rw [InitRec.askDue, hs]
  exact if_pos hk

/-- A record at a further send of its ASK (R28). -/
def InitRec.sentAgain (sends : Nat) (r : InitRec) : InitRec := { r with state := .asking (sends + 1) 0 }

theorem exec_askResend_due {s : State} {r : InitRec} {n k : Nat} (hr : s.initRec r.tag = some r) (hs : r.state = .asking n k) (hn : n < 3)
    (hk : 3 ≤ k + 1) : exec (.askResend r.tag) s =
      .next ((s.mapInit r.tag (InitRec.sentAgain n)).offerAskOnce r.tag) := by
  show execAskResend r.tag s = _
  simp only [execAskResend, hr, InitRec.askDue_of hs hk]
  exact if_pos hn

theorem exec_noReply_due {s : State} {r : InitRec} {n k : Nat} (hr : s.initRec r.tag = some r) (hs : r.state = .asking n k) (hn : 3 ≤ n)
    (hk : 3 ≤ k + 1) : exec (.noReply r.tag) s = .next (s.endAndTake r (r.localOutcome .noReply) true false) := by
  show execNoReply r.tag s = _
  simp only [execNoReply, hr, InitRec.askDue_of hs hk]
  exact if_pos hn

theorem exec_lifetimeExpiry_of {s : State} {r : InitRec} (hr : s.initRec r.tag = some r) : exec (.lifetimeExpiry r.tag) s =
    .next (if r.live ∧ r.lifetime.isSome then s.endAndTake r (r.localOutcome .expired) true false else s) := by
  show Host.Outcome.next (s.expire r.tag) = _
  rw [State.expire, hr]

/-- A record in ASKING has moved nothing that its outcome would show (R97). -/
theorem InitRec.localOutcome_asking {r : InitRec} {n k : Nat} (code : OutcomeCode) (hs : r.state = .asking n k)
    (hm : r.op = .read → r.moved = 0) : r.localOutcome code = ⟨code, 0, true, none⟩ := by
  unfold InitRec.localOutcome
  split
  · next ho => rw [hm ho]
  · rfl
  · rw [if_pos (InitRec.asking_of hs)]

/-- Only the record itself stands on its tag. -/
theorem State.mapInit_unique {s : State} {r : InitRec} (hr : s.initRec r.tag = some r)
    (hu : (s.exch.inits.filter (fun x => decide (x.tag = r.tag))).length = 1) {f g : InitRec → InitRec} (h : f r = g r) :
    s.mapInit r.tag f = s.mapInit r.tag g := by
  have hone := inits_unique (State.initRec_mem hr).1 hu
  unfold State.mapInit
  refine congrArg (fun l : List InitRec => { s with exch := { s.exch with inits := l } }) (List.map_congr_left fun x hx => ?_)
  by_cases ht : x.tag = r.tag
  · rw [if_pos ht, if_pos ht, hone x hx ht, h]
  · rw [if_neg ht, if_neg ht]

/-- Settles O28: each row where its watch is due, by the offer of the ASK and by the ending of the record. -/
theorem watchesOfAnInitiatorRecord : Obligations.WatchesOfAnInitiatorRecord := by
  refine ⟨fun s r n k hr hs hn hk => ?_, fun s r n k hr hs hn hk hm => ?_, fun s r hr => ⟨fun n hl hd => ?_, fun h => ?_⟩⟩
  · have hfound : (s.mapInit r.tag (InitRec.sentAgain n)).initRec r.tag = some (r.sentAgain n) := State.mapInit_found hr _ (fun _ => rfl)
    dsimp only
    rw [exec_askResend_due hr hs hn hk, ← InitRec.ask_item]
    refine ⟨fun hw hnone => ?_, fun h => congrArg _ (State.offerAskOnce_waiting hfound h)⟩
    have hfree := State.offerAskOnce_free hfound hw hnone
    refine ⟨fun hl hu => ?_, fun hl hu => ?_⟩
    · have hone : s.mapInit r.tag (InitRec.sentAgain n) = s.mapInit r.tag (fun x => { x with state := .asking (n + 1) 0, wanted := [] }) :=
        State.mapInit_unique hr hu (by rw [← hw]; rfl)
      rw [hfree, State.mapInit_sched, if_pos hl, hone]
      rfl
    · have hone : s.mapInit r.tag (fun x => { x.sentAgain n with wanted := wantKind (x.sentAgain n).wanted .ask }) =
          s.mapInit r.tag (fun x => { x with state := .asking (n + 1) 0, wanted := [.ask] }) :=
        State.mapInit_unique hr hu (by rw [show (r.sentAgain n).wanted = [] from hw]; rfl)
      rw [hfree, State.mapInit_sched, if_neg (Nat.not_lt.mpr hl), State.mapInit_mapInit _ _ (InitRec.sentAgain n) _ (fun _ => rfl), hone]
      rfl
  · rw [exec_noReply_due hr hs hn hk, InitRec.localOutcome_asking .noReply hs hm]
  · rw [exec_lifetimeExpiry_of hr, if_pos ⟨InitRec.live_of hd, by rw [hl]; rfl⟩]
  · rw [exec_lifetimeExpiry_of hr]
    refine congrArg _ (if_neg ?_)
    rintro ⟨hlive, hsome⟩
    rcases h with hnone | ⟨b, hb⟩
    · rw [hnone] at hsome; exact Bool.noConfusion hsome
    · rw [InitRec.dead_of hb] at hlive; exact Bool.noConfusion hlive

end Sys2Proof.Machine
end

