-- ==== Sys2Proof/Proofs/Asks.lean ====
section
/-! SUPPORT. An ASK that arrives (O33): the order of its checks, the duplicate, and the record that a valid one makes. -/

namespace Sys2Proof.Machine

/-! ### The checks of an ASK (R42) -/

/-- The checks MALFORMED, NO_MODULE and RANGE in their order. -/
theorem State.askCheck_eq (s : State) (op : Byte) (count : Nat) (addr : BlockAddr) : s.askCheck op count addr =
    if (op ≠ 1 ∧ op ≠ 2 ∧ op ≠ 3) ∨ ((op = 1 ∨ op = 2) ∧ (count = 0 ∨ 256 < count)) ∨ (op = 3 ∧ count ≠ 0) then some .malformed
    else if s.port.state.ready = false then some .noModule
    else if (op = 1 ∨ op = 2) ∧ s.port.capacity.toNat < addr.toNat + count then some .range
    else none := by
  unfold State.askCheck
  by_cases h1 : op = 1
  · subst h1; simp [opOfCode, Limit.blocks]
  by_cases h2 : op = 2
  · subst h2; simp [opOfCode, Limit.blocks]
  by_cases h3 : op = 3
  · subst h3; cases s.port.state.ready <;> simp [opOfCode]
  · rw [(opOfCode_none op).mpr ⟨h1, h2, h3⟩]
    exact (if_pos (Or.inl ⟨h1, h2, h3⟩)).symm

theorem opOfCode_valid {op : Byte} (h : ¬ (op ≠ 1 ∧ op ≠ 2 ∧ op ≠ 3)) : ∃ o, opOfCode op.toNat = some o ∧ opCode o = op.toNat := by
  obtain ⟨o, ho⟩ := Option.ne_none_iff_exists'.mp (fun hn => h ((opOfCode_none op).mp hn))
  exact ⟨o, ho, ((opOfCode_some op o).mp ho).symm⟩

theorem PortState.not_ready_iff (p : PortState) :
    p.ready = false ↔ ¬ (p = .idle ∨ (∃ x, p = .serving x) ∨ ∃ k, p = .maintaining k) := by
  rw [← PortState.ready_iff, Bool.not_eq_true]

/-! ### The answer to an ASK -/

theorem TargetRec.repeats_iff {s : State} {init : Station} {tag : Tag} {r : TargetRec} (h : s.targetRec init tag = some r) (serial : Serial)
    (op : Byte) (count : Nat) (addr : BlockAddr) : r.repeats serial op count addr = true ↔
      r.id = some ⟨init, tag, serial⟩ ∧ opCode r.op = op.toNat ∧ r.count = count ∧ (r.op = .sync ∨ r.addr = addr) := by
  simp only [TargetRec.repeats, Bool.and_eq_true, Bool.or_eq_true, decide_eq_true_eq, State.serial_of h, and_assoc,
    eq_comm (a := op.toNat)]

theorem State.itemArrives_ask (s : State) (sender dest init : Station) (tag : Tag) (serial : Serial) (op : Byte) (count : Nat)
    (addr : BlockAddr) : s.itemArrives sender ⟨dest, init, tag, serial, .ask op count addr⟩ =
      if init = sender then s.askArrives ⟨dest, init, tag, serial, .ask op count addr⟩ op count addr else s := rfl

theorem State.refuse_of (s : State) (i : Item) (why : Reason) : s.refuse i why = if s.sched.items.length < 32
    then { s with sched := { s.sched with items := s.sched.items ++ [⟨⟨i.init, i.init, i.tag, i.serial, .reply (some why)⟩, .fixed⟩] } }
    else s := by
  have hk : (ItemBody.reply (some why)).kind ≠ .credit := ItemKind.noConfusion
  split
  · next hl => exact State.offer_placed .fixed hk hl
  · next hl => exact State.offer_full .fixed hk (Nat.not_lt.mp hl)

theorem State.askArrives_duplicate {s : State} {i : Item} {r : TargetRec} {op : Byte} {count : Nat} {addr : BlockAddr}
    (hr : s.targetRec i.init i.tag = some r) (hd : r.repeats i.serial op count addr = true) :
    s.askArrives i op count addr = s.offerTargetOnce i.init i.tag .reply := by
  simp only [State.askArrives, hr]
  exact if_pos hd

theorem State.askArrives_refused {s : State} {i : Item} {op : Byte} {count : Nat} {addr : BlockAddr} {why : Reason}
    (hd : ∀ r, s.targetRec i.init i.tag = some r → ¬ r.repeats i.serial op count addr = true) (hw : s.askCheck op count addr = some why) :
    s.askArrives i op count addr = s.refuse i why := by
  cases hr : s.targetRec i.init i.tag with
  | none => simp only [State.askArrives, hr, hw]
  | some r =>
    simp only [State.askArrives, hr, hw]
    exact if_neg (hd r hr)

theorem State.askArrives_new {s : State} {i : Item} {op : Byte} {count : Nat} {addr : BlockAddr} {o : Op}
    (hn : s.targetRec i.init i.tag = none) (hc : s.askCheck op count addr = none) (ho : opOfCode op.toNat = some o) :
    s.askArrives i op count addr = s.takeAsk i o count addr := by
  simp only [State.askArrives, hn, hc, ho]

/-! ### The record made (R45) -/

theorem State.takeAsk_busy {s : State} (i : Item) (o : Op) (count : Nat) (addr : BlockAddr)
    (h : 8 ≤ s.serviceQueue.length ∨ 16 ≤ s.exch.targets.length) : s.takeAsk i o count addr = s.refuse i .busy :=
  if_neg fun hroom : s.serviceQueue.length < 8 ∧ s.exch.targets.length < 16 => by omega

theorem State.takeAsk_accepts {s : State} (i : Item) (o : Op) (count : Nat) (addr : BlockAddr) (hq : s.serviceQueue.length < 8)
    (hl : s.exch.targets.length < 16) : s.takeAsk i o count addr =
      (({ s with exch := { s.exch with targets := s.exch.targets ++ [newTarget i o count addr] } } : State).offerTarget i.init i.tag
        .reply).grant := if_pos ⟨hq, hl⟩

theorem newTarget_flow (i : Item) (o : Op) (count : Nat) (addr : BlockAddr) : (newTarget i o count addr).flow = (match o with
    | .read => .sender ⟨0, 0, 0, 0, 0⟩
    | .write => .receiver ⟨0, 0⟩
    | .sync => .none) := by cases o <;> rfl

theorem newTarget_keyed (i : Item) (o : Op) (count : Nat) (addr : BlockAddr) : (newTarget i o count addr).keyed i.init i.tag = true := by
  simp [TargetRec.keyed, newTarget]

theorem map_keyed_appended {l : List TargetRec} {p : Station} {t : Tag} (hl : ∀ x ∈ l, x.keyed p t = false) {r : TargetRec}
    (hr : r.keyed p t = true) (f : TargetRec → TargetRec) :
    (l ++ [r]).map (fun x => if x.keyed p t then f x else x) = l ++ [f r] := by
  rw [List.map_append, List.map_singleton, if_pos hr,
    List.map_congr_left (fun x hx => if_neg (by rw [hl x hx]; decide)), List.map_id']

/-- The accepting REPLY of a record made on a free key: placed, or wanted on a full queue (R12, R160). -/
theorem State.newTarget_replies {s : State} (i : Item) (o : Op) (count : Nat) (addr : BlockAddr)
    (hn : s.targetRec i.init i.tag = none) :
    ({ s with exch := { s.exch with targets := s.exch.targets ++ [newTarget i o count addr] } } : State).offerTarget i.init i.tag .reply =
      if s.sched.items.length < 32 then { s with
        sched := { s.sched with items := s.sched.items ++ [⟨⟨i.init, i.init, i.tag, i.serial, .reply none⟩, .record⟩] }
        exch := { s.exch with targets := s.exch.targets ++ [newTarget i o count addr] } }
      else { s with exch := { s.exch with targets := s.exch.targets ++ [{ newTarget i o count addr with wanted := [.reply] }] } } := by
  have hfree := State.targetRec_none hn
  have hfound : State.targetRec { s with exch := { s.exch with targets := s.exch.targets ++ [newTarget i o count addr] } } i.init i.tag =
      some (newTarget i o count addr) := find_after _ _ [] _ hfree (newTarget_keyed i o count addr)
  rw [State.offerTarget_uncredited hfound rfl (fun hk => ItemKind.noConfusion hk)]
  split
  · rfl
  · simp only [State.mapTarget, map_keyed_appended hfree (newTarget_keyed i o count addr)]
    rfl

theorem State.replyWaits_iff (s : State) (r : TargetRec) (i : ExchId) : s.waits (r.item i .reply) .record = true ↔
    ∃ p ∈ s.sched.items, p.origin = .record ∧ p.item.init = i.peer ∧ p.item.tag = i.tag ∧ p.item.serial = i.serial ∧
      ∃ why, p.item.body = .reply why := by
  simp only [State.waits_record_iff, ← ItemBody.kind_reply_iff]
  rfl

/-- A refusal of an arriving ASK: its REPLY is placed, or dropped on a full queue (R45). -/
theorem State.refuse_answers {s u : State} {i : Item} {why : Reason} (h : u = s.refuse i why) :
    (s.sched.items.length < 32 → u = { s with sched := { s.sched with
      items := s.sched.items ++ [⟨⟨i.init, i.init, i.tag, i.serial, .reply (some why)⟩, .fixed⟩] } }) ∧
    (32 ≤ s.sched.items.length → u = s) := by
  rw [State.refuse_of] at h
  exact ⟨fun hl => h.trans (if_pos hl), fun hl => h.trans (if_neg (Nat.not_lt.mpr hl))⟩

/-- Settles O33: the duplicate, the checks in their order, and the record that a valid ASK on a free key makes. -/
theorem askOfAStation : Obligations.AskOfAStation := by
  intro s dest init tag serial op count addr
  have harr := s.itemArrives_ask init dest init tag serial op count addr
  rw [if_pos rfl] at harr
  dsimp only
  refine ⟨fun sender hs => (s.itemArrives_ask sender dest init tag serial op count addr).trans (if_neg hs.symm), fun r hr hd => ?_,
    fun hnd => ?_, fun hn hmal hmod hrange => ?_⟩
  · have hwaits := s.replyWaits_iff r ⟨init, tag, serial⟩
    have hid := hd.1
    rw [harr, State.askArrives_duplicate hr ((TargetRec.repeats_iff hr serial op count addr).mpr hd), ← hwaits]
    refine ⟨State.offerTargetOnce_kept hr hid, fun hw hk => ?_⟩
    rw [State.offerTargetOnce_offers hr hid hw hk, State.offerTarget_uncredited hr hid (fun hc => ItemKind.noConfusion hc)]
    refine ⟨fun hl => if_pos hl, fun hl => (if_neg (Nat.not_lt.mpr hl)).trans ?_⟩
    simp only [State.mapTarget, wantKind_eq]
  · have refused {why : Reason} (hw : s.askCheck op count addr = some why) := State.refuse_answers (harr.trans
      (State.askArrives_refused (fun r hr hrep => hnd r hr ((TargetRec.repeats_iff hr serial op count addr).mp hrep)) hw))
    rw [State.askCheck_eq] at refused
    refine ⟨fun hmal => refused (if_pos hmal), fun hmal hmod => refused ?_, fun hmal hmod hrange => refused ?_⟩
    · rw [if_neg hmal, if_pos ((PortState.not_ready_iff _).mpr hmod)]
    · rw [if_neg hmal, if_neg (fun h => hmod ((PortState.not_ready_iff _).mp h)), if_pos hrange]
  · obtain ⟨o, ho, hcode⟩ := opOfCode_valid (fun h => hmal (.inl h))
    have hcheck : s.askCheck op count addr = none := by
      rw [State.askCheck_eq, if_neg hmal, if_neg (fun h => hmod ((PortState.not_ready_iff _).mp h)), if_neg hrange]
    rw [harr, State.askArrives_new hn hcheck ho]
    refine ⟨fun hbusy => State.refuse_answers (State.takeAsk_busy _ _ _ _ hbusy), fun hq hl => ?_⟩
    rw [State.takeAsk_accepts _ _ _ _ hq hl, State.newTarget_replies _ _ _ _ hn]
    refine ⟨{ newTarget ⟨dest, init, tag, serial, .ask op count addr⟩ o count addr with
      wanted := if 32 ≤ s.sched.items.length then [.reply] else [] }, rfl, hcode, rfl, fun hop => if_neg hop, rfl, rfl, rfl, rfl, rfl,
      fun hroom => if_neg hroom, fun hfull => if_pos hfull, rfl, newTarget_flow ⟨dest, init, tag, serial, .ask op count addr⟩ o count addr, fun hroom => ?_, fun hfull => ?_⟩
    · rw [if_pos (Nat.not_le.mp hroom), if_neg hroom]
      rfl
    · rw [if_neg (Nat.not_lt.mpr hfull), if_pos hfull]

end Sys2Proof.Machine
end

