-- ==== Sys2Proof/Proofs/Endings.lean ====
section
/-! SUPPORT. The ending of an initiator record (O27), step by step: what leaves the channel, what is owed, and what is delivered. -/

namespace Sys2Proof.Machine

/-! ### The state by the part an ending leaves alone -/

theorem State.eq_of_endSide {s u : State} (h : u.endSide = s.endSide) :
    u = { s with host := { s.host with outcomes := u.host.outcomes, flags := u.host.flags }
                 chanA := u.chanA
                 chanB := u.chanB
                 sched := { s.sched with items := u.sched.items, loopItems := u.sched.loopItems }
                 exch := { s.exch with inits := u.exch.inits, delivering := u.exch.delivering }
                 buf := { s.buf with initFree := u.buf.initFree } } := by
  obtain ⟨_, _, _, ⟨⟩, _, _, _, _, ⟨⟩, ⟨⟩, ⟨⟩, _⟩ := u
  obtain ⟨_, _, _, ⟨⟩, _, _, _, _, ⟨⟩, ⟨⟩, ⟨⟩, _⟩ := s
  simp only [State.endSide, State.targetSide, EndSide.mk.injEq, TargetSide.mk.injEq] at h
  simp_all

/-! ### Head succession (R175) -/

theorem State.becomeHead_none {s : State} {c : Channel} (h : s.channelHead c = none) : s.becomeHead c = s := by
  rw [State.becomeHead, h]

theorem State.becomeHead_unserved {s : State} {c : Channel} {x : InitRec} (h : s.channelHead c = some x)
    (hx : x.ring ≠ none ∨ s.buf.initFree.length < min 4 x.count) : s.becomeHead c = s := by
  rw [State.becomeHead, h]
  dsimp only
  split
  · rfl
  · next hr =>
    have hfew : s.buf.initFree.length < min 4 x.count := hx.resolve_left (fun hn => hr (Option.isSome_iff_ne_none.mpr hn))
    rw [reserveRing, if_neg (show ¬ ringLen x.count ≤ _ from Nat.not_le.mpr hfew)]

/-- The record at the front of its channel with its ring reserved (R25, R63). -/
def State.headWithRing (s : State) (x : InitRec) : State := { s with
  buf := { s.buf with initFree := s.buf.initFree.drop (min 4 x.count) }
  exch := { s.exch with inits := s.exch.inits.map (fun y => if y.tag = x.tag then
    { y with ring := some ((s.buf.initFree.take (min 4 x.count)).map (fun a => ⟨a, .empty⟩)) } else y) } }

theorem State.becomeHead_served {s : State} {c : Channel} {x : InitRec} (h : s.channelHead c = some x) (hr : x.ring = none)
    (hf : min 4 x.count ≤ s.buf.initFree.length) : s.becomeHead c =
      if x.op = .read ∧ (x.state = .waiting ∨ x.state = .moving) then (s.headWithRing x).offerInit x.tag .credit else s.headWithRing x := by
  have hres : reserveRing s.buf.initFree (ringLen x.count) =
    some ((s.buf.initFree.take (min 4 x.count)).map (fun a => ⟨a, .empty⟩), s.buf.initFree.drop (min 4 x.count)) := if_pos hf
  rw [State.becomeHead, h]
  dsimp only
  rw [if_neg (by rw [hr]; decide), hres]
  dsimp only
  split
  · next ho hs => rw [if_pos ⟨ho, .inl hs⟩]; rfl
  · next ho hs => rw [if_pos ⟨ho, .inr hs⟩]; rfl
  · next hw hm => rw [if_neg (fun hc => hc.2.elim (hw hc.1) (hm hc.1))]; rfl

theorem State.mapInit_onTag (s : State) {t t' : Tag} (hne : t' ≠ t) {f : InitRec → InitRec} (hf : ∀ x, (f x).tag = x.tag) :
    (s.mapInit t' f).exch.inits.filter (fun x => decide (x.tag = t)) = s.exch.inits.filter (fun x => decide (x.tag = t)) := by
  rw [State.mapInit_inits]
  induction s.exch.inits with
  | nil => rfl
  | cons x l ih =>
    by_cases hx : x.tag = t'
    · simp [hx, hf, hne, ih]
    · by_cases hxt : x.tag = t <;> simp [hx, hxt, hne.symm, ih]

theorem State.offerInit_onTag (s : State) {t t' : Tag} (hne : t' ≠ t) (k : ItemKind) :
    (s.offerInit t' k).exch.inits.filter (fun x => decide (x.tag = t)) = s.exch.inits.filter (fun x => decide (x.tag = t)) := by
  unfold State.offerInit
  split
  · dsimp only
    split
    · rfl
    · exact s.mapInit_onTag hne (f := fun x => { x with wanted := wantKind x.wanted k }) (fun _ => rfl)
  · rfl

/-- A head succession leaves the records of a tag that is not in the channel as they are. -/
theorem State.becomeHead_onTag (s : State) (c : Channel) {t : Tag} (ht : ∀ x ∈ s.exch.inits, x.tag = t → x.inChannel c = false) :
    (s.becomeHead c).exch.inits.filter (fun x => decide (x.tag = t)) = s.exch.inits.filter (fun x => decide (x.tag = t)) := by
  cases hh : s.channelHead c with
  | none => rw [State.becomeHead_none hh]
  | some x =>
    have hne : x.tag ≠ t := by
      intro he
      obtain ⟨hm, hc⟩ := State.channelHead_mem hh
      rw [ht x hm he] at hc
      exact Bool.noConfusion hc
    have hring : (s.headWithRing x).exch.inits.filter (fun x => decide (x.tag = t)) = s.exch.inits.filter (fun x => decide (x.tag = t)) :=
      s.mapInit_onTag hne (f := fun y => { y with ring := some ((s.buf.initFree.take (min 4 x.count)).map (fun a => ⟨a, .empty⟩)) })
        (fun _ => rfl)
    by_cases hserved : x.ring = none ∧ min 4 x.count ≤ s.buf.initFree.length
    · rw [State.becomeHead_served hh hserved.1 hserved.2]
      split
      · exact (State.offerInit_onTag _ hne _).trans hring
      · exact hring
    · rw [State.becomeHead_unserved hh (by rw [← Nat.not_le]; tauto)]

/-! ### Leaving the channel (R175, R177) -/

theorem State.leftChannel_eq (s : State) (r : InitRec) (f : InitRec → InitRec) : s.leftChannel r f = { s with
    exch := { s.exch with inits := s.exch.inits.map (fun x => if x.tag = r.tag then f { x with ring := none } else x) }
    buf := { s.buf with initFree := s.buf.initFree ++ r.ring.elim [] (List.map Slot.area) } } := by
  rw [← ringAreas_eq]
  rfl

/-- A head leaves its channel: its departure is told, and the next record becomes head. -/
theorem State.leaveChannel_departs {s : State} {r : InitRec} {ch : Channel} (kind : Departure) (f : InitRec → InitRec)
    (hc : r.channel = some ch) (hh : s.headsChannel r = true) : s.leaveChannel r kind f = (({ s with
        host := { s.host with flags := s.host.flags ||| (if ch = .a then 32 else 64) }
        exch := { s.exch with inits := s.exch.inits.map (fun x => if x.tag = r.tag then f { x with ring := none } else x) }
        buf := { s.buf with initFree := s.buf.initFree ++ r.ring.elim [] (List.map Slot.area) } } : State).setChan ch
          { s.chan ch with held := (s.chan ch).held || decide (kind = .aborted), departure := kind, lastLabel := r.label }).becomeHead ch := by
  rw [State.leaveChannel_head kind f hh hc, State.leftChannel_eq]
  cases ch <;> rfl

/-- After an ending has left its channel every record on its tag is the ended one. -/
theorem State.leaveChannel_ended (s : State) (r : InitRec) (o : Outcome) (b : Bool) {x : InitRec}
    (hx : x ∈ (s.leaveChannel r .aborted (fun x => x.ended o b)).exch.inits) (ht : x.tag = r.tag) : ∃ y : InitRec, x = y.ended o b := by
  have hleft : ∀ y ∈ (s.leftChannel r (fun x => x.ended o b)).exch.inits, y.tag = r.tag → ∃ z : InitRec, y = z.ended o b := by
    intro y hy hty
    rw [State.leftChannel_eq] at hy
    obtain ⟨z, -, rfl⟩ := List.mem_map.mp hy
    by_cases hz : z.tag = r.tag
    · exact ⟨{ z with ring := none }, if_pos hz⟩
    · rw [if_neg hz] at hty; exact absurd hty hz
  cases hh : s.headsChannel r with
  | false =>
    rw [State.leaveChannel_waiting _ _ hh] at hx
    exact hleft x hx ht
  | true =>
    obtain ⟨ch, hc⟩ := State.headsChannel_some hh
    rw [State.leaveChannel_head _ _ hh hc] at hx
    have hexch := State.recordDeparture_keepsInits (s.leftChannel r (fun x => x.ended o b)) ch .aborted r.label
    have honTag := State.becomeHead_onTag ((s.leftChannel r (fun x => x.ended o b)).recordDeparture ch .aborted r.label) ch (t := r.tag)
      (fun y hy hty => by
        rw [hexch] at hy
        obtain ⟨z, rfl⟩ := hleft y hy hty
        exact z.ended_outside o b ch)
    have hmem := List.mem_filter (p := fun x : InitRec => decide (x.tag = r.tag)).mpr ⟨hx, decide_eq_true ht⟩
    rw [honTag, hexch] at hmem
    exact hleft x (List.mem_filter.mp hmem).1 ht

/-! ### What an ending owes (R39), and its delivery (R38) -/

theorem State.mapInit_congr {s : State} {t : Tag} {f g : InitRec → InitRec} (h : ∀ x ∈ s.exch.inits, x.tag = t → f x = g x) :
    s.mapInit t f = s.mapInit t g := by
  unfold State.mapInit
  refine congrArg (fun l : List InitRec => { s with exch := { s.exch with inits := l } }) (List.map_congr_left fun x hx => ?_)
  by_cases ht : x.tag = t
  · rw [if_pos ht, if_pos ht, h x hx ht]
  · rw [if_neg ht, if_neg ht]

theorem State.leaveChannel_found {s : State} {r : InitRec} (o : Outcome) (b : Bool) (h : s.initRec r.tag = some r) :
    (s.leaveChannel r .aborted (fun x => x.ended o b)).initRec r.tag = some (r.ended o b) := by
  rw [State.leaveChannel_initRec s r .aborted (fun x => x.ended o b) (fun _ => rfl) (fun x c => x.ended_outside o b c), h]
  rfl

/-- The CANCEL an ending owes is placed, or wanted on a full queue (R12). -/
theorem State.beforeDelivery_asked {s : State} {r : InitRec} (o : Outcome) (a b : Bool) (h : s.initRec r.tag = some r) :
    let gone := s.leaveChannel r .aborted (fun x => x.ended o b)
    s.beforeDelivery r o a b = if a = false then gone
      else if gone.sched.items.length < 32 then { gone with sched := { gone.sched with
        items := gone.sched.items ++ [⟨⟨r.peer, s.own, r.tag, r.serial, .cancel⟩, .record⟩] } }
      else { gone with exch := { gone.exch with
        inits := gone.exch.inits.map (fun x => if x.tag = r.tag then { x with wanted := [.cancel] } else x) } } := by
  have hown : (s.leaveChannel r .aborted (fun x => x.ended o b)).own = s.own := by
    have hconfig := congrArg (fun e : EndSide => e.side.config) (s.leaveChannel_endSide r .aborted (fun x => x.ended o b))
    unfold State.own
    rw [show (s.leaveChannel r .aborted (fun x => x.ended o b)).host.config = s.host.config from hconfig]
  dsimp only
  unfold State.beforeDelivery
  cases a with
  | false => rfl
  | true =>
    dsimp only
    rw [if_pos rfl, if_neg (by decide), State.offerInit_uncredited (State.leaveChannel_found o b h) (fun hk => ItemKind.noConfusion hk), hown]
    refine congrArg (ite _ _) ?_
    refine State.mapInit_congr (f := fun x => { x with wanted := wantKind x.wanted .cancel }) (g := fun x => { x with wanted := [.cancel] })
      fun x hx ht => ?_
    obtain ⟨y, rfl⟩ := s.leaveChannel_ended r o b hx ht
    rfl

theorem State.beforeDelivery_endSide (s : State) (r : InitRec) (o : Outcome) (a b : Bool) :
    (s.beforeDelivery r o a b).endSide = s.endSide := by
  unfold State.beforeDelivery
  dsimp only
  split
  · exact (State.offerInit_endSide _ _ _).trans (s.leaveChannel_endSide _ _ _)
  · exact s.leaveChannel_endSide _ _ _

theorem State.own_of_endSide {s u : State} (h : u.endSide = s.endSide) : u.own = s.own := by
  unfold State.own
  rw [show u.host.config = s.host.config from congrArg (fun e : EndSide => e.side.config) h]

/-- With no free entry the record waits in DELIVERING, last (R38). -/
theorem State.endInit_queued {s : State} {r : InitRec} (o : Outcome) (a b : Bool) (h : s.initRec r.tag = some r)
    (hl : 16 ≤ s.host.outcomes.length) : s.endInit r o a b = { s.beforeDelivery r o a b with
      exch := { (s.beforeDelivery r o a b).exch with delivering := s.exch.delivering ++ [r.tag] } } := by
  obtain ⟨w, hfound, -⟩ := State.beforeDelivery_initRec o a b h
  obtain ⟨houtcomes, hdelivering, -⟩ := s.beforeDelivery_rest r o a b
  rw [State.endInit_eq, State.deliver, hfound]
  dsimp only
  rw [if_neg (by rw [houtcomes]; exact Nat.not_lt.mpr hl), hdelivering]

/-- With a free entry the outcome is filed, the record freed, its items keep their values, and the CLOSE owed follows (R38, R39, R161). -/
theorem State.endInit_filed {s : State} {r : InitRec} (o : Outcome) (a b : Bool) (h : s.initRec r.tag = some r)
    (hl : s.host.outcomes.length < 16) :
    let asked := s.beforeDelivery r o a b
    let kept := asked.fixRecord ⟨s.own, r.tag, r.serial⟩ .target r.flow.expected
    s.endInit r o a b = { kept with
      host := { asked.host with outcomes := s.host.outcomes ++ [⟨r.label, r.op, r.peer, o⟩], flags := asked.host.flags ||| 1 }
      exch := { asked.exch with inits := asked.exch.inits.filter (fun x => decide (x.tag ≠ r.tag))
                                delivering := s.exch.delivering.filter (fun t => decide (t ≠ r.tag)) }
      sched := { kept.sched with items := if b = true ∧ asked.sched.items.length < 32
        then kept.sched.items ++ [⟨⟨r.peer, s.own, r.tag, r.serial, .close⟩, .fixed⟩] else kept.sched.items } } := by
  obtain ⟨w, hfound, -⟩ := State.beforeDelivery_initRec o a b h
  obtain ⟨houtcomes, hdelivering, -⟩ := s.beforeDelivery_rest r o a b
  have hown := State.own_of_endSide (s.beforeDelivery_endSide r o a b)
  dsimp only
  rw [State.endInit_eq, State.deliver, hfound]
  dsimp only
  rw [if_pos (by rw [houtcomes]; exact hl), ← houtcomes, ← hdelivering, ← hown]
  have hlen : (fixItems (s.beforeDelivery r o a b).sched.items ⟨(s.beforeDelivery r o a b).own, r.tag, r.serial⟩ .target r.flow.expected).length =
    (s.beforeDelivery r o a b).sched.items.length := List.length_map _
  unfold State.enterQueue
  dsimp only
  cases b with
  | false => rw [if_neg (by decide), if_neg (fun hc => Bool.noConfusion hc.1)]; rfl
  | true =>
    rw [if_pos rfl]
    by_cases hroom : (s.beforeDelivery r o a true).sched.items.length < 32
    · rw [if_pos ⟨rfl, hroom⟩]
      exact State.offer_placed .fixed (fun hk => ItemKind.noConfusion hk) (hlen.trans_lt hroom)
    · rw [if_neg (fun hc => hroom hc.2)]
      exact State.offer_full .fixed (fun hk => ItemKind.noConfusion hk) (hlen.symm ▸ Nat.not_lt.mp hroom)

/-- The CANCEL owed changes only what stands behind the record that leaves. -/
theorem State.beforeDelivery_gone {s : State} {r : InitRec} (o : Outcome) (a b : Bool) (h : s.initRec r.tag = some r) :
    (s.beforeDelivery r o a b).host = (s.leaveChannel r .aborted (fun x => x.ended o b)).host ∧
    { (s.beforeDelivery r o a b).exch with
        inits := (s.beforeDelivery r o a b).exch.inits.filter (fun x => decide (x.tag ≠ r.tag)) } =
      { (s.leaveChannel r .aborted (fun x => x.ended o b)).exch with
        inits := (s.leaveChannel r .aborted (fun x => x.ended o b)).exch.inits.filter (fun x => decide (x.tag ≠ r.tag)) } := by
  rw [State.beforeDelivery_asked o a b h]
  dsimp only
  split
  · exact ⟨rfl, rfl⟩
  · split
    · exact ⟨rfl, rfl⟩
    · refine ⟨rfl, congrArg (fun l : List InitRec => { (s.leaveChannel r .aborted (fun x => x.ended o b)).exch with inits := l }) ?_⟩
      have hfilter := filter_map_tag (s.leaveChannel r .aborted (fun x => x.ended o b)).exch.inits r.tag
        (fun x => { x with wanted := [.cancel] }) id (fun _ => rfl) (fun _ => rfl)
      rwa [List.map_id, List.map_id] at hfilter

/-! ### The items of a record that is gone (R161) -/

theorem fixItems_others {l : List PendingItem} {i : ExchId} (h : ∀ p ∈ l, ¬ (p.item.init = i.peer ∧ p.item.tag = i.tag ∧ p.item.serial = i.serial))
    (role : Role) (n : Nat) : fixItems l i role n = l := by
  unfold fixItems
  refine (List.map_congr_left fun p hp => if_neg fun hc => h p hp ?_).trans (List.map_id l)
  exact ⟨hc.2.1, hc.2.2.1, hc.2.2.2.1⟩

theorem PendingItem.detach_eq (n : Nat) (p : PendingItem) : p.detach n = ⟨{ p.item with body := match p.item.body with
    | .credit d _ _ => .credit d n 0
    | b => b }, .fixed⟩ := by
  obtain ⟨⟨_, _, _, _, body⟩, _⟩ := p
  cases body <;> rfl

/-! ### The ending of a record that does not head its channel -/

theorem State.endInit_buf {s : State} {r : InitRec} (o : Outcome) (a b : Bool) (h : s.initRec r.tag = some r) :
    (s.endInit r o a b).buf = (s.leaveChannel r .aborted (fun x => x.ended o b)).buf := by
  have hasked : (s.beforeDelivery r o a b).buf = (s.leaveChannel r .aborted (fun x => x.ended o b)).buf := by
    rw [State.beforeDelivery_asked o a b h]
    dsimp only
    split
    · rfl
    · split <;> rfl
  by_cases hl : s.host.outcomes.length < 16
  · rw [State.endInit_filed o a b h hl]; exact hasked
  · rw [State.endInit_queued o a b h (Nat.not_lt.mp hl)]; exact hasked

theorem State.endInit_chan {s : State} {r : InitRec} (o : Outcome) (a b : Bool) (h : s.initRec r.tag = some r) (c : Channel) :
    (s.endInit r o a b).chan c = (s.leaveChannel r .aborted (fun x => x.ended o b)).chan c := by
  by_cases hl : s.host.outcomes.length < 16
  · obtain ⟨-, -, -, hchan⟩ := State.endInit_delivered o a b h hl
    exact hchan c
  · obtain ⟨-, -, -, -, hchan⟩ := State.endInit_waits o a b h (Nat.not_lt.mp hl)
    exact hchan c

theorem State.endInit_others {s : State} {r : InitRec} (o : Outcome) (a b : Bool) (h : s.initRec r.tag = some r)
    (hh : s.headsChannel r = false) (hl : s.host.outcomes.length < 16) :
    (s.endInit r o a b).exch.inits = s.exch.inits.filter (fun x => decide (x.tag ≠ r.tag)) := by
  obtain ⟨-, hexch⟩ := State.beforeDelivery_gone o a b h
  rw [State.endInit_filed o a b h hl]
  refine (congrArg Exchange.inits hexch).trans ?_
  rw [State.leaveChannel_waiting _ _ hh, State.leftChannel_eq]
  have hfilter := filter_map_tag s.exch.inits r.tag (fun x => ({ x with ring := none } : InitRec).ended o b) id (fun _ => rfl) (fun _ => rfl)
  rwa [List.map_id, List.map_id] at hfilter

/-- The items after an ending that finds room and none of its exchange waiting (R39, R161). -/
theorem State.endInit_items {s : State} {r : InitRec} (o : Outcome) (a b : Bool) (h : s.initRec r.tag = some r)
    (hh : s.headsChannel r = false) (hl : s.host.outcomes.length < 16) (hroom : s.sched.items.length < 32)
    (hnone : ∀ p ∈ s.sched.items, ¬ (p.item.init = s.own ∧ p.item.tag = r.tag ∧ p.item.serial = r.serial)) :
    (a = false → b = false → (s.endInit r o a b).sched.items = s.sched.items) ∧
    (a = true → b = false → (s.endInit r o a b).sched.items =
      s.sched.items ++ [⟨⟨r.peer, s.own, r.tag, r.serial, .cancel⟩, .fixed⟩]) ∧
    (a = false → b = true → (s.endInit r o a b).sched.items =
      s.sched.items ++ [⟨⟨r.peer, s.own, r.tag, r.serial, .close⟩, .fixed⟩]) := by
  have hgone : (s.leaveChannel r .aborted (fun x => x.ended o b)).sched = s.sched := by
    rw [State.leaveChannel_waiting _ _ hh, State.leftChannel_eq]
  have hfix := fixItems_others (i := ⟨s.own, r.tag, r.serial⟩) hnone .target r.flow.expected
  have hasked := State.beforeDelivery_asked o a b h
  dsimp only at hasked
  rw [hgone] at hasked
  rw [State.endInit_filed o a b h hl]
  dsimp only [State.fixRecord]
  refine ⟨?_, ?_, ?_⟩ <;> rintro rfl rfl
  · rw [if_neg (fun hc => Bool.noConfusion hc.1), hasked, if_pos rfl, hgone, hfix]
  · rw [if_neg (fun hc => Bool.noConfusion hc.1), hasked, if_neg (by decide), if_pos hroom]
    refine (List.map_append ..).trans (congrArg₂ (· ++ ·) hfix ?_)
    simp [ItemBody.toRole, PendingItem.detach]
  · rw [hasked, if_pos rfl, hgone, if_pos ⟨rfl, hroom⟩, hfix]

/-- An ending by the state `gone` in which the record has left its channel. -/
theorem State.endInit_steps {s : State} {r : InitRec} (o : Outcome) (a b : Bool) (h : s.initRec r.tag = some r) {gone : State}
    (hgone : s.leaveChannel r .aborted (fun x => x.ended o b) = gone) :
    let asked : State :=
      if a = false then gone
      else if gone.sched.items.length < 32 then { gone with sched := { gone.sched with
        items := gone.sched.items ++ [⟨⟨r.peer, s.own, r.tag, r.serial, .cancel⟩, .record⟩] } }
      else { gone with exch := { gone.exch with
        inits := gone.exch.inits.map (fun x => if x.tag = r.tag then { x with wanted := [.cancel] } else x) } }
    let kept : State := asked.fixRecord ⟨s.own, r.tag, r.serial⟩ .target r.flow.expected
    (16 ≤ s.host.outcomes.length → s.endInit r o a b = { asked with
      exch := { asked.exch with delivering := s.exch.delivering ++ [r.tag] } }) ∧
    (s.host.outcomes.length < 16 → s.endInit r o a b = { kept with
      host := { gone.host with outcomes := s.host.outcomes ++ [⟨r.label, r.op, r.peer, o⟩], flags := gone.host.flags ||| 1 }
      exch := { gone.exch with inits := gone.exch.inits.filter (fun x => decide (x.tag ≠ r.tag))
                               delivering := s.exch.delivering.filter (fun t => decide (t ≠ r.tag)) }
      sched := { kept.sched with items := if b = true ∧ asked.sched.items.length < 32
        then kept.sched.items ++ [⟨⟨r.peer, s.own, r.tag, r.serial, .close⟩, .fixed⟩] else kept.sched.items } }) := by
  subst hgone
  have hasked := State.beforeDelivery_asked o a b h
  obtain ⟨hhost, hexch⟩ := State.beforeDelivery_gone o a b h
  dsimp only at hasked ⊢
  rw [← hasked, ← hhost]
  obtain ⟨hinits, -, htargets, hlast, hserials⟩ := Exchange.mk.injEq .. ▸ hexch
  refine ⟨State.endInit_queued o a b h, fun hl => (State.endInit_filed o a b h hl).trans ?_⟩
  simp only [hinits, htargets, hlast, hserials]

/-! ### The ending as the statement tells it -/

theorem State.endInit_flagSet {s : State} {r : InitRec} {ch : Channel} (o : Outcome) (a b : Bool) (h : s.initRec r.tag = some r)
    (hc : r.channel = some ch) (hh : s.headsChannel r = true) : (s.endInit r o a b).flagSet (chanFlag ch) = true := by
  obtain ⟨-, hflags⟩ := State.leaveChannel_chan .aborted (fun x => x.ended o b) hh hc
  refine State.flagSet_of_or ?_
  by_cases hl : s.host.outcomes.length < 16
  · obtain ⟨-, -, hend, -⟩ := State.endInit_delivered o a b h hl
    rw [hend, hflags, ← BitVec.or_assoc, BitVec.or_comm s.host.flags, ← BitVec.or_assoc, BitVec.or_self]
  · obtain ⟨-, -, -, hend, -⟩ := State.endInit_waits o a b h (Nat.not_lt.mp hl)
    rw [hend, hflags, BitVec.or_comm s.host.flags, ← BitVec.or_assoc, BitVec.or_self]

theorem State.fixRecord_eq (s : State) (i : ExchId) (role : Role) (n : Nat) :
    let kept (p : PendingItem) : PendingItem :=
      if p.origin = .record ∧ p.item.init = i.peer ∧ p.item.tag = i.tag ∧ p.item.serial = i.serial ∧ p.item.body.toRole = role then
        ⟨{ p.item with body := match p.item.body with
          | .credit d _ _ => .credit d n 0
          | b => b }, .fixed⟩
      else p
    s.fixRecord i role n = { s with sched := { s.sched with
      items := s.sched.items.map kept, loopItems := s.sched.loopItems.map kept } } := by
  simp only [State.fixRecord, fixItems, PendingItem.detach_eq]

/-- Settles O27: an ending is told by `State.endInit_steps`, from the state in which the record has left its channel. -/
theorem initiatorEnds : Obligations.InitiatorEnds := by
  refine ⟨fun s r o a b h => ?_, ⟨fun s ch hn => State.becomeHead_none hn, fun s ch x hx => ?_, fun s r ch o h hc hh => ?_,
    fun s r o a b h => State.endAndTake_eq o a b h, State.fixRecord_eq⟩, fun s r o a b h => ?_⟩
  · refine ⟨fun hl => ?_, fun hl => ?_, fun c hc hh => ?_, fun hh => ?_, State.eq_of_endSide (s.endInit_endSide r o a b)⟩
    · obtain ⟨houtcomes, hgone, hflags, -⟩ := State.endInit_delivered o a b h hl
      refine ⟨houtcomes, hgone, State.flagSet_of_or ?_⟩
      rw [hflags, BitVec.or_comm, BitVec.or_assoc]
      rfl
    · obtain ⟨houtcomes, hdelivering, hfound, -⟩ := State.endInit_waits o a b h (Nat.not_lt.mp hl)
      exact ⟨houtcomes, hdelivering, hfound⟩
    · obtain ⟨hchan, -⟩ := State.leaveChannel_chan .aborted (fun x => x.ended o b) hh hc
      rw [State.endInit_chan o a b h, hchan]
      exact ⟨Bool.or_true _, rfl, rfl, State.endInit_flagSet o a b h hc hh⟩
    · have hleft := (State.leaveChannel_waiting (r := r) .aborted (fun x => x.ended o b) hh).trans (s.leftChannel_eq r _)
      refine ⟨?_, ?_, ?_, State.endInit_others o a b h hh, State.endInit_items o a b h hh⟩
      · exact (State.endInit_chan o a b h .a).trans (by rw [hleft]; rfl)
      · exact (State.endInit_chan o a b h .b).trans (by rw [hleft]; rfl)
      · rw [State.endInit_buf o a b h, hleft]
  · refine ⟨State.becomeHead_unserved hx, fun hr hf => ⟨fun ho hs => ?_, fun hno => ?_⟩⟩
    · rw [State.becomeHead_served hx hr hf, if_pos ⟨ho, hs⟩]
      rfl
    · rw [State.becomeHead_served hx hr hf, if_neg (by tauto)]
      rfl
  · have hgone := State.leaveChannel_departs .aborted (fun x => x.ended o false) hc hh
    obtain ⟨hwaits, hfiled⟩ := State.endInit_steps o false false h hgone
    obtain ⟨-, hdelivering, -⟩ := s.leaveChannel_rest r .aborted (fun x => x.ended o false)
    rw [hgone] at hdelivering
    rw [← hdelivering] at hwaits hfiled
    exact ⟨State.leaveChannel_departs .completed (fun x => { x with state := .awaitOutcome }) hc hh, hwaits, hfiled⟩
  · refine ⟨fun hh => ?_, fun ch hc hh => ?_⟩
    · exact State.endInit_steps o a b h ((State.leaveChannel_waiting .aborted _ hh).trans (s.leftChannel_eq r _))
    · have hgone := State.leaveChannel_departs .aborted (fun x => x.ended o b) hc hh
      simp only [decide_true, Bool.or_true] at hgone
      exact State.endInit_steps o a b h hgone

end Sys2Proof.Machine
end

