-- ==== Sys2Proof/Proofs/TargetTurns.lean ====
section
/-! SUPPORT. The own turn of a target record (O30, O50): a watch that counts, and a record that its watch has settled. -/

namespace Sys2Proof.Machine

/-! ### A watch that counts -/

/-- The wanted items of a record offered in their order, once its watch has done `f` (R12, R162). -/
def State.offeringTarget (s : State) (r : TargetRec) (i : ExchId) (f : TargetRec → TargetRec) : State :=
  r.wanted.foldl (fun u k => u.offerTarget i.peer i.tag k) (s.mapTarget i.peer i.tag (fun x => { f x with wanted := [] }))

theorem State.offeringTarget_only {s : State} {r : TargetRec} {i : ExchId} (hk : s.KeyIs i r) {f g : TargetRec → TargetRec}
    (h : f r = g r) : s.offeringTarget r i f = s.offeringTarget r i g := by
  have hmap : s.mapTarget i.peer i.tag (fun x => { f x with wanted := [] }) = s.mapTarget i.peer i.tag (fun x => { g x with wanted := [] }) :=
    State.mapTarget_only hk (by rw [h])
  rw [State.offeringTarget, State.offeringTarget, hmap]

/-- The item that the watches of a record order (R162). -/
def State.orderedTarget (s : State) (i : ExchId) : Option ItemKind → State
  | some .outcome => s.offerTargetOnce i.peer i.tag .outcome
  | some k => s.offerTarget i.peer i.tag k
  | none => s

/-- A turn whose watches have done `f` to the record: its wanted items, what they order, and the refresh (R162). -/
theorem State.targetTurn_counts {s : State} {r : TargetRec} {i : ExchId} {f : TargetRec → TargetRec} {o : Option ItemKind}
    (hr : s.targetRec i.peer i.tag = some r) (hid : r.id = some i) (hf : ∀ x, (f x).id = x.id) (hw : (f r).wanted = r.wanted)
    (hwatch : s.targetWatches r i = (s.mapTarget i.peer i.tag f, o)) :
    s.targetTurn i.peer i.tag = if (f r).refreshes then ((s.offeringTarget r i f).orderedTarget i o).offerTarget i.peer i.tag .credit
      else (s.offeringTarget r i f).orderedTarget i o := by
  have hmap : (s.mapTarget i.peer i.tag f).mapTarget i.peer i.tag (fun x => { x with wanted := [] }) =
      s.mapTarget i.peer i.tag (fun x => { f x with wanted := [] }) := State.mapTarget_mapTarget _ _ _ _ _ hf
  rw [State.targetTurn_eq hr hid, hwatch, State.afterWatches_eq (State.mapTarget_foundOn hr hf), hmap, hw]
  rfl

/-! ### A record that its watch has settled -/

theorem State.mapServed_quiet {u : State} {i : ExchId} (h : u.Quiet i) {f : TargetRec → TargetRec}
    (hf : ∀ x, (f x).id = x.id ∧ (f x).wanted = x.wanted ∧ (f x).state = x.state) : (u.mapServed f).Quiet i := by
  intro x hx hk
  obtain ⟨y, hy, rfl⟩ := List.mem_map.mp (show x ∈ u.exch.targets.map _ from hx)
  by_cases hs : u.isServed y = true
  · rw [if_pos hs] at hk ⊢
    obtain ⟨hid, hwanted, hstate⟩ := hf y
    rw [hwanted, hstate]
    rw [TargetRec.keyed_of_id_eq hid] at hk
    exact h y hy hk
  · rw [if_neg hs] at hk ⊢
    exact h y hy hk

theorem State.moverCheck_quiet {u : State} {i : ExchId} (h : u.Quiet i) : u.moverCheck.Quiet i := by
  unfold State.moverCheck
  split
  · unfold State.beginTransfer
    split
    · exact State.mapServed_quiet h (fun _ => ⟨rfl, rfl, rfl⟩)
    · exact h
  · split
    · unfold State.waitForTransfer
      split
      · exact State.mapServed_quiet h (fun _ => ⟨rfl, rfl, rfl⟩)
      · exact State.mapServed_quiet h (fun _ => ⟨rfl, rfl, rfl⟩)
    · exact h

theorem State.moverCheck_state (s : State) : s.moverCheck.port.state = s.port.state := by
  unfold State.moverCheck
  split
  · unfold State.beginTransfer
    split <;> rfl
  · split
    · unfold State.waitForTransfer
      split <;> rfl
    · rfl

theorem State.continueRunOut_quiet {u : State} {i : ExchId} (h : u.Quiet i) : u.continueRunOut.Quiet i := by
  unfold State.continueRunOut
  split
  · exact State.moverCheck_quiet h
  · exact h

theorem State.continueRunOut_state (s : State) : s.continueRunOut.port.state = s.port.state := by
  unfold State.continueRunOut
  split
  · exact s.moverCheck_state
  · rfl

/-- A record that has settled is outside the stall watch (R90). -/
theorem TargetRec.settled_no_stall (u : State) {x : TargetRec} {b : Bool} {k : Nat} (h : x.state = .settling b k) :
    u.targetStallRuns x = false := by
  simp [State.targetStallRuns, h]

theorem State.targetStallWatch_idle {u : State} {x : TargetRec} (h : u.targetStallRuns x = false) : u.targetStallWatch x = u := by
  unfold State.targetStallWatch
  split
  · rw [if_neg (by rw [h]; decide)]
  · rfl

/-! ### The stall watch of a sender (R90) -/

theorem SendCounters.stallTurn_counts {c : SendCounters} (h : c.base < c.next) (hs : c.stall < 3) :
    c.stallTurn = ({ c with stall := c.stall + 1 }, false) := by
  rw [SendCounters.stallTurn, if_pos h, if_pos (show c.stall + 1 < Limit.stallTurns from Nat.succ_lt_succ hs)]

theorem SendCounters.stallTurn_rewinds {c : SendCounters} (h : c.base < c.next) (hs : c.stall = 3) (hr : c.rewinds < 7) :
    c.stallTurn = ({ c with next := c.base, rewinds := c.rewinds + 1, stall := 0 }, false) := by
  rw [SendCounters.stallTurn, if_pos h, if_neg (by rw [hs]; decide), if_pos (show c.rewinds + 1 < Limit.rewinds from Nat.succ_lt_succ hr)]

theorem SendCounters.stallTurn_ends {c : SendCounters} (h : c.base < c.next) (hs : c.stall = 3) (hr : 7 ≤ c.rewinds) :
    c.stallTurn = ({ c with rewinds := 8 }, true) := by
  rw [SendCounters.stallTurn, if_pos h, if_neg (by rw [hs]; decide),
    if_neg (show ¬ c.rewinds + 1 < Limit.rewinds from Nat.not_lt.mpr (Nat.succ_le_succ hr))]
  rfl

theorem TargetRec.read_no_refresh {r : TargetRec} (h : r.op = .read) : r.refreshes = false := by
  simp [TargetRec.refreshes, h]

/-! ### The turn that ends a record -/

theorem State.targetTurn_quiet {s u : State} {r : TargetRec} {i : ExchId} (hr : s.targetRec i.peer i.tag = some r) (hid : r.id = some i)
    (hwatch : s.targetWatches r i = (u, none)) (hq : u.Quiet i) : s.targetTurn i.peer i.tag = u := by
  rw [State.targetTurn_eq hr hid, hwatch]
  exact State.afterWatches_quiet hq

theorem State.stallWatch_ends {u : State} {i : ExchId} {x : TargetRec} {c : SendCounters} (hid : x.id = some i)
    (hf : x.flow = .sender c) (hr : u.targetStallRuns x = true) (hb : c.base < c.next) (hs : c.stall = 3) (hw : 7 ≤ c.rewinds) :
    u.targetStallWatch x = (u.mapTarget i.peer i.tag (fun _ => { x with flow := .sender { c with rewinds := 8 } })).rewindLimitTarget
      { x with flow := .sender { c with rewinds := 8 } } := by
  simp only [State.targetStallWatch, hf, hid, SendCounters.stallTurn_ends hb hs hw]
  exact if_pos hr

/-- The row REWIND_LIMIT_TARGET where it is due (R92). -/
theorem exec_rewindLimitTarget_due {u : State} {p : Station} {t : Tag} {x : TargetRec} {c : SendCounters} (hr : u.targetRec p t = some x)
    (hf : x.flow = .sender c) (hb : c.base < c.next) (hw : 7 ≤ c.rewinds) (hs : x.state = .active ∨ x.state = .finishing) :
    exec (.rewindLimitTarget p t) u = .next
      ((u.mapTarget p t (fun _ => { x with flow := .sender { c with rewinds := 8 } })).rewindLimitTarget
        { x with flow := .sender { c with rewinds := 8 } }) := by
  have hdue : c.lastRewindDue = true := by
    simp only [SendCounters.lastRewindDue, Bool.and_eq_true, decide_eq_true_eq]
    exact ⟨hb, Nat.succ_le_succ hw⟩
  show execRewindLimitTarget p t u = _
  simp only [execRewindLimitTarget, hr, hf]
  exact if_pos ⟨hdue, hs⟩

/-- No wanted item stands on a key. -/
def State.NoneWanted (u : State) (i : ExchId) : Prop := ∀ x ∈ u.exch.targets, x.keyed i.peer i.tag = true → x.wanted = []

theorem State.mapTarget_noneWanted (u : State) (i : ExchId) {x : TargetRec} (hw : x.wanted = []) :
    (u.mapTarget i.peer i.tag (fun _ => x)).NoneWanted i := by
  intro y hy hk
  obtain ⟨z, -, rfl⟩ := List.mem_map.mp (show y ∈ u.exch.targets.map _ from hy)
  by_cases hz : z.keyed i.peer i.tag = true
  · rw [if_pos hz]; exact hw
  · rw [if_neg hz] at hk; exact absurd hk hz

theorem State.mapServed_noneWanted {u : State} {i : ExchId} (h : u.NoneWanted i) {f : TargetRec → TargetRec}
    (hf : ∀ x, (f x).id = x.id ∧ (f x).wanted = x.wanted) : (u.mapServed f).NoneWanted i := by
  intro x hx hk
  obtain ⟨y, hy, rfl⟩ := List.mem_map.mp (show x ∈ u.exch.targets.map _ from hx)
  by_cases hs : u.isServed y = true
  · rw [if_pos hs] at hk ⊢
    rw [TargetRec.keyed_of_id_eq (hf y).1] at hk
    exact (hf y).2.trans (h y hy hk)
  · rw [if_neg hs] at hk ⊢
    exact h y hy hk

theorem State.stopServing_read {u : State} {x : TargetRec} (ho : x.op = .read)
    (hp : u.port.state = .serving .data ∨ u.port.state = .serving .closing) : u.stopServing x = (u.startRunOut x, true) := by
  unfold State.stopServing
  rcases hp with hp | hp <;> rw [hp, ho]

/-- An ACTIVE READ that the eighth rewind ends in the data or closing phase is run out with nothing to offer (R92, R127). -/
theorem State.rewindLimitTarget_active_quiet {u : State} {i : ExchId} {x : TargetRec} (h : u.NoneWanted i) (hid : x.id = some i)
    (ho : x.op = .read) (hs : x.state = .active) (hp : u.port.state = .serving .data ∨ u.port.state = .serving .closing) :
    (u.rewindLimitTarget x).Quiet i := by
  have hrun : (u.startRunOut x).NoneWanted i :=
    State.mapServed_noneWanted (f := fun r => { r with ring := r.ring.map Ring.dropFull }) h (fun _ => ⟨rfl, rfl⟩)
  have hquiet := State.settle_quiet hid hrun ⟨.linkFault, x.moved, true, none⟩ true
  have hstate := (((u.startRunOut x).settle x ⟨.linkFault, x.moved, true, none⟩ true).continueRunOut_state).trans
    (congrArg Port.state (State.settle_port _ _ _ _))
  rw [State.rewindLimitTarget, State.settleStopped_active .linkFault hs (State.stopServing_read ho hp),
    State.grant_notIdle (by rw [hstate]; exact PortState.noConfusion)]
  exact State.continueRunOut_quiet hquiet

/-! ### Which watch counts (R162) -/

/-- A record at a further own turn of its wait on the ring (R126). -/
def TargetRec.starvedTurn (n : Nat) (x : TargetRec) : TargetRec := { x with starvation := some (n + 1) }

/-- The starvation count comes before the stall watch (log 31). -/
theorem State.targetWatches_starving {s : State} {r : TargetRec} {i : ExchId} {n : Nat} (hr : s.targetRec i.peer i.tag = some r)
    (hs : r.state = .active) (hp : r.priming = none) (hn : r.starvation = some n) (hlt : n + 1 < 64) :
    s.targetWatches r i = ((s.mapTarget i.peer i.tag (TargetRec.starvedTurn n)).targetStallWatch (r.starvedTurn n), none) := by
  have hcount : s.starvationWatch i n = s.mapTarget i.peer i.tag (TargetRec.starvedTurn n) := if_pos hlt
  have hfound := State.mapTarget_foundOn (f := TargetRec.starvedTurn n) hr (fun _ => rfl)
  simp only [State.targetWatches, hs, hp, hn, hcount, hfound]

theorem State.targetWatches_stalling {s : State} {r : TargetRec} (i : ExchId) (hs : r.state = .queued ∨ r.state = .active ∨ r.state = .finishing)
    (hp : r.priming = none) (hn : r.starvation = none) : s.targetWatches r i = (s.targetStallWatch r, none) := by
  unfold State.targetWatches
  rcases hs with hs | hs | hs <;> simp only [hs, hp, hn]

theorem State.targetStallRuns_peer {u : State} {x : TargetRec} {i : ExchId} (hs : x.state = .active ∨ x.state = .finishing)
    (hid : x.id = some i) (hp : i.peer ≠ u.own) : u.targetStallRuns x = true := by
  simp only [State.targetStallRuns, hid, Bool.and_eq_true, Bool.or_eq_true, decide_eq_true_eq]
  exact ⟨hs, hp⟩

theorem State.targetStallRuns_own {u : State} {x : TargetRec} {i : ExchId} (hid : x.id = some i) (hp : i.peer = u.own) :
    u.targetStallRuns x = false := by
  simp [State.targetStallRuns, hid, hp]

end Sys2Proof.Machine
end

