-- ==== Sys2Proof/Proofs/TargetWatches.lean ====
section
/-! SUPPORT. The watches of a target record (O30): the rows of priming, starvation and resend, and both watches of a READ at one own
turn. -/

namespace Sys2Proof.Machine

/-! ### Priming (R50) -/

theorem exec_primingCredit_due {s : State} {r : TargetRec} {i : ExchId} {n : Nat} (ha : s.activeRec = some r) (hid : r.id = some i)
    (hp : r.priming = some n) (hn : n + 1 < 32) (hm : (n + 1) % 4 = 0) : exec .primingCredit s =
      .next ((s.mapTarget i.peer i.tag (fun x => { x with priming := some (n + 1) })).offerTarget i.peer i.tag .credit) := by
  show execPrimingCredit s = _
  simp only [execPrimingCredit, ha, hp, hid]
  exact if_pos ⟨hn, hm⟩

theorem exec_primingLimit_of {s : State} {r : TargetRec} {n : Nat} (ha : s.activeRec = some r) (hp : r.priming = some n) :
    exec .primingLimit s = .next (if 32 ≤ n + 1 then s.primingEnds r else s) := by
  show execPrimingLimit s = _
  simp only [execPrimingLimit, ha, hp]
  by_cases hn : 32 ≤ n + 1
  · rw [if_pos hn]; exact if_pos hn
  · rw [if_neg hn]; exact if_neg hn

theorem State.settle_released {s : State} {r : TargetRec} {i : ExchId} (o : Outcome) (hid : r.id = some i) :
    s.settle r o false = { s with
      exch := { s.exch with targets := s.exch.targets.map (fun x => if x.keyed i.peer i.tag then x.settled o false else x) }
      buf := { s.buf with servFree := s.buf.servFree ++ r.ring.elim [] (List.map Slot.area) } } := by
  rw [State.settle_eq o false hid, ← ringAreas_eq]
  rfl

/-! ### Starvation (R126) -/

theorem exec_starvationLimit_of {s : State} {r : TargetRec} {n : Nat} (ha : s.activeRec = some r) (hp : r.starvation = some n) :
    exec .starvationLimit s = .next (if 64 ≤ n + 1 then s.endByWatch .starved else s) := by
  show execStarvationLimit s = _
  simp only [execStarvationLimit, ha, hp]
  by_cases hn : 64 ≤ n + 1
  · rw [if_pos hn]; exact if_pos hn
  · rw [if_neg hn]; exact if_neg hn

theorem State.endByWatch_of {s : State} {r : TargetRec} {i : ExchId} (ha : s.activeRec = some r) (hid : r.id = some i)
    (code : OutcomeCode) : s.endByWatch code =
      s.enterResetting.mapTarget i.peer i.tag (fun x => x.settled ⟨code, r.moved, true, none⟩ true) := by
  rw [State.endByWatch, ha]
  exact State.settle_eq _ true hid

/-- A record as the reset of the module leaves it: its transfers cut where the port serves it (R77, R128). -/
def State.cutServed (s : State) (x : TargetRec) : TargetRec :=
  if s.isServed x then { x with ring := x.ring.map Ring.cutTransfers } else x

theorem State.enterResetting_targetRec {s : State} {p : Station} {t : Tag} {r : TargetRec} (hr : s.targetRec p t = some r) :
    s.enterResetting.targetRec p t = some (s.cutServed r) := by
  have hid (x : TargetRec) : (s.cutServed x).id = x.id := by
    unfold State.cutServed
    split <;> rfl
  rw [State.targetRec_map s s.enterResetting s.cutServed hid rfl p t, hr]
  rfl

theorem State.cutServed_areas (s : State) (x : TargetRec) :
    (s.cutServed x).ring.map (List.map Slot.area) = x.ring.map (List.map Slot.area) := by
  unfold State.cutServed
  split
  · cases x.ring with
    | none => rfl
    | some g => exact congrArg some g.cutTransfers_slotAreas
  · rfl

/-! ### The resend of an OUTCOME (R54) -/

/-- A SETTLING record at an own turn that queues its OUTCOME (R54). -/
def TargetRec.resent (x : TargetRec) : TargetRec := { x with state := .settling false 0 }

theorem exec_outcomeResend_due {s : State} {r : TargetRec} {i : ExchId} {owed : Bool} {n : Nat} (hr : s.targetRec i.peer i.tag = some r)
    (hid : r.id = some i) (hs : r.state = .settling owed n) (hd : owed = true ∨ 3 ≤ n) : exec (.outcomeResend i.peer i.tag) s =
      .next ((s.mapTarget i.peer i.tag TargetRec.resent).offerTargetOnce i.peer i.tag .outcome) := by
  have hdue : owed = true ∨ Limit.resend ≤ n + 1 := hd.imp_right Nat.succ_le_succ
  have hcount : (owed || decide (Limit.resend ≤ n + 1)) = true := by simpa using hdue
  show execOutcomeResend i.peer i.tag s = _
  simp only [execOutcomeResend, hr, hs, hid]
  rw [if_pos hdue, State.resendWatch]
  simp only [hcount, if_true]
  rfl

theorem State.outcomeWaits_iff (s : State) (r : TargetRec) (i : ExchId) : s.waits (r.item i .outcome) .record = true ↔
    ∃ p ∈ s.sched.items, p.origin = .record ∧ p.item.init = i.peer ∧ p.item.tag = i.tag ∧ p.item.serial = i.serial ∧
      ∃ code done status detail, p.item.body = .outcome code done status detail := by
  have hkind : (r.item i .outcome).body.kind = .outcome := by
    simp only [TargetRec.item]
    cases r.outcome <;> rfl
  simp only [State.waits_record_iff, hkind, ItemBody.kind_outcome_iff]
  rfl

/-! ### Both watches of a READ at one own turn (R90, R126, log 31) -/

/-- A READ that waits on the ring, as both of its counts leave it. -/
def TargetRec.bothCounted (n : Nat) (d : SendCounters) (x : TargetRec) : TargetRec := { x with starvation := some (n + 1), flow := .sender d }

theorem TargetRec.starvedTurn_sender {r : TargetRec} {c : SendCounters} (n : Nat) (hf : r.flow = .sender c) :
    r.starvedTurn n = r.bothCounted n c := by
  rw [TargetRec.bothCounted, ← hf]
  rfl

section
variable {s : State} {r : TargetRec} {i : ExchId} {c : SendCounters} {n : Nat}

/-- A READ that waits on the ring toward the own station counts its starvation alone. -/
theorem State.targetTurn_starving_own (hk : s.KeyIs i r) (hr : s.targetRec i.peer i.tag = some r) (hid : r.id = some i) (ho : r.op = .read)
    (hs : r.state = .active) (hp : r.priming = none) (hf : r.flow = .sender c) (hn : r.starvation = some n) (hlt : n + 1 < 64)
    (hown : i.peer = s.own) : s.targetTurn i.peer i.tag = s.offeringTarget r i (TargetRec.bothCounted n c) := by
  have hwatch := State.targetWatches_starving hr hs hp hn hlt
  have hruns := State.targetStallRuns_own (u := s.mapTarget i.peer i.tag (TargetRec.starvedTurn n)) (x := r.starvedTurn n) hid hown
  rw [State.targetStallWatch_idle hruns] at hwatch
  have hturn := State.targetTurn_counts (f := TargetRec.starvedTurn n) hr hid (fun _ => rfl) rfl hwatch
  rw [if_neg (by rw [TargetRec.read_no_refresh (by exact ho)]; decide)] at hturn
  exact hturn.trans (State.offeringTarget_only hk (TargetRec.starvedTurn_sender n hf))

/-- Toward another station the stall watch counts or rewinds behind it. -/
theorem State.targetTurn_starving_peer (hk : s.KeyIs i r) (hr : s.targetRec i.peer i.tag = some r) (hid : r.id = some i) (ho : r.op = .read)
    (hs : r.state = .active) (hp : r.priming = none) (hf : r.flow = .sender c) (hn : r.starvation = some n) (hlt : n + 1 < 64)
    (hpeer : i.peer ≠ s.own) {d : SendCounters} (hd : c.stallTurn = (d, false)) :
    s.targetTurn i.peer i.tag = s.offeringTarget r i (TargetRec.bothCounted n d) := by
  have hwatch := State.targetWatches_starving hr hs hp hn hlt
  have hruns := State.targetStallRuns_peer (u := s.mapTarget i.peer i.tag (TargetRec.starvedTurn n))
    (x := r.starvedTurn n) (.inl hs) hid hpeer
  rw [State.stallWatch_counts (x := r.starvedTurn n) (State.mapTarget_keyIs hk (fun _ => rfl)) hid hf hruns hd,
    State.mapTarget_mapTarget _ _ _ (TargetRec.starvedTurn n) _ (fun _ => rfl)] at hwatch
  have hturn := State.targetTurn_counts (f := TargetRec.bothCounted n d) hr hid (fun _ => rfl) rfl hwatch
  rwa [if_neg (by rw [TargetRec.read_no_refresh (by exact ho)]; decide)] at hturn

/-- The eighth rewind of a READ that waits on the ring is REWIND_LIMIT_TARGET behind its starvation count (R92). -/
theorem State.targetTurn_starving_ends (hk : s.KeyIs i r) (hr : s.targetRec i.peer i.tag = some r) (hid : r.id = some i) (ho : r.op = .read)
    (hs : r.state = .active) (hp : r.priming = none) (hf : r.flow = .sender c) (hb : c.base < c.next) (hn : r.starvation = some n)
    (hlt : n + 1 < 64) (hpeer : i.peer ≠ s.own) (hc : c.stall = 3) (hw : 7 ≤ c.rewinds) (hnone : r.wanted = [])
    (hport : s.port.state = .serving .data) :
    exec (.rewindLimitTarget i.peer i.tag) (s.mapTarget i.peer i.tag (TargetRec.bothCounted n c)) = .next (s.targetTurn i.peer i.tag) := by
  have hmap : s.mapTarget i.peer i.tag (TargetRec.bothCounted n c) = s.mapTarget i.peer i.tag (TargetRec.starvedTurn n) :=
    State.mapTarget_only hk (TargetRec.starvedTurn_sender n hf).symm
  have hwatch := State.targetWatches_starving hr hs hp hn hlt
  have hruns := State.targetStallRuns_peer (u := s.mapTarget i.peer i.tag (TargetRec.starvedTurn n))
    (x := r.starvedTurn n) (.inl hs) hid hpeer
  rw [State.stallWatch_ends (x := r.starvedTurn n) hid hf hruns hb hc hw] at hwatch
  rw [hmap, State.targetTurn_quiet hr hid hwatch (State.rewindLimitTarget_active_quiet (State.mapTarget_noneWanted _ i hnone) hid ho hs (.inl hport))]
  exact exec_rewindLimitTarget_due (State.mapTarget_foundOn hr (fun _ => rfl)) hf hb hw (.inl hs)

/-- The eighth rewind of a READ that does not wait is REWIND_LIMIT_TARGET (R92). -/
theorem State.targetTurn_stall_ends (hr : s.targetRec i.peer i.tag = some r) (hid : r.id = some i) (ho : r.op = .read)
    (hs : r.state = .active) (hp : r.priming = none) (hf : r.flow = .sender c) (hb : c.base < c.next) (hn : r.starvation = none)
    (hpeer : i.peer ≠ s.own) (hc : c.stall = 3) (hw : 7 ≤ c.rewinds) (hnone : r.wanted = [])
    (hport : s.port.state = .serving .data ∨ s.port.state = .serving .closing) :
    exec (.rewindLimitTarget i.peer i.tag) s = .next (s.targetTurn i.peer i.tag) := by
  have hwatch := State.targetWatches_stalling (s := s) i (.inr (.inl hs)) hp hn
  rw [State.stallWatch_ends hid hf (State.targetStallRuns_peer (.inl hs) hid hpeer) hb hc hw] at hwatch
  rw [State.targetTurn_quiet hr hid hwatch (State.rewindLimitTarget_active_quiet (State.mapTarget_noneWanted _ i hnone) hid ho hs hport)]
  exact exec_rewindLimitTarget_due hr hf hb hw (.inl hs)

end

/-- Settles O30: each row where its watch is due, and the turn of a READ as its two watches leave it. -/
theorem watchesOfATargetRecord : Obligations.WatchesOfATargetRecord := by
  refine ⟨fun s r i n ha hid hp => ⟨fun hmem => ?_, fun hn => ?_, fun hn => ?_⟩, fun s r i n ha hid hn => ⟨fun hlt => ?_, fun hle hr => ?_⟩,
    fun s r i owed n o hr hid hs hd ho => ?_, fun s r i c hlim hr hid ho hs hp hf hb => ?_⟩
  · have hcount : n + 1 < 32 ∧ (n + 1) % 4 = 0 := by
      simp only [List.mem_cons, List.not_mem_nil, or_false] at hmem
      omega
    exact exec_primingCredit_due ha hid hp hcount.1 hcount.2
  · rw [exec_primingLimit_of ha hp, if_pos hn.ge, State.primingEnds, State.settle_released _ hid]
    rfl
  · rw [exec_primingLimit_of ha hp, if_neg (Nat.not_le.mpr hn)]
  · rw [exec_starvationLimit_of ha hn, if_neg (Nat.not_le.mpr hlt)]
  · have hfound := State.mapTarget_foundOn (f := fun x => x.settled ⟨.starved, r.moved, true, none⟩ true)
      (State.enterResetting_targetRec hr) (fun _ => rfl)
    rw [exec_starvationLimit_of ha hn, if_pos hle, State.endByWatch_of ha hid]
    exact ⟨_, _, rfl, hfound, rfl, rfl, s.cutServed_areas r, rfl, rfl, rfl, rfl, rfl, rfl⟩
  · have hitem : r.resent.item i .outcome = ⟨i.peer, i.peer, i.tag, i.serial,
        .outcome o.code o.done (o.pair.elim 0 Prod.fst) (o.pair.elim 0 Prod.snd)⟩ := by
      simp only [TargetRec.item, TargetRec.resent, ho, outcomeBody]
    have hfound := State.mapTarget_foundOn (f := TargetRec.resent) hr (fun _ => rfl)
    have hwaits := State.outcomeWaits_iff (s.mapTarget i.peer i.tag TargetRec.resent)
      r.resent i
    dsimp only
    rw [exec_outcomeResend_due hr hid hs hd]
    refine ⟨fun h => congrArg _ (State.offerTargetOnce_kept hfound hid ?_), fun hnw hnone => ?_⟩
    · exact h.symm.imp_left hwaits.mpr
    · have hkind : (r.resent.item i .outcome).body.kind ≠ .credit := by
        rw [hitem]; exact ItemKind.noConfusion
      rw [State.offerTargetOnce_offers hfound hid (fun h => hnone (hwaits.mp h)) hnw, State.offerTarget_uncredited hfound hid hkind, hitem]
      refine ⟨fun hl => ?_, fun hl => ?_⟩
      · exact congrArg _ (if_pos hl)
      · refine congrArg _ ((if_neg (Nat.not_lt.mpr hl)).trans ?_)
        rw [State.mapTarget_mapTarget _ _ _ TargetRec.resent _ (fun _ => rfl)]
        simp only [State.mapTarget, wantKind_eq]
        rfl
  · have hk := State.keyIs_of hlim hr
    dsimp only
    refine ⟨fun n hn hlt => ⟨fun hown => ?_, fun hpeer hc => ?_, fun hpeer hc hw => ?_, fun hpeer hc hw hnone hport => ?_⟩,
      fun hn hpeer hc hw hnone hport => ?_⟩
    · exact State.targetTurn_starving_own hk hr hid ho hs hp hf hn hlt hown
    · exact State.targetTurn_starving_peer hk hr hid ho hs hp hf hn hlt hpeer (SendCounters.stallTurn_counts hb hc)
    · exact State.targetTurn_starving_peer hk hr hid ho hs hp hf hn hlt hpeer (SendCounters.stallTurn_rewinds hb hc hw)
    · exact State.targetTurn_starving_ends hk hr hid ho hs hp hf hb hn hlt hpeer hc hw hnone hport
    · exact State.targetTurn_stall_ends hr hid ho hs hp hf hb hn hpeer hc hw hnone hport

end Sys2Proof.Machine
end

