-- ==== Sys2Proof/Proofs/Compositions.lean ====
section
/-! SUPPORT. The composition of an own turn (O38, O50): its frames on the line (R163, R164). -/

namespace Sys2Proof.Machine

/-- A frame of an own turn as composed, before the last-in-turn flag falls (R164). -/
def State.turnFrame (s : State) (w : BitVec 16) (k : FrameKind) (p : Payload) : Frame := ⟨k, s.own, false, s.port.state.ready, w, p⟩

theorem State.frame_member {s u : State} {w : BitVec 16} (hl : s.member.link = .member)
    (hw : ∀ n : Station, w.getLsbD n.val = s.member.roster[n].present)
    (hu : u.member = s.member ∧ u.host = s.host ∧ u.port = s.port) (k : FrameKind) (last : Bool) (p : Payload) :
    u.frame k last p = ⟨k, s.own, last, s.port.state.ready, w, p⟩ := by
  obtain ⟨hmember, hhost, hport⟩ := hu
  have hown : u.own = s.own := by unfold State.own; rw [hhost]
  have hset : stationSet u.present = w := stationSet_eq _ _ (fun n => by rw [hw n, State.present, hmember])
  simp only [State.frame, State.bitmap, hmember, hl, hown, hport, hset]

theorem State.lineFrames_eq {s u : State} {w : BitVec 16}
    (hf : ∀ k last p, u.frame k last p = ⟨k, s.own, last, s.port.state.ready, w, p⟩) (items : List Item) (blocks : List DataBlock) :
    u.lineFrames items blocks =
      (let onLine := (if items = [] then [] else [s.turnFrame w .control (.items items)]) ++
        blocks.map (fun d => s.turnFrame w .data (.data d))
       let frames := if onLine = [] then [s.turnFrame w .pass .none] else onLine
       frames.dropLast ++ (frames.getLast?.map (fun f => { f with last := true })).toList) := by
  cases items <;> cases blocks <;> simp [State.lineFrames, markLast_eq, hf, State.turnFrame]

theorem State.composeTurn_eq (s : State) (w : BitVec 16) (hl : s.member.link = .member)
    (hw : ∀ n : Station, w.getLsbD n.val = s.member.roster[n].present) :
    let sets := walkItems s.own s.sched.items
    let items := sets.line.map s.resolve
    let picked := ({ s with sched := { s.sched with items := sets.left, loopItems := sets.loop } } : State).picks 8
      (if items = [] then 4 else 3) 4
    let onLine := (if items = [] then [] else [s.turnFrame w .control (.items items)]) ++
      (picked.2.filter (fun x => decide (x.data.dest ≠ s.own))).map (fun x => s.turnFrame w .data (.data x.data))
    let frames := if onLine = [] then [s.turnFrame w .pass .none] else onLine
    s.composeTurn = ({ picked.1 with line := { receiving := false, tx := some ⟨.ownTurn,
        frames.dropLast ++ (frames.getLast?.map (fun f => { f with last := true })).toList⟩ } },
      picked.2.filter (fun x => decide (x.data.dest = s.own))) := by
  intro sets items picked onLine frames
  have hbudget : (if items.isEmpty then Limit.turnData else Limit.turnData - 1) = if items = [] then 4 else 3 := by
    cases items <;> rfl
  have hkeeps := State.picks_keeps 8 (if items = [] then 4 else 3) 4
    { s with sched := { s.sched with items := sets.left, loopItems := sets.loop } }
  have hown : picked.1.own = s.own := by unfold State.own; rw [hkeeps.2.1]
  have hline := State.lineFrames_eq (State.frame_member hl hw hkeeps) items
    ((picked.2.filter (fun x => decide (x.data.dest ≠ s.own))).map Sendable.data)
  rw [List.map_map] at hline
  unfold State.composeTurn
  dsimp only
  rw [hbudget]
  show (picked.1.transmit .ownTurn (picked.1.lineFrames items
    ((picked.2.filter (fun x => decide (x.data.dest ≠ picked.1.own))).map Sendable.data)),
    picked.2.filter (fun x => decide (x.data.dest = picked.1.own))) = _
  rw [hown, hline]
  rfl

end Sys2Proof.Machine
end

