-- ==== Sys2Proof/Proofs/Blocks.lean ====
section
/-! SUPPORT. Blocks on the way (O38): which block is sendable, the picks of a turn, and an own turn that sends one. -/

namespace Sys2Proof.Machine

/-! ### Sendable blocks (R79, R80) -/

theorem Ring.fullSlot_some {ring : Ring} {b : Nat} {a : AreaNo} (h : ring[b % ring.length]? = some ⟨a, .full b⟩) :
    ring.fullSlot b = some ⟨a, .full b⟩ := by
  rw [Ring.fullSlot, Ring.slot_eq, h]
  exact if_pos (decide_eq_true rfl)

theorem Ring.fullSlot_none {ring : Ring} {b : Nat} (h : ∀ a, ring[b % ring.length]? ≠ some ⟨a, .full b⟩) : ring.fullSlot b = none := by
  rw [Ring.fullSlot, Ring.slot_eq, Option.filter_eq_none_iff]
  rintro ⟨a, st⟩ hs hst
  exact h a (hs.trans (by rw [show st = .full b from of_decide_eq_true hst]))

theorem State.initSendable_sends {s : State} {r : InitRec} {c : SendCounters} {ring : Ring} {a : AreaNo} (hf : r.flow = .sender c)
    (hr : r.ring = some ring) (hs : r.state = .waiting ∨ r.state = .moving) (hh : s.headsChannel r = true) (hl : c.next < c.limit)
    (ha : ring[c.next % ring.length]? = some ⟨a, .full c.next⟩) : s.initSendable r =
      some ⟨⟨s.own, r.tag, .initiator⟩, ⟨r.peer, s.own, r.tag, r.serial, c.next, s.buf.ram.readBlock a⟩⟩ := by
  simp only [State.initSendable, hf, hr, Ring.fullSlot_some ha]
  exact if_pos ⟨hs, hh, hl⟩

theorem State.initSendable_holds {s : State} {r : InitRec} {c : SendCounters} {ring : Ring} (hf : r.flow = .sender c)
    (hr : r.ring = some ring) (h : ¬ (r.state = .waiting ∨ r.state = .moving) ∨ s.headsChannel r = false ∨ c.limit ≤ c.next ∨
      (∀ a, ring[c.next % ring.length]? ≠ some ⟨a, .full c.next⟩)) : s.initSendable r = none := by
  simp only [State.initSendable, hf, hr]
  split
  · next hc =>
    obtain ⟨hs, hh, hl⟩ := hc
    rcases h with h | h | h | h
    · exact absurd hs h
    · rw [h] at hh; exact Bool.noConfusion hh
    · exact absurd hl (Nat.not_lt.mpr h)
    · rw [Ring.fullSlot_none h]; rfl
  · rfl

theorem State.targetSendable_sends {s : State} {r : TargetRec} {i : ExchId} {c : SendCounters} {ring : Ring} {a : AreaNo}
    (hid : r.id = some i) (hf : r.flow = .sender c) (hr : r.ring = some ring) (hs : r.state = .active ∨ r.state = .finishing)
    (hl : c.next < c.limit) (ha : ring[c.next % ring.length]? = some ⟨a, .full c.next⟩) : s.targetSendable r =
      some ⟨⟨i.peer, i.tag, .target⟩, ⟨i.peer, i.peer, i.tag, i.serial, c.next, s.buf.ram.readBlock a⟩⟩ := by
  simp only [State.targetSendable, hf, hr, hid, Ring.fullSlot_some ha]
  exact if_pos ⟨hs, hl⟩

theorem State.targetSendable_holds {s : State} {r : TargetRec} {i : ExchId} {c : SendCounters} {ring : Ring}
    (hid : r.id = some i) (hf : r.flow = .sender c) (hr : r.ring = some ring) (h : ¬ (r.state = .active ∨ r.state = .finishing) ∨
      c.limit ≤ c.next ∨ (∀ a, ring[c.next % ring.length]? ≠ some ⟨a, .full c.next⟩)) : s.targetSendable r = none := by
  simp only [State.targetSendable, hf, hr, hid]
  split
  · next hc =>
    rcases h with h | h | h
    · exact absurd hc.1 h
    · exact absurd hc.2 (Nat.not_lt.mpr h)
    · rw [Ring.fullSlot_none h]; rfl
  · rfl

theorem State.initSendable_receiver {s : State} {r : InitRec} (h : (∀ c, r.flow ≠ .sender c) ∨ r.ring = none) :
    s.initSendable r = none := by
  unfold State.initSendable
  split
  · next c ring hf hr =>
    rcases h with h | h
    · exact absurd hf (h c)
    · rw [h] at hr; cases hr
  · rfl

theorem State.targetSendable_receiver {s : State} {r : TargetRec} (h : (∀ c, r.flow ≠ .sender c) ∨ r.ring = none) :
    s.targetSendable r = none := by
  unfold State.targetSendable
  split
  · next c ring i hf hr hid =>
    rcases h with h | h
    · exact absurd hf (h c)
    · rw [h] at hr; cases hr
  · rfl

/-! ### The nearest block (R81) -/

theorem positionNumber_eq (p : Position) :
    positionNumber p = p.station.val * 16 + p.tag.val * 2 + (if p.role = .initiator then 0 else 1) := by
  obtain ⟨_, _, role⟩ := p
  cases role <;> rfl

theorem State.mem_sendables (s : State) (x : Sendable) : x ∈ s.sendables ↔
    (∃ r ∈ s.exch.inits, s.initSendable r = some x) ∨ ∃ r ∈ s.exch.targets, s.targetSendable r = some x := by
  simp only [State.sendables, List.mem_append, List.mem_filterMap]

/-- A sendable block whose budget is not spent (R81). -/
def State.Eligible (s : State) (line loop : Nat) (x : Sendable) : Prop :=
  x ∈ s.sendables ∧ if x.data.dest = s.own then 0 < loop else 0 < line

theorem State.eligible_iff (s : State) (line loop : Nat) (x : Sendable) : s.Eligible line loop x ↔
    x ∈ s.sendables.filter (fun x => if x.data.dest = s.own then decide (0 < loop) else decide (0 < line)) := by
  rw [List.mem_filter, State.Eligible]
  split <;> rw [decide_eq_true_eq]

/-- The nearest eligible block is nearer than every other one. -/
theorem State.nearest_eligible {s : State} (hr : s.recordsLimited) {line loop : Nat} {x : Sendable} (h : nearest s.sched.rotation
      (s.sendables.filter (fun x => if x.data.dest = s.own then decide (0 < loop) else decide (0 < line))) = some x) :
    s.Eligible line loop x ∧ ∀ y, s.Eligible line loop y → y ≠ x →
      positionDistance s.sched.rotation x.position < positionDistance s.sched.rotation y.position := by
  obtain ⟨hmem, hmin⟩ := (nearest_spec _ _).2 x h
  have hx := (s.eligible_iff line loop x).mpr hmem
  refine ⟨hx, fun y hy hne => lt_of_le_of_ne (hmin y ((s.eligible_iff line loop y).mp hy)) fun heq => hne ?_⟩
  exact State.sendables_unique hr hy.1 hx.1 (positionDistance_inj heq.symm)

theorem State.picks_end {s : State} {line loop : Nat} (h : ∀ x, ¬ s.Eligible line loop x) (fuel : Nat) :
    s.picks fuel line loop = (s, []) := by
  refine State.picks_none ((nearest_spec _ _).1.mpr (List.eq_nil_iff_forall_not_mem.mpr fun x hx => ?_)) fuel
  exact h x ((s.eligible_iff line loop x).mpr hx)

theorem State.picks_next {s : State} (hr : s.recordsLimited) {line loop fuel : Nat} (hf : line + loop ≤ fuel)
    (h : ∃ x, s.Eligible line loop x) : ∃ x, s.Eligible line loop x ∧
      (∀ y, s.Eligible line loop y → y ≠ x →
        positionDistance s.sched.rotation x.position < positionDistance s.sched.rotation y.position) ∧
      ∀ fuel', line + loop ≤ fuel' + 1 →
        let rest := (s.markSent x.position).picks fuel' (if x.data.dest = s.own then line else line - 1)
          (if x.data.dest = s.own then loop - 1 else loop)
        s.picks fuel line loop = (rest.1, x :: rest.2) := by
  cases hn : nearest s.sched.rotation
      (s.sendables.filter (fun x => if x.data.dest = s.own then decide (0 < loop) else decide (0 < line))) with
  | none =>
    obtain ⟨x, hx⟩ := h
    have hmem := (s.eligible_iff line loop x).mp hx
    rw [(nearest_spec _ _).1.mp hn] at hmem
    exact absurd hmem List.not_mem_nil
  | some x =>
    obtain ⟨hx, hmin⟩ := State.nearest_eligible hr hn
    refine ⟨x, hx, hmin, fun fuel' hf' => ?_⟩
    dsimp only
    rw [State.picks_fuel fuel line loop s hf (fuel' + 1) hf', State.picks_some hn]

/-! ### The state after a pick (R80) -/

theorem State.markSent_eq (s : State) (p : Position) : s.markSent p = { s with
    sched := { s.sched with rotation := p }
    exch := match p.role with
      | .initiator => { s.exch with inits := s.exch.inits.map (fun x => if x.tag = p.tag then { x with flow := x.flow.sent } else x) }
      | .target => { s.exch with targets := s.exch.targets.map (fun x =>
          if x.keyed p.station p.tag then { x with flow := x.flow.sent } else x) } } := by
  obtain ⟨_, _, role⟩ := p
  cases role <;> rfl

/-! ### The own turn of one FINISHING READ (R79, R80, R86) -/

section
variable {s : State} {r : TargetRec} {i : ExchId} {c : SendCounters}

theorem State.targetRec_single (hr : s.exch.targets = [r]) (hid : r.id = some i) (p : Station) (t : Tag) :
    (s.targetRec p t).isSome = true ↔ i.peer = p ∧ i.tag = t := by
  simp [State.targetRec, hr, TargetRec.keyed, hid]

theorem State.positions_single (hi : s.exch.inits = []) (hr : s.exch.targets = [r]) (hid : r.id = some i) :
    s.positions = [⟨i.peer, i.tag, .target⟩] := by
  have hnone (t : Tag) : s.initRec t = none := by simp [State.initRec, hi]
  simp only [State.positions, hnone, State.targetRec_single hr hid, Option.isSome_none, Bool.false_eq_true, and_false, if_false,
    List.nil_append]
  exact positions_one i.peer i.tag

theorem State.sendables_single (hi : s.exch.inits = []) (hr : s.exch.targets = [r]) : s.sendables = (s.targetSendable r).toList := by
  simp only [State.sendables, hi, hr, List.filterMap_nil, List.nil_append, List.filterMap_cons]
  cases s.targetSendable r <;> rfl

theorem State.keyIs_single (hr : s.exch.targets = [r]) (i : ExchId) : s.KeyIs i r := fun y hy _ => by
  rw [hr] at hy
  exact List.mem_singleton.mp hy

theorem State.mapTarget_single (hr : s.exch.targets = [r]) (hid : r.id = some i) (f : TargetRec → TargetRec) :
    s.mapTarget i.peer i.tag f = { s with exch := { s.exch with targets := [f r] } } := by
  have hk : r.keyed i.peer i.tag = true := by simp [TargetRec.keyed, hid]
  simp only [State.mapTarget, hr, List.map_cons, List.map_nil, if_pos hk]

/-- A FINISHING READ with no block on its way and nothing wanted has nothing to do at an own turn. -/
theorem State.targetTurn_finishing_idle (hr : s.exch.targets = [r]) (hid : r.id = some i) (ho : r.op = .read) (hs : r.state = .finishing)
    (hw : r.wanted = []) (hf : r.flow = .sender c) (hb : c.base = c.next) : s.targetTurn i.peer i.tag = s := by
  have hk := State.keyIs_single hr i
  have hfound : s.targetRec i.peer i.tag = some r := by simp [State.targetRec, hr, TargetRec.keyed, hid]
  have hwatch : s.targetWatches r i = (s, none) := by
    have hstall : s.targetStallWatch r = s := State.stallWatch_quiet hk hid fun d hd => .inl (by
      cases hf.symm.trans hd
      exact hb)
    simp only [State.targetWatches, hs, hstall]
  have hkept : s.mapTarget i.peer i.tag (fun x => { x with wanted := [] }) = s := State.mapTarget_same hk (by rw [← hw])
  rw [State.targetTurn_eq hfound hid, hwatch, State.afterWatches_eq hfound, hw, hkept]
  exact if_neg (by rw [TargetRec.read_no_refresh ho]; decide)

theorem State.turnOffers_finishing_idle (hi : s.exch.inits = []) (hr : s.exch.targets = [r]) (hid : r.id = some i) (ho : r.op = .read)
    (hs : r.state = .finishing) (hw : r.wanted = []) (hf : r.flow = .sender c) (hb : c.base = c.next) : s.turnOffers = s := by
  rw [State.turnOffers, State.positions_single hi hr hid]
  exact State.targetTurn_finishing_idle hr hid ho hs hw hf hb

/-- The last credited block of the only record is all that an own turn picks (R80, R81). -/
theorem State.picks_single {x : Sendable} {line : Nat} (hi : s.exch.inits = []) (hr : s.exch.targets = [r]) (hx : s.targetSendable r = some x)
    (hdest : x.data.dest ≠ s.own) (hline : 0 < line) (loop fuel : Nat)
    (hlast : ∀ y, ¬ (s.markSent x.position).Eligible (line - 1) loop y) :
    s.picks (fuel + 1) line loop = (s.markSent x.position, [x]) := by
  have hnear : nearest s.sched.rotation
      (s.sendables.filter (fun x => if x.data.dest = s.own then decide (0 < loop) else decide (0 < line))) = some x := by
    rw [State.sendables_single hi hr, hx]
    simp [hdest, hline, nearest]
  rw [State.picks_some hnear, if_neg hdest, if_neg hdest, State.picks_end hlast]

/-- A record whose next block has been composed (R80). -/
def TargetRec.sentNext (c : SendCounters) (x : TargetRec) : TargetRec := { x with flow := .sender { c with next := c.next + 1 } }

theorem State.markSent_single (hr : s.exch.targets = [r]) (hid : r.id = some i) (hf : r.flow = .sender c) :
    s.markSent ⟨i.peer, i.tag, .target⟩ = { s with
      exch := { s.exch with targets := [r.sentNext c] }
      sched := { s.sched with rotation := ⟨i.peer, i.tag, .target⟩ } } := by
  have hsent : ({ r with flow := r.flow.sent } : TargetRec) = r.sentNext c := by rw [hf]; rfl
  rw [← hsent]
  exact State.mapTarget_single (s := { s with sched := { s.sched with rotation := ⟨i.peer, i.tag, .target⟩ } }) hr hid
    (fun x => { x with flow := x.flow.sent })

/-- Behind its last credited block the only record has none to send (R79). -/
theorem State.markSent_last {ring : Ring} (hi : s.exch.inits = []) (hr : s.exch.targets = [r]) (hid : r.id = some i) (hf : r.flow = .sender c)
    (hring : r.ring = some ring) (hc : c.next + 1 = c.limit) (line loop : Nat) (y : Sendable) :
    ¬ (s.markSent ⟨i.peer, i.tag, .target⟩).Eligible line loop y := by
  have hsent := State.markSent_single hr hid hf
  have hinits : (s.markSent ⟨i.peer, i.tag, .target⟩).exch.inits = [] := by rw [hsent]; exact hi
  have htargets : (s.markSent ⟨i.peer, i.tag, .target⟩).exch.targets = [r.sentNext c] := by rw [hsent]
  rintro ⟨hy, -⟩
  rw [State.sendables_single hinits htargets,
    State.targetSendable_holds (r := r.sentNext c) hid rfl hring (.inr (.inl hc.ge))] at hy
  exact List.not_mem_nil hy

/-- The station whose only record has sent its last credited block as its whole own turn. -/
def State.sentLast (s : State) (r : TargetRec) (i : ExchId) (c : SendCounters) (w : BitVec 16) (a : AreaNo) : State := { s with
  exch := { s.exch with targets := [r.sentNext c] }
  sched := { s.sched with rotation := ⟨i.peer, i.tag, .target⟩ }
  line := { receiving := false, tx := some ⟨.ownTurn, [{ s.turnFrame w .data (.data
    ⟨i.peer, i.peer, i.tag, i.serial, c.next, s.buf.ram.readBlock a⟩) with last := true }]⟩ } }

/-- The own turn of one FINISHING READ with a last credited block: that block, in one frame with the last-in-turn flag. -/
theorem State.memberTurn_finishing_sends {ring : Ring} {a : AreaNo} {w : BitVec 16} (hw : ∀ n : Station, w.getLsbD n.val = s.member.roster[n].present)
    (hl : s.member.link = .member) (hitems : s.sched.items = []) (hloop : s.sched.loopItems = []) (hi : s.exch.inits = [])
    (hr : s.exch.targets = [r]) (hid : r.id = some i) (hpeer : i.peer ≠ s.own) (ho : r.op = .read) (hs : r.state = .finishing)
    (hnone : r.wanted = []) (hf : r.flow = .sender c) (hb : c.base = c.next) (hc : c.next + 1 = c.limit) (hring : r.ring = some ring)
    (ha : ring[c.next % ring.length]? = some ⟨a, .full c.next⟩) :
    s.memberTurn = s.sentLast r i c w a := by
  have hx := State.targetSendable_sends (s := s) hid hf hring (.inr hs) (Nat.lt_of_succ_le hc.le) ha
  have hsets : ({ s with sched := { s.sched with items := [], loopItems := [] } } : State) = s :=
    (congrArg₂ (fun l m => ({ s with sched := { s.sched with items := l, loopItems := m } } : State)) hitems hloop).symm
  have hpicks := State.picks_single (line := 4) hi hr hx hpeer (by decide) 4 7 (State.markSent_last hi hr hid hf hring hc 3 4)
  have hcomp : s.composeTurn = (s.sentLast r i c w a, []) := by
    have hset : walkItems s.own s.sched.items = ⟨[], [], []⟩ := by rw [hitems]; rfl
    rw [State.composeTurn_eq s w hl hw]
    simp only [hset, List.map_nil, if_true, hsets, hpicks, State.markSent_single hr hid hf, List.filter_cons, List.filter_nil, hpeer, ne_eq,
      not_false_eq_true, decide_true, decide_false]
    rfl
  rw [State.memberTurn, State.turnOffers_finishing_idle hi hr hid ho hs hnone hf hb, hcomp]
  show State.deliverItems s.sched.loopItems.length _ = _
  rw [hloop]
  rfl

end

/-- Settles O38: the sendable blocks role by role, the own turn of one FINISHING READ, and the picks one by one. -/
theorem ownTurnSendsABlock : Obligations.OwnTurnSendsABlock := by
  refine ⟨⟨fun s r c ring hf hr => ⟨fun a hs hh hl ha => ?_, fun h => ?_⟩, fun s r i c ring hid hf hr => ⟨fun a hs hl ha => ?_, fun h => ?_⟩,
    fun s r h => State.initSendable_receiver h, fun s r h => State.targetSendable_receiver h,
    fun s r i c ring a w hw hl hitems hloop hi hr hid hpeer ho hs hnone hf hb hc hring ha => ?_⟩, fun s => ?_⟩
  · exact State.initSendable_sends hf hr hs hh hl ha
  · exact State.initSendable_holds hf hr h
  · exact State.targetSendable_sends hid hf hr hs hl ha
  · exact State.targetSendable_holds hid hf hr h
  · exact State.memberTurn_finishing_sends hw hl hitems hloop hi hr hid hpeer ho hs hnone hf hb hc hring ha
  · refine ⟨s.mem_sendables, fun line loop fuel hf => ⟨fun h => State.picks_end h fuel, fun hr h => ?_⟩⟩
    obtain ⟨x, hx, hmin, hrest⟩ := State.picks_next hr hf h
    refine ⟨x, hx, fun y hy hne => ?_, fun fuel' hf' => ?_⟩
    · have hlt := hmin y hy hne
      simp only [positionDistance, positionNumber_eq] at hlt
      exact hlt
    · have hpick := hrest fuel' hf'
      rw [State.markSent_eq] at hpick
      exact hpick

end Sys2Proof.Machine
end

