-- ==== Sys2Proof/Proofs/InitiatorTurns.lean ====
section
/-! SUPPORT. The own turn of an initiator record (O50): a watch that counts, one that ends the record, and a turn without a watch. -/

namespace Sys2Proof.Machine

/-! ### What a watch leaves to offer (R162) -/

/-- The watch of an initiator record at an own turn, and whether it orders an ASK (R28, R90). -/
def State.initWatches (s : State) (r : InitRec) : State × Bool :=
  match r.state with
  | .asking sends turns => s.askWatch r sends turns
  | _ => (s.initStallWatch r, false)

theorem State.initWatches_asking (s : State) {r : InitRec} {n k : Nat} (h : r.state = .asking n k) : s.initWatches r = s.askWatch r n k := by
  rw [State.initWatches, h]

theorem State.initWatches_stalling (s : State) {r : InitRec} (h : ∀ n k, r.state ≠ .asking n k) :
    s.initWatches r = (s.initStallWatch r, false) := by
  unfold State.initWatches
  split
  · next n k hs => exact absurd hs (h n k)
  · rfl

/-- What an own turn offers for a record behind its watch, if the record is still there (log 14). -/
def State.afterInitWatches (u : State) (r : InitRec) (askDue : Bool) : State :=
  match (u.initRec r.tag).filter (fun x => decide (x.serial = r.serial)) with
  | some x =>
    let s := u.offerWantedInit r.tag
    let s := if askDue then s.offerAskOnce r.tag else s
    if x.refreshes then s.offerInit r.tag .credit else s
  | none => u

theorem State.initTurn_eq {s : State} {r : InitRec} (hr : s.initRec r.tag = some r) :
    s.initTurn r.tag = (s.initWatches r).1.afterInitWatches r (s.initWatches r).2 := by
  unfold State.initTurn State.initWatches
  rw [hr]
  rfl

/-- The wanted items of a record offered in their order, once its watch has done `f` (R12, R162). -/
def State.offeringInit (s : State) (r : InitRec) (f : InitRec → InitRec) : State :=
  r.wanted.foldl (fun u k => u.offerInit r.tag k) (s.mapInit r.tag (fun x => { f x with wanted := [] }))

theorem State.offeringInit_only {s : State} (hl : s.recordsLimited) {r : InitRec} (hr : s.initRec r.tag = some r) {f g : InitRec → InitRec}
    (h : f r = g r) : s.offeringInit r f = s.offeringInit r g := by
  have hmap : s.mapInit r.tag (fun x => { f x with wanted := [] }) = s.mapInit r.tag (fun x => { g x with wanted := [] }) :=
    State.mapInit_only hl hr (by rw [h])
  rw [State.offeringInit, State.offeringInit, hmap]

/-- With nothing wanted only the change of the watch is left. -/
theorem State.offeringInit_none {s : State} (hl : s.recordsLimited) {r : InitRec} (hr : s.initRec r.tag = some r) (hw : r.wanted = [])
    {f : InitRec → InitRec} (hf : (f r).wanted = r.wanted) : s.offeringInit r f = s.mapInit r.tag f := by
  rw [State.offeringInit, hw]
  exact State.mapInit_only hl hr (by rw [← hw, ← hf])

/-- A turn whose watch has done `f` to the record: its wanted items, the ASK ordered, and the refresh. -/
theorem State.initTurn_counts {s : State} {r : InitRec} {f : InitRec → InitRec} {askDue : Bool} (hr : s.initRec r.tag = some r)
    (hf : ∀ x, (f x).tag = x.tag) (hserial : (f r).serial = r.serial) (hw : (f r).wanted = r.wanted)
    (hwatch : s.initWatches r = (s.mapInit r.tag f, askDue)) :
    s.initTurn r.tag =
      (let v := if askDue then (s.offeringInit r f).offerAskOnce r.tag else s.offeringInit r f
       if (f r).refreshes then v.offerInit r.tag .credit else v) := by
  have hmap : (s.mapInit r.tag f).mapInit r.tag (fun x => { x with wanted := [] }) = s.mapInit r.tag (fun x => { f x with wanted := [] }) :=
    State.mapInit_mapInit _ _ _ _ hf
  rw [State.initTurn_eq hr, hwatch]
  refine (State.initTurn_offers (State.mapInit_found hr f hf) hserial askDue).trans ?_
  rw [hmap, hw]
  rfl

/-- A turn whose watch has freed the record. -/
theorem State.initTurn_ends {s u : State} {r : InitRec} (hr : s.initRec r.tag = some r) (hwatch : s.initWatches r = (u, false))
    (hgone : u.initRec r.tag = none) : s.initTurn r.tag = u := by
  rw [State.initTurn_eq hr, hwatch]
  exact State.initTurn_gone hgone false

/-! ### The refresh (R86) -/

theorem advertised_some (ring : Ring) (consumed count : Nat) : advertised (some ring) consumed count = min (consumed + min 4 count) count := rfl

theorem InitRec.refreshes_iff (r : InitRec) : r.refreshes = true ↔ r.op = .read ∧ (r.state = .waiting ∨ r.state = .moving) ∧
    r.ring ≠ none ∧ r.flow.expected < min (r.flow.consumed + min 4 r.count) r.count := by
  unfold InitRec.refreshes
  cases hr : r.ring <;> simp [advertised_some, and_assoc]

theorem InitRec.asking_no_refresh {r : InitRec} {n k : Nat} (h : r.state = .asking n k) : r.refreshes = false := by
  simp [InitRec.refreshes, h]

theorem InitRec.write_no_refresh {r : InitRec} (h : r.op = .write) : r.refreshes = false := by
  simp [InitRec.refreshes, h]

/-! ### ASKING (R10, R28, R29) -/

section
variable {s : State} {r : InitRec} {n k : Nat}

/-- A record at a further own turn in ASKING (R28). -/
def InitRec.askedTurn (n k : Nat) (r : InitRec) : InitRec := { r with state := .asking n (k + 1) }

theorem State.initTurn_asking_counts (hr : s.initRec r.tag = some r) (hs : r.state = .asking n k) (hk : k + 1 < 3) :
    s.initTurn r.tag = s.offeringInit r (InitRec.askedTurn n k) := by
  have hwatch : s.initWatches r = (s.mapInit r.tag (InitRec.askedTurn n k), false) := (s.initWatches_asking hs).trans (if_pos hk)
  refine (State.initTurn_counts (f := InitRec.askedTurn n k) hr (fun _ => rfl) rfl rfl hwatch).trans (if_neg ?_)
  rw [InitRec.asking_no_refresh (r := r.askedTurn n k) rfl]
  decide

theorem State.initTurn_asking_resends (hr : s.initRec r.tag = some r) (hs : r.state = .asking n k) (hk : 3 ≤ k + 1) (hn : n < 3) :
    s.initTurn r.tag = (s.offeringInit r (InitRec.sentAgain n)).offerAskOnce r.tag := by
  have hwatch : s.initWatches r = (s.mapInit r.tag (InitRec.sentAgain n), true) :=
    (s.initWatches_asking hs).trans ((if_neg (Nat.not_lt.mpr hk)).trans (if_pos hn))
  refine (State.initTurn_counts (f := InitRec.sentAgain n) hr (fun _ => rfl) rfl rfl hwatch).trans (if_neg ?_)
  rw [InitRec.asking_no_refresh (r := r.sentAgain n) rfl]
  decide

theorem State.initTurn_asking_resend_row (hl : s.recordsLimited) (hr : s.initRec r.tag = some r) (hs : r.state = .asking n k) (hk : 3 ≤ k + 1)
    (hn : n < 3) (hw : r.wanted = []) : exec (.askResend r.tag) s = .next (s.initTurn r.tag) := by
  rw [exec_askResend_due hr hs hn hk, State.initTurn_asking_resends hr hs hk hn, State.offeringInit_none hl hr hw rfl]

theorem State.initTurn_asking_ends (hr : s.initRec r.tag = some r) (hs : r.state = .asking n k) (hk : 3 ≤ k + 1) (hn : 3 ≤ n)
    (ho : s.host.outcomes.length < 16) (hq : s.host.requests = []) : exec (.noReply r.tag) s = .next (s.initTurn r.tag) := by
  have hwatch : s.initWatches r = (s.endAndTake r (r.localOutcome .noReply) true false, false) :=
    (s.initWatches_asking hs).trans ((if_neg (Nat.not_lt.mpr hk)).trans (if_neg (Nat.not_lt.mpr hn)))
  rw [exec_noReply_due hr hs hn hk, State.initTurn_ends hr hwatch (State.endAndTake_freed _ _ _ hr ho hq)]

end

/-! ### The stall watch of a WRITE (R90, R91) -/

section
variable {s : State} {r : InitRec} {c d : SendCounters}

/-- A WRITE with its sender counters set. -/
def InitRec.counted (d : SendCounters) (r : InitRec) : InitRec := { r with flow := .sender d }

theorem InitRec.state_ne_asking {r : InitRec} (h : r.state = .waiting ∨ r.state = .moving) (n k : Nat) : r.state ≠ .asking n k := by
  intro hs
  rcases h with h | h <;> cases h.symm.trans hs

theorem State.initStallRuns_of (hs : r.state = .waiting ∨ r.state = .moving) (hh : s.headsChannel r = true) (hp : r.peer ≠ s.own) :
    s.initStallRuns r = true := by
  simp only [State.initStallRuns, Bool.and_eq_true, Bool.or_eq_true, decide_eq_true_eq]
  exact ⟨⟨hs, hh⟩, hp⟩

theorem State.initStallWatch_counts (hl : s.recordsLimited) (hr : s.initRec r.tag = some r) (hf : r.flow = .sender c)
    (hruns : s.initStallRuns r = true) (hd : c.stallTurn = (d, false)) : s.initStallWatch r = s.mapInit r.tag (InitRec.counted d) := by
  simp only [State.initStallWatch, hf, hd]
  rw [if_pos hruns]
  exact State.setInit_only (r' := r.counted d) (g := InitRec.counted d) hl hr rfl rfl

theorem State.initStallWatch_ends (hf : r.flow = .sender c) (hruns : s.initStallRuns r = true) (hd : c.stallTurn = (d, true)) :
    s.initStallWatch r = (s.setInit (r.counted d)).rewindLimitInit (r.counted d) := by
  simp only [State.initStallWatch, hf, hd]
  exact if_pos hruns

theorem State.initTurn_stall_counts (hl : s.recordsLimited) (hr : s.initRec r.tag = some r) (ho : r.op = .write) (hf : r.flow = .sender c)
    (hs : r.state = .waiting ∨ r.state = .moving) (hh : s.headsChannel r = true) (hp : r.peer ≠ s.own) (hd : c.stallTurn = (d, false)) :
    s.initTurn r.tag = s.offeringInit r (InitRec.counted d) := by
  have hwatch := s.initWatches_stalling (InitRec.state_ne_asking hs)
  rw [State.initStallWatch_counts hl hr hf (State.initStallRuns_of hs hh hp) hd] at hwatch
  refine (State.initTurn_counts (f := InitRec.counted d) hr (fun _ => rfl) rfl rfl hwatch).trans (if_neg ?_)
  rw [InitRec.write_no_refresh (r := r.counted d) ho]
  decide

theorem SendCounters.stallDue_of {c : SendCounters} (h : c.base < c.next) (hs : c.stall = 3) : c.stallDue = true := by
  simp [SendCounters.stallDue, h, hs, Limit.stallTurns]

theorem exec_stallRewind_init (hr : s.initRec r.tag = some r) (hf : r.flow = .sender c) (hb : c.base < c.next) (hc : c.stall = 3)
    (hw : c.rewinds < 7) : exec (.stallRewind ⟨s.own, r.tag, .initiator⟩) s = .next (s.initStallWatch r) := by
  show execStallRewind ⟨s.own, r.tag, .initiator⟩ s = _
  simp only [execStallRewind, hr, hf, true_and]
  exact if_pos ⟨SendCounters.stallDue_of hb hc, Nat.succ_lt_succ hw⟩

theorem State.initTurn_stall_row (hl : s.recordsLimited) (hr : s.initRec r.tag = some r) (ho : r.op = .write) (hf : r.flow = .sender c)
    (hs : r.state = .waiting ∨ r.state = .moving) (hh : s.headsChannel r = true) (hp : r.peer ≠ s.own) (hb : c.base < c.next)
    (hc : c.stall = 3) (hw : c.rewinds < 7) (hnone : r.wanted = []) :
    exec (.stallRewind ⟨s.own, r.tag, .initiator⟩) s = .next (s.initTurn r.tag) := by
  have hd := SendCounters.stallTurn_rewinds hb hc hw
  rw [exec_stallRewind_init hr hf hb hc hw, State.initStallWatch_counts hl hr hf (State.initStallRuns_of hs hh hp) hd,
    State.initTurn_stall_counts hl hr ho hf hs hh hp hd, State.offeringInit_none hl hr hnone rfl]

theorem SendCounters.lastRewindDue_of {c : SendCounters} (h : c.base < c.next) (hw : 7 ≤ c.rewinds) : c.lastRewindDue = true := by
  simp only [SendCounters.lastRewindDue, Bool.and_eq_true, decide_eq_true_eq]
  exact ⟨h, Nat.succ_le_succ hw⟩

theorem exec_rewindLimitInitiator_due (hr : s.initRec r.tag = some r) (hf : r.flow = .sender c) (hs : r.state = .waiting ∨ r.state = .moving)
    (hb : c.base < c.next) (hw : 7 ≤ c.rewinds) : exec (.rewindLimitInitiator r.tag) s =
      .next ((s.setInit (r.counted { c with rewinds := 8 })).rewindLimitInit (r.counted { c with rewinds := 8 })) := by
  show execRewindLimitInitiator r.tag s = _
  simp only [execRewindLimitInitiator, hr, hf]
  exact if_pos ⟨SendCounters.lastRewindDue_of hb hw, hs⟩

theorem State.initTurn_stall_ends (hl : s.recordsLimited) (hr : s.initRec r.tag = some r) (hf : r.flow = .sender c)
    (hs : r.state = .waiting ∨ r.state = .moving) (hh : s.headsChannel r = true) (hp : r.peer ≠ s.own) (hb : c.base < c.next)
    (hc : c.stall = 3) (hw : 7 ≤ c.rewinds) (ho : s.host.outcomes.length < 16) (hq : s.host.requests = []) :
    exec (.rewindLimitInitiator r.tag) s = .next (s.initTurn r.tag) := by
  have hwatch := s.initWatches_stalling (InitRec.state_ne_asking hs)
  rw [State.initStallWatch_ends hf (State.initStallRuns_of hs hh hp) (SendCounters.stallTurn_ends hb hc hw)] at hwatch
  have hset : s.setInit (r.counted { c with rewinds := 8 }) = s.mapInit r.tag (InitRec.counted { c with rewinds := 8 }) :=
    State.setInit_only (r' := r.counted { c with rewinds := 8 })
      (g := InitRec.counted { c with rewinds := 8 }) hl hr rfl rfl
  have hfound : (s.setInit (r.counted { c with rewinds := 8 })).initRec r.tag = some (r.counted { c with rewinds := 8 }) := by
    rw [hset]; exact State.mapInit_found hr _ (fun _ => rfl)
  rw [exec_rewindLimitInitiator_due hr hf hs hb hw]
  exact congrArg _ (State.initTurn_ends hr hwatch (State.endAndTake_freed (r := r.counted { c with rewinds := 8 }) _ _ _ hfound ho hq)).symm

/-- A record outside its stall watch, or with no block on its way (R90). -/
theorem State.initStallWatch_idle (hl : s.recordsLimited) (hr : s.initRec r.tag = some r)
    (h : ∀ c, r.flow = .sender c → c.base = c.next ∨ s.initStallRuns r = false) : s.initStallWatch r = s.mapInit r.tag id := by
  have hsame : s.mapInit r.tag id = s := by simp [State.mapInit]
  unfold State.initStallWatch
  split
  · next c hf =>
    split
    · next hruns =>
      rcases h c hf with hb | hidle
      · have hd : c.stallTurn = (c, false) := if_neg (Nat.not_lt.mpr hb.ge)
        simp only [hd]
        exact State.setInit_only (r' := r.counted c) (g := id) hl hr rfl (by rw [InitRec.counted, ← hf]; rfl)
      · rw [hidle] at hruns; exact Bool.noConfusion hruns
    · exact hsame.symm
  · exact hsame.symm

theorem State.initStallRuns_idle (h : s.headsChannel r = false ∨ r.peer = s.own ∨ (r.state ≠ .waiting ∧ r.state ≠ .moving)) :
    s.initStallRuns r = false := by
  unfold State.initStallRuns
  rcases h with h | h | ⟨hw, hm⟩
  · rw [h, Bool.and_false, Bool.false_and]
  · simp [h]
  · simp [hw, hm]

/-- A turn without a watch: the wanted items, and the refresh where it is due (R86). -/
theorem State.initTurn_plain (hl : s.recordsLimited) (hr : s.initRec r.tag = some r) (hs : ∀ n k, r.state ≠ .asking n k)
    (h : ∀ c, r.flow = .sender c → c.base = c.next ∨ s.initStallRuns r = false) :
    s.initTurn r.tag = if r.refreshes then (s.offeringInit r id).offerInit r.tag .credit else s.offeringInit r id := by
  have hwatch := s.initWatches_stalling hs
  rw [State.initStallWatch_idle hl hr h] at hwatch
  exact State.initTurn_counts hr (fun _ => rfl) rfl rfl hwatch

end

end Sys2Proof.Machine
end

