-- ==== Sys2Proof/Proofs/TargetTurnWatches.lean ====
section
/-! SUPPORT. Each watch of a target record at an own turn (O50): settling, priming, starvation, stall, and a turn without a watch. -/

namespace Sys2Proof.Machine

section
variable {s : State} {r : TargetRec} {i : ExchId}

/-- With nothing wanted only the change of the watch is left. -/
theorem State.offeringTarget_none (hk : s.KeyIs i r) (hw : r.wanted = []) {f : TargetRec → TargetRec} (hf : (f r).wanted = r.wanted) :
    s.offeringTarget r i f = s.mapTarget i.peer i.tag f := by
  rw [State.offeringTarget, hw]
  exact State.mapTarget_only hk (by rw [← hw, ← hf])

theorem TargetRec.refreshes_iff (r : TargetRec) : r.refreshes = true ↔ r.op = .write ∧ r.state = .active ∧ r.priming = none ∧
    r.ring ≠ none ∧ r.flow.expected < min (r.flow.consumed + min 4 r.count) r.count := by
  unfold TargetRec.refreshes
  cases hr : r.ring <;> simp [advertised_some, and_assoc]

theorem TargetRec.settling_no_refresh {b : Bool} {n : Nat} (h : r.state = .settling b n) : r.refreshes = false := by
  simp [TargetRec.refreshes, h]

theorem TargetRec.priming_no_refresh {n : Nat} (h : r.priming = some n) : r.refreshes = false := by
  simp [TargetRec.refreshes, h]

/-! ### SETTLING (R54) -/

/-- A SETTLING record at a further own turn (R54). -/
def TargetRec.settlingTurn (n : Nat) (x : TargetRec) : TargetRec := { x with state := .settling false (n + 1) }

theorem State.targetTurn_settling_counts {n : Nat} (hr : s.targetRec i.peer i.tag = some r) (hid : r.id = some i)
    (hs : r.state = .settling false n) (hn : n < 3) : s.targetTurn i.peer i.tag = s.offeringTarget r i (TargetRec.settlingTurn n) := by
  have hdue : decide (Limit.resend ≤ n + 1) = false := decide_eq_false (Nat.not_le.mpr (Nat.succ_lt_succ hn))
  have hwatch : s.targetWatches r i = (s.mapTarget i.peer i.tag (TargetRec.settlingTurn n), none) := by
    simp only [State.targetWatches, hs, State.resendWatch, hdue, Bool.or_self]
    rfl
  refine (State.targetTurn_counts (f := TargetRec.settlingTurn n) hr hid (fun _ => rfl) rfl hwatch).trans (if_neg ?_)
  rw [TargetRec.settling_no_refresh (r := r.settlingTurn n) rfl]
  decide

theorem State.targetTurn_settling_resends {owed : Bool} {n : Nat} (hr : s.targetRec i.peer i.tag = some r) (hid : r.id = some i)
    (hs : r.state = .settling owed n) (hd : owed = true ∨ 3 ≤ n) :
    s.targetTurn i.peer i.tag = (s.offeringTarget r i TargetRec.resent).offerTargetOnce i.peer i.tag .outcome := by
  have hdue : (owed || decide (Limit.resend ≤ n + 1)) = true := by
    have hor : owed = true ∨ Limit.resend ≤ n + 1 := hd.imp_right Nat.succ_le_succ
    rwa [Bool.or_eq_true, decide_eq_true_eq]
  have hwatch : s.targetWatches r i = (s.mapTarget i.peer i.tag TargetRec.resent, some .outcome) := by
    simp only [State.targetWatches, hs, State.resendWatch, hdue, if_true]
    rfl
  refine (State.targetTurn_counts (f := TargetRec.resent) hr hid (fun _ => rfl) rfl hwatch).trans (if_neg ?_)
  rw [TargetRec.settling_no_refresh (r := r.resent) rfl]
  decide

theorem State.targetTurn_settling_row {owed : Bool} {n : Nat} (hk : s.KeyIs i r) (hr : s.targetRec i.peer i.tag = some r) (hid : r.id = some i)
    (hs : r.state = .settling owed n) (hd : owed = true ∨ 3 ≤ n) (hw : r.wanted = []) :
    exec (.outcomeResend i.peer i.tag) s = .next (s.targetTurn i.peer i.tag) := by
  rw [exec_outcomeResend_due hr hid hs hd, State.targetTurn_settling_resends hr hid hs hd, State.offeringTarget_none hk hw rfl]

/-! ### Priming (R50) -/

/-- A record at a further own turn of its priming (R50). -/
def TargetRec.primedTurn (n : Nat) (x : TargetRec) : TargetRec := { x with priming := some (n + 1) }

theorem State.targetWatches_priming {n : Nat} (i : ExchId) (hs : r.state = .active) (hp : r.priming = some n) (hn : n + 1 < 32) :
    s.targetWatches r i = (s.mapTarget i.peer i.tag (TargetRec.primedTurn n), if (n + 1) % 4 = 0 then some .credit else none) := by
  have hcount : s.primingWatch r i n = (s.mapTarget i.peer i.tag (TargetRec.primedTurn n), decide ((n + 1) % 4 = 0)) := if_pos hn
  simp only [State.targetWatches, hs, hp, hcount, decide_eq_true_eq]

theorem State.targetTurn_priming_counts {n : Nat} (hr : s.targetRec i.peer i.tag = some r) (hid : r.id = some i) (hs : r.state = .active)
    (hp : r.priming = some n) (hn : n + 1 < 32) : s.targetTurn i.peer i.tag =
      if (n + 1) % 4 = 0 then (s.offeringTarget r i (TargetRec.primedTurn n)).offerTarget i.peer i.tag .credit
      else s.offeringTarget r i (TargetRec.primedTurn n) := by
  have hturn := State.targetTurn_counts (f := TargetRec.primedTurn n) hr hid (fun _ => rfl) rfl (State.targetWatches_priming i hs hp hn)
  rw [TargetRec.priming_no_refresh (r := r.primedTurn n) rfl, if_neg (by decide)] at hturn
  by_cases hm : (n + 1) % 4 = 0
  · rw [if_pos hm] at hturn ⊢; exact hturn
  · rw [if_neg hm] at hturn ⊢; exact hturn

theorem State.targetTurn_priming_row {n : Nat} (hk : s.KeyIs i r) (hr : s.targetRec i.peer i.tag = some r) (hid : r.id = some i)
    (hs : r.state = .active) (hp : r.priming = some n) (hn : n + 1 < 32) (hm : (n + 1) % 4 = 0) (hw : r.wanted = [])
    (ha : s.activeRec = some r) : exec .primingCredit s = .next (s.targetTurn i.peer i.tag) := by
  rw [exec_primingCredit_due ha hid hp hn hm, State.targetTurn_priming_counts hr hid hs hp hn, if_pos hm,
    State.offeringTarget_none hk hw rfl]
  rfl

theorem State.KeyIs.noneWanted (hk : s.KeyIs i r) (hw : r.wanted = []) : s.NoneWanted i := fun x hx hkx => by rw [hk x hx hkx, hw]

/-- A record that settles leaves the port to nothing, where none waits for it. -/
theorem State.settle_grant_nothing {o : Outcome} {keep : Bool} (hq : ∀ x ∈ s.exch.targets, x.state ≠ .queued) (hp : s.port.result ≠ .posted) :
    (s.settle r o keep).grant = s.settle r o keep := by
  refine State.grant_nothing (by rw [State.settle_port]; exact hp) fun x hx => ?_
  rcases State.settle_states hx with ⟨o', b, z, rfl⟩ | hmem
  · exact TargetState.noConfusion
  · exact hq x hmem

theorem State.targetTurn_priming_ends {n : Nat} (hk : s.KeyIs i r) (hr : s.targetRec i.peer i.tag = some r) (hid : r.id = some i)
    (hs : r.state = .active) (hp : r.priming = some n) (hn : n + 1 = 32) (hw : r.wanted = []) (ha : s.activeRec = some r)
    (hq : ∀ x ∈ s.exch.targets, x.state ≠ .queued) (hres : s.port.result ≠ .posted) :
    exec .primingLimit s = .next (s.targetTurn i.peer i.tag) := by
  have hwatch : s.targetWatches r i = (s.primingEnds r, none) := by
    have hends : s.primingWatch r i n = (s.primingEnds r, false) := if_neg (Nat.not_lt.mpr hn.ge)
    simp only [State.targetWatches, hs, hp, hends]
    rfl
  have hquiet : (s.primingEnds r).Quiet i := by
    rw [State.primingEnds, State.settle_grant_nothing (s := s.enterIdle) hq hres]
    exact State.settle_quiet (u := s.enterIdle) hid (hk.noneWanted hw) _ _
  rw [exec_primingLimit_of ha hp, if_pos hn.ge, State.targetTurn_quiet hr hid hwatch hquiet]

/-! ### Starvation (R126) -/

theorem State.targetTurn_starving_counts {n : Nat} (hk : s.KeyIs i r) (hr : s.targetRec i.peer i.tag = some r) (hid : r.id = some i)
    (hs : r.state = .active) (hp : r.priming = none) (hn : r.starvation = some n) (hlt : n + 1 < 64)
    (hb : ∀ c, r.flow = .sender c → c.base = c.next) (hno : r.refreshes = false) :
    s.targetTurn i.peer i.tag = s.offeringTarget r i (TargetRec.starvedTurn n) := by
  have hwatch := State.targetWatches_starving hr hs hp hn hlt
  rw [State.stallWatch_quiet (x := r.starvedTurn n) (State.mapTarget_keyIs hk (fun _ => rfl)) hid (fun c hc => .inl (hb c hc))] at hwatch
  refine (State.targetTurn_counts (f := TargetRec.starvedTurn n) hr hid (fun _ => rfl) rfl hwatch).trans (if_neg ?_)
  rw [show (r.starvedTurn n).refreshes = false from hno]
  decide

theorem State.targetTurn_starving_limit {n : Nat} (hk : s.KeyIs i r) (hr : s.targetRec i.peer i.tag = some r) (hid : r.id = some i)
    (hs : r.state = .active) (hp : r.priming = none) (hn : r.starvation = some n) (hle : 64 ≤ n + 1) (hw : r.wanted = [])
    (ha : s.activeRec = some r) : exec .starvationLimit s = .next (s.targetTurn i.peer i.tag) := by
  have hend : s.endByWatch .starved = s.enterResetting.settle r ⟨.starved, r.moved, true, none⟩ true := by rw [State.endByWatch, ha]
  have hnone : s.enterResetting.NoneWanted i :=
    State.mapServed_noneWanted (hk.noneWanted hw) (fun _ => ⟨rfl, rfl⟩)
  have hquiet : (s.endByWatch .starved).Quiet i := by rw [hend]; exact State.settle_quiet hid hnone _ _
  have hfound : (s.endByWatch .starved).targetRec i.peer i.tag =
      some ((s.cutServed r).settled ⟨.starved, r.moved, true, none⟩ true) := by
    rw [State.endByWatch_of ha hid]
    exact State.mapTarget_foundOn (f := fun x => x.settled ⟨.starved, r.moved, true, none⟩ true) (State.enterResetting_targetRec hr) (fun _ => rfl)
  have hwatch : s.targetWatches r i = (s.endByWatch .starved, none) := by
    have hends : s.starvationWatch i n = s.endByWatch .starved := if_neg (Nat.not_lt.mpr hle)
    have hidle := State.targetStallWatch_idle (TargetRec.settled_no_stall (s.endByWatch .starved)
      (x := (s.cutServed r).settled ⟨.starved, r.moved, true, none⟩ true) rfl)
    simp only [State.targetWatches, hs, hp, hn, hends, hfound, hidle]
  rw [exec_starvationLimit_of ha hn, if_pos hle, State.targetTurn_quiet hr hid hwatch hquiet]

/-! ### The stall watch of a READ (R90, R92) -/

section
variable {c d : SendCounters}

/-- A READ with its sender counters set. -/
def TargetRec.counted (d : SendCounters) (x : TargetRec) : TargetRec := { x with flow := .sender d }

theorem State.targetTurn_stall_counts (hk : s.KeyIs i r) (hr : s.targetRec i.peer i.tag = some r) (hid : r.id = some i) (ho : r.op = .read)
    (hf : r.flow = .sender c) (hs : r.state = .active ∨ r.state = .finishing) (hp : r.priming = none) (hn : r.starvation = none)
    (hpeer : i.peer ≠ s.own) (hd : c.stallTurn = (d, false)) :
    s.targetTurn i.peer i.tag = s.offeringTarget r i (TargetRec.counted d) := by
  have hwatch := State.targetWatches_stalling (s := s) i (.inr hs) hp hn
  rw [State.stallWatch_counts hk hid hf (State.targetStallRuns_peer hs hid hpeer) hd] at hwatch
  refine (State.targetTurn_counts (f := TargetRec.counted d) hr hid (fun _ => rfl) rfl hwatch).trans (if_neg ?_)
  rw [TargetRec.read_no_refresh (r := r.counted d) ho]
  decide

theorem exec_stallRewind_target (hr : s.targetRec i.peer i.tag = some r) (hf : r.flow = .sender c) (hb : c.base < c.next) (hc : c.stall = 3)
    (hw : c.rewinds < 7) : exec (.stallRewind ⟨i.peer, i.tag, .target⟩) s = .next (s.targetStallWatch r) := by
  show execStallRewind ⟨i.peer, i.tag, .target⟩ s = _
  simp only [execStallRewind, hr, hf]
  exact if_pos ⟨SendCounters.stallDue_of hb hc, Nat.succ_lt_succ hw⟩

theorem State.targetTurn_stall_row (hk : s.KeyIs i r) (hr : s.targetRec i.peer i.tag = some r) (hid : r.id = some i) (ho : r.op = .read)
    (hf : r.flow = .sender c) (hs : r.state = .active ∨ r.state = .finishing) (hp : r.priming = none) (hn : r.starvation = none)
    (hpeer : i.peer ≠ s.own) (hb : c.base < c.next) (hc : c.stall = 3) (hw : c.rewinds < 7) (hnone : r.wanted = []) :
    exec (.stallRewind ⟨i.peer, i.tag, .target⟩) s = .next (s.targetTurn i.peer i.tag) := by
  have hd := SendCounters.stallTurn_rewinds hb hc hw
  rw [exec_stallRewind_target hr hf hb hc hw, State.stallWatch_counts hk hid hf (State.targetStallRuns_peer hs hid hpeer) hd,
    State.targetTurn_stall_counts hk hr hid ho hf hs hp hn hpeer hd, State.offeringTarget_none hk hnone rfl]
  rfl

theorem State.targetTurn_finishing_ends (hr : s.targetRec i.peer i.tag = some r) (hid : r.id = some i) (hf : r.flow = .sender c)
    (hs : r.state = .finishing) (hp : r.priming = none) (hn : r.starvation = none) (hpeer : i.peer ≠ s.own) (hb : c.base < c.next)
    (hc : c.stall = 3) (hw : 7 ≤ c.rewinds) (hnone : r.wanted = []) (hq : ∀ x ∈ s.exch.targets, x.state ≠ .queued)
    (hres : s.port.result ≠ .posted) : exec (.rewindLimitTarget i.peer i.tag) s = .next (s.targetTurn i.peer i.tag) := by
  have hwatch := State.targetWatches_stalling (s := s) i (.inr (.inr hs)) hp hn
  rw [State.stallWatch_ends hid hf (State.targetStallRuns_peer (.inr hs) hid hpeer) hb hc hw] at hwatch
  have hqueued (y : TargetRec) (hy : y.state = .finishing) : ∀ x ∈ (s.mapTarget i.peer i.tag (fun _ => y)).exch.targets, x.state ≠ .queued := by
    intro x hx
    obtain ⟨z, hz, rfl⟩ := List.mem_map.mp hx
    split
    · rw [hy]; exact TargetState.noConfusion
    · exact hq z hz
  have hquiet : ((s.mapTarget i.peer i.tag (fun _ => r.counted { c with rewinds := 8 })).rewindLimitTarget
      (r.counted { c with rewinds := 8 })).Quiet i := by
    rw [State.rewindLimitTarget, State.settleStopped_finishing _ (show (r.counted _).state = _ from hs),
      State.settle_grant_nothing (hqueued (r.counted _) hs) hres]
    exact State.settle_quiet (r := r.counted _) hid (State.mapTarget_noneWanted s i (x := r.counted _) hnone) _ _
  rw [exec_rewindLimitTarget_due hr hf hb hw (.inr hs), State.targetTurn_quiet hr hid hwatch hquiet]

end

/-! ### A turn without a watch (R86) -/

theorem State.targetTurn_plain (hk : s.KeyIs i r) (hr : s.targetRec i.peer i.tag = some r) (hid : r.id = some i)
    (hs : r.state = .queued ∨ r.state = .active ∨ r.state = .finishing) (hp : r.priming = none) (hn : r.starvation = none)
    (hb : ∀ c, r.flow = .sender c → c.base = c.next ∨ s.targetStallRuns r = false) : s.targetTurn i.peer i.tag =
      if r.refreshes then (s.offeringTarget r i id).offerTarget i.peer i.tag .credit else s.offeringTarget r i id := by
  have hwatch := State.targetWatches_stalling (s := s) i hs hp hn
  rw [State.stallWatch_quiet hk hid hb] at hwatch
  have hsame : s.mapTarget i.peer i.tag id = s := State.mapTarget_same hk rfl
  exact State.targetTurn_counts (f := id) hr hid (fun _ => rfl) rfl (hwatch.trans (congrArg (Prod.mk · none) hsame.symm))

end

end Sys2Proof.Machine
end

