-- ==== Sys2Proof/Proofs/Turns.lean ====
section
/-! SUPPORT. The frames of an own turn (O50): a turn without records, the walk of the queue, and the turn of each record. -/

namespace Sys2Proof.Machine

/-! ### The walk of the Pending Item Queue (R163) -/

theorem walkItems_sets (own : Station) (l : List PendingItem) :
    (walkItems own l).line = (l.filter (fun p => decide (p.item.dest ≠ own))).take 16 ∧
    (walkItems own l).loop = (l.filter (fun p => decide (p.item.dest = own))).take 16 ∧ (walkItems own l).left.Sublist l ∧
    (walkItems own l).left.filter (fun p => decide (p.item.dest ≠ own)) = (l.filter (fun p => decide (p.item.dest ≠ own))).drop 16 ∧
    (walkItems own l).left.filter (fun p => decide (p.item.dest = own)) = (l.filter (fun p => decide (p.item.dest = own))).drop 16 := by
  obtain ⟨hline, hloop, d, hleft, hsub, hother, hself⟩ := walkItems_spec own (fun p => decide (p.item.dest ≠ own))
    (fun p => decide (p.item.dest = own)) (fun _ => rfl) (fun _ => rfl) l ⟨[], [], []⟩ (Nat.zero_le _) (Nat.zero_le _)
  have hd : (walkItems own l).left = d := hleft
  rw [hd]
  exact ⟨hline, hloop, hsub, hother, hself⟩

/-- A queue with no item to the own station goes to the line alone. -/
theorem walkItems_line {own : Station} {l : List PendingItem} (h : ∀ p ∈ l, p.item.dest ≠ own) :
    walkItems own l = ⟨l.take 16, [], l.drop 16⟩ := by
  obtain ⟨hline, hloop, hsub, hother, -⟩ := walkItems_sets own l
  have hall : l.filter (fun p => decide (p.item.dest ≠ own)) = l := List.filter_eq_self.mpr fun p hp => decide_eq_true (h p hp)
  have hnone : l.filter (fun p => decide (p.item.dest = own)) = [] := List.filter_eq_nil_iff.mpr fun p hp => by simpa using h p hp
  have hleft : (walkItems own l).left.filter (fun p => decide (p.item.dest ≠ own)) = (walkItems own l).left :=
    List.filter_eq_self.mpr fun p hp => decide_eq_true (h p (hsub.subset hp))
  rw [hall] at hline hother
  rw [hnone, List.take_nil] at hloop
  rw [hleft] at hother
  generalize walkItems own l = x at hline hloop hother ⊢
  obtain ⟨line, loop, left⟩ := x
  cases hline; cases hloop; cases hother
  rfl

/-! ### The item as read at its composition (R87) -/

theorem State.resolve_fixed (s : State) {p : PendingItem} (h : p.origin ≠ .record ∨ ∀ d n l, p.item.body ≠ .credit d n l) :
    s.resolve p = p.item := by
  unfold State.resolve
  split
  · next ho hb => exact (h.elim (absurd ho) (fun h => absurd hb (h _ _ _)))
  · next ho hb => exact (h.elim (absurd ho) (fun h => absurd hb (h _ _ _)))
  · rfl

theorem advertised_eq (ring : Option Ring) (consumed count : Nat) :
    advertised ring consumed count = if ring = none then 0 else min (consumed + min 4 count) count := by
  cases ring <;> rfl

theorem State.resolve_init {s : State} {p : PendingItem} {n l : Nat} {r : InitRec} (ho : p.origin = .record)
    (hb : p.item.body = .credit .target n l) (hr : s.initRec p.item.tag = some r) : s.resolve p = { p.item with
      body := .credit .target r.flow.expected (if r.ring = none then 0 else min (r.flow.consumed + min 4 r.count) r.count) } := by
  rw [← advertised_eq]
  simp only [State.resolve, ho, hb, hr]

theorem State.resolve_target {s : State} {p : PendingItem} {n l : Nat} {r : TargetRec} (ho : p.origin = .record)
    (hb : p.item.body = .credit .initiator n l) (hr : s.targetRec p.item.init p.item.tag = some r) : s.resolve p = { p.item with
      body := .credit .initiator r.flow.expected (if r.ring = none then 0 else min (r.flow.consumed + min 4 r.count) r.count) } := by
  rw [← advertised_eq]
  simp only [State.resolve, ho, hb, hr]

/-! ### A turn without records (R164) -/

section
variable {s : State} {w : BitVec 16}

theorem State.positions_empty (hi : s.exch.inits = []) (ht : s.exch.targets = []) : s.positions = [] := by
  refine List.eq_nil_iff_forall_not_mem.mpr fun p hp => ?_
  rw [State.positions_mem] at hp
  split at hp
  · exact hp.2 (by simp [State.initRec, hi])
  · exact hp (by simp [State.targetRec, ht])

theorem State.sendables_empty (hi : s.exch.inits = []) (ht : s.exch.targets = []) : s.sendables = [] := by
  simp [State.sendables, hi, ht]

/-- The queue behind a composition that took its first sixteen items. -/
def State.itemsTaken (s : State) : State := { s with sched := { s.sched with items := s.sched.items.drop 16 } }

/-- The only frame of an own turn with no DATA frame. -/
def State.onlyFrame (s : State) (w : BitVec 16) (items : List Item) : Frame :=
  if items = [] then s.turnFrame w .pass .none else s.turnFrame w .control (.items items)

theorem State.picks_empty (hi : s.exch.inits = []) (ht : s.exch.targets = []) (fuel line loop : Nat) : s.picks fuel line loop = (s, []) := by
  refine State.picks_end (fun x hx => ?_) fuel
  obtain ⟨hmem, -⟩ := hx
  rw [State.sendables_empty hi ht] at hmem
  exact List.not_mem_nil hmem

/-- An own turn without records sends its control frame, or the PASS frame alone. -/
theorem State.memberTurn_empty (hw : ∀ n : Station, w.getLsbD n.val = s.member.roster[n].present) (hl : s.member.link = .member)
    (hi : s.exch.inits = []) (ht : s.exch.targets = []) (hloop : s.sched.loopItems = []) (hline : ∀ p ∈ s.sched.items, p.item.dest ≠ s.own) :
    s.memberTurn = { s.itemsTaken with line := { receiving := false, tx := some ⟨.ownTurn,
      [{ s.onlyFrame w ((s.sched.items.take 16).map s.resolve) with last := true }]⟩ } } := by
  have hoffers : s.turnOffers = s := by rw [State.turnOffers, State.positions_empty hi ht]; rfl
  have hsets : ({ s with sched := { s.sched with items := s.sched.items.drop 16, loopItems := [] } } : State) = s.itemsTaken :=
    congrArg (fun l => ({ s with sched := { s.sched with items := s.sched.items.drop 16, loopItems := l } } : State)) hloop.symm
  have hpicks (line : Nat) : s.itemsTaken.picks 8 line 4 = (s.itemsTaken, []) := State.picks_empty (s := s.itemsTaken) hi ht 8 line 4
  have hcomp : s.composeTurn = ({ s.itemsTaken with line := { receiving := false, tx := some ⟨.ownTurn,
      [{ s.onlyFrame w ((s.sched.items.take 16).map s.resolve) with last := true }]⟩ } }, []) := by
    rw [State.composeTurn_eq s w hl hw]
    simp only [walkItems_line hline, hsets, hpicks, State.onlyFrame]
    by_cases hnone : (s.sched.items.take 16).map s.resolve = []
    · simp only [hnone, if_true]; rfl
    · simp only [hnone, if_false]; rfl
  rw [State.memberTurn, hoffers, hcomp]
  show State.deliverItems s.sched.loopItems.length _ = _
  rw [hloop]
  rfl

/-- In LEAVING an own turn is the LEAVE frame, with the station gone from its own bitmap (R148). -/
theorem State.ownTurn_leaving (hw : ∀ n : Station, w.getLsbD n.val = (s.member.roster[n].present && decide (n ≠ s.own)))
    (hl : s.member.link = .leaving) : s.ownTurn = { s with
      line := { receiving := false, tx := some ⟨.leave, [⟨.leave, s.own, true, s.port.state.ready, w, .none⟩]⟩ } } := by
  have hset : stationSet (fun n => s.present n && decide (n ≠ s.own)) = w := stationSet_eq _ _ (fun n => (hw n))
  have hbits : s.bitmap = w := by rw [State.bitmap, hl]; exact hset
  rw [State.ownTurn, hl]
  show s.transmit .leave [⟨.leave, s.own, true, s.port.state.ready, s.bitmap, .none⟩] = _
  rw [hbits]
  rfl

end

/-! ### The loopback set (R94, R166) -/

theorem State.deliverItems_none {s : State} (h : s.sched.loopItems = []) (n : Nat) : s.deliverItems (n + 1) = s := by
  rw [State.deliverItems, h]

theorem State.deliverItems_next {s : State} {p : PendingItem} {rest : List PendingItem} (h : s.sched.loopItems = p :: rest) (n : Nat) :
    s.deliverItems (n + 1) =
      (({ s with sched := { s.sched with loopItems := rest } } : State).itemArrives s.own (s.resolve p)).deliverItems n := by
  rw [State.deliverItems, h]

/-- An own turn is its offers, its composition, and what it delivers to the own station. -/
theorem State.memberTurn_eq (s : State) : s.memberTurn =
    (s.turnOffers.composeTurn.2.foldl State.deliverBlock s.turnOffers.composeTurn.1).deliverItems
      (s.turnOffers.composeTurn.2.foldl State.deliverBlock s.turnOffers.composeTurn.1).sched.loopItems.length := rfl

/-! ### The walk over the records (R162) -/

theorem State.turnOffers_eq (s : State) : s.turnOffers =
    s.positions.foldl (fun u p => if p.role = .initiator then u.initTurn p.tag else u.targetTurn p.station p.tag) s := by
  unfold State.turnOffers
  congr 1
  funext u p
  obtain ⟨_, _, role⟩ := p
  cases role <;> rfl

/-- Settles O50: the frames of a turn without records, the queue and the composition, and the own turn of each record. -/
theorem ownTurnFrames : Obligations.OwnTurnFrames := by
  refine ⟨fun s => ⟨fun w hw hl hi ht hloop => ⟨fun hnone => ?_, fun hne hline => ?_⟩, fun w hw hl => State.ownTurn_leaving hw hl⟩,
    ⟨walkItems_sets, fun s p => ⟨s.resolve_fixed, fun _ _ _ => State.resolve_init, fun _ _ _ => State.resolve_target⟩,
      fun s w hl hw => State.composeTurn_eq s w hl hw, fun s => ⟨s.memberTurn_eq, rfl, fun n => ⟨fun h => State.deliverItems_none h n,
        fun _ _ h => State.deliverItems_next h n⟩⟩⟩,
    fun s hl => ⟨s.positions_sorted, s.positions_mem, s.turnOffers_eq, Moves.link_eq s.turnOffers_moves, fun r hr => ⟨fun n k hs => ?_,
      fun c ho hf hs hh hp hb => ?_, fun hs hidle => ?_⟩⟩, fun s r i hl hr hid => ?_⟩
  · have hkept : s.itemsTaken = s :=
      congrArg (fun l => ({ s with sched := { s.sched with items := l } } : State)) (by rw [hnone]; rfl : s.sched.items.drop 16 = s.sched.items)
    rw [State.memberTurn_empty hw hl hi ht hloop (by rw [hnone]; exact fun p hp => absurd hp List.not_mem_nil), hkept, hnone]
    rfl
  · have hitems : (s.sched.items.take 16).map s.resolve = (s.sched.items.take 16).map PendingItem.item :=
      List.map_congr_left fun p hp => s.resolve_fixed (.inl (hline p (List.mem_of_mem_take hp)).2)
    have hsome : (s.sched.items.take 16).map PendingItem.item ≠ [] := by simp [hne]
    rw [State.memberTurn_empty hw hl hi ht hloop fun p hp => (hline p hp).1, hitems, State.onlyFrame, if_neg hsome]
    rfl
  · refine ⟨State.initTurn_asking_counts hr hs, fun hk hn => ⟨State.initTurn_asking_resends hr hs hk hn,
      State.initTurn_asking_resend_row hl hr hs hk hn⟩, State.initTurn_asking_ends hr hs⟩
  · exact ⟨fun hc => State.initTurn_stall_counts hl hr ho hf hs hh hp (SendCounters.stallTurn_counts hb hc),
      fun hc hw => ⟨State.initTurn_stall_counts hl hr ho hf hs hh hp (SendCounters.stallTurn_rewinds hb hc hw),
        State.initTurn_stall_row hl hr ho hf hs hh hp hb hc hw⟩, State.initTurn_stall_ends hl hr hf hs hh hp hb⟩
  · have hturn := State.initTurn_plain hl hr hs fun c hf => (hidle c hf).imp_right State.initStallRuns_idle
    refine ⟨fun h => hturn.trans (if_pos ((InitRec.refreshes_iff r).mpr h)), fun h => hturn.trans (if_neg fun hr => ?_)⟩
    exact h ((InitRec.refreshes_iff r).mp hr)
  · have hk := State.keyIs_of hl hr
    refine ⟨fun n => State.targetTurn_settling_counts hr hid, fun owed n hs hd => ⟨State.targetTurn_settling_resends hr hid hs hd,
        State.targetTurn_settling_row hk hr hid hs hd⟩, fun n hs ho hp => ?_, fun n hs hp hn => ?_, fun c ho hf hs hp hn hpeer hb => ?_,
      fun hs hp hn hidle => ?_⟩
    · have hturn := State.targetTurn_priming_counts hr hid hs hp (n := n)
      exact ⟨fun hn hm => (hturn hn).trans (if_neg hm), fun hn hm => ⟨(hturn hn).trans (if_pos hm),
        State.targetTurn_priming_row hk hr hid hs hp hn hm⟩, State.targetTurn_priming_ends hk hr hid hs hp⟩
    · refine ⟨fun hlt hb hno => State.targetTurn_starving_counts hk hr hid hs hp hn hlt hb (Bool.eq_false_iff.mpr fun h => hno ?_),
        State.targetTurn_starving_limit hk hr hid hs hp hn⟩
      obtain ⟨ho, -, -, hring, hlimit⟩ := (TargetRec.refreshes_iff r).mp h
      exact ⟨ho, hring, hlimit⟩
    · exact ⟨fun hc => State.targetTurn_stall_counts hk hr hid ho hf hs hp hn hpeer (SendCounters.stallTurn_counts hb hc),
        fun hc hw => ⟨State.targetTurn_stall_counts hk hr hid ho hf hs hp hn hpeer (SendCounters.stallTurn_rewinds hb hc hw),
          State.targetTurn_stall_row hk hr hid ho hf hs hp hn hpeer hb hc hw⟩,
        fun hc hw hfin => State.targetTurn_finishing_ends hr hid hf hfin hp hn hpeer hb hc hw⟩
    · have hturn := State.targetTurn_plain hk hr hid hs hp hn fun c hf => (hidle c hf).imp_right fun h => ?_
      · refine ⟨fun h => hturn.trans (if_pos ((TargetRec.refreshes_iff r).mpr ?_)), fun h => hturn.trans (if_neg fun hrefresh => h ?_)⟩
        · obtain ⟨ho, hact, hring, hlimit⟩ := h
          exact ⟨ho, hact, hp, hring, hlimit⟩
        · obtain ⟨ho, hact, -, hring, hlimit⟩ := (TargetRec.refreshes_iff r).mp hrefresh
          exact ⟨ho, hact, hring, hlimit⟩
      · rcases h with hown | hqueued
        · exact State.targetStallRuns_own hid hown
        · simp [State.targetStallRuns, hqueued]

end Sys2Proof.Machine
end

