-- ==== Sys2Proof/Proofs/GivenUp.lean ====
section
/-! SUPPORT. Target records that are given up (O37): how the port leaves an ACTIVE record, phase by phase, and how a record is freed,
detached or settled behind it. -/

namespace Sys2Proof.Machine

/-! ### How a record goes (R17, R53, R57) -/

section
variable {s : State} {r : TargetRec} {i : ExchId}

/-- The station without the record of a key, its ring given back. -/
def State.freedOf (s : State) (r : TargetRec) (i : ExchId) : State := { s.fixRecord i .initiator r.flow.expected with
  exch := { s.exch with targets := s.exch.targets.filter (fun x => !x.keyed i.peer i.tag) }
  buf := { s.buf with servFree := s.buf.servFree ++ r.ring.elim [] (List.map Slot.area) } }

theorem State.freeTarget_eq (s : State) (hid : r.id = some i) : s.freeTarget r = s.freedOf r i := by
  rw [State.freeTarget, hid, State.freedOf, ← ringAreas_eq]
  rfl

/-- The station with the record of a key DETACHED. -/
def State.detachedOf (s : State) (r : TargetRec) (i : ExchId) : State := { s.fixRecord i .initiator r.flow.expected with
  exch := { s.exch with targets := s.exch.targets.map (fun x => if x.keyed i.peer i.tag then
    { x with id := none, state := .detached, wanted := [], priming := none, starvation := none } else x) } }

theorem State.detach_eq (s : State) (hid : r.id = some i) : s.detach r = s.detachedOf r i := by
  rw [State.detach, hid]
  rfl

/-- The station with the record of a key SETTLING, its ring held or given back. -/
def State.settledOf (s : State) (r : TargetRec) (i : ExchId) (code : OutcomeCode) (done : Nat) (hold : Bool) : State := { s with
  exch := { s.exch with targets := s.exch.targets.map (fun x =>
    if x.keyed i.peer i.tag then x.settled ⟨code, done, true, none⟩ hold else x) }
  buf := { s.buf with servFree := if hold then s.buf.servFree else s.buf.servFree ++ r.ring.elim [] (List.map Slot.area) } }

theorem State.settle_settledOf (s : State) (hid : r.id = some i) (code : OutcomeCode) (done : Nat) (hold : Bool) :
    s.settle r ⟨code, done, true, none⟩ hold = s.settledOf r i code done hold := by
  cases hold with
  | true => rw [State.settle_eq _ _ hid]; rfl
  | false => rw [State.settle_released _ hid]; rfl

/-! ### How the port leaves a record (R127) -/

theorem State.mapServed_active (hp : (∃ k, s.port.state = .serving (.setup k)) ∨ s.port.state = .serving .data ∨ s.port.state = .serving .closing)
    (f : TargetRec → TargetRec) : s.mapServed f =
      { s with exch := { s.exch with targets := s.exch.targets.map (fun x => if x.state = .active then f x else x) } } := by
  have hserved (x : TargetRec) : s.isServed x = decide (x.state = .active) := by
    unfold State.isServed
    rcases hp with ⟨k, hp⟩ | hp | hp <;> rw [hp]
  simp only [State.mapServed, hserved, decide_eq_true_eq]

/-- The phases in which the COMMAND write has begun: a stop must wait for ATTN or cut the transfer. -/
def State.Outstanding (s : State) (r : TargetRec) : Prop :=
  (∃ k, s.port.state = .serving (.setup k) ∧ k + 1 = if r.op = .sync then 1 else 5) ∨
    s.port.state = .serving .data ∨ s.port.state = .serving .closing

theorem builtScript_length (r : TargetRec) : (builtScript r).length = if r.op = .sync then 1 else 5 := by
  unfold builtScript
  cases r.op <;> rfl

theorem State.Outstanding.served (h : s.Outstanding r) :
    (∃ k, s.port.state = .serving (.setup k)) ∨ s.port.state = .serving .data ∨ s.port.state = .serving .closing :=
  h.imp_left fun ⟨k, hk, _⟩ => ⟨k, hk⟩

theorem State.stopServing_priming (hp : s.port.state = .serving .priming) : s.stopServing r = (s.enterIdle, false) := by
  unfold State.stopServing
  rw [hp]

theorem State.stopServing_setup {k : Nat} (hp : s.port.state = .serving (.setup k)) (hk : k + 1 ≠ if r.op = .sync then 1 else 5) :
    s.stopServing r = (s.withPort { s.port with state := .serving .stopping }, false) := by
  unfold State.stopServing
  rw [hp]
  exact if_neg (by rwa [builtScript_length])

/-- What the operation of a record makes of a stop that is outstanding: the station, and whether the ring is held. -/
def State.stopByOperation (s : State) (r : TargetRec) : State × Bool :=
  match r.op with
  | .read => (s.startRunOut r, true)
  | .write => (s.enterResetting, true)
  | .sync => (s.startRunOut r, false)

theorem State.stopServing_outstanding (h : s.Outstanding r) : s.stopServing r = s.stopByOperation r := by
  unfold State.stopServing
  rcases h with ⟨k, hp, hk⟩ | hp | hp
  · rw [hp]
    exact if_pos (by rwa [builtScript_length])
  · rw [hp]
    rfl
  · rw [hp]
    rfl

theorem State.continueRunOut_elsewhere (h : ∀ n c, s.port.state ≠ .serving (.runOut n c)) : s.continueRunOut = s := by
  unfold State.continueRunOut
  split
  · next n c hp => exact absurd hp (h n c)
  · rfl

theorem State.continueRunOut_runOut {n c : Nat} (h : s.port.state = .serving (.runOut n c)) : s.continueRunOut = s.moverCheck := by
  unfold State.continueRunOut
  rw [h]

/-- A record dropped while the port works on it. -/
theorem State.dropTarget_active {u : State} {keep : Bool} (hs : r.state = .active) (hid : r.id = some i) (hstop : s.stopServing r = (u, keep)) :
    s.dropTarget r = (if keep then u.detachedOf r i else u.freedOf r i).continueRunOut := by
  simp only [State.dropTarget, hs, hstop, State.detach_eq u hid, State.freeTarget_eq u hid]

/-- A record that settles while the port works on it. -/
theorem State.settleStopped_serving {u : State} {keep : Bool} (hs : r.state = .active) (hid : r.id = some i)
    (hstop : s.stopServing r = (u, keep)) (code : OutcomeCode) :
    s.settleStopped r code = (u.settledOf r i code r.moved keep).continueRunOut := by
  rw [State.settleStopped_active code hs hstop, State.settle_settledOf u hid]

/-! ### The port behind a stop -/

/-- The record served has lost its FULL slots and the port runs out to ATTN (R76). -/
theorem State.startRunOut_outstanding (h : s.Outstanding r) : s.startRunOut r =
    ({ s with exch := { s.exch with targets := s.exch.targets.map (fun x =>
      if x.state = .active then { x with ring := x.ring.map Ring.dropFull } else x) } } : State).withPort { s.port with
        state := .serving (.runOut r.moved r.count), watchdog := some (s.port.watchdog.getD 0) } := by
  have hmap := State.mapServed_active h.served (fun x => { x with ring := x.ring.map Ring.dropFull })
  rw [State.startRunOut, State.mapServedRing, hmap]

/-- The record served has its transfers cut and the module is reset (R77, R128). -/
theorem State.enterResetting_outstanding (h : s.Outstanding r) : s.enterResetting =
    { ({ s with exch := { s.exch with targets := s.exch.targets.map (fun x =>
      if x.state = .active then { x with ring := x.ring.map Ring.cutTransfers } else x) } } : State).withPort { s.port with
        state := .resetting true, access := none, transfer := none, attention := none, watchdog := none } with
      host := { s.host with flags := s.host.flags ||| 16 } } := by
  have hmap := State.mapServed_active h.served (fun x => { x with ring := x.ring.map Ring.cutTransfers })
  rw [State.enterResetting, State.assertReset, State.mapServedRing, hmap]
  rfl

/-- A run-out without the transfer line moves nothing. -/
theorem State.moverCheck_runOut_idle (hp : ∃ n c, s.port.state = .serving (.runOut n c)) (hx : s.port.xfer = false) : s.moverCheck = s := by
  obtain ⟨n, c, hp⟩ := hp
  refine State.moverCheck_stays (Bool.eq_false_iff.mpr fun h => ?_) (by rw [hp]; exact fun h => nomatch h)
  obtain ⟨hxfer, -⟩ := s.transferMayBegin_iff.mp h
  rw [hx] at hxfer
  exact Bool.noConfusion hxfer

theorem State.startRunOut_state : (s.startRunOut r).port.state = .serving (.runOut r.moved r.count) := rfl

/-! ### An ACTIVE record, phase by phase -/

/-- A stop that ends the work of the port at once: the record is freed, or settles without its ring. -/
theorem State.givenUp_released {u : State} (hs : r.state = .active) (hid : r.id = some i) (hstop : s.stopServing r = (u, false))
    (hp : ∀ n c, u.port.state ≠ .serving (.runOut n c)) :
    s.dropTarget r = u.freedOf r i ∧ s.cancelArrives r = (u.settledOf r i .cancelled r.moved false).grant := by
  have hdrop := State.dropTarget_active hs hid hstop
  have hsettle := State.settleStopped_serving hs hid hstop .cancelled
  rw [State.continueRunOut_elsewhere (s := u.settledOf r i .cancelled r.moved false) hp] at hsettle
  exact ⟨hdrop.trans (State.continueRunOut_elsewhere hp), congrArg State.grant hsettle⟩

theorem State.givenUp_read (hs : r.state = .active) (hid : r.id = some i) (ho : r.op = .read) (h : s.Outstanding r) :
    s.dropTarget r = ((s.startRunOut r).detachedOf r i).moverCheck ∧
      s.cancelArrives r = ((s.startRunOut r).settledOf r i .cancelled r.moved true).moverCheck.grant ∧
      s.rewindLimitTarget r = ((s.startRunOut r).settledOf r i .linkFault r.moved true).moverCheck.grant := by
  have hstop : s.stopServing r = (s.startRunOut r, true) := (State.stopServing_outstanding h).trans (by rw [State.stopByOperation, ho])
  have hsettle (code : OutcomeCode) : s.settleStopped r code = ((s.startRunOut r).settledOf r i code r.moved true).moverCheck :=
    (State.settleStopped_serving hs hid hstop code).trans (State.continueRunOut_runOut rfl)
  exact ⟨(State.dropTarget_active hs hid hstop).trans (State.continueRunOut_runOut rfl), congrArg State.grant (hsettle .cancelled),
    congrArg State.grant (hsettle .linkFault)⟩

theorem State.givenUp_write (hs : r.state = .active) (hid : r.id = some i) (ho : r.op = .write) (h : s.Outstanding r) :
    s.dropTarget r = s.enterResetting.detachedOf r i ∧
      s.cancelArrives r = (s.enterResetting.settledOf r i .cancelled r.moved true).grant := by
  have hstop : s.stopServing r = (s.enterResetting, true) := (State.stopServing_outstanding h).trans (by rw [State.stopByOperation, ho])
  have hsettle := State.settleStopped_serving hs hid hstop .cancelled
  rw [State.continueRunOut_elsewhere (s := s.enterResetting.settledOf r i .cancelled r.moved true) (fun _ _ h => nomatch h)] at hsettle
  exact ⟨(State.dropTarget_active hs hid hstop).trans (State.continueRunOut_elsewhere fun _ _ h => nomatch h), congrArg State.grant hsettle⟩

theorem State.givenUp_sync (hs : r.state = .active) (hid : r.id = some i) (ho : r.op = .sync) (h : s.Outstanding r) :
    s.dropTarget r = ((s.startRunOut r).freedOf r i).moverCheck ∧
      s.cancelArrives r = ((s.startRunOut r).settledOf r i .cancelled r.moved false).moverCheck.grant := by
  have hstop : s.stopServing r = (s.startRunOut r, false) := (State.stopServing_outstanding h).trans (by rw [State.stopByOperation, ho])
  have hsettle : s.settleStopped r .cancelled = ((s.startRunOut r).settledOf r i .cancelled r.moved false).moverCheck :=
    (State.settleStopped_serving hs hid hstop .cancelled).trans (State.continueRunOut_runOut rfl)
  exact ⟨(State.dropTarget_active hs hid hstop).trans (State.continueRunOut_runOut rfl), congrArg State.grant hsettle⟩

/-! ### A record outside the port -/

theorem State.dropTarget_waiting (hs : r.state = .queued ∨ r.state = .finishing) (hid : r.id = some i) : s.dropTarget r = s.freedOf r i := by
  rcases hs with hs | hs <;> simp only [State.dropTarget, hs, State.freeTarget_eq s hid]

theorem State.dropTarget_settling {b : Bool} {k : Nat} (hs : r.state = .settling b k) (hid : r.id = some i) :
    s.dropTarget r = if r.ring.isSome then s.detachedOf r i else s.freedOf r i := by
  simp only [State.dropTarget, hs, State.detach_eq s hid, State.freeTarget_eq s hid]

theorem State.closeArrives_settling {b : Bool} {k : Nat} (hs : r.state = .settling b k) : s.closeArrives r = (s.dropTarget r).grant := by
  simp only [State.closeArrives, hs]

end

/-! ### Arrivals under another serial (R44, R110) -/

theorem State.itemToTarget_cancel (s : State) (dest init : Station) (tag : Tag) (serial : Serial) :
    s.itemToTarget init ⟨dest, init, tag, serial, .cancel⟩ = s.atTarget ⟨init, tag, serial⟩ State.cancelArrives := if_pos rfl

theorem State.itemToTarget_credit (s : State) (dest init : Station) (tag : Tag) (serial : Serial) (d : Role) (n l : Nat) :
    s.itemToTarget init ⟨dest, init, tag, serial, .credit d n l⟩ =
      s.atTarget ⟨init, tag, serial⟩ (fun s r => s.creditArrivesTarget r n l) := if_pos rfl

section
variable {s : State} {r : TargetRec} {init : Station} {tag : Tag} {serial : Serial}

/-- What an arrival under another serial does to a record: SETTLING it goes in silence, else PEER_FORGOT answers (log 24). -/
def State.toldForgot (s : State) (r : TargetRec) (i : ExchId) (u : State) : Prop :=
  ((∃ b k, r.state = .settling b k) → u = (s.dropTarget r).grant) ∧
    ((∀ b k, r.state ≠ .settling b k) → u = ((s.dropTarget r).answerForgot i).grant)

theorem State.atTarget_toldForgot (hr : s.targetRec init tag = some r) (hne : r.serial ≠ serial) (f : State → TargetRec → State) :
    s.toldForgot r ⟨init, tag, serial⟩ (s.atTarget ⟨init, tag, serial⟩ f) := by
  have hat : s.atTarget ⟨init, tag, serial⟩ f = (match r.state with
      | .settling _ _ => (s.dropTarget r).grant
      | _ => ((s.dropTarget r).answerForgot ⟨init, tag, serial⟩).grant) := by
    unfold State.atTarget
    rw [hr]
    exact if_neg hne
  rw [hat]
  refine ⟨fun ⟨b, k, hs⟩ => by rw [hs], fun hs => ?_⟩
  split
  · next b k hbk => exact absurd hbk (hs b k)
  · rfl

/-- A valid ASK that is no duplicate takes the place of the record on its key (R41, R44). -/
theorem State.askArrives_replaces {i : Item} {op : Byte} {count : Nat} {addr : BlockAddr} {o : Op} (hr : s.targetRec i.init i.tag = some r)
    (hd : r.repeats i.serial op count addr = false) (hc : s.askCheck op count addr = none) (ho : opOfCode op.toNat = some o) :
    s.askArrives i op count addr = ((s.dropTarget r).grant).takeAsk i o count addr := by
  simp only [State.askArrives, hr, hc, ho]
  exact if_neg (by rw [hd]; decide)

theorem TargetRec.repeats_false {op : Byte} {count : Nat} {addr : BlockAddr}
    (h : r.serial ≠ serial ∨ opCode r.op ≠ op.toNat ∨ r.count ≠ count ∨ (r.op ≠ .sync ∧ r.addr ≠ addr)) :
    r.repeats serial op count addr = false := by
  unfold TargetRec.repeats
  rcases h with h | h | h | ⟨ho, ha⟩
  · simp [h]
  · simp [Ne.symm h]
  · simp [h]
  · simp [ho, ha]

/-- An ASK with a valid operation, block count and range finds the port ready (R42). -/
theorem State.askCheck_passes {op : Byte} {count : Nat} {addr : BlockAddr}
    (hrange : op = 1 ∨ op = 2 → 1 ≤ count ∧ count ≤ 256 ∧ addr.toNat + count ≤ s.port.capacity.toNat) (hsync : op = 3 → count = 0)
    (hop : op = 1 ∨ op = 2 ∨ op = 3)
    (hready : s.port.state = .idle ∨ (∃ x, s.port.state = .serving x) ∨ ∃ k, s.port.state = .maintaining k) :
    s.askCheck op count addr = none := by
  rw [State.askCheck_eq, if_neg, if_neg (fun h => (PortState.not_ready_iff _).mp h hready), if_neg]
  · rintro ⟨hrw, hlt⟩
    obtain ⟨-, -, hle⟩ := hrange hrw
    exact absurd hlt (Nat.not_lt.mpr hle)
  · rintro (⟨h1, h2, h3⟩ | ⟨hrw, hcount⟩ | ⟨h3, hcount⟩)
    · exact hop.elim h1 (fun h => h.elim h2 h3)
    · obtain ⟨hpos, hle, -⟩ := hrange hrw
      omega
    · exact hcount (hsync h3)

end

/-- Settles O37: the record as the port leaves it in each phase, and the arrivals that end the record on their key. -/
theorem targetRecordsGivenUp : Obligations.TargetRecordsGivenUp := by
  refine ⟨fun s r i hr hid => ⟨fun hs => State.dropTarget_waiting hs hid, fun b k hs => ⟨fun hnone => ?_, fun hsome => ?_⟩,
    fun hs => ⟨fun hp => ?_, fun k hk => ?_, fun h => ⟨fun ho => ?_, fun ho => ?_, fun ho => ?_⟩⟩,
    fun u => State.moverCheck_runOut_idle⟩, fun s r dest init tag serial hr => ⟨fun hne => ⟨?_, fun d n l => ?_, fun d hi ht hse => ?_⟩,
      fun op count addr hd hrange hsync hop hready => ?_⟩⟩
  · have hdrop := State.dropTarget_settling (s := s) hs hid
    rw [hnone] at hdrop
    exact ⟨hdrop, (State.closeArrives_settling hs).trans (congrArg State.grant hdrop)⟩
  · have hdrop := State.dropTarget_settling (s := s) hs hid
    rw [if_pos (Option.isSome_iff_ne_none.mpr hsome)] at hdrop
    exact ⟨hdrop, (State.closeArrives_settling hs).trans (congrArg State.grant hdrop)⟩
  · exact State.givenUp_released hs hid (State.stopServing_priming hp) (fun _ _ h => nomatch h)
  · obtain ⟨hp, hk⟩ := hk
    exact State.givenUp_released hs hid (State.stopServing_setup hp hk) (fun _ _ h => nomatch h)
  · have hread := State.givenUp_read hs hid ho h
    rw [State.startRunOut_outstanding h] at hread
    exact hread
  · have hwrite := State.givenUp_write hs hid ho h
    rw [State.enterResetting_outstanding h] at hwrite
    exact hwrite
  · have hsync := State.givenUp_sync hs hid ho h
    rw [State.startRunOut_outstanding h] at hsync
    exact hsync
  · rw [State.itemToTarget_cancel]
    exact State.atTarget_toldForgot hr hne State.cancelArrives
  · rw [State.itemToTarget_credit]
    exact State.atTarget_toldForgot hr hne (fun s r => s.creditArrivesTarget r n l)
  · have htold := State.atTarget_toldForgot hr hne (fun s r => s.dataArrivesTarget r d)
    rw [State.dataToTarget, if_pos hi, hi, ht, hse]
    exact htold
  · obtain ⟨o, ho, hcode⟩ := opOfCode_valid (op := op) (fun ⟨h1, h2, h3⟩ => hop.elim h1 (fun h => h.elim h2 h3))
    have harr := s.itemArrives_ask init dest init tag serial op count addr
    rw [if_pos rfl, State.askArrives_replaces (i := ⟨dest, init, tag, serial, .ask op count addr⟩) hr (TargetRec.repeats_false hd)
      (State.askCheck_passes hrange hsync hop hready) ho] at harr
    dsimp only
    rw [harr]
    refine ⟨fun hfull => State.takeAsk_busy _ _ _ _ hfull, fun hroom => ?_⟩
    obtain ⟨hqueue, htargets⟩ := not_or.mp hroom
    exact ⟨newTarget ⟨dest, init, tag, serial, .ask op count addr⟩ o count addr, rfl, hcode, rfl, fun hne => if_neg hne, rfl, rfl, rfl,
      rfl, rfl, rfl, rfl, newTarget_flow ⟨dest, init, tag, serial, .ask op count addr⟩ o count addr,
      State.takeAsk_accepts _ _ _ _ (Nat.not_le.mp hqueue) (Nat.not_le.mp htargets)⟩

end Sys2Proof.Machine
end

