-- ==== Sys2Proof/Proofs/Pops.lean ====
section
/-! SUPPORT. OUTCOME_POP (O14): the oldest record in DELIVERING enters the Outcome Queue after a pop. -/

namespace Sys2Proof.Machine

theorem exec_outcomePop {s : State} (h : s.configured = true) : exec .outcomePop s = .next s.popOutcome :=
  congrArg _ (State.hosted_configured h _)

/-- A record whose outcome is filed is freed, its items keep their values, and the CLOSE owed follows them (R38, R39, R161). -/
theorem State.enterQueue_eq (s : State) (r : InitRec) (o : Outcome) (closeOwed : Bool) :
    let kept := s.fixRecord ⟨s.own, r.tag, r.serial⟩ .target r.flow.expected
    s.enterQueue r o closeOwed = { kept with
      host := { s.host with outcomes := s.host.outcomes ++ [⟨r.label, r.op, r.peer, o⟩], flags := s.host.flags ||| 1 }
      exch := { s.exch with inits := s.exch.inits.filter (fun x => decide (x.tag ≠ r.tag))
                            delivering := s.exch.delivering.filter (fun t => decide (t ≠ r.tag)) }
      sched := { kept.sched with items := if closeOwed = true ∧ s.sched.items.length < 32
        then kept.sched.items ++ [⟨⟨r.peer, s.own, r.tag, r.serial, .close⟩, .fixed⟩] else kept.sched.items } } := by
  have hlen : (fixItems s.sched.items ⟨s.own, r.tag, r.serial⟩ .target r.flow.expected).length = s.sched.items.length := List.length_map _
  unfold State.enterQueue
  dsimp only
  cases closeOwed with
  | false => rw [if_neg (by decide), if_neg (fun hc => Bool.noConfusion hc.1)]; rfl
  | true =>
    rw [if_pos rfl]
    by_cases hroom : s.sched.items.length < 32
    · rw [if_pos ⟨rfl, hroom⟩]
      exact State.offer_placed .fixed (fun hk => ItemKind.noConfusion hk) (hlen.trans_lt hroom)
    · rw [if_neg (fun hc => hroom hc.2)]
      exact State.offer_full .fixed (fun hk => ItemKind.noConfusion hk) (hlen.symm ▸ Nat.not_lt.mp hroom)

theorem State.admitDelivering_none {s : State} (h : s.exch.delivering = []) : s.admitDelivering = s := by
  rw [State.admitDelivering, h]

theorem State.admitDelivering_oldest {s : State} {t : Tag} {l : List Tag} {r : InitRec} {o : Outcome} {closeOwed : Bool}
    (h : s.exch.delivering = t :: l) (hr : s.initRec t = some r) (hs : r.state = .delivering closeOwed) (ho : r.outcome = some o) :
    s.admitDelivering = s.enterQueue r o closeOwed := by
  rw [State.admitDelivering, h]
  dsimp only
  rw [hr]
  dsimp only
  rw [hs, ho]

/-- Settles O14: behind the pop the oldest record in DELIVERING is filed as `State.enterQueue_eq` tells, and the takes follow. -/
theorem popRemovesTheHead : Obligations.PopRemovesTheHead := by
  intro s hs
  rw [exec_outcomePop hs, State.popOutcome]
  refine ⟨fun hempty => ?_, fun o rest hq hnone => ?_, fun o rest t l r x closeOwed hq hd hr hst ho => ?_⟩
  · rw [hempty]
    rfl
  · rw [hq]
    exact congrArg (fun u : State => Host.Outcome.next u.retake) (State.admitDelivering_none hnone)
  · have hadmit := State.admitDelivering_oldest (s := { s with host := { s.host with outcomes := rest } }) hd hr hst ho
    obtain rfl := State.initRec_tag hr
    rw [State.enterQueue_eq] at hadmit
    rw [hq]
    exact ⟨_, congrArg (fun u : State => Host.Outcome.next u.retake) hadmit, rfl, rfl, rfl, rfl, rfl, rfl, rfl, rfl, rfl⟩

end Sys2Proof.Machine
end

