-- ==== Sys2Proof/Proofs/Cancels.lean ====
section
/-! SUPPORT. CANCEL (O21): the label is searched among the live records, then among the requests. -/

namespace Sys2Proof.Machine

theorem exec_cancel {s : State} (h : s.configured = true) : exec .cancel s = .next (s.cancelLabel s.host.commandArg) :=
  congrArg _ (State.hosted_configured h _)

/-- The outcome of a local ending, told by the operation and the state of the record (R97). -/
theorem InitRec.localOutcome_eq (r : InitRec) (code : OutcomeCode) : r.localOutcome code =
    if r.op = .write then (if r.asking then ⟨code, 0, true, none⟩ else ⟨code, r.flow.base, false, none⟩)
    else ⟨code, if r.op = .read then r.moved else 0, true, none⟩ := by
  unfold InitRec.localOutcome
  cases r.op <;> rfl

/-! ### The search of the label (R99) -/

/-- The search passes over a record of another label, and over one whose outcome is decided. -/
theorem InitRec.passed_iff (r : InitRec) (label : Label) :
    (decide (r.label = label) && r.live) = false ↔ r.label ≠ label ∨ r.live = false := by
  rw [Bool.and_eq_false_iff, decide_eq_false_iff_not]

theorem State.cancelLabel_record {s : State} {label : Label} {r : InitRec}
    (h : s.exch.inits.find? (fun r => decide (r.label = label) && r.live) = some r) :
    s.cancelLabel label = (s.endAndTake r (r.localOutcome .cancelled) true false).setCommandStatus .taken := by
  rw [State.cancelLabel, h]

theorem State.cancelLabel_request {s : State} {label : Label} {q : Request}
    (h : s.exch.inits.find? (fun r => decide (r.label = label) && r.live) = none)
    (hq : s.host.requests.find? (fun q => decide (q.label = label)) = some q) :
    s.cancelLabel label = if s.host.outcomes.length < 16 then (s.cancelRequest q).setCommandStatus .taken
      else s.setCommandStatus .outcomeFull := by
  rw [State.cancelLabel, h]
  dsimp only
  rw [hq]
  rfl

theorem State.cancelLabel_unknown {s : State} {label : Label}
    (h : s.exch.inits.find? (fun r => decide (r.label = label) && r.live) = none)
    (hq : s.host.requests.find? (fun q => decide (q.label = label)) = none) : s.cancelLabel label = s.setCommandStatus .noMatch := by
  rw [State.cancelLabel, h]
  dsimp only
  rw [hq]

/-! ### The end of a queued request (R101) -/

/-- The state in which a request has left the Request Queue with outcome CANCELLED, `rest` standing. -/
def State.cancelled (s : State) (q : Request) (rest : List Request) : State := { s with host := { s.host with
  requests := rest
  outcomes := s.host.outcomes ++ [⟨q.label, q.op, q.target, ⟨.cancelled, 0, true, none⟩⟩]
  flags := (if s.host.requests.length = 8 then s.host.flags ||| 2 else s.host.flags) ||| 1 } }

theorem eraseP_first {α : Type} {p : α → Bool} {pre post : List α} {x : α} (hpre : ∀ y ∈ pre, p y = false) (hx : p x = true) :
    (pre ++ x :: post).eraseP p = pre ++ post := by
  rw [List.eraseP_append_right _ (fun y hy => by rw [hpre y hy]; decide), List.eraseP_cons_of_pos hx]

/-- The takes follow exactly where the request that is cancelled was the head (R22). -/
theorem State.cancelRequest_first {s : State} {pre post : List Request} {q : Request} (h : s.host.requests = pre ++ q :: post)
    (hpre : ∀ x ∈ pre, x.label ≠ q.label) :
    s.cancelRequest q = if pre = [] then (s.cancelled q (pre ++ post)).retake else s.cancelled q (pre ++ post) := by
  have herase : s.host.requests.eraseP (fun x => decide (x.label = q.label)) = pre ++ post := by
    rw [h]
    exact eraseP_first (fun y hy => decide_eq_false (hpre y hy)) (decide_eq_true rfl)
  have hhead : s.host.requests.head? = some q ↔ pre = [] := by
    rw [h]
    cases pre with
    | nil => simp
    | cons x l =>
      have hx : x ≠ q := fun e => hpre x List.mem_cons_self (congrArg Request.label e)
      simp [hx]
  unfold State.cancelRequest
  simp only [herase, hhead]
  rfl

/-- Settles O21: the search finds a record, a request or nothing, and each is told by its own lemma. -/
theorem cancelResolvesTheLabel : Obligations.CancelResolvesTheLabel := by
  intro s hs
  dsimp only
  rw [exec_cancel hs]
  refine ⟨fun pre post r hi hpre hl hlive => ?_, fun hnone => ?_⟩
  · have hfound : s.exch.inits.find? (fun r => decide (r.label = s.host.commandArg) && r.live) = some r := by
      rw [hi]
      exact find_after _ pre post r (fun x hx => (x.passed_iff _).mpr (hpre x hx)) (by simp [hl, hlive])
    rw [State.cancelLabel_record hfound, InitRec.localOutcome_eq]
    rfl
  · have hno : s.exch.inits.find? (fun r => decide (r.label = s.host.commandArg) && r.live) = none :=
      List.find?_eq_none.mpr fun x hx => by simp only [(x.passed_iff _).mpr (hnone x hx), Bool.false_eq_true, not_false_iff]
    refine ⟨fun pre post q hq hpre hl => ?_, fun hnoq => ?_⟩
    · have hfound : s.host.requests.find? (fun q => decide (q.label = s.host.commandArg)) = some q := by
        rw [hq]
        exact find_after _ pre post q (fun x hx => decide_eq_false (hpre x hx)) (decide_eq_true hl)
      rw [State.cancelLabel_request hno hfound, State.cancelRequest_first hq (hl ▸ hpre)]
      refine ⟨fun hfull => ?_, fun hroom => ⟨fun hhead => ?_, fun hbehind => ?_⟩⟩
      · rw [if_neg (Nat.not_lt.mpr hfull)]
        rfl
      · rw [if_pos hroom, if_pos hhead]
        rfl
      · rw [if_pos hroom, if_neg hbehind]
        rfl
    · have hnone' : s.host.requests.find? (fun q => decide (q.label = s.host.commandArg)) = none :=
        List.find?_eq_none.mpr fun x hx => by simpa using hnoq x hx
      rw [State.cancelLabel_unknown hno hnone']
      rfl

end Sys2Proof.Machine
end

