-- ==== Sys2Proof/Proofs/Accesses.lean ====
section
/-! SUPPORT. The channel accesses (O23): what a word and the last word of a block make of the head and of its slot. -/

namespace Sys2Proof.Machine

section

variable {s : State} {r : InitRec} {ring : Ring} {slot : Slot}

/-! ### A record put in place of the one on its tag -/

theorem State.setInit_found {r' : InitRec} (hr : r ∈ s.exch.inits) (ht : r'.tag = r.tag) :
    (s.setInit r').initRec r'.tag = some r' := by
  have hsame : (fun x : InitRec => decide (x.tag = r'.tag)) ∘ (fun x => if x.tag = r'.tag then r' else x) =
      fun x => decide (x.tag = r'.tag) := by
    funext x
    simp only [Function.comp_apply]
    by_cases h : x.tag = r'.tag <;> simp [h]
  show (s.exch.inits.map _).find? _ = _
  rw [List.find?_map, hsame]
  cases hx : s.exch.inits.find? (fun x => decide (x.tag = r'.tag)) with
  | none => exact absurd (decide_eq_true ht.symm) (List.find?_eq_none.mp hx r hr)
  | some x =>
    have htx : x.tag = r'.tag := by simpa using List.find?_some hx
    rw [Option.map_some, if_pos htx]

/-- The first record for which `p` holds, replaced by one for which it holds too, is the first again. -/
theorem find_replaced {p : InitRec → Bool} {r' : InitRec} {l : List InitRec} (h : l.find? p = some r) (ht : r'.tag = r.tag)
    (hp : p r' = true) : (l.map (fun x => if x.tag = r'.tag then r' else x)).find? p = some r' := by
  induction l with
  | nil => cases h
  | cons x l ih =>
    rw [List.map_cons, List.find?_cons]
    by_cases hx : x.tag = r'.tag
    · rw [if_pos hx, hp]
    · rw [if_neg hx]
      cases hpx : p x with
      | true =>
        rw [List.find?_cons, hpx] at h
        obtain rfl := Option.some.inj h
        exact absurd ht.symm hx
      | false =>
        rw [List.find?_cons, hpx] at h
        exact ih h

theorem State.setInit_channelHead {r' : InitRec} {c : Channel} (h : s.channelHead c = some r) (ht : r'.tag = r.tag)
    (hc : r'.inChannel c = true) : (s.setInit r').channelHead c = some r' := by
  have hfind : s.exch.inits.find? (fun x => x.inChannel c) = some r := by
    rw [← List.head?_filter]
    exact h
  show ((s.setInit r').exch.inits.filter (fun x => x.inChannel c)).head? = some r'
  rw [List.head?_filter]
  exact find_replaced hfind ht hc

/-- A change of rings and wanted items leaves every head in its place. -/
theorem KeepsInits.channelHead_tag {u : State} (h : KeepsInits s u) (c : Channel) :
    (u.channelHead c).map InitRec.tag = (s.channelHead c).map InitRec.tag := by
  obtain ⟨f, hf, hu⟩ := h
  have hin : (fun x : InitRec => x.inChannel c) ∘ f = fun x => x.inChannel c := funext fun x => hf.inChannel x c
  have htag : InitRec.tag ∘ f = InitRec.tag := funext hf.tag
  show ((u.exch.inits.filter _).head?).map _ = ((s.exch.inits.filter _).head?).map _
  rw [hu, List.filter_map, hin, List.head?_map, Option.map_map, htag]

/-! ### The rings -/

theorem Ring.modify_areas (g : Ring) (n : Nat) (st : SlotState) :
    (List.modify g n (fun x => { x with st := st })).map Slot.area = g.map Slot.area := by
  refine List.ext_getElem? fun i => ?_
  rw [List.getElem?_map, List.getElem?_map, List.getElem?_modify]
  cases g[i]? with
  | none => rfl
  | some x => by_cases h : n = i <;> simp [h]

/-! ### The words of a block (R75, R179) -/

theorem State.drainWord_inside {b w : Nat} (hr : r.ring = some ring) (hw : w < 255) :
    s.drainWord r slot b w = (s.giveWord (s.buf.ram.readWord slot.area w)).setInit
      { r with ring := some (ring.setState b (.draining b (w + 1))) } := by
  rw [State.drainWord, hr]
  exact if_pos (show w + 1 < 256 by omega)

theorem State.drainWord_last {b : Nat} : s.drainWord r slot b 255 = (s.giveWord (s.buf.ram.readWord slot.area 255)).drainDone r b := by
  rw [State.drainWord]
  exact if_neg (by decide)

theorem State.fillWord_inside {b w : Nat} {v : Word} (hr : r.ring = some ring) (hw : w < 255) :
    s.fillWord r slot b w v = State.setInit { s with buf := { s.buf with ram := s.buf.ram.writeWord slot.area w v } }
      { r with ring := some (ring.setState b (.filling b (w + 1))) } := by
  rw [State.fillWord, hr]
  exact if_pos (show w + 1 < 256 by omega)

theorem State.fillWord_last {b : Nat} {v : Word} (hr : r.ring = some ring) :
    s.fillWord r slot b 255 v = State.setInit { s with buf := { s.buf with ram := s.buf.ram.writeWord slot.area 255 v } }
      { r with ring := some (ring.setState b (if b < r.flow.base then .empty else .full b)), moved := r.moved + 1 } := by
  rw [State.fillWord, hr]
  exact if_neg (by decide)

theorem Word.extract_bytes (v : Word) : v.extractLsb' 8 8 = v.hi ∧ v.extractLsb' 0 8 = v.lo := by
  refine ⟨BitVec.eq_of_toNat_eq ?_, BitVec.eq_of_toNat_eq ?_⟩
  · simp [Word.hi, Nat.shiftRight_eq_div_pow]
  · simp [Word.lo]

/-- The two bytes of a word that is stored (log 5). -/
theorem Memory.read_writeWord (m : Memory) (a : AreaNo) (w : Nat) (v : Word) (h : m.wf = true) :
    (m.writeWord a w v).read (wordAddr a w) = v.hi ∧ (m.writeWord a w v).read (wordAddr a w + 1) = v.lo := by
  refine ⟨?_, Memory.read_write_same _ _ _ 0 (Memory.write_wf m _ _ h)⟩
  rw [Memory.writeWord, Memory.read_write_ne _ _ (by omega)]
  exact Memory.read_write_same m _ _ 0 h

/-! ### The last word of a block of a READ head (R73, R85, R36) -/

/-- A READ head after a whole block has reached the host: its slot is EMPTY and its counts have risen. -/
def InitRec.drained (r : InitRec) (ring : Ring) (c : RecvCounters) : InitRec := { r with
  moved := r.moved + 1
  flow := .receiver { c with consumed := c.consumed + 1 }
  ring := some (ring.setState c.consumed .empty) }

/-- The state in which that head has offered its CREDIT. -/
def State.drainedOne (s : State) (r : InitRec) (ring : Ring) (c : RecvCounters) : State :=
  (s.setInit (r.drained ring c)).offerInit r.tag .credit

variable {c : RecvCounters}

theorem State.drainDone_more (hr : r.ring = some ring) (hf : r.flow = .receiver c) (h : c.consumed + 1 ≠ r.count) :
    s.drainDone r c.consumed = s.drainedOne r ring c := by
  rw [State.drainDone, hr, hf]
  exact if_neg h

theorem State.drainDone_last {x : InitRec} (hr : r.ring = some ring) (hf : r.flow = .receiver c) (h : c.consumed + 1 = r.count)
    (hx : (s.drainedOne r ring c).initRec r.tag = some x) : s.drainDone r c.consumed = (s.drainedOne r ring c).completeInit x := by
  rw [State.drainDone, hr, hf]
  refine (if_pos h).trans ?_
  simp only [State.drainedOne, InitRec.drained] at hx ⊢
  simp only [Option.map_some, hx]

/-- The head that has drained a block is found on its tag, with what it may want. -/
theorem State.drainedOne_found (hr : r ∈ s.exch.inits) :
    ∃ l, (s.drainedOne r ring c).initRec r.tag = some { r.drained ring c with wanted := l } := by
  have hfound : (s.setInit (r.drained ring c)).initRec r.tag = some (r.drained ring c) := State.setInit_found hr rfl
  rw [State.drainedOne, State.offerInit_initRec_same .credit hfound]
  split
  · exact ⟨r.wanted, rfl⟩
  · exact ⟨_, rfl⟩

theorem State.drainedOne_heads {ch : Channel} (hh : s.channelHead ch = some r) (l : List ItemKind) :
    (s.drainedOne r ring c).headsChannel { r.drained ring c with wanted := l } = true := by
  obtain ⟨-, hin⟩ := State.channelHead_mem hh
  have hchan : r.channel = some ch := by
    simp only [InitRec.inChannel, Bool.and_eq_true, decide_eq_true_eq] at hin
    exact hin.1
  have hhead : (s.setInit (r.drained ring c)).channelHead ch = some (r.drained ring c) := State.setInit_channelHead hh rfl hin
  have hkeeps := (State.offerInit_keepsInits (s.setInit (r.drained ring c)) r.tag .credit).channelHead_tag ch
  rw [hhead] at hkeeps
  simp only [State.headsChannel, InitRec.drained, hchan]
  exact decide_eq_true hkeeps

/-- The data of a READ head is complete: its departure is told and the next record becomes head (R36, R175, R177). -/
theorem State.drainedOne_completes {ch : Channel} (hh : s.channelHead ch = some r) (hd : (s.chan ch).held = false) (l : List ItemKind) :
    let v := s.drainedOne r ring c
    v.completeInit { r.drained ring c with wanted := l } = (({ v with
        host := { v.host with flags := v.host.flags ||| (if ch = .a then 32 else 64) }
        exch := { v.exch with inits := v.exch.inits.map (fun x => if x.tag = r.tag then
          { x with ring := none, state := .awaitOutcome } else x) }
        buf := { v.buf with initFree := s.buf.initFree ++ ring.map Slot.area } } : State).setChan ch
          { s.chan ch with held := false, departure := .completed, lastLabel := r.label }).becomeHead ch := by
  obtain ⟨-, hin⟩ := State.channelHead_mem hh
  have hchan : r.channel = some ch := by
    simp only [InitRec.inChannel, Bool.and_eq_true, decide_eq_true_eq] at hin
    exact hin.1
  obtain ⟨-, hbuf, hchanA, hchanB, -⟩ := State.offerInit_rest (s.setInit (r.drained ring c)) r.tag .credit
  have hkept : (s.drainedOne r ring c).chan ch = s.chan ch := by
    cases ch
    · exact hchanA
    · exact hchanB
  have hfree : (s.drainedOne r ring c).buf.initFree = s.buf.initFree := congrArg Buffers.initFree hbuf
  have hchan' : ({ r.drained ring c with wanted := l } : InitRec).channel = some ch := hchan
  have hareas : ({ r.drained ring c with wanted := l } : InitRec).ring.elim [] (List.map Slot.area) = ring.map Slot.area :=
    Ring.modify_areas ring _ _
  dsimp only
  rw [State.completeInit, State.leaveChannel_departs .completed _ hchan' (State.drainedOne_heads hh l), hkept, hfree, hd, hareas]
  rfl

end

/-- Settles O23: each access is one word of the head's current block, and the last word of a READ head's block is told by
`State.drainedOne` and, where it is the last block, by `State.drainedOne_completes`. -/
theorem channelAccesses : Obligations.ChannelAccesses := by
  refine ⟨fun s ch r ring slot w hs hh hd ho hr hlt hslot hst hw => ?_, fun s ch r ring slot w v hs hh hd ho hr hm hslot hst hw hwf => ?_,
    fun s ch r ring slot hs hh hd hr => ⟨fun v b ho hm hslot hst => ?_, fun b c ho hf hslot hst hlt => ?_⟩,
    fun s ch r ring slot b c hs hh hd ho hr hf hslot hst hlast => ?_⟩
  · rw [exec_channelAccess s ch .read hs, State.accessChannel_read hh hd ho hr rfl hlt hslot hst (by omega), State.drainWord_inside hr hw,
      Memory.readWord, wordAddr_eq _ _ (by omega)]
    rfl
  · have haddr := wordAddr_eq slot.area w (by omega)
    obtain ⟨hhigh, hlow⟩ := Word.extract_bytes v
    obtain ⟨hhi, hlo⟩ := Memory.read_writeWord s.buf.ram slot.area w v hwf
    rw [haddr] at hhi hlo
    refine ⟨s.buf.ram.writeWord slot.area w v, Memory.writeWord_wf _ _ _ _ hwf, hhi.trans hhigh.symm,
      hlo.trans hlow.symm, fun a h0 h1 => ?_, ?_⟩
    · exact Memory.read_writeWord_ne _ _ _ _ (by rw [haddr]; exact h0) (by rw [haddr]; exact h1)
    · rw [exec_channelAccess s ch (.write v) hs, State.accessChannel_write hh hd ho hr hm hslot hst (by omega), State.fillWord_inside hr hw]
      rfl
  · rw [exec_channelAccess s ch (.write v) hs, State.accessChannel_write hh hd ho hr hm hslot (.inr ⟨b, hst⟩) (by decide),
      State.fillWord_last hr]
    rfl
  · have hc : r.flow.consumed = c.consumed := by rw [hf]; rfl
    rw [exec_channelAccess s ch .read hs, State.accessChannel_read hh hd ho hr hc (by omega) hslot (.inr ⟨b, hst⟩) (by decide),
      State.drainWord_last, State.drainDone_more hr hf (by omega)]
    rfl
  · have hc : r.flow.consumed = c.consumed := by rw [hf]; rfl
    obtain ⟨hmem, -⟩ := State.channelHead_mem hh
    have hhead : (s.giveWord (s.buf.ram.readWord slot.area 255)).channelHead ch = some r := hh
    have hfound := State.drainedOne_found (s := s.giveWord (s.buf.ram.readWord slot.area 255)) (ring := ring) (c := c) hmem
    obtain ⟨l, hl⟩ := hfound
    rw [exec_channelAccess s ch .read hs, State.accessChannel_read hh hd ho hr hc (by omega) hslot (.inr ⟨b, hst⟩) (by decide),
      State.drainWord_last, State.drainDone_last hr hf hlast hl]
    refine congrArg Host.Outcome.next ?_
    have hheld : ((s.giveWord (s.buf.ram.readWord slot.area 255)).chan ch).held = false := by cases ch <;> exact hd
    have hcomplete := State.drainedOne_completes (ring := ring) (c := c) hhead hheld l
    refine hcomplete.trans ?_
    cases ch <;> rfl

end Sys2Proof.Machine
end

