-- ==== Sys2Proof/Proofs/InitiatorArrivals.lean ====
section
/-! SUPPORT. The arrivals at the initiator role (O34, O35): the record that an arrival matches, its acceptance, the CREDIT at a WRITE,
the block at a READ, and the answers to orphans. -/

namespace Sys2Proof.Machine

section

variable {s : State} {r : InitRec} {sender dest init : Station} {tag : Tag} {serial : Serial}

/-! ### The record that an arrival matches (R1) -/

theorem State.matchInit_some (hr : s.initRec tag = some r) (hp : r.peer = sender) (hs : r.serial = serial) :
    s.matchInit sender tag serial = some r := by
  rw [State.matchInit, hr]
  exact Option.filter_eq_some_iff.mpr ⟨rfl, by simp [hp, hs]⟩

theorem State.matchInit_none (h : ∀ r : InitRec, s.initRec tag = some r → r.peer ≠ sender ∨ r.serial ≠ serial) :
    s.matchInit sender tag serial = none := by
  refine Option.filter_eq_none_iff.mpr fun r hr => ?_
  have hother := h r hr
  simp only [Bool.and_eq_true, decide_eq_true_eq]
  tauto

theorem State.itemToInit_reply (h : s.matchInit sender tag serial = some r) (why : Option Reason) :
    s.itemToInit sender ⟨dest, init, tag, serial, .reply why⟩ = s.replyArrives r why := by
  rw [State.itemToInit, h]

theorem State.itemToInit_credit (h : s.matchInit sender tag serial = some r) (d : Role) (n l : Nat) :
    s.itemToInit sender ⟨dest, init, tag, serial, .credit d n l⟩ = s.creditArrivesInit r n l := by
  rw [State.itemToInit, h]

theorem State.itemToInit_outcome (h : s.matchInit sender tag serial = some r) (code : OutcomeCode) (done : Nat) (status detail : Word) :
    s.itemToInit sender ⟨dest, init, tag, serial, .outcome code done status detail⟩ = s.outcomeArrives r code done status detail := by
  rw [State.itemToInit, h]

theorem State.dataToInit_matched {d : DataBlock} (h : s.matchInit sender d.tag d.serial = some r) :
    s.dataToInit sender d = s.dataArrivesInit r d := by
  rw [State.dataToInit, h]

theorem State.dataToInit_orphan {d : DataBlock} (h : s.matchInit sender d.tag d.serial = none) :
    s.dataToInit sender d = s.offerOrphan ⟨sender, s.own, d.tag, d.serial, .cancel⟩ := by
  rw [State.dataToInit, h]
  rfl

/-- What an item of an orphan earns at the initiator role (R111). -/
theorem State.itemToInit_orphan (h : s.matchInit sender tag serial = none) :
    s.itemToInit sender ⟨dest, init, tag, serial, .reply none⟩ = s.offerOrphan ⟨sender, s.own, tag, serial, .cancel⟩ ∧
    (∀ d n l, s.itemToInit sender ⟨dest, init, tag, serial, .credit d n l⟩ = s.offerOrphan ⟨sender, s.own, tag, serial, .cancel⟩) ∧
    (∀ (code : OutcomeCode) (done : Nat) (status detail : Word), s.itemToInit sender ⟨dest, init, tag, serial, .outcome code done status detail⟩ =
      s.offerOrphan ⟨sender, s.own, tag, serial, .close⟩) ∧
    ∀ why, s.itemToInit sender ⟨dest, init, tag, serial, .reply (some why)⟩ = s := by
  refine ⟨?_, fun d n l => ?_, fun code done status detail => ?_, fun why => ?_⟩ <;> rw [State.itemToInit, h] <;> rfl

/-! ### The answers to orphans (R112) -/

theorem State.waits_orphan_iff (s : State) (i : Item) : s.waits i .orphan = true ↔ ∃ p ∈ s.sched.items, p.origin = .orphan ∧
    p.item.init = i.init ∧ p.item.tag = i.tag ∧ p.item.serial = i.serial ∧ p.item.body.kind = i.body.kind := by
  simp only [State.waits, Item.sameExchange, List.any_eq_true, Bool.and_eq_true, decide_eq_true_eq]
  exact exists_congr fun p => by tauto

theorem State.offerOrphan_waiting {i : Item} (h : s.waits i .orphan = true) : s.offerOrphan i = s := if_pos h

theorem State.offerOrphan_offers {i : Item} (h : ¬ s.waits i .orphan = true) : s.offerOrphan i = s.offer i .orphan := if_neg h

theorem State.offerOrphan_once {i : Item} (h : ¬ s.waits i .orphan = true) (hk : i.body.kind ≠ .credit) :
    (s.sched.items.length < 32 → s.offerOrphan i = { s with sched := { s.sched with items := s.sched.items ++ [⟨i, .orphan⟩] } }) ∧
    (32 ≤ s.sched.items.length → s.offerOrphan i = s) := by
  rw [State.offerOrphan_offers h]
  exact ⟨State.offer_placed .orphan hk, State.offer_full .orphan hk⟩

theorem ItemBody.kind_of_answer {b : ItemBody} (h : b ∈ [ItemBody.cancel, .close]) : b.kind ≠ .credit := by
  rcases List.mem_pair.mp h with rfl | rfl <;> exact ItemKind.noConfusion

/-! ### The acceptance (R30, R33) -/

/-- A record as its acceptance leaves it. -/
def InitRec.accepted (r : InitRec) : InitRec :=
  { r with state := if r.op = .sync then .awaitOutcome else .waiting, wanted := r.wanted.filter (fun k => decide (k ≠ .ask)) }

theorem State.accept_heads (ho : r.op = .read) (hr : r.ring ≠ none) :
    s.accept r = (s.mapInit r.tag InitRec.accepted).offerInit r.tag .credit :=
  if_pos ⟨ho, Option.isSome_iff_ne_none.mpr hr⟩

theorem State.accept_plain (h : r.op ≠ .read ∨ r.ring = none) : s.accept r = s.mapInit r.tag InitRec.accepted := by
  refine if_neg fun ⟨ho, hr⟩ => ?_
  rcases h with h | h
  · exact h ho
  · exact Option.isSome_iff_ne_none.mp hr h

/-- A record that has been accepted is matched by what its old self was matched by, and is neither in ASKING nor ended. -/
theorem State.accept_found (hr : s.initRec r.tag = some r) : ∃ x : InitRec, (s.accept r).initRec r.tag = some x ∧ x.tag = r.tag ∧
    x.peer = r.peer ∧ x.serial = r.serial ∧ x.op = r.op ∧ x.live = true ∧ x.asking = false := by
  have hfound : (s.mapInit r.tag InitRec.accepted).initRec r.tag = some r.accepted := State.mapInit_found hr _ (fun _ => rfl)
  have hstate : r.accepted.live = true ∧ r.accepted.asking = false := by
    unfold InitRec.accepted InitRec.live InitRec.asking
    by_cases ho : r.op = .sync <;> simp [ho]
  obtain ⟨hlive, hask⟩ := hstate
  by_cases h : r.op = .read ∧ r.ring ≠ none
  · rw [State.accept_heads h.1 h.2, State.offerInit_initRec_same .credit hfound]
    split
    · exact ⟨_, rfl, rfl, rfl, rfl, rfl, hlive, hask⟩
    · exact ⟨_, rfl, rfl, rfl, rfl, rfl, hlive, hask⟩
  · rw [State.accept_plain (by tauto)]
    exact ⟨_, hfound, rfl, rfl, rfl, rfl, hlive, hask⟩

theorem State.acceptIfAsking_asking {n k : Nat} (h : r.state = .asking n k) : s.acceptIfAsking r = s.accept r :=
  if_pos (InitRec.asking_of h)

theorem State.acceptIfAsking_past (h : r.asking = false) : s.acceptIfAsking r = s := if_neg (by rw [h]; decide)

/-! ### The items of a matching arrival -/

theorem State.replyArrives_accepts {n k : Nat} (h : r.state = .asking n k) : s.replyArrives r none = s.accept r :=
  if_pos (InitRec.asking_of h)

theorem State.replyArrives_refused {n k : Nat} (h : r.state = .asking n k) (why : Reason) :
    s.replyArrives r (some why) = s.endAndTake r (r.localOutcome (refusalOutcome why)) false false :=
  if_pos (InitRec.asking_of h)

theorem State.replyArrives_past (h : r.asking = false) (why : Option Reason) : s.replyArrives r why = s := if_neg (by rw [h]; decide)

theorem State.outcomeArrives_ends {code : OutcomeCode} (done : Nat) (status detail : Word) (hl : r.live = true)
    (h : code = .done → r.op = .read → r.count ≤ r.flow.consumed) :
    s.outcomeArrives r code done status detail = s.endAndTake r (r.itemOutcome code done status detail) false true :=
  if_pos ⟨hl, fun ⟨hc, ho, hlt⟩ => absurd hlt (Nat.not_lt.mpr (h hc ho))⟩

theorem State.outcomeArrives_undrained (done : Nat) (status detail : Word) (ho : r.op = .read) (h : r.flow.consumed < r.count) :
    s.outcomeArrives r .done done status detail = s := if_neg fun hc => hc.2 ⟨rfl, ho, h⟩

theorem State.outcomeArrives_decided (code : OutcomeCode) (done : Nat) (status detail : Word) (h : r.live = false) :
    s.outcomeArrives r code done status detail = s := if_neg fun hc => by rw [h] at hc; exact Bool.noConfusion hc.1

theorem State.creditArrivesInit_decided (n l : Nat) (h : r.live = false) : s.creditArrivesInit r n l = s := if_neg (by rw [h]; decide)

theorem State.dataArrivesInit_decided (d : DataBlock) (h : r.live = false) : s.dataArrivesInit r d = s := if_neg (by rw [h]; decide)

theorem State.creditArrivesInit_live (n l : Nat) (h : r.live = true) : s.creditArrivesInit r n l =
    if r.op = .write then (s.acceptIfAsking r).creditAtInit r.tag n l else s.acceptIfAsking r := if_pos h

theorem State.dataArrivesInit_live (d : DataBlock) (h : r.live = true) : s.dataArrivesInit r d =
    if r.op = .read then (s.acceptIfAsking r).dataAtInit r.tag d else s.acceptIfAsking r := if_pos h

theorem InitRec.live_of_asking {n k : Nat} (h : r.state = .asking n k) : r.live = true :=
  InitRec.live_of fun b hb => by rw [h] at hb; exact InitState.noConfusion hb

/-- A CREDIT in ASKING is taken as the accepting REPLY is, and then by its own rule (R33). -/
theorem State.creditArrivesInit_accepts {n k : Nat} (hr : s.initRec r.tag = some r) (hs : r.state = .asking n k) (ne limit : Nat) :
    ∃ x, (s.accept r).matchInit r.peer r.tag r.serial = some x ∧
      s.creditArrivesInit r ne limit = (s.accept r).creditArrivesInit x ne limit := by
  obtain ⟨x, hx, htag, hpeer, hserial, hop, hlive, hask⟩ := State.accept_found hr
  refine ⟨x, State.matchInit_some hx hpeer hserial, ?_⟩
  rw [State.creditArrivesInit_live _ _ (InitRec.live_of_asking hs), State.creditArrivesInit_live _ _ hlive,
    State.acceptIfAsking_asking hs, State.acceptIfAsking_past hask, hop, htag]

/-- A DATA frame in ASKING is taken as the accepting REPLY is, and then by its own rule (R33, R82). -/
theorem State.dataArrivesInit_accepts {n k : Nat} (hr : s.initRec r.tag = some r) (hs : r.state = .asking n k) (d : DataBlock) :
    ∃ x, (s.accept r).matchInit r.peer r.tag r.serial = some x ∧ s.dataArrivesInit r d = (s.accept r).dataArrivesInit x d := by
  obtain ⟨x, hx, htag, hpeer, hserial, hop, hlive, hask⟩ := State.accept_found hr
  refine ⟨x, State.matchInit_some hx hpeer hserial, ?_⟩
  rw [State.dataArrivesInit_live _ (InitRec.live_of_asking hs), State.dataArrivesInit_live _ hlive,
    State.acceptIfAsking_asking hs, State.acceptIfAsking_past hask, hop, htag]

/-! ### A CREDIT at a WRITE past ASKING (R88, R71, R34, R91, R36) -/

/-- A WRITE whose counters a CREDIT has moved from `c` to `c'`. -/
def InitRec.credited (r : InitRec) (c c' : SendCounters) : InitRec := { r with
  flow := .sender c'
  ring := r.ring.map (fun g => g.passBase c.base c'.base)
  state := if r.state = .waiting ∧ 0 < c'.limit then .moving else r.state }

theorem State.creditAtInit_eq {c : SendCounters} (hr : s.initRec r.tag = some r) (hf : r.flow = .sender c) (ne limit : Nat) :
    let r' := r.credited c (c.credit r.count ne limit).1
    s.creditAtInit r.tag ne limit =
      if (c.credit r.count ne limit).2 then (s.setInit r').rewindLimitInit r'
      else if (c.credit r.count ne limit).1.base = r.count ∧ (r'.state = .moving ∨ r'.state = .waiting) then (s.setInit r').completeInit r'
      else s.setInit r' := by
  simp only [State.creditAtInit, hr, hf]
  rfl

theorem InitRec.credited_asking {c c' : SendCounters} (h : r.asking = false) : (r.credited c c').asking = false := by
  unfold InitRec.credited InitRec.asking at *
  by_cases hs : r.state = .waiting ∧ 0 < c'.limit
  · simp [hs]
  · simpa [hs] using h

/-- What the eighth rewind of a WRITE past ASKING decides (R91, R97). -/
theorem InitRec.credited_linkFault {c c' : SendCounters} (ho : r.op = .write) (h : r.asking = false) :
    (r.credited c c').localOutcome .linkFault = ⟨.linkFault, c'.base, false, none⟩ := by
  rw [InitRec.localOutcome, show (r.credited c c').op = .write from ho]
  dsimp only
  rw [if_neg (by rw [InitRec.credited_asking h]; decide)]
  rfl

end

/-- Settles O34: an arrival is taken by the record it matches, as that record's state says, or answered as an orphan. -/
theorem arrivalsAtTheInitiator : Obligations.ArrivalsAtTheInitiator := by
  refine ⟨fun s sender dest init tag serial => ⟨fun r hr hp hse => ?_, fun hno => ?_⟩, fun s r dest init hr => ⟨fun n k hs => ?_,
    fun hpast => ?_, fun c ne limit d ho hf hpast hdec => ?_⟩, fun s i => ?_⟩
  · have hmatch := State.matchInit_some hr hp hse
    obtain rfl := State.initRec_tag hr
    refine ⟨fun n k hs => ⟨fun h => ?_, fun ho hring => ?_, fun why => ?_⟩, fun hpast why => ?_, fun hdec code done status detail h => ?_,
      fun ho hlt done status detail => ?_, fun b hs => ⟨fun why => ?_, fun d n l => ?_, fun code done status detail => ?_, fun d ht hds => ?_⟩⟩
    · exact (State.itemToInit_reply hmatch none).trans ((State.replyArrives_accepts hs).trans (State.accept_plain h))
    · exact (State.itemToInit_reply hmatch none).trans ((State.replyArrives_accepts hs).trans (State.accept_heads ho hring))
    · refine (State.itemToInit_reply hmatch (some why)).trans ((State.replyArrives_refused hs why).trans ?_)
      cases why <;> rfl
    · exact (State.itemToInit_reply hmatch why).trans (State.replyArrives_past (InitRec.not_asking hpast) why)
    · exact (State.itemToInit_outcome hmatch code done status detail).trans
        (State.outcomeArrives_ends done status detail (InitRec.live_of hdec) h)
    · exact (State.itemToInit_outcome hmatch .done done status detail).trans (State.outcomeArrives_undrained done status detail ho hlt)
    · exact (State.itemToInit_reply hmatch why).trans (State.replyArrives_past (InitRec.asking_live (InitRec.dead_of hs)) why)
    · exact (State.itemToInit_credit hmatch d n l).trans (State.creditArrivesInit_decided n l (InitRec.dead_of hs))
    · exact (State.itemToInit_outcome hmatch code done status detail).trans
        (State.outcomeArrives_decided code done status detail (InitRec.dead_of hs))
    · rw [State.dataToInit_matched (by rw [ht, hds]; exact hmatch), State.dataArrivesInit_decided d (InitRec.dead_of hs)]
  · have hmatch := State.matchInit_none hno
    obtain ⟨hreply, hcredit, houtcome, hrefusal⟩ := State.itemToInit_orphan (dest := dest) (init := init) hmatch
    refine ⟨hreply, hcredit, houtcome, hrefusal, fun d ht hds => ?_, fun b hb => State.offerOrphan_waiting (State.waits_true hb),
      fun b hb hnone hl => ?_, fun b hb hl => ?_⟩
    · rw [State.dataToInit_orphan (by rw [ht, hds]; exact hmatch), ht, hds]
    · refine (State.offerOrphan_once (fun hw => ?_) (ItemBody.kind_of_answer hb)).1 hl
      obtain ⟨p, hp, ho, -⟩ := (State.waits_orphan_iff s _).mp hw
      exact hnone p hp ho
    · by_cases hw : s.waits ⟨sender, s.own, tag, serial, b⟩ .orphan = true
      · exact State.offerOrphan_waiting hw
      · exact (State.offerOrphan_once hw (ItemBody.kind_of_answer hb)).2 hl
  · have hmatch := State.matchInit_some (sender := r.peer) hr rfl rfl
    dsimp only
    rw [State.itemToInit_reply hmatch none, State.replyArrives_accepts hs]
    refine ⟨fun d ne limit => ?_, fun d ht hds => ?_⟩
    · obtain ⟨x, hx, hcredit⟩ := State.creditArrivesInit_accepts hr hs ne limit
      rw [State.itemToInit_credit hmatch, State.itemToInit_credit hx, hcredit]
    · obtain ⟨x, hx, hdata⟩ := State.dataArrivesInit_accepts hr hs d
      rw [State.dataToInit_matched (by rw [ht, hds]; exact hmatch), State.dataToInit_matched (by rw [ht, hds]; exact hx), hdata]
  · have hmatch := State.matchInit_some (sender := r.peer) hr rfl rfl
    have hask := InitRec.not_asking hpast
    refine ⟨fun ho d ne limit => (State.itemToInit_credit hmatch d ne limit).trans ?_, fun ho d ht hds => ?_⟩
    · cases hl : r.live with
      | false => exact State.creditArrivesInit_decided ne limit hl
      | true => rw [State.creditArrivesInit_live ne limit hl, if_neg ho, State.acceptIfAsking_past hask]
    · rw [State.dataToInit_matched (by rw [ht, hds]; exact hmatch)]
      cases hl : r.live with
      | false => exact State.dataArrivesInit_decided d hl
      | true => rw [State.dataArrivesInit_live d hl, if_neg ho, State.acceptIfAsking_past hask]
  · have hmatch := State.matchInit_some (sender := r.peer) hr rfl rfl
    have hask := InitRec.not_asking hpast
    have harrives := State.itemToInit_credit (dest := dest) (init := init) hmatch d ne limit
    rw [State.creditArrivesInit_live ne limit (InitRec.live_of hdec), if_pos ho, State.acceptIfAsking_past hask,
      State.creditAtInit_eq hr hf ne limit] at harrives
    refine ⟨fun hhit => harrives.trans ?_, fun hhit => ⟨fun hbase hst => harrives.trans ?_, fun h => harrives.trans ?_⟩⟩
    · rw [if_pos hhit, State.rewindLimitInit, InitRec.credited_linkFault ho hask]
      rfl
    · rw [if_neg (by rw [hhit]; decide)]
      exact if_pos ⟨hbase, hst.symm⟩
    · rw [if_neg (by rw [hhit]; decide)]
      refine if_neg ?_
      rintro ⟨hbase, hst⟩
      rcases h with h | h
      · exact h hbase
      · simp [InitRec.credited, h] at hst
  · have halike := State.waits_orphan_iff s i
    refine ⟨fun h => State.offerOrphan_waiting (halike.mpr h), fun h => State.offerOrphan_offers (fun hw => h (halike.mp hw)),
      fun h hk => State.offerOrphan_once (fun hw => h (halike.mp hw)) fun hc => ?_⟩
    obtain ⟨d, n, l, hb⟩ := (ItemBody.kind_credit_iff i.body).mp hc
    exact hk d n l hb

end Sys2Proof.Machine
end

