-- ==== Sys2Proof/Proofs/BlocksHeard.lean ====
section
/-! SUPPORT. The block of a DATA frame at an initiator READ (O35): stored in its slot, or discarded. -/

namespace Sys2Proof.Machine

section

variable {s : State} {r : InitRec} {c : RecvCounters} {ring : Ring} {slot : Slot} {d : DataBlock}

/-- A matching DATA frame at a READ past ASKING reaches its receiver (R83). -/
theorem State.dataToInit_read (hr : s.initRec d.tag = some r) (hse : r.serial = d.serial) (ho : r.op = .read) (hl : r.live = true)
    (hask : r.asking = false) : s.dataToInit r.peer d = s.dataAtInit d.tag d := by
  rw [State.dataToInit_matched (State.matchInit_some hr rfl hse), State.dataArrivesInit_live d hl, if_pos ho,
    State.acceptIfAsking_past hask, State.initRec_tag hr]

/-- A READ with one more block in its ring (R72). -/
def InitRec.stored (r : InitRec) (ring : Ring) (c : RecvCounters) (index : Nat) : InitRec := { r with
  ring := some (ring.setState index (.full index))
  flow := .receiver { c with expected := c.expected + 1 }
  state := if r.state = .waiting then .moving else r.state }

theorem State.dataAtInit_ring (hr : s.initRec d.tag = some r) (hf : r.flow = .receiver c) (hring : r.ring = some ring)
    (hslot : ring[d.index % ring.length]? = some slot) : s.dataAtInit d.tag d =
      if d.index = c.expected ∧ d.index < r.count ∧ slot.st = .empty then
        (State.setInit { s with buf := { s.buf with ram := s.buf.ram.writeBlock slot.area d.bytes } } (r.stored ring c d.index)).offerInit
          d.tag .credit
      else s.offerInit d.tag .credit := by
  have hslot' : ring.slot d.index = some slot := hslot
  simp only [State.dataAtInit, hr, hf, hring, hslot']
  rfl

theorem State.dataAtInit_noRing (hr : s.initRec d.tag = some r) (hring : r.ring = none) : s.dataAtInit d.tag d = s.offerInit d.tag .credit := by
  simp only [State.dataAtInit, hr, hring]
  cases r.flow <;> rfl

theorem InitRec.stored_state (index : Nat) (h : r.state = .waiting ∨ r.state = .moving) :
    r.stored ring c index = { r with state := .moving, flow := .receiver { c with expected := c.expected + 1 },
                                     ring := some (ring.setState index (.full index)) } := by
  have hstate : (if r.state = .waiting then .moving else r.state) = InitState.moving := by
    rcases h with h | h <;> rw [h] <;> rfl
  rw [InitRec.stored, hstate]

/-- A READ that waits, moves or awaits its outcome is live and past ASKING. -/
theorem InitRec.past_asking (h : r.state = .waiting ∨ r.state = .moving ∨ r.state = .awaitOutcome) : r.live = true ∧ r.asking = false := by
  unfold InitRec.live InitRec.asking
  rcases h with h | h | h <;> rw [h] <;> exact ⟨rfl, rfl⟩

end

/-- Settles O35: the block is stored where it is the next expected one and its slot is EMPTY; a CREDIT is queued in every case. -/
theorem dataAtAnInitiatorRead : Obligations.DataAtAnInitiatorRead := by
  refine ⟨fun s r c ring slot d hr hse ho hs hf hring hslot => ?_, fun s r d hr hse ho => ⟨fun hring hs => ?_, fun b hs => ?_⟩⟩
  · obtain ⟨hlive, hask⟩ := InitRec.past_asking (hs.imp_right .inl)
    rw [State.dataToInit_read hr hse ho hlive hask, State.dataAtInit_ring hr hf hring hslot]
    refine ⟨fun hi hlt hempty hwf hlen => ?_, fun h => if_neg fun ⟨hi, hlt, hempty⟩ => ?_⟩
    · refine ⟨s.buf.ram.writeBlock slot.area d.bytes, Memory.writeBlock_wf _ _ _ hwf, Memory.readBlock_writeBlock _ _ _ hlen hwf,
        fun a ha => Memory.read_writeBlock_ne _ _ _ ha, ?_⟩
      rw [if_pos ⟨hi, hlt, hempty⟩, InitRec.stored_state _ hs, ← State.initRec_tag hr]
      rfl
    · rcases h with h | h | h
      · exact h hi
      · exact Nat.not_lt.mpr h hlt
      · exact h hempty
  · obtain ⟨hlive, hask⟩ := InitRec.past_asking hs
    rw [State.dataToInit_read hr hse ho hlive hask, State.dataAtInit_noRing hr hring]
  · rw [State.dataToInit_matched (State.matchInit_some hr rfl hse), State.dataArrivesInit_decided d (InitRec.dead_of hs)]

end Sys2Proof.Machine
end

