-- ==== Sys2Proof/Proofs/Transmissions.lean ====
section
/-! SUPPORT. The end of each kind of transmission (O49), and the moves of the holder by it. -/

namespace Sys2Proof.Machine

section

variable {s : State}

/-! ### The moves of the holder to another station and to OPEN -/

/-- The state in which a holder has taken its turn, the activity mark clear (R142). -/
def State.held (s : State) (h : Option Station) : State := { s with member := { s.member with holder := h, activity := false } }

theorem State.moveHolder_passes {m : Station} (hm : m ≠ s.own) (hh : s.member.holder ≠ some m) : s.moveHolder (some m) = s.held (some m) :=
  (State.moveHolder_other hm).trans (State.setHolder_ne hh)

theorem State.moveHolder_opens (hl : s.member.link = .member ∨ s.member.link = .leaving) (hh : s.member.holder ≠ none) :
    s.moveHolder none = s.held none := (State.moveHolder_open hl).trans (State.setHolder_ne hh)

/-! ### The entry to MEMBER (R133, R22) -/

/-- The state of a station that has entered MEMBER, before the takes. -/
def State.entered (s : State) (roster : Vector RosterEntry 16) (added : Nat) : State := { s with
  host := { s.host with flags := s.host.flags ||| 4 }
  member := { s.member with link := .member, roster := roster, view := 0, openTurns := 0,
                            generation := s.member.generation + BitVec.ofNat 16 added } }

theorem State.enterMember_eq (s : State) (roster : Vector RosterEntry 16) (added : Nat) :
    s.enterMember roster added = (s.entered roster added).retake := rfl

/-- The state at the end of the founding JOIN, before the takes (R137): the station alone in its roster, the holder OPEN. -/
def State.founded (s : State) : State := { s with
  line := { s.line with tx := none }
  host := { s.host with flags := s.host.flags ||| 4 }
  member := { link := .member, generation := s.member.generation + 1, holder := none, view := 0, openTurns := 0
              activity := s.member.activity && s.member.holder.isNone
              roster := (Vector.replicate 16 ⟨false, 0, false⟩).set s.own ⟨true, 0, s.port.state.ready⟩ } }

theorem State.completeFounding_eq (s : State) :
    State.completeFounding { s with line := { s.line with tx := none } } = s.founded.retake := by
  have hopen : decide (s.member.holder = none) = s.member.holder.isNone := by cases s.member.holder <;> rfl
  unfold State.completeFounding
  rw [State.enterMember_eq]
  simp only [State.entered, State.setHolder, hopen]
  rfl

/-! ### The end of a transmission (R165) -/

theorem exec_endOfTransmission (s : State) : exec .endOfTransmission s = .next s.endTransmission := rfl

theorem State.endTransmission_none (h : s.line.tx = none) : s.endTransmission = s := by rw [State.endTransmission, h]

variable {frames : List Frame}

theorem State.endTransmission_ownTurn (h : s.line.tx = some ⟨.ownTurn, frames⟩) :
    s.endTransmission = State.moveHolder { s with line := { s.line with tx := none } } (s.nextAfter s.own) := by
  rw [State.endTransmission, h]
  rfl

theorem State.endTransmission_join (h : s.line.tx = some ⟨.join, frames⟩) : s.endTransmission =
    if s.member.link = .joining then { s with line := { s.line with tx := none }, member := { s.member with openTurns := 0 } }
    else { s with line := { s.line with tx := none } } := by
  rw [State.endTransmission, h]

theorem State.endTransmission_founding (h : s.line.tx = some ⟨.founding, frames⟩) : s.endTransmission = s.founded.retake := by
  rw [State.endTransmission, h]
  exact s.completeFounding_eq

theorem State.endTransmission_leave (h : s.line.tx = some ⟨.leave, frames⟩) :
    s.endTransmission = State.completeLeave { s with line := { s.line with tx := none } } := by
  rw [State.endTransmission, h]

end

/-- Settles O49: each kind of transmission ends as its own lemma tells, and the founding JOIN ends in `State.founded` and its takes. -/
theorem endOfTransmission : Obligations.EndOfTransmission := by
  refine ⟨fun s => ⟨fun h => ?_, fun frames => ⟨fun m h hnext hh => ?_, fun h hnext hh hl => ?_, fun h hl => ?_, fun h hq => ?_, fun h => ?_⟩⟩,
    fun s frames => ⟨fun hs h => ?_, fun h hl => ?_⟩⟩
  · rw [exec_endOfTransmission, State.endTransmission_none h]
  · have hne := State.nextAfter_ne hnext
    rw [exec_endOfTransmission, State.endTransmission_ownTurn h, hnext,
      State.moveHolder_passes (s := { s with line := { s.line with tx := none } }) hne.symm (by rw [hh]; simpa using hne)]
    rfl
  · rw [exec_endOfTransmission, State.endTransmission_ownTurn h, hnext,
      State.moveHolder_opens (s := { s with line := { s.line with tx := none } }) hl (by rw [hh]; exact Option.some_ne_none _)]
    rfl
  · rw [exec_endOfTransmission, State.endTransmission_join h, if_pos hl]
  · rw [exec_endOfTransmission, State.endTransmission_founding h, State.retake_noRequest (s := s.founded) hq]
    rfl
  · rw [exec_endOfTransmission, State.endTransmission_leave h]
    rfl
  · rw [exec_endOfTransmission, State.endTransmission_founding h]
    exact (exec_takeRequest s.founded hs).symm
  · rw [exec_endOfTransmission, State.endTransmission_join h, if_neg hl]

end Sys2Proof.Machine
end

