-- ==== Sys2Proof/Proofs/Silences.lean ====
section
/-! SUPPORT. The silence events (O46): the miss a silent turn counts, and the move of the holder after it. -/

namespace Sys2Proof.Machine

section

variable {s : State} {n m : Station}

/-! ### The rows -/

theorem State.silenceTimerRuns_of (ht : s.line.tx = none) (hr : s.line.receiving = false)
    (hl : s.member.link = .member ∨ s.member.link = .leaving ∨ s.member.link = .listening ∨ s.member.link = .joining) :
    s.silenceTimerRuns = true := by
  unfold State.silenceTimerRuns State.tracking
  rw [ht, hr]
  rcases hl with h | h | h | h <;> rw [h] <;> rfl

theorem exec_silenceEvent_runs (h : s.silenceTimerRuns = true) : exec .silenceEvent s = .next s.silence := congrArg _ (if_pos h)

theorem exec_silenceEvent_stopped (h : s.silenceTimerRuns = false) : exec .silenceEvent s = .next s :=
  congrArg _ (if_neg (by rw [h]; decide))

theorem State.thirdMissDue_iff : s.thirdMissDue n = true ↔ s.silenceTimerRuns = true ∧ s.member.holder = some n ∧ n ≠ s.own ∧
    s.member.activity = false ∧ (s.member.link = .member ∨ s.member.link = .leaving) ∧ s.member.roster[n].present = true ∧
    2 ≤ s.member.roster[n].misses := by
  simp only [State.thirdMissDue, State.present, Limit.misses, Bool.and_eq_true, Bool.or_eq_true, Bool.not_eq_true', decide_eq_true_eq,
    and_assoc, Nat.succ_le_succ_iff]

theorem exec_missesReach3_due (h : s.thirdMissDue n = true) : exec (.missesReach3 n) s = .next s.silence := congrArg _ (if_pos h)

theorem exec_missesReach3_idle (h : ¬ s.thirdMissDue n = true) : exec (.missesReach3 n) s = .next s := congrArg _ (if_neg h)

/-! ### The miss of a silent turn (R145, R149) -/

/-- The state after a silent turn of `n` has been counted, before the holder passes on. -/
def State.missCounted (s : State) (n : Station) : State :=
  if s.member.activity = false ∧ n ≠ s.own ∧ s.member.roster[n].present = true then
    (if s.member.roster[n].misses < 2 then { s with member := { s.member with
        roster := s.member.roster.set n { s.member.roster[n] with misses := s.member.roster[n].misses + 1 } } }
      else s.removePeer n)
  else s

theorem State.silentTurn_counts (hl : s.member.link = .member ∨ s.member.link = .leaving) :
    s.silentTurn n = (s.missCounted n).moveHolder ((s.missCounted n).nextAfter n) := by
  have hcounts : (decide (s.member.link = .member) || decide (s.member.link = .leaving)) = true := by simpa using hl
  have hmissed : ((decide (s.member.link = .member) || decide (s.member.link = .leaving)) && !s.member.activity && decide (n ≠ s.own) &&
      s.present n) = true ↔ s.member.activity = false ∧ n ≠ s.own ∧ s.member.roster[n].present = true := by
    simp only [hcounts, State.present, Bool.true_and, Bool.and_eq_true, Bool.not_eq_true', decide_eq_true_eq, and_assoc]
  have hlimit : s.member.roster[n].misses + 1 < Limit.misses ↔ s.member.roster[n].misses < 2 := Nat.succ_lt_succ_iff
  unfold State.silentTurn State.missCounted
  simp only [hmissed, hlimit]
  rfl

theorem State.silentTurn_hearing (hl : s.member.link = .listening ∨ s.member.link = .joining) :
    s.silentTurn n = s.moveHolder (s.nextAfter n) := by
  unfold State.silentTurn
  rcases hl with h | h <;> simp [h]

/-- What a removal leaves of the station, its link and the holder (R149). -/
theorem State.removePeer_keeps (s : State) (n : Station) : (s.removePeer n).own = s.own ∧ (s.removePeer n).member.link = s.member.link ∧
    (s.removePeer n).member.holder = s.member.holder := by
  obtain ⟨hown, hmember, -⟩ := s.forgetPeer_member n
  obtain ⟨hown', hmember', -⟩ := (s.forgetPeer n).resume_member s
  rw [State.removePeer]
  refine ⟨hown'.trans hown, ?_, ?_⟩
  · rw [hmember', hmember]
  · rw [hmember', hmember]

theorem State.missCounted_keeps (s : State) (n : Station) : (s.missCounted n).own = s.own ∧
    (s.missCounted n).member.link = s.member.link ∧ (s.missCounted n).member.holder = s.member.holder := by
  unfold State.missCounted
  split
  · split
    · exact ⟨rfl, rfl, rfl⟩
    · exact s.removePeer_keeps n
  · exact ⟨rfl, rfl, rfl⟩

theorem State.missCounted_missed (ha : s.member.activity = false) (hn : n ≠ s.own) (hp : s.member.roster[n].present = true)
    (hm : s.member.roster[n].misses < 2) : s.missCounted n = { s with member := { s.member with
      roster := s.member.roster.set n { s.member.roster[n] with misses := s.member.roster[n].misses + 1 } } } :=
  (if_pos ⟨ha, hn, hp⟩).trans (if_pos hm)

theorem State.missCounted_third (ha : s.member.activity = false) (hn : n ≠ s.own) (hp : s.member.roster[n].present = true)
    (hm : ¬ s.member.roster[n].misses < 2) : s.missCounted n = s.removePeer n := (if_pos ⟨ha, hn, hp⟩).trans (if_neg hm)

theorem State.missCounted_active (ha : s.member.activity = true) : s.missCounted n = s :=
  if_neg fun h => by rw [ha] at h; exact Bool.noConfusion h.1

/-- The removal of a peer with which there is no exchange, with nothing to grant and nothing to take. -/
theorem State.removePeer_stranger (hi : ∀ r ∈ s.exch.inits, r.peer ≠ n) (ht : ∀ r ∈ s.exch.targets, ∀ i, r.id = some i → i.peer ≠ n)
    (hq : s.host.requests = []) (hp : s.port.state ≠ .idle) : s.removePeer n =
      { s.gone n with sched := { s.sched with items := s.sched.items.filter (fun p => decide (p.item.dest ≠ n)) } } := by
  rw [State.removePeer, State.forgetPeer_stranger hi ht]
  exact State.resume_nothing s hq hp

/-! ### The silent turn of a station -/

theorem State.silence_turn (h : s.member.holder = some n) : s.silence = s.silentTurn n := by rw [State.silence, h]

theorem State.silence_open (h : s.member.holder = none) : s.silence = s.moveHolder s.lowest := by rw [State.silence, h]

theorem State.moveHolder_stays (h : s.member.holder = none) : s.moveHolder none = s := by
  have hset : s.setHolder none = s := by
    unfold State.setHolder
    simp only [h, decide_true, Bool.and_true]
    rw [← h]
  unfold State.moveHolder
  simp only [h, hset]
  exact if_neg (by decide)

theorem State.moveHolder_begins (hl : s.member.link = .member ∨ s.member.link = .leaving) (hh : s.member.holder ≠ some s.own) :
    s.moveHolder (some s.own) = (s.held (some s.own)).ownTurn :=
  (State.moveHolder_own rfl hl).trans (congrArg State.ownTurn (State.setHolder_ne hh))

theorem State.moveHolder_heard (hl : s.member.link = .listening ∨ s.member.link = .joining) (hh : s.member.holder ≠ some m) :
    s.moveHolder (some m) = s.held (some m) := (State.moveHolder_hearing hl).trans (State.setHolder_ne hh)

/-- The holder after the turn of `n`, in a state `u` in which that turn has ended. -/
theorem State.moveHolder_after {u : State} (hl : u.member.link = .member ∨ u.member.link = .leaving) (hh : u.member.holder = some n) :
    (∀ m, u.nextAfter n = some m → m ≠ u.own → u.moveHolder (u.nextAfter n) = u.held (some m)) ∧
    (u.nextAfter n = none → u.moveHolder (u.nextAfter n) = u.held none) ∧
    (u.nextAfter n = some u.own → u.moveHolder (u.nextAfter n) = (u.held (some u.own)).ownTurn) := by
  refine ⟨fun m hm hne => ?_, fun hnone => ?_, fun hown => ?_⟩
  · have hother := State.nextAfter_ne hm
    rw [hm, State.moveHolder_passes hne (by rw [hh]; simpa using hother)]
  · rw [hnone, State.moveHolder_opens hl (by rw [hh]; exact Option.some_ne_none n)]
  · have hother := State.nextAfter_ne hown
    rw [hown, State.moveHolder_begins hl (by rw [hh]; simpa using hother)]

theorem State.silence_counts (hl : s.member.link = .member ∨ s.member.link = .leaving) (hh : s.member.holder = some n) :
    let u := s.missCounted n
    (∀ m, u.nextAfter n = some m → m ≠ s.own → s.silence = u.held (some m)) ∧
    (u.nextAfter n = none → s.silence = u.held none) ∧
    (u.nextAfter n = some s.own → s.silence = (u.held (some s.own)).ownTurn) := by
  obtain ⟨hown, hlink, hholder⟩ := s.missCounted_keeps n
  have hafter := State.moveHolder_after (u := s.missCounted n) (hlink ▸ hl) (hholder.trans hh)
  rw [hown] at hafter
  rw [State.silence_turn hh, State.silentTurn_counts hl]
  exact hafter

/-- A change of the entry of `n` does not move the turn that follows its own. -/
theorem State.nextAfter_entrySet {u : State} {e : RosterEntry} {g : BitVec 16}
    (h : u.member = { s.member with roster := s.member.roster.set n e, generation := g }) : u.nextAfter n = s.nextAfter n :=
  State.nextAfter_congr (by rw [h]) (by rw [h]) fun m hm => by rw [h, roster_set_other _ _ _ _ hm]

theorem exec_missesReach3_third (ht : s.line.tx = none) (hr : s.line.receiving = false) (hl : s.member.link = .member ∨ s.member.link = .leaving)
    (hh : s.member.holder = some n) (hn : n ≠ s.own) (ha : s.member.activity = false) (hp : s.member.roster[n].present = true)
    (hm : 2 ≤ s.member.roster[n].misses) : exec (.missesReach3 n) s = exec .silenceEvent s := by
  have hruns := State.silenceTimerRuns_of ht hr (hl.imp_right .inl)
  rw [exec_missesReach3_due (State.thirdMissDue_iff.mpr ⟨hruns, hh, hn, ha, hl, hp, hm⟩), exec_silenceEvent_runs hruns]

end

/-- Settles O46: the miss is `State.missCounted`, and the holder moves from the state it leaves. -/
theorem silenceEvents : Obligations.SilenceEvents := by
  refine ⟨fun s => ⟨fun m hstop => ⟨exec_silenceEvent_stopped hstop, exec_missesReach3_idle fun hd => ?_⟩, fun ht hr =>
    ⟨fun n m hl hh hn hp hnext hm => ⟨fun ha hmiss => ?_, fun ha => ?_, fun ha hmiss hi hk hq hport => ?_, fun h => ?_⟩,
      fun n hl hh ha hnext => ?_, fun m hl hh hlow hm => ?_, fun hl hh hlow => ?_⟩⟩,
    fun s ht hr => ⟨fun hl => ⟨fun n hh => ?_, fun hh => ⟨fun m hlow hm => ?_, fun hlow => ?_, fun hlow => ?_⟩⟩,
      fun hl => ⟨fun n m hh hnext => ?_, fun m hh hlow => ?_⟩⟩⟩
  · obtain ⟨hruns, -⟩ := State.thirdMissDue_iff.mp hd
    rw [hstop] at hruns
    exact Bool.noConfusion hruns
  · obtain ⟨hpass, -, -⟩ := State.silence_counts hl hh
    rw [exec_silenceEvent_runs (State.silenceTimerRuns_of ht hr (hl.imp_right .inl))]
    have hsame : (s.missCounted n).nextAfter n = s.nextAfter n :=
      State.nextAfter_entrySet (congrArg State.member (State.missCounted_missed ha hn hp hmiss))
    rw [hpass m (hsame.trans hnext) hm, State.missCounted_missed ha hn hp hmiss]
    rfl
  · obtain ⟨hpass, -, -⟩ := State.silence_counts hl hh
    rw [exec_silenceEvent_runs (State.silenceTimerRuns_of ht hr (hl.imp_right .inl))]
    rw [State.missCounted_active ha] at hpass
    exact congrArg _ (hpass m hnext hm)
  · obtain ⟨hpass, -, -⟩ := State.silence_counts hl hh
    have hevent := exec_silenceEvent_runs (State.silenceTimerRuns_of ht hr (hl.imp_right .inl))
    have hgone := (State.missCounted_third ha hn hp (by omega)).trans (State.removePeer_stranger hi hk hq hport)
    have hsame : (s.missCounted n).nextAfter n = s.nextAfter n := State.nextAfter_entrySet (congrArg State.member hgone)
    rw [hpass m (hsame.trans hnext) hm, hgone] at hevent
    exact ⟨_, hevent, (exec_missesReach3_third ht hr hl hh hn ha hp (by omega)).trans hevent, rfl⟩
  · refine exec_missesReach3_idle fun hd => ?_
    obtain ⟨-, -, -, ha, -, -, hmiss⟩ := State.thirdMissDue_iff.mp hd
    rcases h with h | h
    · rw [h] at ha; exact Bool.noConfusion ha
    · omega
  · obtain ⟨-, hopens, -⟩ := State.silence_counts (.inl hl) hh
    rw [exec_silenceEvent_runs (State.silenceTimerRuns_of ht hr (.inl hl))]
    rw [State.missCounted_active ha] at hopens
    exact congrArg _ (hopens hnext)
  · rw [exec_silenceEvent_runs (State.silenceTimerRuns_of ht hr (hl.imp_right fun h => .inr (.inl h))), State.silence_open hh, hlow,
      State.moveHolder_passes hm (by rw [hh]; exact nofun)]
    rfl
  · rw [exec_silenceEvent_runs (State.silenceTimerRuns_of ht hr (.inr (.inr hl))), State.silence_open hh, hlow, State.moveHolder_stays hh]
  · obtain ⟨hpass, hopens, hbegins⟩ := State.silence_counts hl hh
    rw [exec_silenceEvent_runs (State.silenceTimerRuns_of ht hr (hl.imp_right .inl))]
    exact ⟨fun m hnext hm => congrArg _ (hpass m hnext hm), fun hnext => congrArg _ (hopens hnext), fun hnext => congrArg _ (hbegins hnext),
      fun ⟨ha, hn, hp⟩ hmiss => (exec_missesReach3_third ht hr hl hh hn ha hp hmiss).trans
        (exec_silenceEvent_runs (State.silenceTimerRuns_of ht hr (hl.imp_right .inl)))⟩
  · rw [exec_silenceEvent_runs (State.silenceTimerRuns_of ht hr (hl.imp_right .inl)), State.silence_open hh, hlow,
      State.moveHolder_passes hm (by rw [hh]; exact nofun)]
    rfl
  · rw [exec_silenceEvent_runs (State.silenceTimerRuns_of ht hr (hl.imp_right .inl)), State.silence_open hh, hlow,
      State.moveHolder_begins hl (by rw [hh]; exact nofun)]
    rfl
  · rw [exec_silenceEvent_runs (State.silenceTimerRuns_of ht hr (hl.imp_right .inl)), State.silence_open hh, hlow, State.moveHolder_stays hh]
  · have hother := State.nextAfter_ne hnext
    rw [exec_silenceEvent_runs (State.silenceTimerRuns_of ht hr (.inr (.inr hl))), State.silence_turn hh, State.silentTurn_hearing hl, hnext,
      State.moveHolder_heard hl (by rw [hh]; simpa using hother)]
    rfl
  · rw [exec_silenceEvent_runs (State.silenceTimerRuns_of ht hr (.inr (.inr hl))), State.silence_open hh, hlow,
      State.moveHolder_heard hl (by rw [hh]; exact nofun)]
    rfl

end Sys2Proof.Machine
end

