-- ==== Sys2Proof/Proofs/Removals.lean ====
section
/-! SUPPORT. The removal of a peer (O47): what the endings, the dropped records and the purge leave. -/

namespace Sys2Proof.Machine

section

variable {s : State} {n : Station}

/-! ### What the endings and the dropped records leave (R104, R105) -/

/-- The state after the endings and the dropped records of a removal, before the wanted CANCELs and the items go. -/
def State.ended (s : State) (n : Station) : State := ((s.gone n).losePeer n).dropPeer n

theorem State.forgetPeer_ended (s : State) (n : Station) : s.forgetPeer n = ((s.ended n).dropWantedCancel n).purge n := rfl

theorem State.losePeer_own (s : State) (n : Station) : ((s.gone n).losePeer n).own = s.own := by
  obtain ⟨-, hside, -⟩ := (s.gone n).losePeer_ends n
  exact (State.own_of_endSide hside).trans rfl

theorem State.losePeer_member (s : State) (n : Station) : ((s.gone n).losePeer n).member = (s.gone n).member := by
  obtain ⟨-, hside, -⟩ := (s.gone n).losePeer_ends n
  exact congrArg (fun e : EndSide => e.side.member) hside

theorem State.forgetPeer_flags (s : State) (n : Station) : (s.forgetPeer n).flagSet .roster = true := by
  obtain ⟨-, -, hlose⟩ := (s.gone n).losePeer_ends n
  obtain ⟨hdrop, -⟩ := ((s.gone n).losePeer n).dropPeer_work n
  have hgone : Flag.roster.mask ||| (s.gone n).host.flags = (s.gone n).host.flags := by
    show (4 : BitVec 8) ||| (s.host.flags ||| 4) = s.host.flags ||| 4
    rw [BitVec.or_comm, BitVec.or_assoc, BitVec.or_self]
  exact State.flagSet_of_or (flags_trans hgone (flags_trans hlose hdrop.flags))

theorem roster_set_ne {m : Station} (v : Vector RosterEntry 16) (e : RosterEntry) (hm : m ≠ n) : (v.set n e)[m] = v[m] := by
  have hv : n.val ≠ m.val := fun h => hm (Fin.ext h.symm)
  exact Vector.getElem_set_ne _ _ hv

/-- The entries of the other stations after a removal (R149). -/
theorem State.forgetPeer_entries {m : Station} (hm : m ≠ n) :
    (s.forgetPeer n).member.roster[m].present = s.member.roster[m].present ∧
    (s.forgetPeer n).member.roster[m].misses = s.member.roster[m].misses ∧
    (m ≠ s.own → (s.forgetPeer n).member.roster[m] = s.member.roster[m]) := by
  obtain ⟨hdrop, -⟩ := ((s.gone n).losePeer n).dropPeer_work n
  obtain ⟨hpresent, hmisses, hkept, -⟩ := hdrop.entries m
  have hentry : ((s.gone n).losePeer n).member.roster[m] = s.member.roster[m] := by
    rw [State.losePeer_member]
    exact roster_set_ne _ _ hm
  rw [hentry] at hpresent hmisses hkept
  rw [State.losePeer_own] at hkept
  exact ⟨hpresent, hmisses, hkept⟩

theorem State.dropWantedCancel_mem {u : State} {x : InitRec} (h : x ∈ (u.dropWantedCancel n).exch.inits) :
    ∃ y ∈ u.exch.inits, x.peer = y.peer ∧ x.live = y.live := by
  obtain ⟨y, hy, rfl⟩ := List.mem_map.mp h
  refine ⟨y, hy, ?_⟩
  split <;> exact ⟨rfl, rfl⟩

/-- No live record toward a removed peer is left (R104). -/
theorem State.forgetPeer_decided {r : InitRec} (h : r ∈ (s.forgetPeer n).exch.inits) (hp : r.peer = n) : r.live = false := by
  obtain ⟨hlose, -, -⟩ := (s.gone n).losePeer_ends n
  obtain ⟨hdrop, -⟩ := ((s.gone n).losePeer n).dropPeer_work n
  obtain ⟨y, hy, hpeer, hlive⟩ := State.dropWantedCancel_mem (u := s.ended n) h
  rw [State.ended, hdrop.inits] at hy
  exact hlive.trans (hlose y hy (hpeer.symm.trans hp))

theorem InitRec.peerLost_outcome (r : InitRec) : r.outcomeRec (r.localOutcome .peerLost) = ⟨r.label, r.op, r.peer, match r.op with
    | .read => ⟨.peerLost, r.moved, true, none⟩
    | .sync => ⟨.peerLost, 0, true, none⟩
    | .write => ⟨.peerLost, if r.asking then 0 else r.flow.base, r.asking, none⟩⟩ := by
  unfold InitRec.outcomeRec InitRec.localOutcome
  cases r.op with
  | read => rfl
  | sync => rfl
  | write => cases r.asking <;> rfl

theorem State.forgetPeer_outcomes (hn : (s.exch.inits.map InitRec.tag).Nodup) (hl : s.host.outcomes.length + s.exch.inits.length ≤ 16) :
    (s.forgetPeer n).host.outcomes = s.host.outcomes ++
      (s.exch.inits.filter (fun r => decide (r.peer = n) && r.live)).map (fun r => r.outcomeRec (r.localOutcome .peerLost)) := by
  obtain ⟨hdrop, -⟩ := ((s.gone n).losePeer n).dropPeer_work n
  exact (congrArg HostPort.outcomes hdrop.host).trans (State.losePeer_outcomes (s.gone n) n hn hl)

/-! ### A removal that ends one record, or drops one -/

theorem State.losePeer_one {r : InitRec} (h : s.exch.inits.filter (fun x => decide (x.peer = n) && x.live) = [r])
    (hr : s.initRec r.tag = some r) : s.losePeer n = s.endInit r (r.localOutcome .peerLost) false false := by
  rw [State.losePeer, h, List.foldl_cons, List.foldl_nil, hr]

theorem State.losePeer_noRecord (h : s.exch.inits = []) : s.losePeer n = s := by
  rw [State.losePeer, h]
  rfl

theorem State.dropPeer_noRecord (h : s.exch.targets = []) : s.dropPeer n = s := by
  rw [State.dropPeer, State.keyedTo, h]
  rfl

theorem State.dropPeer_one {r : TargetRec} {i : ExchId} (h : s.exch.targets = [r]) (hid : r.id = some i) (hp : i.peer = n) :
    s.dropPeer n = s.dropTarget r := by
  have hkeyed : s.keyedTo n = [i] := by simp [State.keyedTo, h, hid, hp]
  have hfound : s.targetRec i.peer i.tag = some r := by
    rw [State.targetRec, h]
    simp [TargetRec.keyed_of_id hid]
  rw [State.dropPeer, hkeyed, List.foldl_cons, List.foldl_nil, hfound]

theorem fixItems_unreferring {l : List PendingItem} (h : ∀ p ∈ l, p.origin ≠ .record) (i : ExchId) (role : Role) (k : Nat) :
    fixItems l i role k = l := (List.map_congr_left fun p hp => if_neg fun hc => h p hp hc.1).trans (List.map_id l)

/-- A record in QUEUED or FINISHING that is the only one, and to which no item refers, is freed (R57). -/
theorem State.dropTarget_only {r : TargetRec} {i : ExchId} (h : s.exch.targets = [r]) (hid : r.id = some i)
    (hs : r.state = .queued ∨ r.state = .finishing) (hnone : ∀ p ∈ s.sched.items ++ s.sched.loopItems, p.origin ≠ .record) :
    s.dropTarget r = { s with
      exch := { s.exch with targets := [] }
      buf := { s.buf with servFree := s.buf.servFree ++ r.ring.elim [] (List.map Slot.area) } } := by
  have hitems := fixItems_unreferring (fun p hp => hnone p (List.mem_append_left _ hp)) i .initiator r.flow.expected
  have hloop := fixItems_unreferring (fun p hp => hnone p (List.mem_append_right _ hp)) i .initiator r.flow.expected
  have hgone : s.exch.targets.filter (fun x => !x.keyed i.peer i.tag) = [] := by simp [h, TargetRec.keyed_of_id hid]
  rw [State.dropTarget_waiting hs hid, State.freedOf, State.fixRecord, hitems, hloop, hgone]

theorem State.dropWantedCancel_noRecord (h : s.exch.inits = []) : s.dropWantedCancel n = s := by
  have hinits : s.exch.inits.map (fun r => if r.peer = n then
      { r with wanted := r.wanted.filter (fun k => decide (k ≠ .cancel)) } else r) = s.exch.inits := by rw [h]; rfl
  rw [State.dropWantedCancel, hinits]

end

/-- Settles O47: the endings, the dropped records, the wanted CANCELs and the items, each by its own lemma. -/
theorem peerRemoval : Obligations.PeerRemoval := by
  intro s n
  obtain ⟨-, hmember, habsent⟩ := s.forgetPeer_member n
  have hgeneration := congrArg Membership.generation hmember
  refine ⟨fun p hp => ?_, ⟨habsent, hgeneration, s.forgetPeer_flags n, hmember, fun m hm => State.forgetPeer_entries hm⟩,
    ⟨fun r hr hp => State.forgetPeer_decided hr hp, (((s.gone n).losePeer n).dropPeer_work n).2⟩, fun hlim hl => ?_, rfl,
    fun r hone hr ht => ?_, fun r i hi ht hid hp hs hnone => ?_⟩
  · simpa using (List.mem_filter.mp hp).2
  · obtain ⟨-, hnodup, -⟩ := hlim
    exact (State.forgetPeer_outcomes hnodup hl).trans (congrArg (s.host.outcomes ++ ·) (List.map_congr_left fun r _ => r.peerLost_outcome))
  · refine ⟨_, rfl, ?_⟩
    have hlose : (s.gone n).losePeer n = (s.gone n).endInit r (r.localOutcome .peerLost) false false := State.losePeer_one hone hr
    have htargets : ((s.gone n).endInit r (r.localOutcome .peerLost) false false).exch.targets = [] :=
      (congrArg TargetSide.targets ((s.gone n).endInit_targetSide r _ _ _)).trans ht
    have hended : s.ended n = (s.gone n).endInit r (r.localOutcome .peerLost) false false := by
      rw [State.ended, hlose, State.dropPeer_noRecord htargets]
    exact congrArg (fun v : State => (v.dropWantedCancel n).purge n) hended
  · have hended : s.ended n = { s.gone n with
        exch := { s.exch with targets := [] }
        buf := { s.buf with servFree := s.buf.servFree ++ r.ring.elim [] (List.map Slot.area) } } := by
      rw [State.ended, State.losePeer_noRecord (s := s.gone n) hi, State.dropPeer_one (s := s.gone n) ht hid hp]
      exact State.dropTarget_only (s := s.gone n) ht hid hs hnone
    have hkept : (s.ended n).dropWantedCancel n = s.ended n := State.dropWantedCancel_noRecord (by rw [hended]; exact hi)
    rw [State.forgetPeer_ended, hkept, hended]
    rfl

end Sys2Proof.Machine
end

