-- ==== Sys2Proof/Proofs/MemberFrames.lean ====
section
/-! SUPPORT. JOIN and LEAVE at a member (O44): the roster effect of each, and the holder after an intact frame. -/

namespace Sys2Proof.Machine

section

variable {s : State} {f : Frame}

/-! ### The holder after an intact frame (R143 step 3, R146) -/

/-- The state in which an intact frame of `n` has made it the holder, the activity mark set (R142, R143). -/
def State.heardFrom (s : State) (n : Station) : State := { s with member := { s.member with holder := some n, activity := true } }

theorem State.frameHolder_openJoin (hk : f.kind = .join) (hh : s.member.holder = none) :
    s.frameHolder f = { s with member := { s.member with activity := true } } := if_pos ⟨hk, hh⟩

theorem State.frameHolder_last (hh : f.kind = .join → s.member.holder ≠ none) (hlast : f.last = true) :
    s.frameHolder f = (s.heardFrom f.sender).moveHolder ((s.heardFrom f.sender).nextAfter f.sender) :=
  (if_neg fun h => hh h.1 h.2).trans (if_pos hlast)

theorem State.frameHolder_notLast (hh : f.kind = .join → s.member.holder ≠ none) (hlast : f.last = false) :
    s.frameHolder f = s.heardFrom f.sender :=
  (if_neg fun h => hh h.1 h.2).trans (if_neg (by rw [hlast]; exact Bool.false_ne_true))

theorem State.ownTurn_notLeaving (h : s.member.link ≠ .leaving) : s.ownTurn = s.memberTurn := by
  unfold State.ownTurn
  split
  · contradiction
  · rfl

/-- The ways the turn passes after the frame `f` whose effects but the move of the holder leave `a` (R143, R144): `own` is the own
station and `turn` its turn. -/
def TurnPasses (f : Frame) (own : Station) (turn : State → State) (o : Host.Outcome State Fault Refusal) (a : State) : Prop :=
  let held := a.heardFrom f.sender
  (f.last = false → o = .next held) ∧
  (f.last = true →
    (∀ m, held.nextAfter f.sender = some m → m ≠ own → o = .next (held.held (some m))) ∧
    (held.nextAfter f.sender = none → o = .next (held.held none)) ∧
    (held.nextAfter f.sender = some own → o = .next (turn (held.held (some own)))))

/-- The turn passes at a MEMBER or a LEAVING station, in which `turn` is the own turn. -/
theorem turnPasses_frameHolder {own : Station} {turn : State → State} (hl : s.member.link = .member ∨ s.member.link = .leaving)
    (hown : s.own = own) (hh : f.kind = .join → s.member.holder ≠ none)
    (hturn : ∀ u : State, u.member.link = s.member.link → u.ownTurn = turn u) :
    TurnPasses f own turn (.next (s.frameHolder f)) s := by
  subst hown
  refine ⟨fun hlast => congrArg _ (State.frameHolder_notLast hh hlast), fun hlast => ?_⟩
  obtain ⟨hpass, hopens, hbegins⟩ := State.moveHolder_after (n := f.sender) (u := s.heardFrom f.sender) hl rfl
  rw [State.frameHolder_last hh hlast]
  exact ⟨fun m hnext hm => congrArg _ (hpass m hnext hm), fun hnext => congrArg _ (hopens hnext),
    fun hnext => congrArg _ ((hbegins hnext).trans (hturn _ rfl))⟩

/-- The own number, the link state and the holder of two states are the same. -/
def State.SameSeat (s t : State) : Prop := t.own = s.own ∧ t.member.link = s.member.link ∧ t.member.holder = s.member.holder

/-! ### The frame without items and DATA (R158) -/

theorem Frame.payload_of_fits (hf : f.fits) (hk : f.kind = .join ∨ f.kind = .leave) : f.payload = .none := by
  unfold Frame.fits at hf
  split at hf <;> simp_all

theorem State.memberFrame_bare (hp : f.payload = .none) : s.memberFrame f = (s.rosterEffect f).frameHolder f := by
  have htake : (s.rosterEffect f).takePayload f = s.rosterEffect f := by
    unfold State.takePayload
    rw [hp]
  rw [State.memberFrame, htake, ite_self]

theorem State.intactFrame_onLink (hl : s.member.link = .member ∨ s.member.link = .leaving) : s.intactFrame f = s.memberFrame f := by
  unfold State.intactFrame
  rcases hl with h | h <;> rw [h]

theorem exec_frame_idle (hc : s.configured = true) (ht : s.line.tx = none) (hf : f.fits) (hn : f.sender ≠ s.own) :
    exec (.intactFrameReceived f.encode) s = .next (s.receiverIdle.intactFrame f) := exec_frame hc ht hf hn

/-- A JOIN or a LEAVE on the link: its roster effect, then its move of the holder. -/
theorem exec_frame_bare (hc : s.configured = true) (ht : s.line.tx = none) (hl : s.member.link = .member ∨ s.member.link = .leaving)
    (hf : f.fits) (hn : f.sender ≠ s.own) (hk : f.kind = .join ∨ f.kind = .leave) :
    exec (.intactFrameReceived f.encode) s = .next ((s.receiverIdle.rosterEffect f).frameHolder f) := by
  rw [exec_frame_idle hc ht hf hn, State.intactFrame_onLink (s := s.receiverIdle) hl, State.memberFrame_bare (Frame.payload_of_fits hf hk)]

/-! ### The roster effect of a JOIN and of a LEAVE (R149, R150, R151) -/

/-- The last part of the roster effect: the sender's entry in a roster that holds it. -/
def State.entryNoted (s : State) (f : Frame) : State :=
  if s.present f.sender then s.mapEntry f.sender (fun e => { e with misses := 0, ready := f.ready }) else s

theorem State.entryNoted_new (h : s.member.roster[f.sender] = ⟨true, 0, f.ready⟩) : s.entryNoted f = s := by
  have hp : s.present f.sender = true := congrArg RosterEntry.present h
  have hsame : s.member.roster.set f.sender ⟨true, 0, f.ready⟩ = s.member.roster := by
    rw [← h]
    exact Vector.set_getElem_self _
  unfold State.entryNoted State.mapEntry
  rw [if_pos hp, h, hsame]

theorem State.entryNoted_absent (h : s.present f.sender = false) : s.entryNoted f = s := if_neg (by rw [h]; exact Bool.false_ne_true)

theorem State.addPeer_entry (s : State) (n : Station) (ready : Bool) : (s.addPeer n ready).member.roster[n] = ⟨true, 0, ready⟩ :=
  roster_get_set _ _ _

theorem State.addPeer_eq (s : State) (n : Station) (ready : Bool) : s.addPeer n ready = { s with
    host := { s.host with flags := s.host.flags ||| 4 }
    member := { s.member with roster := s.member.roster.set n ⟨true, 0, ready⟩, generation := s.member.generation + 1 } } := rfl

theorem State.addPeer_keeps (s : State) (n : Station) (ready : Bool) : s.SameSeat (s.addPeer n ready) := ⟨rfl, rfl, rfl⟩

theorem State.restartPeer_entry {n : Station} (hn : n ≠ s.own) (ready : Bool) :
    (s.restartPeer n ready).member.roster[n] = ⟨true, 0, ready⟩ := by
  obtain ⟨hforgot, -, -⟩ := s.forgetPeer_member n
  obtain ⟨hadded, -, -⟩ := (s.forgetPeer n).addPeer_keeps n ready
  obtain ⟨-, -, hentries⟩ := ((s.forgetPeer n).addPeer n ready).resume_member s
  obtain ⟨-, hkept⟩ := hentries n
  rw [State.restartPeer, hkept (by rw [hadded, hforgot]; exact hn)]
  exact State.addPeer_entry _ _ _

theorem State.removePeer_absent (s : State) (n : Station) : (s.removePeer n).present n = false := by
  obtain ⟨-, -, habsent⟩ := s.forgetPeer_member n
  obtain ⟨-, -, hentries⟩ := (s.forgetPeer n).resume_member s
  exact (hentries n).1.trans (congrArg RosterEntry.present habsent)

/-- A JOIN of a present station restarts it, and of an absent one adds it. -/
theorem State.rosterEffect_join (hk : f.kind = .join) (hn : f.sender ≠ s.own) : s.rosterEffect f =
    if s.member.roster[f.sender].present = true then s.restartPeer f.sender f.ready else s.addPeer f.sender f.ready := by
  unfold State.rosterEffect
  rw [hk]
  by_cases hp : s.present f.sender = true
  · rw [hp]
    exact (State.entryNoted_new (State.restartPeer_entry hn f.ready)).trans (if_pos hp).symm
  · rw [Bool.eq_false_of_not_eq_true hp]
    exact (State.entryNoted_new (s.addPeer_entry f.sender f.ready)).trans (if_neg hp).symm

/-- A LEAVE of a present station removes it, and of an absent one changes nothing. -/
theorem State.rosterEffect_leave (hk : f.kind = .leave) : s.rosterEffect f =
    if s.member.roster[f.sender].present = true then s.removePeer f.sender else s := by
  unfold State.rosterEffect
  rw [hk]
  by_cases hp : s.present f.sender = true
  · rw [hp]
    exact (State.entryNoted_absent (s.removePeer_absent f.sender)).trans (if_pos hp).symm
  · have habsent := Bool.eq_false_of_not_eq_true hp
    rw [habsent]
    exact (State.entryNoted_absent habsent).trans (if_neg hp).symm

/-! ### What a JOIN and a LEAVE leave of the station, its link and the holder -/

theorem State.restartPeer_keeps (s : State) (n : Station) (ready : Bool) : s.SameSeat (s.restartPeer n ready) := by
  obtain ⟨hforgot, hmember, -⟩ := s.forgetPeer_member n
  obtain ⟨hadded, hlink, hholder⟩ := (s.forgetPeer n).addPeer_keeps n ready
  obtain ⟨hresumed, hmember', -⟩ := ((s.forgetPeer n).addPeer n ready).resume_member s
  rw [State.restartPeer]
  refine ⟨hresumed.trans (hadded.trans hforgot), ?_, ?_⟩
  · rw [hmember', hlink, hmember]
  · rw [hmember', hholder, hmember]

theorem State.rosterEffect_join_keeps (hk : f.kind = .join) (hn : f.sender ≠ s.own) : s.SameSeat (s.rosterEffect f) := by
  rw [State.rosterEffect_join hk hn]
  split
  · exact s.restartPeer_keeps f.sender f.ready
  · exact ⟨rfl, rfl, rfl⟩

theorem State.rosterEffect_leave_keeps (hk : f.kind = .leave) : s.SameSeat (s.rosterEffect f) := by
  rw [State.rosterEffect_leave hk]
  split
  · exact s.removePeer_keeps f.sender
  · exact ⟨rfl, rfl, rfl⟩

/-- What a JOIN and a LEAVE do on the link, from the states `joined` and `left` that their roster effects leave. -/
theorem exec_joinOrLeave {joined left : State} {turn : State → State} (hc : s.configured = true) (ht : s.line.tx = none)
    (hl : s.member.link = .member ∨ s.member.link = .leaving) (hf : f.fits) (hn : f.sender ≠ s.own)
    (hturn : ∀ u : State, u.member.link = s.member.link → u.ownTurn = turn u)
    (hjoined : f.kind = .join → s.receiverIdle.rosterEffect f = joined) (hleft : f.kind = .leave → s.receiverIdle.rosterEffect f = left) :
    (f.kind = .join → s.member.holder = none → exec (.intactFrameReceived f.encode) s = .next { joined with
      member := { joined.member with activity := true } }) ∧
    (f.kind = .join → s.member.holder ≠ none → TurnPasses f s.own turn (exec (.intactFrameReceived f.encode) s) joined) ∧
    (f.kind = .leave → TurnPasses f s.own turn (exec (.intactFrameReceived f.encode) s) left) := by
  refine ⟨fun hjoin hopen => ?_, fun hjoin hheld => ?_, fun hleave => ?_⟩
  · obtain ⟨-, -, hholder⟩ := State.rosterEffect_join_keeps (s := s.receiverIdle) hjoin hn
    rw [exec_frame_bare hc ht hl hf hn (.inl hjoin), State.frameHolder_openJoin hjoin (hholder.trans hopen), hjoined hjoin]
  · obtain ⟨hown, hlink, hholder⟩ := State.rosterEffect_join_keeps (s := s.receiverIdle) hjoin hn
    rw [exec_frame_bare hc ht hl hf hn (.inl hjoin)]
    rw [hjoined hjoin] at hown hlink hholder ⊢
    exact turnPasses_frameHolder (hlink.symm ▸ hl) hown (fun _ => by rw [hholder]; exact hheld) fun u hu => hturn u (hu.trans hlink)
  · obtain ⟨hown, hlink, -⟩ := State.rosterEffect_leave_keeps (s := s.receiverIdle) hleave
    have hnotJoin : f.kind ≠ .join := by rw [hleave]; exact nofun
    rw [exec_frame_bare hc ht hl hf hn (.inr hleave)]
    rw [hleft hleave] at hown hlink ⊢
    exact turnPasses_frameHolder (hlink.symm ▸ hl) hown (fun hjoin => absurd hjoin hnotJoin) fun u hu => hturn u (hu.trans hlink)

/-! ### A restart with no exchange, nothing to grant and nothing to take -/

theorem State.restartPeer_stranger {n : Station} (hi : ∀ r ∈ s.exch.inits, r.peer ≠ n)
    (ht : ∀ r ∈ s.exch.targets, ∀ i, r.id = some i → i.peer ≠ n) (hq : s.host.requests = []) (hp : s.port.state ≠ .idle) (ready : Bool) :
    s.restartPeer n ready = { s with
      host := { s.host with flags := s.host.flags ||| 4 }
      member := { s.member with roster := s.member.roster.set n ⟨true, 0, ready⟩, generation := s.member.generation + 2 }
      sched := { s.sched with items := s.sched.items.filter (fun p => decide (p.item.dest ≠ n)) } } := by
  have hflags : s.host.flags ||| 4 ||| 4 = s.host.flags ||| (4 : BitVec 8) := by rw [BitVec.or_assoc, BitVec.or_self]
  have hcount : s.member.generation + 1 + 1 = s.member.generation + (2 : BitVec 16) := by rw [BitVec.add_assoc]; rfl
  have hset := roster_set_set s.member.roster n ⟨false, 0, false⟩ ⟨true, 0, ready⟩
  have hresume : s.restartPeer n ready = (s.forgetPeer n).addPeer n ready := by
    rw [State.restartPeer, State.forgetPeer_stranger hi ht]
    exact State.resume_nothing s hq hp
  rw [hresume, State.forgetPeer_stranger hi ht, ← hflags, ← hcount, ← hset]
  rfl

end

/-- Settles O44: the roster effect of a JOIN and of a LEAVE, of a station without exchanges and in general, and then `exec_joinOrLeave`. -/
theorem joinAndLeaveAtAMember : Obligations.JoinAndLeaveAtAMember := by
  refine ⟨fun s f hc ht hl hf hn hi hk hq hp => ?_, fun u hu => State.ownTurn_notLeaving hu, fun s f hc ht hl hf hn => ?_⟩
  · intro heard rostered kept present joined left passes
    refine exec_joinOrLeave (joined := joined) (left := left) hc ht (.inl hl) hf hn
      (fun u hu => State.ownTurn_notLeaving (by rw [hu, hl]; exact nofun)) (fun hjoin => ?_) (fun hleave => ?_)
    · refine (State.rosterEffect_join (s := s.receiverIdle) hjoin hn).trans ?_
      by_cases hpresent : present
      · exact (if_pos hpresent).trans ((State.restartPeer_stranger (s := s.receiverIdle) hi hk hq hp f.ready).trans (if_pos hpresent).symm)
      · exact (if_neg hpresent).trans (if_neg hpresent).symm
    · refine (State.rosterEffect_leave (s := s.receiverIdle) hleave).trans ?_
      by_cases hpresent : present
      · exact (if_pos hpresent).trans ((State.removePeer_stranger (s := s.receiverIdle) hi hk hq hp).trans (if_pos hpresent).symm)
      · exact (if_neg hpresent).trans (if_neg hpresent).symm
  · intro heard added resumed present joined left passes
    refine exec_joinOrLeave (joined := joined) (left := left) hc ht hl hf hn (fun _ _ => rfl) (fun hjoin => ?_)
      (fun hleave => State.rosterEffect_leave (s := s.receiverIdle) hleave)
    have hrestarted : State.restartPeer heard f.sender f.ready = resumed (added (heard.forgetPeer f.sender)) := by
      rw [State.restartPeer, State.addPeer_eq]
      rfl
    refine (State.rosterEffect_join (s := s.receiverIdle) hjoin hn).trans ?_
    by_cases hpresent : present
    · exact (if_pos hpresent).trans (hrestarted.trans (if_pos hpresent).symm)
    · exact (if_neg hpresent).trans (if_neg hpresent).symm

end Sys2Proof.Machine
end

