-- ==== Sys2Proof/Proofs/HeardFrames.lean ====
section
/-! SUPPORT. An intact frame off the link (O45): the holder a hearing station follows, its JOINs, and the confirming frame. -/

namespace Sys2Proof.Machine

section

variable {s : State} {f : Frame}

/-! ### An OPEN turn (R138, R140) -/

/-- A JOINING station that sends its JOIN, `n` OPEN turns counted. -/
def State.joinSending (s : State) (n : Nat) : State := { s with
  line := { receiving := false, tx := some ⟨.join, [⟨.join, s.own, true, s.port.state.ready, 0, .none⟩]⟩ }
  member := { s.member with link := .joining, openTurns := n } }

theorem State.openTurn_listening (h : s.member.link = .listening) : s.openTurn = s.joinSending s.member.openTurns := by
  rw [State.openTurn, h]
  rfl

theorem State.openTurn_joining (h : s.member.link = .joining) : s.openTurn =
    if s.member.openTurns + 1 = s.own.val % 4 + 3 then s.joinSending (s.member.openTurns + 1)
    else { s with member := { s.member with link := .joining, openTurns := s.member.openTurns + 1 } } := by
  have hsame : { s with member := { s.member with link := .joining } } = s := by rw [← h]
  rw [← hsame]
  rfl

theorem State.moveHolder_openTurn (hh : s.member.holder ≠ none) : s.moveHolder none = (s.held none).openTurn := by
  have hsome : s.member.holder.isSome = true := Option.isSome_iff_ne_none.mpr hh
  exact (if_pos hsome).trans (congrArg State.openTurn (State.setHolder_ne hh))

/-! ### An intact frame at a station that is off the link (R134, R135, R143) -/

theorem State.intactFrame_deaf (hl : s.member.link = .offline ∨ s.member.link = .founding ∨ s.member.link = .unconfigured) :
    s.intactFrame f = s := by
  unfold State.intactFrame
  rcases hl with h | h | h <;> rw [h]

theorem State.intactFrame_hearing (hl : s.member.link = .listening ∨ s.member.link = .joining) : s.intactFrame f = s.hearingFrame f := by
  unfold State.intactFrame
  rcases hl with h | h <;> rw [h]

/-- The provisional view taken from a bitmap (R135). -/
def State.viewed (s : State) (v : BitVec 16) : State := { s with member := { s.member with view := v } }

theorem State.hearingFrame_join (hk : f.kind = .join) : s.hearingFrame f = s.frameHolder f :=
  (if_neg fun ⟨_, hother, _⟩ => hother hk).trans (congrArg (fun u : State => u.frameHolder f) (if_pos hk))

theorem State.hearingFrame_views (hk : f.kind ≠ .join) (hc : s.member.link = .joining → f.roster.getLsbD s.own.val = false) :
    s.hearingFrame f = (s.viewed f.roster).frameHolder f := by
  refine (if_neg fun ⟨hl, _, hin⟩ => ?_).trans (congrArg (fun u : State => u.frameHolder f) (if_neg hk))
  exact Bool.false_ne_true ((hc hl).symm.trans hin)

theorem State.hearingFrame_confirms (hl : s.member.link = .joining) (hk : f.kind ≠ .join) (hin : f.roster.getLsbD s.own.val = true) :
    s.hearingFrame f = (s.confirm f).memberFrame f := if_pos ⟨hl, hk, hin⟩

/-- The holder that a hearing station follows: the sender, and after the last frame of its turn the next station or OPEN. -/
theorem State.frameHolder_hearing (hl : s.member.link = .listening ∨ s.member.link = .joining) (hh : f.kind = .join → s.member.holder ≠ none) :
    let held := s.heardFrom f.sender
    (f.last = false → s.frameHolder f = held) ∧
    (f.last = true →
      (∀ m, held.nextAfter f.sender = some m → s.frameHolder f = held.held (some m)) ∧
      (held.nextAfter f.sender = none → s.frameHolder f = (held.held none).openTurn)) := by
  refine ⟨State.frameHolder_notLast hh, fun hlast => ⟨fun m hnext => ?_, fun hnext => ?_⟩⟩
  · have hother := State.nextAfter_ne hnext
    rw [State.frameHolder_last hh hlast, hnext]
    exact State.moveHolder_heard (s := s.heardFrom f.sender) hl fun h => hother (Option.some.inj h)
  · rw [State.frameHolder_last hh hlast, hnext]
    exact State.moveHolder_openTurn (s := s.heardFrom f.sender) (Option.some_ne_none f.sender)

/-- What a frame that ends in `a.frameHolder f` does at a hearing station: the OPEN turns are told apart by the link state. -/
theorem exec_hearing {e : Instr} {a : State} (he : exec e s = .next (a.frameHolder f))
    (hl : a.member.link = .listening ∨ a.member.link = .joining) (hh : f.kind = .join → a.member.holder ≠ none) :
    let held := a.heardFrom f.sender
    (f.last = false → exec e s = .next held) ∧
    (f.last = true →
      (∀ m, held.nextAfter f.sender = some m → exec e s = .next (held.held (some m))) ∧
      (held.nextAfter f.sender = none →
        (a.member.link = .listening → exec e s = .next ((held.held none).joinSending a.member.openTurns)) ∧
        (a.member.link = .joining → a.member.openTurns + 1 = a.own.val % 4 + 3 →
          exec e s = .next ((held.held none).joinSending (a.member.openTurns + 1))) ∧
        (a.member.link = .joining → a.member.openTurns + 1 ≠ a.own.val % 4 + 3 →
          exec e s = .next { held.held none with
            member := { (held.held none).member with link := .joining, openTurns := a.member.openTurns + 1 } }))) := by
  obtain ⟨hfirst, hlast⟩ := State.frameHolder_hearing hl hh
  rw [he]
  refine ⟨fun h => congrArg _ (hfirst h), fun h => ?_⟩
  obtain ⟨hmoves, hopens⟩ := hlast h
  refine ⟨fun m hnext => congrArg _ (hmoves m hnext), fun hnext => ?_⟩
  rw [hopens hnext]
  refine ⟨fun hlisten => ?_, fun hjoining hdue => ?_, fun hjoining hearly => ?_⟩
  · exact congrArg _ (State.openTurn_listening (s := (a.heardFrom f.sender).held none) hlisten)
  · exact congrArg _ ((State.openTurn_joining (s := (a.heardFrom f.sender).held none) hjoining).trans (if_pos hdue))
  · exact congrArg _ ((State.openTurn_joining (s := (a.heardFrom f.sender).held none) hjoining).trans (if_neg hearly))

/-! ### The confirming frame (R139) -/

theorem State.confirmedRoster_entry (s : State) (f : Frame) (n : Station) : (s.confirmedRoster f)[n] =
    if n = s.own then ⟨true, 0, s.port.state.ready⟩
    else if n = f.sender then ⟨true, 0, f.ready⟩
    else if f.roster.getLsbD n.val then ⟨true, 0, false⟩ else ⟨false, 0, false⟩ := Vector.getElem_ofFn _

theorem State.confirmedRoster_sender (hn : f.sender ≠ s.own) : (s.confirmedRoster f)[f.sender] = ⟨true, 0, f.ready⟩ := by
  rw [State.confirmedRoster_entry, if_neg hn, if_pos rfl]

/-- A station that has become MEMBER by `f`, before the takes. -/
def State.confirmed (s : State) (f : Frame) : State := s.entered (s.confirmedRoster f) (presentCount (s.confirmedRoster f))

theorem State.confirm_eq (s : State) (f : Frame) : s.confirm f = (s.confirmed f).retake := s.enterMember_eq _ _

/-- The roster of the confirming frame holds what its roster effect would write. -/
theorem State.rosterEffect_confirmed (hn : f.sender ≠ s.own) (hk : f.kind ≠ .join) (hleave : f.kind ≠ .leave) :
    (s.confirmed f).rosterEffect f = s.confirmed f := by
  have hentry : (s.confirmed f).member.roster[f.sender] = ⟨true, 0, f.ready⟩ := State.confirmedRoster_sender hn
  have hsame : (s.confirmed f).member.roster.set f.sender ⟨true, 0, f.ready⟩ = (s.confirmed f).member.roster := by
    rw [← hentry]
    exact Vector.set_getElem_self _
  rw [State.rosterEffect_present hk hleave (congrArg RosterEntry.present hentry), hsame]

theorem exec_frame_confirms (hc : s.configured = true) (ht : s.line.tx = none) (hf : f.fits) (hn : f.sender ≠ s.own) (hk : f.kind ≠ .join)
    (hl : s.member.link = .joining) (hin : f.roster.getLsbD s.own.val = true) :
    exec (.intactFrameReceived f.encode) s = .next ((s.receiverIdle.confirmed f).retake.memberFrame f) := by
  rw [exec_frame_idle hc ht hf hn, State.intactFrame_hearing (s := s.receiverIdle) (.inr hl),
    State.hearingFrame_confirms (s := s.receiverIdle) hl hk hin, State.confirm_eq]

theorem State.receiverIdle_idle (h : s.line.receiving = false) : s.receiverIdle = s := by
  unfold State.receiverIdle
  rw [← h]

/-- What the takes leave of the station, its line and its membership. -/
theorem State.retake_keeps (s : State) : s.retake.configured = s.configured ∧ s.retake.own = s.own ∧ s.retake.line = s.line ∧
    s.retake.member = s.member := by
  have hside := s.retake_targetSide
  have hconfig : s.retake.host.config = s.host.config := congrArg TargetSide.config hside
  have hreset : s.retake.inReset = s.inReset := congrArg TargetSide.inReset hside
  refine ⟨?_, s.retake_own, congrArg TargetSide.line hside, s.retake_member⟩
  rw [State.configured, hconfig, hreset, State.configured]

end

/-- Settles O45: a hearing station by `exec_hearing`, and the confirming frame as a member's frame in `State.confirmed` after its takes. -/
theorem intactFrameOffTheLink : Obligations.IntactFrameOffTheLink := by
  refine ⟨fun s f hc ht hf hn => ?_, fun s f hc ht hf hn hk hl hin => ?_⟩
  · have hframe := exec_frame_idle hc ht hf hn
    intro hearing
    refine ⟨fun hdeaf => ?_, fun hk hl => ⟨fun hopen => ?_, fun hheld => ?_⟩, fun hk => ⟨fun hnot => ?_, fun hl hin hbare hleave hq => ?_⟩⟩
    · exact hframe.trans (congrArg _ (State.intactFrame_deaf (s := s.receiverIdle) hdeaf))
    · rw [hframe, State.intactFrame_hearing (s := s.receiverIdle) hl, State.hearingFrame_join hk]
      exact congrArg _ (State.frameHolder_openJoin (s := s.receiverIdle) hk hopen)
    · rw [State.intactFrame_hearing (s := s.receiverIdle) hl, State.hearingFrame_join hk] at hframe
      exact exec_hearing hframe hl fun _ => hheld
    · have hl : s.member.link = .listening ∨ s.member.link = .joining := hnot.imp_right And.left
      have hunnamed (hjoining : s.member.link = .joining) : f.roster.getLsbD s.own.val = false := by
        rcases hnot with hlisten | ⟨-, hout⟩
        · rw [hlisten] at hjoining
          cases hjoining
        · exact hout
      rw [State.intactFrame_hearing (s := s.receiverIdle) hl, State.hearingFrame_views (s := s.receiverIdle) hk hunnamed] at hframe
      exact exec_hearing (a := s.receiverIdle.viewed f.roster) hframe hl fun hjoin => absurd hjoin hk
    · have hconfirmed : exec (.intactFrameReceived f.encode) s = .next ((s.receiverIdle.confirmed f).frameHolder f) := by
        rw [exec_frame_confirms hc ht hf hn hk hl hin, State.retake_noRequest (s := s.receiverIdle.confirmed f) hq,
          State.memberFrame_bare hbare, State.rosterEffect_confirmed (s := s.receiverIdle) hn hk hleave]
      refine ⟨s.confirmedRoster f, s.confirmedRoster_entry f, ?_⟩
      rw [hconfirmed]
      exact turnPasses_frameHolder (s := s.receiverIdle.confirmed f) (.inl rfl) rfl (fun hjoin => absurd hjoin hk)
        fun u hu => State.ownTurn_notLeaving (by rw [hu]; exact nofun)
  · obtain ⟨hconf, hown, hline, hmember⟩ := (s.receiverIdle.confirmed f).retake_keeps
    have hlink : (s.receiverIdle.confirmed f).retake.member.link = .member := congrArg Membership.link hmember
    have hidle : (s.receiverIdle.confirmed f).retake.receiverIdle = (s.receiverIdle.confirmed f).retake :=
      State.receiverIdle_idle (congrArg LinkPort.receiving hline)
    refine ⟨s.confirmedRoster f, (s.receiverIdle.confirmed f).retake, s.confirmedRoster_entry f,
      exec_takeRequest (s.receiverIdle.confirmed f) hc, hconf.trans hc, hown, hline, hlink, congrArg Membership.roster hmember, ?_⟩
    rw [exec_frame_confirms hc ht hf hn hk hl hin, exec_frame_idle (hconf.trans hc) ((congrArg LinkPort.tx hline).trans ht) hf
      (fun h => hn (h.trans hown)), hidle, State.intactFrame_onLink (.inl hlink)]

end Sys2Proof.Machine
end

