-- ==== Sys2Proof/Proofs/ServiceGrants.lean ====
section
/-! SUPPORT. The arbiter's decision (O51): a posted script, the head of the Service Queue with its ring, and how each operation begins. -/

namespace Sys2Proof.Machine

/-! ### How a service begins (R50, R122) -/

/-- The first slot write of a built script: the block count, or the COMMAND of a SYNC. -/
theorem builtScript_head (r : TargetRec) : (builtScript r).head? =
    some (if r.op = .sync then ⟨5, some 3⟩ else ⟨1, some (BitVec.ofNat 16 (r.count % 256))⟩) := by
  unfold builtScript
  cases r.op <;> rfl

section
variable {s : State} {pre post : List TargetRec} {r : TargetRec} {i : ExchId}

/-- The station with a record between others ACTIVE, the ring reserved for it taken from the service pool. -/
def State.activated (s : State) (pre post : List TargetRec) (r : TargetRec) (ring : Option Ring) (free : List AreaNo) : State := { s with
  exch := { s.exch with targets := pre ++ { r with
    state := .active, ring := ring, priming := if r.op = .write then some 0 else none } :: post }
  buf := { s.buf with servFree := free } }

theorem State.activate_between (h : s.exch.targets = pre ++ r :: post) (hid : r.id = some i)
    (hkeys : ∀ x ∈ pre ++ post, x.keyed i.peer i.tag = false) (ring : Option Ring) (free : List AreaNo) :
    s.activate r ring free = if r.op = .write
      then ((s.activated pre post r ring free).withPort { s.port with
        state := .serving .priming, access := none, watchdog := none }).offerTarget i.peer i.tag .credit
      else (s.activated pre post r ring free).startSetup r := by
  have hmap : State.mapTarget { s with buf := { s.buf with servFree := free } } i.peer i.tag (fun x =>
      { x with state := .active, ring := ring, priming := if x.op = .write then some 0 else none }) =
      s.activated pre post r ring free := by
    have htargets := map_keyed_only (fun x =>
      { x with state := .active, ring := ring, priming := if x.op = .write then some 0 else none }) hid hkeys
    rw [State.mapTarget, h, htargets, State.activated]
  simp only [State.activate, hid, hmap]
  rfl

/-! ### What the arbiter finds (R121, R48) -/

theorem State.grant_script {script : List ScriptStep} (hp : s.port.state = .idle) (hres : s.port.result = .posted)
    (hscript : s.port.script = some script) : s.grant = s.withPort { s.port with
      state := .maintaining 0, result := .running, watchdog := some 0, access := some (stepAccess script 0) } := by
  rw [State.grant, if_pos hp, if_pos hres, hscript]
  exact State.withPort_withPort _ _ _

theorem State.grant_head {l : List TargetRec} (hp : s.port.state = .idle) (hres : s.port.result ≠ .posted) (hq : s.serviceQueue = r :: l) :
    s.grant = if r.op = .sync then s.activate r none s.buf.servFree
      else if s.buf.servFree.length < min 4 r.count then s
      else s.activate r (some (newRing (s.buf.servFree.take (min 4 r.count)))) (s.buf.servFree.drop (min 4 r.count)) := by
  rw [State.grant, if_pos hp, if_neg hres, hq]
  have hlen : ringLen r.count = min 4 r.count := rfl
  refine if_congr Iff.rfl rfl ?_
  rw [hlen]
  by_cases hl : s.buf.servFree.length < min 4 r.count
  · rw [if_pos hl, reserveRing, if_neg (Nat.not_le.mpr hl)]
  · rw [if_neg hl, reserveRing, if_pos (Nat.not_lt.mp hl)]

end

/-- Settles O51: what the arbiter finds, and the head of the Service Queue as its operation begins. -/
theorem moduleGrant : Obligations.ModuleGrant := by
  refine fun s => ⟨fun hp => congrArg _ (State.grant_notIdle hp), fun script hp hres hscript => ?_, fun hp hres => ⟨fun hnone => ?_,
    fun pre post r i h hpre hq hid hkeys => ?_⟩⟩
  · exact congrArg _ (State.grant_script hp hres hscript)
  · exact congrArg _ (State.grant_nothing hres hnone)
  · obtain ⟨l, hqueue⟩ := State.serviceQueue_first h hpre hq
    have hgrant := State.grant_head hp hres hqueue
    have hbegins := State.activate_between h hid hkeys
    refine ⟨fun ho hl => ?_, fun ho => ?_, fun ho hl => ?_, fun ho hl => ?_⟩
    · rw [if_neg ho, if_pos hl] at hgrant
      exact congrArg _ hgrant
    · rw [if_pos ho, hbegins, if_neg (by rw [ho]; decide), State.startSetup, builtScript_head, if_pos ho] at hgrant
      rw [if_pos ho, if_pos ho]
      exact congrArg _ hgrant
    · have hsync : r.op ≠ .sync := by rw [ho]; decide
      rw [if_neg hsync, if_neg (Nat.not_lt.mpr hl), hbegins, if_neg (by rw [ho]; decide), State.startSetup, builtScript_head,
        if_neg hsync] at hgrant
      rw [if_neg hsync, if_neg hsync]
      exact congrArg _ hgrant
    · have hsync : r.op ≠ .sync := by rw [ho]; decide
      rw [if_neg hsync, if_neg (Nat.not_lt.mpr hl), hbegins, if_pos ho] at hgrant
      rw [if_neg hsync, if_neg hsync]
      exact congrArg _ hgrant

end Sys2Proof.Machine
end

