-- ==== Sys2Proof/Proofs/Attentions.lean ====
section
/-! SUPPORT. A rise of ATTN (O55): where it is passed over or put off, how it ends a run-out, and how it ends the command of the one
ACTIVE record. -/

namespace Sys2Proof.Machine

section
variable {s : State} {status detail : Word} {pre post : List TargetRec} {r : TargetRec} {i : ExchId}

/-! ### The one record in service -/

/-- The record between others is the only ACTIVE one and the only one on its key. -/
structure State.ServesOnly (s : State) (pre post : List TargetRec) (r : TargetRec) (i : ExchId) : Prop where
  targets : s.exch.targets = pre ++ r :: post
  active : r.state = .active
  id : r.id = some i
  others : ∀ x ∈ pre ++ post, x.state ≠ .active ∧ x.keyed i.peer i.tag = false

theorem State.ServesOnly.keys (h : s.ServesOnly pre post r i) : ∀ x ∈ pre ++ post, x.keyed i.peer i.tag = false :=
  fun x hx => (h.others x hx).2

theorem State.ServesOnly.activeRec (h : s.ServesOnly pre post r i) : s.activeRec = some r := by
  have hpre : pre.find? (fun x => x.state = .active) = none :=
    List.find?_eq_none.mpr fun x hx => by simpa using (h.others x (List.mem_append_left _ hx)).1
  rw [State.activeRec, h.targets, List.find?_append, hpre, List.find?_cons_of_pos (by simpa using h.active)]
  rfl

theorem State.ServesOnly.map_active (h : s.ServesOnly pre post r i) (f : TargetRec → TargetRec) :
    s.exch.targets.map (fun x => if x.state = .active then f x else x) = pre ++ f r :: post := by
  have hothers (l : List TargetRec) (hl : ∀ x ∈ l, x ∈ pre ++ post) : l.map (fun x => if x.state = .active then f x else x) = l :=
    (List.map_congr_left fun x hx => if_neg (h.others x (hl x hx)).1).trans (List.map_id l)
  rw [h.targets, List.map_append, List.map_cons, if_pos h.active, hothers pre fun x hx => List.mem_append_left _ hx,
    hothers post fun x hx => List.mem_append_right _ hx]

/-- The port serves the ACTIVE record: in SERVING, but for a run-out and a stopping setup. -/
def PortState.ServesActive (p : PortState) : Prop :=
  p = .serving .priming ∨ (∃ k, p = .serving (.setup k)) ∨ p = .serving .data ∨ p = .serving .closing

theorem State.ServesOnly.mapServed (h : s.ServesOnly pre post r i) (hp : s.port.state.ServesActive) (f : TargetRec → TargetRec) :
    s.mapServed f = { s with exch := { s.exch with targets := pre ++ f r :: post } } := by
  rw [← h.map_active f]
  rcases hp with hp | hp
  · have hserved (x : TargetRec) : s.isServed x = decide (x.state = .active) := by rw [State.isServed, hp]
    simp only [State.mapServed, hserved, decide_eq_true_eq]
  · exact State.mapServed_active hp f

/-- The station with a record between others SETTLING, its ring given back, and the port as given (R53, R65). -/
def State.endedBetween (s : State) (pre post : List TargetRec) (r : TargetRec) (o : Outcome) (p : Port) : State := { (s.withPort p) with
  exch := { s.exch with targets := pre ++ r.settled o false :: post }
  buf := { s.buf with servFree := s.buf.servFree ++ r.ring.elim [] (List.map Slot.area) } }

/-- A record between others settles; what has become of its slots does not show, since its ring is given back. -/
theorem State.settle_between {g : Option Ring} (h : s.exch.targets = pre ++ { r with ring := g } :: post) (hid : r.id = some i)
    (hkeys : ∀ x ∈ pre ++ post, x.keyed i.peer i.tag = false) (o : Outcome) : s.settle r o false = { s with
      exch := { s.exch with targets := pre ++ r.settled o false :: post }
      buf := { s.buf with servFree := s.buf.servFree ++ r.ring.elim [] (List.map Slot.area) } } := by
  have htargets := map_keyed_only (r := { r with ring := g }) (fun x => x.settled o false) hid hkeys
  rw [State.settle_released o hid, h, htargets]
  rfl

/-! ### Where ATTN ends the command (R51, R124) -/

/-- The port IDLE, STATUS and DETAIL captured. -/
def Port.idleWith (p : Port) (status detail : Word) : Port := { p with
  state := .idle, access := none, transfer := none, attention := none, watchdog := none, capture := some (status, detail) }

/-- The port RESETTING, its 100 us timer running. -/
def Port.resetting (p : Port) : Port := { p with
  state := .resetting true, access := none, transfer := none, attention := none, watchdog := none }

theorem State.capture_enterIdle (s : State) (status detail : Word) :
    (s.withPort { s.port with capture := some (status, detail) }).enterIdle = s.withPort (s.port.idleWith status detail) :=
  State.withPort_withPort _ _ _

theorem State.earlyAttn_only (h : s.ServesOnly pre post r i) (hp : s.port.state = .serving .data) : s.earlyAttn r status detail =
    (s.endedBetween pre post r ⟨.moduleFault, r.moved, true, some (status, detail)⟩ (s.port.idleWith status detail)).grant := by
  have hcut := h.mapServed (.inr (.inr (.inl hp))) fun x => { x with ring := x.ring.map Ring.cutTransfers }
  have hidle := State.capture_enterIdle (s.mapServedRing Ring.cutTransfers) status detail
  rw [State.mapServedRing, hcut] at hidle
  have hsettle := State.settle_between
    (s := ({ s with exch := { s.exch with targets := pre ++ { r with ring := r.ring.map Ring.cutTransfers } :: post } } :
      State).withPort (s.port.idleWith status detail)) rfl h.id h.keys ⟨.moduleFault, r.moved, true, some (status, detail)⟩
  rw [State.earlyAttn, State.mapServedRing, hcut]
  exact congrArg State.grant ((congrArg (State.settle · r _ false) hidle).trans hsettle)

theorem State.moduleAttention_good (h : status.getLsbD 0 = true ∧ status.getLsbD 3 = false) : s.moduleAttention status detail = s :=
  if_pos (attentionGood_of h)

theorem State.moduleAttention_idle (hbad : ¬ (status.getLsbD 0 = true ∧ status.getLsbD 3 = false)) (hp : ∀ p, s.port.state ≠ .serving p)
    (hnone : s.activeRec = none) : s.moduleAttention status detail =
      { (s.withPort s.port.resetting) with host := { s.host with flags := s.host.flags ||| 16 } } := by
  rw [State.moduleAttention, if_neg (attentionGood_not hbad), hnone]
  exact State.enterResetting_out hp

theorem State.moduleAttention_only (h : s.ServesOnly pre post r i) (hp : s.port.state = .serving .priming)
    (hbad : ¬ (status.getLsbD 0 = true ∧ status.getLsbD 3 = false)) : s.moduleAttention status detail =
      { s.endedBetween pre post r ⟨.moduleFault, 0, true, some (status, detail)⟩ s.port.resetting with
        host := { s.host with flags := s.host.flags ||| 16 } } := by
  have hcut := h.mapServed (.inl hp) fun x => { x with ring := x.ring.map Ring.cutTransfers }
  have hreset : s.enterResetting = { ({ s with exch := { s.exch with
      targets := pre ++ { r with ring := r.ring.map Ring.cutTransfers } :: post } } : State).withPort s.port.resetting with
        host := { s.host with flags := s.host.flags ||| 16 } } := by
    rw [State.enterResetting, State.assertReset, State.mapServedRing, hcut]
    rfl
  rw [State.moduleAttention, if_neg (attentionGood_not hbad), h.activeRec, hreset]
  exact State.settle_between rfl h.id h.keys _

/-- The closing phase ends by a fault, with the record DONE, or with a READ still to be acknowledged (R51, R52). -/
theorem State.closingAttn_only (h : s.ServesOnly pre post r i) : s.closingAttn r status detail =
    (if status.getLsbD 3 then
      s.endedBetween pre post r ⟨.moduleFault, r.moved, true, some (status, detail)⟩ (s.port.idleWith status detail)
    else if r.op = .read ∧ r.flow.base < r.count then { (s.withPort (s.port.idleWith status detail)) with
      exch := { s.exch with targets := pre ++ { r with state := .finishing, starvation := none } :: post } }
    else s.endedBetween pre post r ⟨.done, r.moved, true, none⟩ (s.port.idleWith status detail)).grant := by
  have hsettle (o : Outcome) : (s.withPort (s.port.idleWith status detail)).settle r o false =
      s.endedBetween pre post r o (s.port.idleWith status detail) := 
    State.settle_between (s := s.withPort (s.port.idleWith status detail)) (g := r.ring) h.targets h.id h.keys o
  have hfinish := map_keyed_only (fun x => { x with state := .finishing, starvation := none }) h.id h.keys
  rw [← h.targets] at hfinish
  rw [State.closingAttn, State.capture_enterIdle, hsettle, hsettle, ← hfinish, h.id]
  rfl

/-! ### ATTN in each state of the port -/

theorem State.attn_data (h : s.ServesOnly pre post r i) (hp : s.port.state = .serving .data) :
    s.attn status detail = s.earlyAttn r status detail := by
  simp only [State.attn, hp, h.activeRec]

theorem State.attn_closing (h : s.ServesOnly pre post r i) (hp : s.port.state = .serving .closing) :
    s.attn status detail = s.closingAttn r status detail := by
  simp only [State.attn, hp, h.activeRec]

theorem State.attn_attention (hp : s.port.state = .idle ∨ s.port.state = .serving .priming) :
    s.attn status detail = s.moduleAttention status detail := by
  rcases hp with hp | hp <;> simp only [State.attn, hp]

theorem State.attn_describing {d : Describe} (hp : s.port.state = .describing d) : s.attn status detail = s.describeAttn d status := by
  simp only [State.attn, hp]

/-- With FAULT the description ends in FAILED (R118). -/
theorem State.attn_describing_faulted {d : Describe} (hp : s.port.state = .describing d) (hf : status.getLsbD 3 = true) :
    s.attn status detail = s.enterFailed := (State.attn_describing hp).trans (if_pos hf)

theorem statusFault_clear (h : status.getLsbD 3 = false) : ¬ statusFault status = true := by
  rw [statusFault, h]
  decide

theorem State.endRunOut_eq (s : State) : s.endRunOut = { s with
    exch := { s.exch with targets := (s.exch.targets.filter (fun x => decide (x.state ≠ .detached))).map (fun x =>
      if x.inRunOut then { x with ring := none } else x) }
    buf := { s.buf with servFree := s.buf.servFree ++
      (s.exch.targets.filter TargetRec.inRunOut).flatMap (fun x => x.ring.elim [] (List.map Slot.area)) } } := by
  simp only [State.endRunOut, ringAreas_eq]

theorem State.attn_runOut {n c : Nat} (hp : s.port.state = .serving (.runOut n c)) : s.attn status detail =
    if s.port.access ≠ none ∧ s.port.transfer = none then s.deferAttention status detail else s.endRunOut.idleAndGrant := by
  simp only [State.attn, hp]
  cases s.port.access <;> cases s.port.transfer <;> simp

end

/-- What the data and the closing phase make of ATTN over any table of records, and priming of a bad one. -/
theorem exec_attnRise_only {s : State} {pre post : List TargetRec} {r : TargetRec} {i : ExchId} (h : s.ServesOnly pre post r i)
    (status detail : Word) :
    let idle := s.port.idleWith status detail
    (s.port.state = .serving .data → exec (.attnRise status detail) s =
      exec .moduleGrant (s.endedBetween pre post r ⟨.moduleFault, r.moved, true, some (status, detail)⟩ idle)) ∧
    (s.port.state = .serving .priming → ¬ (status.getLsbD 0 = true ∧ status.getLsbD 3 = false) → exec (.attnRise status detail) s =
      .next { s.endedBetween pre post r ⟨.moduleFault, 0, true, some (status, detail)⟩ s.port.resetting with
        host := { s.host with flags := s.host.flags ||| 16 } }) ∧
    (s.port.state = .serving .closing →
      (status.getLsbD 3 = true → exec (.attnRise status detail) s =
        exec .moduleGrant (s.endedBetween pre post r ⟨.moduleFault, r.moved, true, some (status, detail)⟩ idle)) ∧
      (status.getLsbD 3 = false → r.op ≠ .read ∨ r.count ≤ r.flow.base → exec (.attnRise status detail) s =
        exec .moduleGrant (s.endedBetween pre post r ⟨.done, r.moved, true, none⟩ idle)) ∧
      (status.getLsbD 3 = false → r.op = .read → r.flow.base < r.count → exec (.attnRise status detail) s =
        exec .moduleGrant { (s.withPort idle) with
          exch := { s.exch with targets := pre ++ { r with state := .finishing, starvation := none } :: post } })) := by
  refine ⟨fun hp => congrArg _ ((State.attn_data h hp).trans (State.earlyAttn_only h hp)), fun hp hbad =>
    congrArg _ ((State.attn_attention (.inr hp)).trans (State.moduleAttention_only h hp hbad)), fun hp => ?_⟩
  have hattn := (State.attn_closing h hp).trans (State.closingAttn_only (status := status) (detail := detail) h)
  refine ⟨fun hf => ?_, fun hf hdone => ?_, fun hf ho hb => ?_⟩
  · rw [if_pos hf] at hattn
    exact congrArg _ hattn
  · have hended : ¬ (r.op = .read ∧ r.flow.base < r.count) := fun ⟨ho, hb⟩ => hdone.elim (· ho) (Nat.not_le.mpr hb)
    rw [if_neg (by rw [hf]; decide), if_neg hended] at hattn
    exact congrArg _ hattn
  · rw [if_neg (by rw [hf]; decide), if_pos ⟨ho, hb⟩] at hattn
    exact congrArg _ hattn

/-- The arbiter has nothing to grant where the one record does not wait and no script is posted. -/
theorem exec_moduleGrant_nothing {s : State} {x : TargetRec} (hres : s.port.result ≠ .posted) (ht : s.exch.targets = [x])
    (hx : x.state ≠ .queued) : exec .moduleGrant s = .next s :=
  congrArg _ (State.grant_nothing hres fun y hy => by rw [ht, List.mem_singleton] at hy; rwa [hy])

theorem exec_moduleGrant_ended {s : State} (hres : s.port.result ≠ .posted) (r : TargetRec) (o : Outcome) (status detail : Word) :
    exec .moduleGrant (s.endedBetween [] [] r o (s.port.idleWith status detail)) =
      .next (s.endedBetween [] [] r o (s.port.idleWith status detail)) :=
  exec_moduleGrant_nothing (x := r.settled o false) hres rfl nofun

theorem State.servesOnly_single {s : State} {r : TargetRec} {i : ExchId} (ht : s.exch.targets = [r]) (hr : r.state = .active)
    (hid : r.id = some i) : s.ServesOnly [] [] r i := ⟨ht, hr, hid, List.forall_mem_nil _⟩

theorem exec_attnRise (status detail : Word) (s : State) : exec (.attnRise status detail) s = .next (s.attn status detail) := rfl

/-- Settles O55: each state of the port, the run-out, and the phases that serve a record, alone or among others. -/
theorem attentionRises : Obligations.AttentionRises := by
  refine ⟨fun s status detail => ⟨fun hp => ?_, fun hp => ⟨fun hgood => ?_, fun hbad hnone => ?_⟩, fun hp hf => ?_, fun d hp hf => ?_,
      fun i hp => ?_, fun i hp => ?_, fun r i ht hr hid => ?_⟩,
    fun s status detail => ⟨fun hf => ⟨fun hp => ?_, fun hp => ?_⟩, fun hp => ?_, fun n c hp => ⟨fun ha hb => ?_, fun hfree => ?_⟩⟩,
    fun s status detail => ⟨fun hp hgood => ?_, fun pre post r i ht hr hid hothers => ?_⟩⟩
  · rcases hp with hp | ⟨b, hp⟩ | ⟨n, hp⟩ | hp <;> rw [exec_attnRise, State.attn, hp]
  · rw [exec_attnRise, State.attn_attention (.inl hp), State.moduleAttention_good hgood]
  · rw [exec_attnRise, State.attn_attention (.inl hp), State.moduleAttention_idle hbad (by rw [hp]; exact nofun) hnone]
    rfl
  · rw [exec_attnRise, State.attn_describing hp, State.describeAttn, if_neg (statusFault_clear hf)]
    rfl
  · rw [exec_attnRise, State.attn_describing_faulted hp hf]
  · rw [exec_attnRise, State.attn, hp]
  · rw [exec_attnRise, State.attn, hp]
    rfl
  · obtain ⟨hdata, hpriming, hclosing⟩ := exec_attnRise_only (State.servesOnly_single ht hr hid) status detail
    refine ⟨fun hp hres => ?_, hpriming, fun hp hres => ⟨fun hf => ?_, fun hf hdone => ?_, fun hf ho hb => ?_⟩⟩
    · exact (hdata hp).trans (exec_moduleGrant_ended hres r _ status detail)
    all_goals obtain ⟨hfault, hended, hfinish⟩ := hclosing hp
    · exact (hfault hf).trans (exec_moduleGrant_ended hres r _ status detail)
    · exact (hended hf hdone).trans (exec_moduleGrant_ended hres r _ status detail)
    · exact (hfinish hf ho hb).trans (exec_moduleGrant_nothing (x := { r with state := .finishing, starvation := none }) hres rfl nofun)
  · rw [exec_attnRise, State.attn_describing hp, State.describeAttn, if_neg (statusFault_clear hf)]
  · rcases hp with hp | hp | ⟨lo, hp⟩ <;> exact congrArg _ ((State.attn_describing hp).trans (if_neg (statusFault_clear hf)))
  · rw [exec_attnRise, State.attn, hp]
    rfl
  · rw [exec_attnRise, State.attn_runOut hp, if_pos ⟨ha, hb⟩]
    rfl
  · have hends : ¬ (s.port.access ≠ none ∧ s.port.transfer = none) := fun ⟨ha, hb⟩ => hfree.elim ha (· hb)
    rw [exec_attnRise, State.attn_runOut hp, if_neg hends, State.endRunOut_eq]
    rfl
  · rw [exec_attnRise, State.attn_attention (.inr hp), State.moduleAttention_good hgood]
  · exact exec_attnRise_only ⟨ht, hr, hid, hothers⟩ status detail

end Sys2Proof.Machine
end

