-- ==== Sys2Proof/Proofs/TargetArrivals.lean ====
section
/-! SUPPORT. Arrivals at the target role (O36): the record that takes an arrival, the orphans, and what each state of a record does with
a CANCEL, a CLOSE, a CREDIT and a DATA frame. -/

namespace Sys2Proof.Machine

section
variable {s : State} {r : TargetRec} {i : ExchId}

/-! ### Which record takes an arrival (R82, R102, R109) -/

theorem State.atTarget_matching (hr : s.targetRec i.peer i.tag = some r) (hid : r.id = some i) (f : State → TargetRec → State) :
    s.atTarget i f = f s r := by
  rw [State.atTarget, hr]
  exact if_pos (TargetRec.serial_eq hid)

theorem State.atTarget_orphan (hr : s.targetRec i.peer i.tag = none) (f : State → TargetRec → State) : s.atTarget i f = s.answerForgot i := by
  rw [State.atTarget, hr]

/-- A DATA frame of its own initiator station is looked up by its exchange. -/
theorem State.dataToTarget_of {d : DataBlock} (hinit : d.init = i.peer) (htag : d.tag = i.tag) (hserial : d.serial = i.serial) :
    s.dataToTarget i.peer d = s.atTarget i (fun s r => s.dataArrivesTarget r d) := by
  rw [State.dataToTarget, if_pos hinit, hinit, htag, hserial]

theorem State.dataToTarget_matching {d : DataBlock} (hr : s.targetRec i.peer i.tag = some r) (hid : r.id = some i)
    (hinit : d.init = i.peer) (htag : d.tag = i.tag) (hserial : d.serial = i.serial) :
    s.dataToTarget i.peer d = s.dataArrivesTarget r d :=
  (State.dataToTarget_of hinit htag hserial).trans (State.atTarget_matching hr hid _)

theorem State.creditToTarget_matching (hr : s.targetRec i.peer i.tag = some r) (hid : r.id = some i) (dest : Station) (d : Role)
    (ne limit : Nat) :
    s.itemToTarget i.peer ⟨dest, i.peer, i.tag, i.serial, .credit d ne limit⟩ = s.creditArrivesTarget r ne limit :=
  (s.itemToTarget_credit dest i.peer i.tag i.serial d ne limit).trans (State.atTarget_matching hr hid _)

/-- None but a CLOSE is taken from a station that is not the initiator. -/
theorem State.arrivals_stranger {sender dest init : Station} {tag : Tag} {serial : Serial} (h : sender ≠ init) :
    s.itemToTarget sender ⟨dest, init, tag, serial, .cancel⟩ = s ∧
      (∀ d n l, s.itemToTarget sender ⟨dest, init, tag, serial, .credit d n l⟩ = s) ∧
      ∀ d : DataBlock, d.init = init → s.dataToTarget sender d = s :=
  ⟨if_neg h.symm, fun _ _ _ => if_neg h.symm, fun _ hd => if_neg (hd ▸ h.symm)⟩

/-! ### A CLOSE, whatever its sender (R55, R56, log 16) -/

theorem State.itemToTarget_close_orphan {sender dest init : Station} {tag : Tag} {serial : Serial} (hr : s.targetRec init tag = none) :
    s.itemToTarget sender ⟨dest, init, tag, serial, .close⟩ = s := by
  simp only [State.itemToTarget, hr]

theorem State.itemToTarget_close_other {sender dest init : Station} {tag : Tag} {serial : Serial} (hr : s.targetRec init tag = some r)
    (hid : r.id ≠ some ⟨init, tag, serial⟩) : s.itemToTarget sender ⟨dest, init, tag, serial, .close⟩ = s := by
  simp only [State.itemToTarget, hr]
  exact if_neg fun h => hid ((State.serial_of hr serial).mp h)

theorem State.itemToTarget_close {sender dest init : Station} {tag : Tag} {serial : Serial} (hr : s.targetRec init tag = some r)
    (hid : r.id = some ⟨init, tag, serial⟩) : s.itemToTarget sender ⟨dest, init, tag, serial, .close⟩ = s.closeArrives r := by
  simp only [State.itemToTarget, hr]
  exact if_pos ((State.serial_of hr serial).mpr hid)

theorem State.closeArrives_unsettled (hs : r.state = .queued ∨ r.state = .active ∨ r.state = .finishing) : s.closeArrives r = s := by
  rcases hs with hs | hs | hs <;> simp only [State.closeArrives, hs]

/-- A record without a ring to which no waiting item refers is freed without a trace (R57, R161). -/
theorem State.freedOf_unreferred (hring : r.ring = none) (hnone : ∀ p ∈ s.sched.items ++ s.sched.loopItems, p.origin ≠ .record) :
    s.freedOf r i = { s with exch := { s.exch with targets := s.exch.targets.filter (fun x => !x.keyed i.peer i.tag) } } := by
  have hitems := fixItems_unreferring (fun p hp => hnone p (List.mem_append_left _ hp)) i .initiator r.flow.expected
  have hloop := fixItems_unreferring (fun p hp => hnone p (List.mem_append_right _ hp)) i .initiator r.flow.expected
  rw [State.freedOf, State.fixRecord, hitems, hloop, hring]
  simp only [Option.elim_none, List.append_nil]

/-! ### A matching CANCEL (R98, R102) -/

theorem State.cancelArrives_queued (hs : r.state = .queued) (hid : r.id = some i) :
    s.cancelArrives r = (s.settledOf r i .cancelled 0 false).grant := by
  rw [State.cancelArrives, ← State.settle_settledOf s hid, State.settleStopped, hs]

theorem State.cancelArrives_finishing (hs : r.state = .finishing) (hid : r.id = some i) :
    s.cancelArrives r = (s.settledOf r i .cancelled r.count false).grant := by
  rw [State.cancelArrives, State.settleStopped_finishing _ hs, State.settle_settledOf s hid]

theorem State.cancelArrives_settling {b : Bool} {k : Nat} (hs : r.state = .settling b k) : s.cancelArrives r = s.grant := by
  rw [State.cancelArrives, State.settleStopped, hs]

/-! ### Arrivals that a record does not take (R55, R83, R84, R88) -/

theorem State.dataArrivesTarget_unreceiving (d : DataBlock) (h : ∀ c, r.flow ≠ .receiver c) : s.dataArrivesTarget r d = s := by
  unfold State.dataArrivesTarget
  split
  · next c _ hf _ => exact absurd hf (h c)
  · rfl

theorem State.dataArrivesTarget_ended (d : DataBlock) (h : (∃ b k, r.state = .settling b k) ∨ r.state = .finishing) :
    s.dataArrivesTarget r d = s := by
  have hclosed : ¬ (r.state = .queued ∨ r.state = .active) := by
    rcases h with ⟨b, k, hs⟩ | hs <;> rw [hs] <;> exact nofun
  unfold State.dataArrivesTarget
  split
  · exact if_neg hclosed
  · rfl

theorem State.creditArrivesTarget_unsending (ne limit : Nat) (h : ∀ c, r.flow ≠ .sender c) : s.creditArrivesTarget r ne limit = s := by
  unfold State.creditArrivesTarget
  split
  · next c _ hf => exact absurd hf (h c)
  · next c _ hf => exact absurd hf (h c)
  · next c _ hf => exact absurd hf (h c)
  · rfl

theorem State.creditArrivesTarget_settling {b : Bool} {k : Nat} (ne limit : Nat) (hs : r.state = .settling b k) :
    s.creditArrivesTarget r ne limit = s := by
  unfold State.creditArrivesTarget
  rw [hs]

end

/-- Settles O36: strangers, orphans, and what a record does with each arrival in each state. -/
theorem arrivalsAtTheTarget : Obligations.ArrivalsAtTheTarget := by
  refine ⟨fun s dest init tag serial => ⟨fun sender hne => State.arrivals_stranger hne, fun hr => ⟨?_, fun d n l => ?_,
    fun d hinit htag hserial => ?_, fun sender => State.itemToTarget_close_orphan hr⟩, fun r hr => ⟨fun hid sender =>
      State.itemToTarget_close_other hr hid, fun hid => ?_⟩⟩, fun s r i hr hid => ?_⟩
  · exact (s.itemToTarget_cancel dest init tag serial).trans (State.atTarget_orphan (i := ⟨init, tag, serial⟩) hr _)
  · exact (s.itemToTarget_credit dest init tag serial d n l).trans (State.atTarget_orphan (i := ⟨init, tag, serial⟩) hr _)
  · exact (State.dataToTarget_of (i := ⟨init, tag, serial⟩) hinit htag hserial).trans (State.atTarget_orphan (i := ⟨init, tag, serial⟩) hr _)
  · have hcancel : s.itemToTarget init ⟨dest, init, tag, serial, .cancel⟩ = s.cancelArrives r := by
      rw [State.itemToTarget_cancel]
      exact State.atTarget_matching (i := ⟨init, tag, serial⟩) hr hid _
    have hclose (sender : Station) := State.itemToTarget_close (sender := sender) (dest := dest) hr hid
    refine ⟨fun hs hring => ?_, fun hs => ?_, fun b k sender hs => ⟨?_, fun hring hnone => ?_⟩, fun sender hs => ?_⟩
    · have hsettled := State.cancelArrives_queued (s := s) hs hid
      rw [State.settledOf, hring] at hsettled
      exact hcancel.trans hsettled
    · have hsettled := State.cancelArrives_finishing (s := s) hs hid
      rw [State.settledOf] at hsettled
      exact hcancel.trans hsettled
    · exact hcancel.trans (State.cancelArrives_settling hs)
    · have hfreed := State.dropTarget_settling (s := s) hs hid
      rw [hring, if_neg (by decide), State.freedOf_unreferred hring hnone] at hfreed
      exact (hclose sender).trans ((State.closeArrives_settling hs).trans (congrArg State.grant hfreed))
    · exact (hclose sender).trans (State.closeArrives_unsettled hs)
  · have hdata {d : DataBlock} := State.dataToTarget_matching (d := d) hr hid
    have hcredit := State.creditToTarget_matching hr hid
    refine ⟨fun c ho hf => ⟨fun d hinit htag hserial => ?_, fun ⟨b, k, hs⟩ dest d n l => ?_⟩,
      fun ho hf => ⟨fun d hinit htag hserial => ?_, fun dest d n l => ?_⟩,
      fun c ho hf => ⟨fun dest d n l => ?_, fun hs d hinit htag hserial => ?_⟩⟩
    · exact (hdata hinit htag hserial).trans (State.dataArrivesTarget_unreceiving d (by rw [hf]; exact nofun))
    · exact (hcredit dest d n l).trans (State.creditArrivesTarget_settling n l hs)
    · exact (hdata hinit htag hserial).trans (State.dataArrivesTarget_unreceiving d (by rw [hf]; exact nofun))
    · exact (hcredit dest d n l).trans (State.creditArrivesTarget_unsending n l (by rw [hf]; exact nofun))
    · exact (hcredit dest d n l).trans (State.creditArrivesTarget_unsending n l (by rw [hf]; exact nofun))
    · exact (hdata hinit htag hserial).trans (State.dataArrivesTarget_ended d (.inl hs))

end Sys2Proof.Machine
end

