-- ==== Sys2Proof/Proofs/TargetCredits.lean ====
section
/-! SUPPORT. A matching CREDIT at a target READ (O40): the record whose counters it has moved, the endings it brings, and the mover
behind it. -/

namespace Sys2Proof.Machine

section
variable {s : State} {r : TargetRec} {i : ExchId} {c c' : SendCounters} {ne limit : Nat}

/-! ### The record whose counters have moved (R69, R71, R88) -/

theorem Ring.passBase_slotAreas (g : Ring) (lo hi : Nat) : (g.passBase lo hi).map Slot.area = g.map Slot.area := g.passBase_areas lo hi

/-- A READ whose counters a CREDIT has moved from `c` to `c'`. -/
def TargetRec.credited (r : TargetRec) (c c' : SendCounters) : TargetRec := { r with
  flow := .sender c', ring := r.ring.map (fun g => g.passBase c.base c'.base) }

theorem TargetRec.credited_areas (r : TargetRec) (c c' : SendCounters) :
    (r.credited c c').ring.elim [] (List.map Slot.area) = r.ring.elim [] (List.map Slot.area) := by
  rw [TargetRec.credited]
  cases r.ring with
  | none => rfl
  | some g => exact g.passBase_slotAreas _ _

theorem TargetRec.credited_noRing (h : r.ring = none) : r.credited c c' = { r with flow := .sender c' } := by
  rw [TargetRec.credited, h]
  rfl

/-- The station with the counters of the record on a key moved. -/
def State.creditedOn (s : State) (r : TargetRec) (i : ExchId) (c c' : SendCounters) : State :=
  s.mapTarget i.peer i.tag (fun _ => r.credited c c')

/-- The station with the record SETTLING behind its CREDIT, its ring given back (R52, R92). -/
def State.creditSettled (s : State) (r : TargetRec) (i : ExchId) (c c' : SendCounters) (code : OutcomeCode) : State := { s with
  exch := { s.exch with targets := (s.creditedOn r i c c').exch.targets.map (fun x => if x.keyed i.peer i.tag
    then (r.credited c c').settled ⟨code, r.count, true, none⟩ false else x) }
  buf := { s.buf with servFree := s.buf.servFree ++ r.ring.elim [] (List.map Slot.area) } }

theorem State.creditedOn_settles (hid : r.id = some i) (code : OutcomeCode) :
    (s.creditedOn r i c c').settle (r.credited c c') ⟨code, r.count, true, none⟩ false = s.creditSettled r i c c' code := by
  have htwice (g : TargetRec → TargetRec) := map_keyed_twice s.exch.targets i (r.credited c c') hid g
  have hmap : (s.creditedOn r i c c').exch.targets.map (fun x => if x.keyed i.peer i.tag
        then x.settled ⟨code, r.count, true, none⟩ false else x) =
      (s.creditedOn r i c c').exch.targets.map (fun x => if x.keyed i.peer i.tag
        then (r.credited c c').settled ⟨code, r.count, true, none⟩ false else x) :=
    (htwice fun x => x.settled ⟨code, r.count, true, none⟩ false).trans
      (htwice fun _ => (r.credited c c').settled ⟨code, r.count, true, none⟩ false).symm
  rw [State.settle_released (r := r.credited c c') _ hid, TargetRec.credited_areas, hmap]
  rfl

theorem State.creditSettled_eq (s : State) (c c' : SendCounters) (hid : r.id = some i) (code : OutcomeCode) :
    s.creditSettled r i c c' code = { s with
      exch := { s.exch with targets := s.exch.targets.map (fun x => if x.keyed i.peer i.tag
        then (r.credited c c').settled ⟨code, r.count, true, none⟩ false else x) }
      buf := { s.buf with servFree := s.buf.servFree ++ r.ring.elim [] (List.map Slot.area) } } := by
  have htwice := map_keyed_twice s.exch.targets i (r.credited c c') hid fun _ =>
    (r.credited c c').settled ⟨code, r.count, true, none⟩ false
  rw [← htwice]
  rfl

/-! ### What the CREDIT brings (R52, R88, R92) -/

theorem State.creditAtTarget_eq {ends : Bool} (hid : r.id = some i) (hc : (c.credit r.count ne limit).1 = c')
    (hends : (c.credit r.count ne limit).2 = ends) : s.creditAtTarget r c ne limit =
      if ends then (s.creditedOn r i c c').rewindLimitTarget (r.credited c c')
      else if r.state = .active then (s.creditedOn r i c c').moverCheck
      else if r.state = .finishing ∧ c'.base = r.count then
        ((s.creditedOn r i c c').settle (r.credited c c') ⟨.done, r.count, true, none⟩ false).grant
      else s.creditedOn r i c c' := by
  subst hc hends
  simp only [State.creditAtTarget, State.creditedOn, TargetRec.credited, hid]
  refine if_congr Iff.rfl rfl ?_
  cases r.state <;> simp

theorem State.creditArrivesTarget_takes (hs : r.state = .queued ∨ r.state = .active ∨ r.state = .finishing) (hf : r.flow = .sender c) :
    s.creditArrivesTarget r ne limit = s.creditAtTarget r c ne limit := by
  rcases hs with hs | hs | hs <;> simp only [State.creditArrivesTarget, hs, hf]

/-- The CREDIT that acknowledges every block: base is the block count, and nothing is rewound (R52, R88, R89). -/
theorem SendCounters.credit_complete {count : Nat} (hb : c.base < count) (hn : c.next ≤ count) (h : count ≤ ne) :
    (c.credit count ne limit).2 = false ∧ (c.credit count ne limit).1.base = count := by
  have hne : min ne count = count := Nat.min_eq_right h
  have hnext : ¬ (c.base ≤ count ∧ count < max c.next count) := fun ⟨_, hlt⟩ => by omega
  simp only [SendCounters.credit, hne, if_pos hb, if_neg hnext, and_self]

/-- A READ that finishes settles by the eighth rewind or by its last acknowledgement, and goes on else (R52, R92). -/
theorem State.creditAtTarget_finishing (hs : r.state = .finishing) (hid : r.id = some i) (hc : (c.credit r.count ne limit).1 = c') :
    ((c.credit r.count ne limit).2 = true → s.creditAtTarget r c ne limit = (s.creditSettled r i c c' .linkFault).grant) ∧
      ((c.credit r.count ne limit).2 = false → c'.base = r.count →
        s.creditAtTarget r c ne limit = (s.creditSettled r i c c' .done).grant) ∧
      ((c.credit r.count ne limit).2 = false → c'.base ≠ r.count → s.creditAtTarget r c ne limit = s.creditedOn r i c c') := by
  have hactive : r.state ≠ .active := by rw [hs]; decide
  refine ⟨fun h => ?_, fun h hb => ?_, fun h hb => ?_⟩
  · rw [State.creditAtTarget_eq hid hc h, if_pos rfl, ← State.creditedOn_settles hid]
    exact congrArg State.grant (State.settleStopped_finishing (r := r.credited c c') .linkFault hs)
  · rw [State.creditAtTarget_eq hid hc h, if_neg (by decide), if_neg hactive, if_pos ⟨hs, hb⟩, State.creditedOn_settles hid]
  · rw [State.creditAtTarget_eq hid hc h, if_neg (by decide), if_neg hactive, if_neg (fun hdone => hb hdone.2)]

/-- A READ in QUEUED has its counters moved and nothing else (R88). -/
theorem State.creditAtTarget_queued (hs : r.state = .queued) (hid : r.id = some i) (hring : r.ring = none)
    (h : (c.credit r.count ne limit).2 = false) : s.creditAtTarget r c ne limit =
      s.mapTarget i.peer i.tag (fun _ => { r with flow := .sender (c.credit r.count ne limit).1 }) := by
  rw [State.creditAtTarget_eq hid rfl h, if_neg (by decide), if_neg (by rw [hs]; decide), if_neg (by rw [hs]; exact nofun),
    State.creditedOn, TargetRec.credited_noRing hring]

end

/-- Settles O40: the counters in each state of the record, the endings a CREDIT brings, and the mover behind it. -/
theorem creditAtATargetRead : Obligations.CreditAtATargetRead := by
  refine ⟨fun s r dest init tag serial ne limit hr hid => ?_, fun s r i dest d c ne limit hr hid ho hf => ?_⟩
  · have harrives := State.creditToTarget_matching (i := ⟨init, tag, serial⟩) hr hid dest .target ne limit
    refine ⟨fun ⟨b, k, hs⟩ => harrives.trans (State.creditArrivesTarget_settling ne limit hs), fun c hf =>
      ⟨fun hs hring hno => ?_, fun hs hb hn hne => ?_⟩⟩
    · exact harrives.trans ((State.creditArrivesTarget_takes (.inl hs) hf).trans (State.creditAtTarget_queued hs hid hring hno))
    · obtain ⟨hno, hbase⟩ := SendCounters.credit_complete (limit := limit) hb hn hne
      obtain ⟨-, hdone, -⟩ := State.creditAtTarget_finishing (s := s) (c := c) (ne := ne) (limit := limit) hs hid rfl
      have hsettled := harrives.trans ((State.creditArrivesTarget_takes (.inr (.inr hs)) hf).trans (hdone hno hbase))
      rw [State.creditSettled_eq s c _ hid] at hsettled
      exact hsettled
  · have harrives := State.creditToTarget_matching hr hid dest d ne limit
    refine ⟨fun hs => ?_, fun hs => ?_⟩
    · have htakes := harrives.trans (State.creditArrivesTarget_takes (.inr (.inr hs)) hf)
      obtain ⟨hends, hdone, hgoes⟩ := State.creditAtTarget_finishing (s := s) (c := c) (ne := ne) (limit := limit) hs hid rfl
      exact ⟨fun h => htakes.trans (hends h), fun h hb => htakes.trans (hdone (Bool.eq_false_of_not_eq_true h) hb),
        fun h hb => htakes.trans (hgoes (Bool.eq_false_of_not_eq_true h) hb)⟩
    · have htakes := harrives.trans (State.creditArrivesTarget_takes (.inr (.inl hs)) hf)
      have hends := State.creditAtTarget_eq (s := s) (c := c) (ne := ne) (limit := limit) (ends := true) hid rfl
      have hmover := State.creditAtTarget_eq (s := s) (c := c) (ne := ne) (limit := limit) (ends := false) hid rfl
      rw [if_pos rfl] at hends
      rw [if_neg (by decide), if_pos hs] at hmover
      refine ⟨fun h => htakes.trans (hends h), fun h hdata hrun => ?_, fun h hdata => ?_⟩
      · exact htakes.trans ((hmover (Bool.eq_false_of_not_eq_true h)).trans (State.moverCheck_elsewhere hdata hrun))
      · have hmoves := htakes.trans (hmover (Bool.eq_false_of_not_eq_true h))
        refine ⟨fun hbusy => hmoves.trans (State.moverCheck_busy hbusy), fun hbegins => ?_, fun hfree hstays => ?_⟩
        · exact (State.moverCheck_begins hbegins).symm.trans (congrArg _ hmoves.symm)
        · obtain ⟨hring, hmodule⟩ := State.moverCheck_waits hstays hdata hfree
          exact ⟨fun hx => hmoves.trans (hring hx), fun hx => hmoves.trans (hmodule hx)⟩

end Sys2Proof.Machine
end

