-- ==== Sys2Proof/Proofs/TargetBlocks.lean ====
section
/-! SUPPORT. A matching DATA frame at a target WRITE (O39): a block that is not accepted, one that ends the priming, and one behind which
the mover looks at its next slot. -/

namespace Sys2Proof.Machine

section
variable {s : State} {r : TargetRec} {c : RecvCounters} {ring : Ring} {slot : Slot} {d : DataBlock}

/-! ### The arrival (R82) -/

theorem State.dataToTarget_itsOwn (hr : s.targetRec d.init d.tag = some r) (hid : r.id = some ⟨d.init, d.tag, d.serial⟩) :
    s.dataToTarget d.init d = s.dataArrivesTarget r d := State.dataToTarget_matching (i := ⟨d.init, d.tag, d.serial⟩) hr hid rfl rfl rfl

/-! ### The block in its slot (R72, R83) -/

/-- A WRITE that has taken a block into its ring, primed `n` own turns ago or not at all. -/
def TargetRec.storedBlock (r : TargetRec) (ring : Ring) (c : RecvCounters) (index : Nat) (n : Option Nat) : TargetRec := { r with
  ring := some (ring.modify (index % ring.length) (fun y => { y with st := .full index })), priming := n
  flow := .receiver { c with expected := c.expected + 1 } }

/-- The station with a block stored in the area of its slot. -/
def State.storedBlock (s : State) (r : TargetRec) (ring : Ring) (slot : Slot) (c : RecvCounters) (d : DataBlock) (n : Option Nat) : State := { s with
  buf := { s.buf with ram := s.buf.ram.writeBlock slot.area d.bytes }
  exch := { s.exch with targets := s.exch.targets.map (fun x => if x.keyed d.init d.tag then r.storedBlock ring c d.index n else x) } }

theorem State.acceptBlock_eq (hid : r.id = some ⟨d.init, d.tag, d.serial⟩) : s.acceptBlock r c ring slot d =
    (if r.priming.isSome then (s.storedBlock r ring slot c d none).startSetup (r.storedBlock ring c d.index none)
      else (s.storedBlock r ring slot c d none).moverCheck).offerTarget d.init d.tag .credit := by
  simp only [State.acceptBlock, State.storedBlock, TargetRec.storedBlock, hid]
  rfl

/-- Block 0 ends the priming, and the built script starts (R50, R122). -/
theorem State.acceptBlock_primes {n : Nat} (hid : r.id = some ⟨d.init, d.tag, d.serial⟩) (ho : r.op = .write) (hp : r.priming = some n) :
    s.acceptBlock r c ring slot d = ((s.storedBlock r ring slot c d none).withPort { s.port with
      state := .serving (.setup 0), access := some ⟨1, some (BitVec.ofNat 16 (r.count % 256))⟩, watchdog := some 0 }).offerTarget
        d.init d.tag .credit := by
  have hsync : (r.storedBlock ring c d.index none).op ≠ .sync := by rw [TargetRec.storedBlock, ho]; decide
  rw [State.acceptBlock_eq hid, hp, if_pos Option.isSome_some, State.startSetup, builtScript_head, if_neg hsync]
  rfl

theorem State.acceptBlock_primed (hid : r.id = some ⟨d.init, d.tag, d.serial⟩) (hp : r.priming = none) :
    s.acceptBlock r c ring slot d = (s.storedBlock r ring slot c d r.priming).moverCheck.offerTarget d.init d.tag .credit := by
  rw [State.acceptBlock_eq hid, hp, if_neg (by decide)]

/-! ### What a receiving WRITE does with a block (R83, R84) -/

theorem State.dataArrivesTarget_noRing (hid : r.id = some ⟨d.init, d.tag, d.serial⟩) (hf : r.flow = .receiver c)
    (hs : r.state = .queued ∨ r.state = .active) (hring : r.ring = none) :
    s.dataArrivesTarget r d = s.offerTarget d.init d.tag .credit := by
  simp only [State.dataArrivesTarget, hf, hid, hring]
  exact if_pos hs

theorem State.dataArrivesTarget_ring (hid : r.id = some ⟨d.init, d.tag, d.serial⟩) (hf : r.flow = .receiver c)
    (hs : r.state = .queued ∨ r.state = .active) (hring : r.ring = some ring) (hslot : ring[d.index % ring.length]? = some slot) :
    s.dataArrivesTarget r d = if d.index = c.expected ∧ d.index < r.count ∧ slot.st = .empty then s.acceptBlock r c ring slot d
      else s.offerTarget d.init d.tag .credit := by
  simp only [State.dataArrivesTarget, hf, hid, hring, Option.bind_some, Ring.slot, hslot, Option.map_some]
  exact if_pos hs

end

/-- Settles O39: a block that is not accepted, one that ends the priming, and the mover behind one in each phase of the port. -/
theorem dataAtATargetWrite : Obligations.DataAtATargetWrite := by
  refine ⟨fun s r c d hr hid hf ho => ⟨fun hs hring => ?_, fun hs => ?_, fun ring slot hs hring hslot => ?_⟩,
    fun s r c d ring slot hr hid hf ho hs hp hring hslot hnext hcount hempty => ?_⟩
  · exact (State.dataToTarget_itsOwn hr hid).trans (State.dataArrivesTarget_noRing hid hf (.inl hs) hring)
  · exact (State.dataToTarget_itsOwn hr hid).trans (State.dataArrivesTarget_ended d hs)
  · have harrives := (State.dataToTarget_itsOwn hr hid).trans (State.dataArrivesTarget_ring hid hf (.inr hs) hring hslot)
    refine ⟨fun hnot => ?_, fun hnext hcount hempty => ⟨fun k hp hport => ?_, fun n hp => ?_⟩⟩
    · rw [if_neg fun ⟨hnext, hcount, hempty⟩ => hnot.elim (· hnext) fun h => h.elim (Nat.not_le.mpr hcount) (· hempty)] at harrives
      exact harrives
    all_goals rw [if_pos ⟨hnext, hcount, hempty⟩] at harrives
    · have hstays : (s.storedBlock r ring slot c d none).moverCheck = s.storedBlock r ring slot c d none :=
        State.moverCheck_elsewhere (fun h => nomatch hport.symm.trans h) fun _ _ h => nomatch hport.symm.trans h
      rw [State.acceptBlock_primed hid hp, hp, hstays] at harrives
      exact harrives
    · exact harrives.trans (State.acceptBlock_primes hid ho hp)
  · have harrives := (State.dataToTarget_itsOwn hr hid).trans (State.dataArrivesTarget_ring hid hf (.inr hs) hring hslot)
    rw [if_pos ⟨hnext, hcount, hempty⟩, State.acceptBlock_primed hid hp] at harrives
    refine ⟨fun hdata hrun => ?_, fun hdata => ⟨fun hbusy => ?_, fun hbegins => ?_, fun hfree hstays => ?_⟩⟩
    · rw [State.moverCheck_elsewhere (s := s.storedBlock r ring slot c d r.priming) hdata hrun] at harrives
      exact harrives
    · rw [State.moverCheck_busy (s := s.storedBlock r ring slot c d r.priming) hbusy] at harrives
      exact harrives
    · exact ⟨_, (State.moverCheck_begins hbegins).symm, harrives⟩
    · obtain ⟨hwaitsRing, hwaitsModule⟩ := State.moverCheck_waits hstays hdata hfree
      refine ⟨fun hx => ?_, fun hx => ?_⟩
      · exact harrives.trans (congrArg (fun u => u.offerTarget d.init d.tag .credit) (hwaitsRing hx))
      · exact harrives.trans (congrArg (fun u => u.offerTarget d.init d.tag .credit) (hwaitsModule hx))

end Sys2Proof.Machine
end

