-- ==== Sys2Proof/Proofs/Configuration.lean ====
section
/-! SUPPORT. The match of the configuration latch (O7): the configuration that two words carry, field by field. -/

namespace Sys2Proof.Machine

theorem bitField_lt {n : Nat} (w : BitVec n) (lo len : Nat) : bitField w lo len < 2 ^ len := Nat.mod_lt _ (Nat.two_pow_pos len)

/-- Every rate code but 0 names a line rate (R186). -/
theorem rateOf_valid {a : Word} (h : bitField a 4 2 ≠ 0) :
    ∃ rate, rateOf a = some rate ∧ [LineRate.mbit10, .mbit20, .mbit40][bitField a 4 2 - 1]? = some rate := by
  have hlt := bitField_lt a 4 2
  unfold rateOf
  generalize bitField a 4 2 = n at h hlt
  match n with
  | 0 => exact absurd rfl h
  | 1 => exact ⟨_, rfl, rfl⟩
  | 2 => exact ⟨_, rfl, rfl⟩
  | 3 => exact ⟨_, rfl, rfl⟩

theorem poolOf_areas (b : Word) : (poolOf b).areas = [8, 12, 16, 24].getD (bitField b 0 2) 0 := by
  have hlt := bitField_lt b 0 2
  unfold poolOf
  generalize bitField b 0 2 = n at hlt
  match n with
  | 0 => rfl
  | 1 => rfl
  | 2 => rfl
  | 3 => rfl

/-- The configuration that two words in range carry (R186). -/
theorem configOf_valid {a : Word} (b : Word) (h : bitField a 4 2 ≠ 0) : ∃ c, configOf a b = some c ∧
    c.station.val = bitField a 0 4 ∧ c.modulePresent = a.getLsbD 6 ∧ c.lifetime.toNat = bitField b 8 8 ∧
    c.pool.areas = [8, 12, 16, 24].getD (bitField b 0 2) 0 ∧
    [LineRate.mbit10, .mbit20, .mbit40][bitField a 4 2 - 1]? = some c.rate := by
  obtain ⟨rate, hrate, hcode⟩ := rateOf_valid h
  refine ⟨_, by rw [configOf, hrate]; rfl, Nat.mod_eq_of_lt (bitField_lt a 0 4), rfl, ?_, poolOf_areas b, hcode⟩
  exact (BitVec.toNat_ofNat ..).trans (Nat.mod_eq_of_lt (bitField_lt b 8 8))

theorem exec_configBWrite_matches {s : State} {a b w : Word} {c : Cfg} (hs : s.inReset = false) (hl : s.host.latch = .awaitB2 a b)
    (hw : maskB w = b) (hc : configOf a b = some c) : exec (.configBWrite w) s = .next (s.matchConfig c) := by
  have hwrite : s.writeConfigB w = s.matchConfig c := by
    simp only [State.writeConfigB, hl, hc]
    exact if_pos hw
  rw [← hwrite]
  exact congrArg Host.Outcome.next (if_neg (by rw [hs]; decide))

/-- Settles O7: the words that agree carry a configuration, and the station takes it with or without a module. -/
theorem matchConfigures : Obligations.MatchConfigures := by
  intro s a b w hs hl hw hrate
  obtain ⟨c, hc, hstation, hmodule, hlifetime, hpool, hcode⟩ := configOf_valid b hrate
  have hexec := exec_configBWrite_matches hs hl hw hc
  refine ⟨c, hstation, hmodule, hlifetime, hpool, hcode, fun hpresent => ?_, fun habsent => ?_⟩
  · exact hexec.trans (congrArg Host.Outcome.next (if_pos hpresent))
  · exact hexec.trans (congrArg Host.Outcome.next (if_neg (by rw [habsent]; decide)))

end Sys2Proof.Machine
end

