-- ==== Sys2Proof/Proofs/RequestLines.lean ====
section
/-! SUPPORT. The request lines (O16): the burst threshold, and the words that the current slot offers and that remain. -/

namespace Sys2Proof.Machine

theorem thresholdWords_eq (c : BitVec 2) : thresholdWords c = [1, 8, 32, 256].getD c.toNat 0 := by
  revert c
  decide

theorem State.requestLine_iff (s : State) (c : Channel) : s.requestLine c = true ↔ ∃ r, s.channelHead c = some r ∧
    (s.chan c).held = false ∧ 0 < r.remaining ∧ min (thresholdWords (s.chan c).threshold) r.remaining ≤ r.offered := by
  unfold State.requestLine
  cases s.channelHead c with
  | none => simp
  | some r => simp [and_assoc]

theorem InitRec.currentBlock_read {r : InitRec} {c : RecvCounters} (ho : r.op = .read) (hf : r.flow = .receiver c) :
    r.currentBlock = c.consumed := by
  rw [InitRec.currentBlock, if_pos ho, hf]
  rfl

theorem InitRec.currentBlock_write {r : InitRec} (ho : r.op = .write) : r.currentBlock = r.moved :=
  if_neg (by rw [ho]; decide)

/-- Settles O16: the words offered and remaining, by the state of the slot of the current block. -/
theorem thresholdsAndRequestLine : Obligations.ThresholdsAndRequestLine := by
  refine ⟨fun s w hs => ?_, fun s c => ?_, fun r => InitRec.offered_no_ring, fun r c ho hf => ?_, fun r ho => ?_⟩
  · have htruncate : w.extractLsb' 0 2 = w.truncate 2 := BitVec.eq_of_toNat_eq rfl
    rw [← htruncate]
    exact congrArg Host.Outcome.next (State.hosted_configured hs _)
  · rw [State.requestLine_iff, thresholdWords_eq]
  · have hcur := InitRec.currentBlock_read ho hf
    refine ⟨fun h => InitRec.remaining_moved (hcur ▸ h), fun h => InitRec.remaining_no_ring (hcur ▸ h), fun ring slot hr hslot => ?_⟩
    have hoffered := InitRec.offered_read (slot := slot) ho hr (by rw [hf]; exact hslot)
    have hremaining (h : c.consumed < r.count) := InitRec.remaining_slot (slot := slot) (hcur ▸ h) hr (hcur ▸ hslot)
    refine ⟨fun b hst => ?_, fun b w hst => ?_, fun hst => ?_⟩ <;> rw [hst] at hoffered hremaining <;>
      exact ⟨hoffered, hremaining⟩
  · have hcur := InitRec.currentBlock_write ho
    refine ⟨fun h => ⟨InitRec.offered_filled ho h, InitRec.remaining_moved (hcur ▸ h)⟩,
      fun h => InitRec.remaining_no_ring (hcur ▸ h), fun ring slot c hm hr hf hslot => ?_⟩
    have hoffered := InitRec.offered_write ho hr hm hslot
    have hremaining := InitRec.remaining_slot (slot := slot) (hcur ▸ hm) hr (hcur ▸ hslot)
    refine ⟨fun hst => ?_, fun b w hst => ?_, fun b hst => ?_⟩ <;> rw [hst] at hoffered hremaining
    · rw [hf] at hoffered
      exact ⟨hremaining, fun h => hoffered.trans (if_pos h), fun h => hoffered.trans (if_neg (Nat.not_lt.mpr h))⟩
    · exact ⟨hoffered, hremaining⟩
    · exact ⟨hoffered, hremaining⟩

end Sys2Proof.Machine
end

