-- ==== Sys2Proof/Proofs/ModuleTimers.lean ====
section
/-! SUPPORT. The timers of the module port (O56): what FAILED and RESETTING are entered with, and what the release of MRST gives back. -/

namespace Sys2Proof.Machine

section
variable {s : State} {pre post : List TargetRec} {r : TargetRec} {i : ExchId} {n : Nat}

/-! ### Entry to FAILED (R119) -/

/-- The port FAILED; a posted script has ended STALLED. -/
def Port.failed (p : Port) : Port := { p with
  state := .failed, access := none, transfer := none, attention := none, watchdog := none
  result := if p.result = .posted then .stalled else p.result
  spent := p.spent || decide (p.result = .posted) }

/-- The station with its port FAILED and its QUEUED records settled, before a posted script ends. -/
def State.portFailed (s : State) : State :=
  (s.withPort { s.port with state := .failed, access := none, transfer := none, attention := none, watchdog := none }).settleQueued

theorem State.enterFailed_posted (h : s.port.result = .posted) : s.enterFailed = (s.portFailed.endScript .stalled).setFlag .module :=
  congrArg (State.setFlag · .module) (if_pos h)

theorem State.enterFailed_unposted (h : s.port.result ≠ .posted) : s.enterFailed = s.portFailed.setFlag .module :=
  congrArg (State.setFlag · .module) (if_neg h)

theorem State.enterFailed_eq (s : State) : s.enterFailed = { (s.withPort s.port.failed) with
    host := { s.host with flags := if s.port.result = .posted then s.host.flags ||| 8 ||| 16 else s.host.flags ||| 16 }
    exch := { s.exch with targets := s.exch.targets.map (fun r =>
      if r.state = .queued then r.settled ⟨.noModule, 0, true, none⟩ false else r) } } := by
  by_cases h : s.port.result = .posted
  · rw [State.enterFailed_posted h, if_pos h, Port.failed, if_pos h, decide_eq_true h, Bool.or_true]
    exact congrArg (State.setFlag · .module) (congrArg (State.setFlag · .maint) (State.withPort_withPort s.settleQueued _ _))
  · rw [State.enterFailed_unposted h, if_neg h, Port.failed, if_neg h, decide_eq_false h, Bool.or_false]
    rfl

/-! ### Entry to RESETTING (R128) -/

/-- The transfers of the record served are cut, the port is RESETTING and MODULE is set. -/
theorem State.enterResetting_eq (s : State) : s.enterResetting = { (s.withPort s.port.resetting) with
    host := { s.host with flags := s.host.flags ||| 16 }
    exch := { s.exch with targets := s.exch.targets.map (fun x =>
      if s.isServed x then { x with ring := x.ring.map Ring.cutTransfers } else x) } } := rfl

theorem State.enterResetting_unserved (h : ∀ x ∈ s.exch.targets, s.isServed x = false) : s.enterResetting =
    { (s.withPort s.port.resetting) with host := { s.host with flags := s.host.flags ||| 16 } } := by
  rw [State.enterResetting, State.assertReset, State.mapServedRing, State.mapServed_none _ h]
  rfl

/-- A running script ends STALLED and the module is reset (R125, R130). -/
theorem State.endScript_enterResetting (hp : ∀ p, s.port.state ≠ .serving p) (result : MaintResult) :
    (s.endScript result).enterResetting = { (s.withPort { s.port.resetting with result := result, spent := true }) with
      host := { s.host with flags := s.host.flags ||| 8 ||| 16 } } := by
  rw [State.enterResetting_unserved (s := s.endScript result) fun x _ => State.isServed_out hp x]
  exact State.withPort_flags s _ _ _

/-! ### The watchdog (R125) -/

theorem exec_watchdogExpiry_runs (h : s.port.watchdog = some n) : exec .watchdogExpiry s = .next s.watchdogExpires :=
  congrArg Host.Outcome.next (if_pos (by rw [h]; rfl))

/-- A record that a watch of the port has ended: it keeps its ring, its transfers cut, for the reset run-out. -/
def TargetRec.endedByWatch (r : TargetRec) (code : OutcomeCode) : TargetRec :=
  ({ r with ring := r.ring.map Ring.cutTransfers } : TargetRec).settled ⟨code, r.moved, true, none⟩ true

theorem State.endByWatch_only (h : s.ServesOnly pre post r i) (hp : s.port.state.ServesActive) (code : OutcomeCode) :
    s.endByWatch code = { (s.withPort s.port.resetting) with
      host := { s.host with flags := s.host.flags ||| 16 }
      exch := { s.exch with targets := pre ++ r.endedByWatch code :: post } } := by
  have hcut := h.mapServed hp fun x => { x with ring := x.ring.map Ring.cutTransfers }
  have hsettled := map_keyed_only (r := { r with ring := r.ring.map Ring.cutTransfers })
    (fun x => x.settled ⟨code, r.moved, true, none⟩ true) h.id h.keys
  rw [State.endByWatch, h.activeRec]
  dsimp only
  rw [State.enterResetting, State.assertReset, State.mapServedRing, hcut, State.settle_eq _ _ h.id, if_pos rfl, State.mapTarget]
  exact congrArg (fun l : List TargetRec => ({ (s.withPort s.port.resetting) with
    host := { s.host with flags := s.host.flags ||| 16 }, exch := { s.exch with targets := l } } : State)) hsettled

theorem exec_watchdogExpiry_only (hn : s.port.watchdog = some n) (h : s.ServesOnly pre post r i)
    (hp : (∃ k, s.port.state = .serving (.setup k)) ∨ s.port.state = .serving .data ∨ s.port.state = .serving .closing) :
    exec .watchdogExpiry s = .next { (s.withPort s.port.resetting) with
      host := { s.host with flags := s.host.flags ||| 16 }
      exch := { s.exch with targets := pre ++ r.endedByWatch .moduleStall :: post } } := by
  rw [exec_watchdogExpiry_runs hn, ← State.endByWatch_only h (.inr hp)]
  refine congrArg Host.Outcome.next ?_
  rcases hp with ⟨k, hp⟩ | hp | hp <;> simp only [State.watchdogExpires, hp]

/-! ### The wait of STARTING (R118) -/

theorem exec_startingTimeout_expires (hp : s.port.state = .starting n) : exec .startingTimeout s = .next s.enterFailed := by
  simp only [exec, execStartingTimeout, hp]

theorem exec_startingTimeout_elsewhere (hp : ∀ n, s.port.state ≠ .starting n) : exec .startingTimeout s = .next s := by
  show execStartingTimeout s = _
  unfold execStartingTimeout
  split
  · next n hn => exact absurd hn (hp n)
  · rfl

/-! ### The release of MRST (R66, R118) -/

/-- What a run-out leaves of the ring of a record. -/
def TargetRec.runOutEnded (r : TargetRec) : TargetRec :=
  match r.state with
  | .settling _ _ => { r with ring := none }
  | _ => r

/-- The areas that the end of a run-out takes back from a record. -/
def TargetRec.runOutAreas (r : TargetRec) : List AreaNo :=
  match r.state with
  | .settling _ _ => r.ring.elim [] (List.map Slot.area)
  | .detached => r.ring.elim [] (List.map Slot.area)
  | _ => []

theorem TargetRec.runOutEnded_settling {b : Bool} {k : Nat} (h : r.state = .settling b k) : r.runOutEnded = { r with ring := none } := by
  rw [TargetRec.runOutEnded, h]

theorem TargetRec.runOutAreas_settling {b : Bool} {k : Nat} (h : r.state = .settling b k) :
    r.runOutAreas = r.ring.elim [] (List.map Slot.area) := by
  rw [TargetRec.runOutAreas, h]

theorem TargetRec.runOutAreas_detached (h : r.state = .detached) : r.runOutAreas = r.ring.elim [] (List.map Slot.area) := by
  rw [TargetRec.runOutAreas, h]

theorem TargetRec.runOutEnded_eq (h : r.state ≠ .detached) : (if r.inRunOut then { r with ring := none } else r) = r.runOutEnded := by
  obtain ⟨_, _, _, _, state, ring, _⟩ := r
  cases state with
  | detached => exact absurd rfl h
  | settling b k => cases ring <;> rfl
  | _ => rfl

theorem TargetRec.runOutAreas_eq (r : TargetRec) : (if r.inRunOut then r.ring.elim [] (List.map Slot.area) else []) = r.runOutAreas := by
  unfold TargetRec.inRunOut TargetRec.runOutAreas
  cases r.state with
  | settling b k => cases r.ring <;> rfl
  | _ => rfl

theorem runOutAreas_flatMap (l : List TargetRec) :
    (l.filter TargetRec.inRunOut).flatMap (fun x => x.ring.elim [] (List.map Slot.area)) = l.flatMap TargetRec.runOutAreas := by
  induction l with
  | nil => rfl
  | cons x l ih =>
    rw [List.flatMap_cons, ← ih, ← x.runOutAreas_eq, List.filter_cons]
    split
    · rfl
    · rfl

/-- Every ring run out goes back, DETACHED records are freed, and STARTING reads STATUS. -/
theorem exec_mrstRelease_releases (hp : s.port.state = .resetting true) : exec .mrstRelease s = .next (({ s with
    exch := { s.exch with targets := (s.exch.targets.filter (fun x => decide (x.state ≠ .detached))).map TargetRec.runOutEnded }
    buf := { s.buf with servFree := s.buf.servFree ++ s.exch.targets.flatMap TargetRec.runOutAreas } } : State).withPort
      { s.port with state := .starting 0, access := some ⟨6, none⟩ }) := by
  have htargets : (s.exch.targets.filter (fun x => decide (x.state ≠ .detached))).map (fun x =>
      if x.inRunOut then { x with ring := none } else x) =
      (s.exch.targets.filter (fun x => decide (x.state ≠ .detached))).map TargetRec.runOutEnded :=
    List.map_congr_left fun x hx => TargetRec.runOutEnded_eq (by simpa using (List.mem_filter.mp hx).2)
  have hended := s.endRunOut_eq
  rw [htargets, runOutAreas_flatMap] at hended
  refine congrArg Host.Outcome.next ((if_pos hp).trans ?_)
  rw [State.releaseReset, hended]
  rfl

theorem State.mrst_iff (s : State) : s.mrst = true ↔
    s.port.state = .absent ∨ (∃ b, s.port.state = .resetting b) ∨ s.port.state = .failed := by
  unfold State.mrst
  cases s.port.state <;> simp

end

/-- Settles O56: each timer by the state of the port, the served record alone or among others, and the run-out. -/
theorem moduleTimers : Obligations.ModuleTimers := by
  refine ⟨fun s => ⟨fun hw => ?_, fun n hw => ⟨fun d hp => ?_, fun k hp => ?_, fun r i ht hr hid hp => ?_⟩, fun hp => ?_,
      fun hp => ⟨fun ht => ?_, fun r ht hr => ?_, fun r o k ht hr => ?_⟩, fun n hp => ?_, fun hp => ?_⟩,
    fun s n hw => ⟨fun hp hnone => ?_, fun k c hp => ?_⟩,
    fun s => ⟨s.mrst_iff, exec_mrstRelease_releases, fun n pre post r i hw ht hr hid hothers hp => ?_⟩⟩
  · exact congrArg Host.Outcome.next (if_neg (by rw [hw]; decide))
  · rw [exec_watchdogExpiry_runs hw, State.watchdogExpires, hp]
    exact congrArg Host.Outcome.next s.enterFailed_eq
  · rw [exec_watchdogExpiry_runs hw, State.watchdogExpires, hp]
    exact congrArg Host.Outcome.next (State.endScript_enterResetting (by rw [hp]; exact nofun) .stalled)
  · exact exec_watchdogExpiry_only hw (State.servesOnly_single ht hr hid) hp
  · exact congrArg Host.Outcome.next (if_neg hp)
  · have hrelease := exec_mrstRelease_releases hp
    rw [ht, List.filter_nil, List.map_nil, List.flatMap_nil, List.append_nil, ← ht] at hrelease
    exact hrelease
  · have hrelease := exec_mrstRelease_releases hp
    rw [ht, List.filter_cons_of_neg (by rw [hr]; decide), List.filter_nil, List.map_nil, List.flatMap_singleton,
      TargetRec.runOutAreas_detached hr] at hrelease
    exact hrelease
  · have hrelease := exec_mrstRelease_releases hp
    rw [ht, List.filter_cons_of_pos (by simp [hr]), List.filter_nil, List.map_cons, List.map_nil,
      List.flatMap_singleton, TargetRec.runOutEnded_settling hr, TargetRec.runOutAreas_settling hr] at hrelease
    exact hrelease
  · exact (exec_startingTimeout_expires hp).trans (congrArg Host.Outcome.next s.enterFailed_eq)
  · exact exec_startingTimeout_elsewhere hp
  · rw [exec_watchdogExpiry_runs hw, State.watchdogExpires, hp]
    exact congrArg Host.Outcome.next (State.enterResetting_unserved fun x hx => (State.isServed_stopping hp x).trans (decide_eq_false (hnone x hx)))
  · have hreset := s.enterResetting_eq
    simp only [State.isServed_runOut hp] at hreset
    rw [exec_watchdogExpiry_runs hw, State.watchdogExpires, hp]
    exact congrArg Host.Outcome.next hreset
  · exact exec_watchdogExpiry_only hw ⟨ht, hr, hid, hothers⟩ hp

end Sys2Proof.Machine
end

