-- ==== Sys2Proof/Proofs/BlockTransfers.lean ====
section
/-! SUPPORT. The block transfers of the module port (O53): how one begins, what each word and the last word of a block do, in the data phase
and in a run-out. -/

namespace Sys2Proof.Machine

section
variable {s : State} {r : TargetRec} {ring : Ring} {a : AreaNo} {b b' w : Nat} {v : Word}

/-! ### A transfer, whichever record is served (R76, R122) -/

/-- The slot of a block of a record moved to a state. -/
def TargetRec.withSlot (r : TargetRec) (b : Nat) (st : SlotState) : TargetRec :=
  { r with ring := r.ring.map (fun g => g.modify (b % g.length) (fun y => { y with st := st })) }

theorem State.dataAccess_read (ho : r.op = .read) (b w : Nat) : s.dataAccess r b w = ⟨0, none⟩ := by
  rw [State.dataAccess, ho]
  rfl

theorem State.dataAccess_write {st : SlotState} (ho : r.op = .write) (hr : r.ring = some ring) (hslot : ring[b % ring.length]? = some ⟨a, st⟩)
    (w : Nat) : s.dataAccess r b w = ⟨0, some (s.buf.ram.readWord a w)⟩ := by
  have hb : (some ring).bind (fun g => g.slot b) = some ⟨a, st⟩ := hslot
  rw [State.dataAccess, ho, hr, hb]
  rfl

theorem exec_blockTransferBegin_begins (h : s.transferMayBegin = true) : exec .blockTransferBegin s = .next s.beginTransfer :=
  congrArg Host.Outcome.next (if_pos h)

theorem State.beginTransfer_served (h : s.servedRec = some r) : s.beginTransfer =
    (s.mapServed (fun x => { x.withSlot (s.transferBlock r) (if x.op = .write then .draining (s.transferBlock r) 0
      else .filling (s.transferBlock r) 0) with starvation := none })).withPort
        { s.port with transfer := some (s.transferBlock r), access := some (s.dataAccess r (s.transferBlock r) 0), watchdog := some 0 } := by
  rw [State.beginTransfer, h]
  rfl

/-- A word of a READ but the last is stored, and the next one is read from the module. -/
theorem State.dataWordDone_filling (ho : r.op = .read) (hr : r.ring = some ring) (hslot : ring[b % ring.length]? = some ⟨a, .filling b' w⟩)
    (hw : w + 1 < 256) : s.dataWordDone r b v =
      (State.mapServed { s with buf := { s.buf with ram := s.buf.ram.writeWord a w v } } (fun x => x.withSlot b (.filling b (w + 1)))).withPort
        { s.port with access := some ⟨0, none⟩, watchdog := some 0 } := by
  have hb : (some ring).bind (fun g => g.slot b) = some ⟨a, .filling b' w⟩ := hslot
  rw [State.dataWordDone, hr, hb]
  refine (if_pos hw).trans ?_
  dsimp only
  rw [State.dataAccess_read ho]
  rfl

/-- A word of a WRITE but the last has left, and the next one is written to the module. -/
theorem State.dataWordDone_draining (ho : r.op = .write) (hr : r.ring = some ring)
    (hslot : ring[b % ring.length]? = some ⟨a, .draining b' w⟩) (hw : w + 1 < 256) : s.dataWordDone r b v =
      (s.mapServed (fun x => x.withSlot b (.draining b (w + 1)))).withPort
        { s.port with access := some ⟨0, some (s.buf.ram.readWord a (w + 1))⟩, watchdog := some 0 } := by
  have hb : (some ring).bind (fun g => g.slot b) = some ⟨a, .draining b' w⟩ := hslot
  rw [State.dataWordDone, hr, hb]
  refine (if_pos hw).trans ?_
  dsimp only
  rw [State.dataAccess_write ho hr hslot]
  rfl

theorem State.dataWordDone_filled (hs : s.port.state = .serving .data) (hr : r.ring = some ring)
    (hslot : ring[b % ring.length]? = some ⟨a, .filling b' 255⟩) :
    s.dataWordDone r b v = State.blockDone { s with buf := { s.buf with ram := s.buf.ram.writeWord a 255 v } } r b := by
  have hb : (some ring).bind (fun g => g.slot b) = some ⟨a, .filling b' 255⟩ := hslot
  rw [State.dataWordDone, hr, hb]
  refine (if_neg (by decide)).trans ?_
  rw [hs]

theorem State.dataWordDone_drained (hr : r.ring = some ring) (hslot : ring[b % ring.length]? = some ⟨a, .draining b' 255⟩) :
    s.dataWordDone r b v = s.blockDone r b := by
  have hb : (some ring).bind (fun g => g.slot b) = some ⟨a, .draining b' 255⟩ := hslot
  rw [State.dataWordDone, hr, hb]
  exact if_neg (by decide)

/-! ### The slot that is not ready (R69, R73) -/

theorem TargetRec.not_ready_read (ho : r.op = .read) (hr : r.ring = some ring)
    (hnot : r.count ≤ r.moved ∨ r.flow.base + min 4 r.count ≤ r.moved ∨ (∀ x, ring[r.moved % ring.length]? = some x → x.st ≠ .empty)) :
    ¬ r.slotReady = true := by
  intro hready
  obtain ⟨g, slot, hg, ⟨-, hcount, hbase, hslot, hst⟩ | ⟨hwrite, -⟩⟩ := r.slotReady_iff.mp hready
  · obtain rfl := Option.some.inj (hr.symm.trans hg)
    exact hnot.elim (Nat.not_le.mpr hcount) fun hnot => hnot.elim (Nat.not_le.mpr hbase) fun hnot => hnot slot hslot hst
  · rw [ho] at hwrite
    cases hwrite

theorem TargetRec.not_ready_write (ho : r.op = .write) (hr : r.ring = some ring)
    (hnot : r.count ≤ r.flow.consumed ∨ (∀ x, ring[r.flow.consumed % ring.length]? = some x → x.st ≠ .full r.flow.consumed)) :
    ¬ r.slotReady = true := by
  intro hready
  obtain ⟨g, slot, hg, ⟨hread, -⟩ | ⟨-, hcount, hslot, hst⟩⟩ := r.slotReady_iff.mp hready
  · rw [ho] at hread
    cases hread
  · obtain rfl := Option.some.inj (hr.symm.trans hg)
    exact hnot.elim (Nat.not_le.mpr hcount) fun hnot => hnot slot hslot hst

/-! ### The data phase -/

/-- The data phase of the one ACTIVE record, which holds a ring. -/
structure State.DataPhase (s : State) (r : TargetRec) (ring : Ring) : Prop where
  data : s.port.state = .serving .data
  active : s.activeRec = some r
  only : ∀ x ∈ s.exch.targets, x.state = .active → x = r
  holds : r.ring = some ring

theorem State.DataPhase.stored (h : s.DataPhase r ring) (a : AreaNo) (w : Nat) (v : Word) :
    State.DataPhase { s with buf := { s.buf with ram := s.buf.ram.writeWord a w v } } r ring := ⟨h.data, h.active, h.only, h.holds⟩

/-- A change of the ACTIVE records. -/
def State.mapActive (s : State) (f : TargetRec → TargetRec) : State :=
  { s with exch := { s.exch with targets := s.exch.targets.map (fun x => if x.state = .active then f x else x) } }

theorem State.DataPhase.servedRec (h : s.DataPhase r ring) : s.servedRec = some r := (State.servedRec_data h.data).trans h.active

theorem State.DataPhase.mapActive_congr (h : s.DataPhase r ring) {f g : TargetRec → TargetRec} (hfg : f r = g r) :
    s.mapActive f = s.mapActive g := by
  rw [State.mapActive, State.mapActive, map_active_only h.only hfg]

theorem State.DataPhase.mapServed (h : s.DataPhase r ring) {f g : TargetRec → TargetRec} (hfg : f r = g r) : s.mapServed f = s.mapActive g :=
  (State.mapServed_data h.data f).trans (h.mapActive_congr hfg)

theorem State.DataPhase.transferBlock (h : s.DataPhase r ring) : s.transferBlock r = r.nextBlock := by
  rw [State.transferBlock, h.data]

theorem State.DataPhase.mayBegin (h : s.DataPhase r ring) (hx : s.port.xfer = true) (ht : s.port.transfer = none) (ha : s.port.access = none)
    (hready : r.slotReady = true) : s.transferMayBegin = true :=
  s.transferMayBegin_iff.mpr ⟨hx, ht, ha, .inl ⟨h.data, r, h.active, hready⟩⟩

theorem State.DataPhase.stays (h : s.DataPhase r ring) (hready : ¬ r.slotReady = true) : exec .blockTransferBegin s = .next s :=
  exec_blockTransferBegin_stays (State.transferMayBegin_not_ready h.data h.active (Bool.eq_false_iff.mpr hready))

theorem State.DataPhase.begins_read (h : s.DataPhase r ring) (ho : r.op = .read) : s.beginTransfer =
    (s.mapActive (fun x => { x.withSlot r.moved (.filling r.moved 0) with starvation := none })).withPort
      { s.port with transfer := some r.moved, access := some ⟨0, none⟩, watchdog := some 0 } := by
  have hblock : s.transferBlock r = r.moved := h.transferBlock.trans (if_pos ho)
  rw [State.beginTransfer_served h.servedRec, hblock, State.dataAccess_read ho]
  refine congrArg (State.withPort · _) (h.mapServed ?_)
  rw [if_neg (by rw [ho]; decide)]

theorem State.DataPhase.begins_write (h : s.DataPhase r ring) (ho : r.op = .write) {st : SlotState}
    (hslot : ring[r.flow.consumed % ring.length]? = some ⟨a, st⟩) : s.beginTransfer =
    (s.mapActive (fun x => { x.withSlot r.flow.consumed (.draining r.flow.consumed 0) with starvation := none })).withPort
      { s.port with transfer := some r.flow.consumed, access := some ⟨0, some (s.buf.ram.readWord a 0)⟩, watchdog := some 0 } := by
  have hblock : s.transferBlock r = r.flow.consumed := h.transferBlock.trans (if_neg (by rw [ho]; decide))
  rw [State.beginTransfer_served h.servedRec, hblock, State.dataAccess_write ho h.holds hslot]
  refine congrArg (State.withPort · _) (h.mapServed ?_)
  rw [if_pos ho]

theorem State.DataPhase.completes (h : s.DataPhase r ring) (ht : s.port.transfer = some b) (ha : s.port.access.isSome = true) :
    exec (.slotAccessComplete v) s = .next (s.dataWordDone r b v) := by
  rw [exec_slotAccessComplete ha, State.slotDone, h.data, h.servedRec, ht]

/-! ### The last word of a block in the data phase (R69, R71, R73, R85) -/

/-- The station with a block moved: its slot and its record's counters told, the port between two transfers. -/
def State.blockMoved (s : State) (r : TargetRec) (b : Nat) (st : SlotState) (flow : Flow) : State :=
  (s.mapActive (fun x => { x.withSlot b st with moved := r.moved + 1, flow := flow })).withPort
    { s.port with transfer := none, access := none, watchdog := some 0 }

/-- Behind a block the mover looks at the next one, or the closing phase begins (R122, R123). -/
def State.afterBlock (u : State) (r : TargetRec) : State := if r.moved + 1 < r.count then u.moverCheck else u.enterClosing

theorem State.afterBlock_more (u : State) (h : r.moved + 1 < r.count) : u.afterBlock r = u.moverCheck := if_pos h

theorem State.afterBlock_last (u : State) (h : r.moved + 1 = r.count) : u.afterBlock r = u.enterClosing := if_neg (by omega)

theorem State.DataPhase.blockDone_read {c : SendCounters} (h : s.DataPhase r ring) (ho : r.op = .read) (hf : r.flow = .sender c) (b : Nat) :
    s.blockDone r b = (s.blockMoved r b (if b < c.base then .empty else .full b) r.flow).afterBlock r := by
  have hport : (s.withPort { s.port with transfer := none, access := none, watchdog := some 0 }).DataPhase r ring :=
    ⟨h.data, h.active, h.only, h.holds⟩
  unfold State.blockDone
  dsimp only
  rw [hport.mapServed (g := fun x => { x.withSlot b (if b < c.base then .empty else .full b) with moved := r.moved + 1, flow := r.flow })
    (by rw [hf]; rfl), ho]
  rfl

theorem State.DataPhase.blockDone_write {c : RecvCounters} {i : ExchId} (h : s.DataPhase r ring) (ho : r.op = .write)
    (hf : r.flow = .receiver c) (hid : r.id = some i) (b : Nat) : s.blockDone r b =
      ((s.blockMoved r b .empty (.receiver { c with consumed := c.consumed + 1 })).offerTarget i.peer i.tag .credit).afterBlock r := by
  have hport : (s.withPort { s.port with transfer := none, access := none, watchdog := some 0 }).DataPhase r ring :=
    ⟨h.data, h.active, h.only, h.holds⟩
  unfold State.blockDone
  dsimp only
  rw [hport.mapServed (g := fun x =>
    { x.withSlot b .empty with moved := r.moved + 1, flow := .receiver { c with consumed := c.consumed + 1 } }) (by rw [hf]; rfl), ho, hid]
  rfl

theorem State.offerTarget_port (s : State) (p : Station) (t : Tag) (k : ItemKind) : (s.offerTarget p t k).port = s.port := by
  unfold State.offerTarget
  split
  · split
    · dsimp only
      split <;> rfl
    · rfl
  · rfl

/-- What follows a block with more to move: the next one begins at the same event, or a wait does (R123, R126). -/
theorem State.moverCheck_goesOn {u : State} {p : Port} (hp : u.port = { p with transfer := none, access := none, watchdog := some 0 })
    (hs : p.state = .serving .data) {o : Host.Outcome State Fault Refusal} (ho : o = .next u.moverCheck) :
    (u.transferMayBegin = true → o = exec .blockTransferBegin u) ∧
    (u.transferMayBegin = false → p.xfer = true → o = .next
      ((u.mapActive (fun x => { x with starvation := some (x.starvation.getD 0) })).withPort { u.port with watchdog := none })) ∧
    (u.transferMayBegin = false → p.xfer = false → o = .next
      ((u.mapActive (fun x => { x with starvation := none })).withPort { u.port with watchdog := some 0 })) := by
  have hwaits (h : u.transferMayBegin = false) := State.moverCheck_waits h (by rw [hp]; exact hs) (by rw [hp])
  have hwatch : u.port.watchdog.getD 0 = 0 := by rw [hp]; rfl
  have hxfer : u.port.xfer = p.xfer := by rw [hp]
  rw [hwatch, hxfer] at hwaits
  refine ⟨fun h => ho.trans (State.moverCheck_begins h), fun h hx => ?_, fun h hx => ?_⟩
  · obtain ⟨hring, -⟩ := hwaits h
    exact ho.trans (congrArg Host.Outcome.next (hring hx))
  · obtain ⟨-, hmodule⟩ := hwaits h
    exact ho.trans (congrArg Host.Outcome.next (hmodule hx))

/-! ### The run-out of a READ (R76, R127) -/

theorem TargetRec.inRunOut_iff (r : TargetRec) :
    r.inRunOut = true ↔ r.state = .detached ∨ ((∃ b k, r.state = .settling b k) ∧ r.ring ≠ none) := by
  unfold TargetRec.inRunOut
  cases r.state <;> simp [Option.isSome_iff_ne_none]

/-- The run-out of the one record that is run out, a READ which holds its ring. -/
structure State.RunsOut (s : State) (r : TargetRec) (ring : Ring) (next count : Nat) : Prop where
  runOut : s.port.state = .serving (.runOut next count)
  mem : r ∈ s.exch.targets
  out : r.inRunOut = true
  only : ∀ x ∈ s.exch.targets, x.inRunOut = true → x = r
  read : r.op = .read
  holds : r.ring = some ring

theorem State.RunsOut.stored {next count : Nat} (h : s.RunsOut r ring next count) (a : AreaNo) (w : Nat) (v : Word) :
    State.RunsOut { s with buf := { s.buf with ram := s.buf.ram.writeWord a w v } } r ring next count :=
  ⟨h.runOut, h.mem, h.out, h.only, h.read, h.holds⟩

/-- A change of one record. -/
def State.mapOnly (s : State) (r : TargetRec) (f : TargetRec → TargetRec) : State :=
  { s with exch := { s.exch with targets := s.exch.targets.map (fun x => if x = r then f x else x) } }

variable {next count : Nat}

theorem State.RunsOut.found (h : s.RunsOut r ring next count) : s.exch.targets.find? TargetRec.inRunOut = some r := by
  cases hx : s.exch.targets.find? TargetRec.inRunOut with
  | none => exact absurd h.out (List.find?_eq_none.mp hx r h.mem)
  | some x => rw [h.only x (List.mem_of_find?_eq_some hx) (List.find?_some hx)]

theorem State.RunsOut.servedRec (h : s.RunsOut r ring next count) : s.servedRec = some r := by
  rw [← h.found, State.servedRec]
  exact congrArg (List.find? · s.exch.targets) (funext (State.isServed_runOut h.runOut))

theorem State.RunsOut.mapServed (h : s.RunsOut r ring next count) {f g : TargetRec → TargetRec} (hfg : f r = g r) :
    s.mapServed f = s.mapOnly r g := by
  simp only [State.mapServed, State.isServed_runOut h.runOut, State.mapOnly, targets_map_only (fun _ => h.out) h.only hfg]

/-- A slot of the ring that is run out moved to a state. -/
def TargetRec.withRingSlot (r : TargetRec) (ring : Ring) (b : Nat) (st : SlotState) : TargetRec :=
  { r with ring := some (ring.modify (b % ring.length) (fun y => { y with st := st })) }

theorem TargetRec.withSlot_ring (h : r.ring = some ring) (b : Nat) (st : SlotState) : r.withSlot b st = r.withRingSlot ring b st := by
  rw [TargetRec.withSlot, h]
  rfl

theorem State.RunsOut.begins (h : s.RunsOut r ring next count) : s.beginTransfer =
    (s.mapOnly r (fun x => { x.withRingSlot ring next (.filling next 0) with starvation := none })).withPort
      { s.port with transfer := some next, access := some ⟨0, none⟩, watchdog := some 0 } := by
  have hblock : s.transferBlock r = next := by rw [State.transferBlock, h.runOut]
  rw [State.beginTransfer_served h.servedRec, hblock, State.dataAccess_read h.read]
  refine congrArg (State.withPort · _) (h.mapServed ?_)
  rw [if_neg (by rw [h.read]; decide), TargetRec.withSlot_ring h.holds]

theorem State.RunsOut.mayBegin (h : s.RunsOut r ring next count) (hx : s.port.xfer = true) (ht : s.port.transfer = none)
    (ha : s.port.access = none) (hlt : next < count) : s.transferMayBegin = true :=
  s.transferMayBegin_iff.mpr ⟨hx, ht, ha, .inr ⟨next, count, r, h.runOut, hlt, h.found, by rw [h.holds]; exact nofun⟩⟩

theorem State.runOut_stays (hs : s.port.state = .serving (.runOut next count))
    (h : s.port.xfer = false ∨ s.port.transfer ≠ none ∨ s.port.access ≠ none ∨ count ≤ next) : s.transferMayBegin = false := by
  refine Bool.eq_false_iff.mpr fun hmay => ?_
  obtain ⟨hx, ht, ha, ⟨hdata, -⟩ | ⟨n, k, x, hrun, hlt, -⟩⟩ := s.transferMayBegin_iff.mp hmay
  · rw [hs] at hdata
    cases hdata
  · rw [hs] at hrun
    cases hrun
    rcases h with h | h | h | h
    · rw [hx] at h
      cases h
    · exact h ht
    · exact h ha
    · omega

theorem State.RunsOut.completes (h : s.RunsOut r ring next count) (ht : s.port.transfer = some b) (ha : s.port.access.isSome = true) :
    exec (.slotAccessComplete v) s = .next (s.dataWordDone r b v) := by
  rw [exec_slotAccessComplete ha, State.slotDone, h.runOut, h.servedRec, ht]

/-- The station with a word of the run-out stored and its slot moved to a state. -/
def State.storedWord (s : State) (r : TargetRec) (ring : Ring) (a : AreaNo) (b w : Nat) (v : Word) (st : SlotState) : State :=
  State.mapOnly { s with buf := { s.buf with ram := s.buf.ram.writeWord a w v } } r (fun x => x.withRingSlot ring b st)

theorem State.RunsOut.stores (h : s.RunsOut r ring next count) (hslot : ring[b % ring.length]? = some ⟨a, .filling b' w⟩) (hw : w + 1 < 256) :
    s.dataWordDone r b v = (s.storedWord r ring a b w v (.filling b (w + 1))).withPort
      { s.port with access := some ⟨0, none⟩, watchdog := some 0 } := by
  rw [State.dataWordDone_filling h.read h.holds hslot hw, (h.stored a w v).mapServed (g := fun x => x.withRingSlot ring b (.filling b (w + 1)))
    (TargetRec.withSlot_ring h.holds b _)]
  rfl

/-- The last word of a block of a run-out: its slot is EMPTY, and the mover looks at the next block. -/
theorem State.RunsOut.blockDone (h : s.RunsOut r ring next count) (hslot : ring[b % ring.length]? = some ⟨a, .filling b' 255⟩) :
    s.dataWordDone r b v = ((s.storedWord r ring a b 255 v .empty).withPort { s.port with
      state := .serving (.runOut (next + 1) count), transfer := none, access := none, watchdog := some 0 }).moverCheck := by
  have hslot' : (some ring).bind (fun g => g.slot b) = some ⟨a, .filling b' 255⟩ := hslot
  have hempty := (h.stored a 255 v).mapServed (f := fun x => { x with ring := x.ring.map (fun g => g.setState b .empty) })
    (g := fun x => x.withRingSlot ring b .empty) (TargetRec.withSlot_ring h.holds b .empty)
  rw [State.dataWordDone, h.holds, hslot']
  refine (if_neg (by decide)).trans ?_
  rw [h.runOut]
  dsimp only
  rw [State.runOutBlockDone, State.mapServedRing, hempty]
  rfl

/-- The run-out goes on with the record whose slot has changed. -/
theorem State.RunsOut.replaced {n : Nat} (h : s.RunsOut r ring next count) (b : Nat) (st : SlotState) {u : State}
    (hs : u.port.state = .serving (.runOut n count))
    (ht : u.exch.targets = s.exch.targets.map (fun x => if x = r then x.withRingSlot ring b st else x)) :
    ∃ ring', u.RunsOut (r.withRingSlot ring b st) ring' n count := by
  have hout : (r.withRingSlot ring b st).inRunOut = true := by
    obtain hdetached | ⟨hsettling, -⟩ := r.inRunOut_iff.mp h.out
    · exact (TargetRec.inRunOut_iff _).mpr (.inl hdetached)
    · exact (TargetRec.inRunOut_iff _).mpr (.inr ⟨hsettling, nofun⟩)
  refine ⟨_, hs, ?_, hout, fun x hx hxout => ?_, h.read, rfl⟩
  · rw [ht]
    exact List.mem_map.mpr ⟨r, h.mem, if_pos rfl⟩
  · rw [ht] at hx
    obtain ⟨y, hy, rfl⟩ := List.mem_map.mp hx
    by_cases hyr : y = r
    · rw [if_pos hyr, hyr]
    · rw [if_neg hyr] at hxout
      exact absurd (h.only y hy hxout) hyr

end

/-- Settles O53: when a transfer may begin, and each word of one, in the data phase and in a run-out. -/
theorem blockTransfers : Obligations.BlockTransfers := by
  refine ⟨fun s => ⟨?_, exec_blockTransferBegin_stays⟩,
    fun s => ⟨fun h => exec_blockTransferBegin_stays (State.transferMayBegin_false h), fun r ring hs hact hring hu => ?_⟩,
    fun s r ring a b v hs hact hu hring ht ha => ?_,
    fun s r ring next count hs hmem hstate ho hring hu => ?_⟩
  · rw [s.transferMayBegin_iff]
    refine and_congr_right fun _ => and_congr_right fun _ => and_congr_right fun _ => or_congr_left ⟨?_, ?_⟩
    · rintro ⟨hs, r, hact, hready⟩
      obtain ⟨ring, slot, hring, hslot⟩ := r.slotReady_iff.mp hready
      exact ⟨r, ring, slot, hs, hact, hring, hslot⟩
    · rintro ⟨r, ring, slot, hs, hact, hring, hslot⟩
      exact ⟨hs, r, hact, r.slotReady_iff.mpr ⟨ring, slot, hring, hslot⟩⟩
  · have h : s.DataPhase r ring := ⟨hs, hact, hu, hring⟩
    refine ⟨fun a ho hx ht ha hcount hbase hslot => ?_, fun a ho hx ht ha hcount hslot => ?_,
      fun ho hnot => h.stays (TargetRec.not_ready_read ho hring hnot),
      fun ho hnot => h.stays (TargetRec.not_ready_write ho hring hnot), fun a b w v ho ht ha hw hslot => ?_, fun a b w v ho ht ha hw hslot => ?_,
      fun a b v c ho ht ha hslot hf hlast => ?_⟩
    · have hready := r.slotReady_iff.mpr ⟨ring, _, hring, .inl ⟨ho, hcount, hbase, hslot, rfl⟩⟩
      exact (exec_blockTransferBegin_begins (h.mayBegin hx ht ha hready)).trans (congrArg Host.Outcome.next (h.begins_read ho))
    · have hready := r.slotReady_iff.mpr ⟨ring, _, hring, .inr ⟨ho, hcount, hslot, rfl⟩⟩
      exact (exec_blockTransferBegin_begins (h.mayBegin hx ht ha hready)).trans (congrArg Host.Outcome.next (h.begins_write ho hslot))
    · rw [h.completes ht ha, State.dataWordDone_filling ho hring hslot hw, (h.stored a w v).mapServed rfl]
      rfl
    · rw [h.completes ht ha, State.dataWordDone_draining ho hring hslot hw, h.mapServed rfl]
      rfl
    · have hdone := (h.stored a 255 v).blockDone_read ho hf b
      rw [State.afterBlock_last _ hlast] at hdone
      refine (h.completes ht ha).trans (congrArg Host.Outcome.next (((State.dataWordDone_filled hs hring hslot).trans hdone).trans ?_))
      refine (State.withPort_withPort _ _ _).trans (congrArg (State.withPort · _) ?_)
      exact (h.stored a 255 v).mapActive_congr rfl
  · have h : s.DataPhase r ring := ⟨hs, hact, hu, hring⟩
    refine ⟨fun c ho hf hslot hmore => ?_, fun c i ho hf hid hslot => ⟨fun hmore => ?_, fun hlast => ?_⟩⟩
    · have hdone := (h.stored a 255 v).blockDone_read ho hf b
      rw [State.afterBlock_more _ hmore] at hdone
      exact State.moverCheck_goesOn rfl hs ((h.completes ht ha).trans (congrArg Host.Outcome.next
        ((State.dataWordDone_filled hs hring hslot).trans hdone)))
    · have hdone := h.blockDone_write ho hf hid b
      rw [State.afterBlock_more _ hmore] at hdone
      exact State.moverCheck_goesOn (State.offerTarget_port _ _ _ _) hs ((h.completes ht ha).trans (congrArg Host.Outcome.next
        ((State.dataWordDone_drained hring hslot).trans hdone)))
    · have hdone := h.blockDone_write ho hf hid b
      rw [State.afterBlock_last _ hlast] at hdone
      exact (h.completes ht ha).trans (congrArg Host.Outcome.next ((State.dataWordDone_drained hring hslot).trans hdone))
  · have hout (x : TargetRec) : x.inRunOut = true → x.state = .detached ∨ ((∃ b k, x.state = .settling b k) ∧ x.ring ≠ none) :=
      x.inRunOut_iff.mp
    have h : s.RunsOut r ring next count := ⟨hs, hmem,
      r.inRunOut_iff.mpr (hstate.imp_right fun hsettling => ⟨hsettling, by rw [hring]; exact nofun⟩), fun x hx hxout => hu x hx (hout x hxout),
      ho, hring⟩
    refine ⟨fun hx ht ha hlt => ?_, fun hnot => exec_blockTransferBegin_stays (State.runOut_stays hs hnot),
      fun a b w v ht ha hslot => ⟨fun hw => ?_, fun hw => ?_⟩⟩
    · exact (exec_blockTransferBegin_begins (h.mayBegin hx ht ha hlt)).trans (congrArg Host.Outcome.next h.begins)
    · exact (h.completes ht ha).trans (congrArg Host.Outcome.next (h.stores hslot hw))
    · subst hw
      have hdone := (h.completes ht ha).trans (congrArg Host.Outcome.next (h.blockDone (v := v) hslot))
      refine ⟨fun hx hlt => ?_, fun hnot => ?_⟩
      · obtain ⟨ring', hnext⟩ := h.replaced b .empty (n := next + 1)
          (u := (s.storedWord r ring a b 255 v .empty).withPort { s.port with
            state := .serving (.runOut (next + 1) count), transfer := none, access := none, watchdog := some 0 }) rfl rfl
        exact hdone.trans (State.moverCheck_begins (hnext.mayBegin hx rfl rfl hlt))
      · refine hdone.trans (congrArg Host.Outcome.next (State.moverCheck_stays (State.runOut_stays rfl ?_) nofun))
        exact hnot.imp_right fun hle => .inr (.inr hle)

end Sys2Proof.Machine
end

