-- ==== Sys2Proof/Proofs/JoinAndLeave.lean ====
section
/-! SUPPORT. JOIN_LINK and LEAVE_LINK (O20): the commands in every link state, and what an entry to LEAVING makes of the records, the
channels and the port. -/

namespace Sys2Proof.Machine

section
variable {s : State} {c : Cfg}

theorem State.configured_config (h : s.configured = true) : ∃ c, s.host.config = some c := by
  obtain ⟨hc, -⟩ := Bool.and_eq_true_iff.mp h
  exact Option.isSome_iff_exists.mp hc

/-! ### The commands by the link state (R134, R189) -/

theorem exec_joinLink (h : s.configured = true) : exec .joinLink s = .next s.joinLink :=
  congrArg Host.Outcome.next (State.hosted_configured h _)

theorem exec_leaveLink (h : s.configured = true) : exec .leaveLink s = .next s.leaveLink :=
  congrArg Host.Outcome.next (State.hosted_configured h _)

theorem State.joinLink_elsewhere (h : s.member.link ≠ .offline) : s.joinLink = s.setCommandStatus .wrongState := by
  unfold State.joinLink
  split
  · next hl => exact absurd hl h
  · rfl

theorem State.leaveLink_hearing (h : s.member.link = .listening ∨ s.member.link = .joining) :
    s.leaveLink = State.setCommandStatus { s with member := s.member.offline } .taken := by
  unfold State.leaveLink
  rcases h with h | h <;> rw [h]

theorem State.leaveLink_refused (h : s.member.link = .offline ∨ s.member.link = .founding ∨ s.member.link = .leaving) :
    s.leaveLink = s.setCommandStatus .wrongState := by
  unfold State.leaveLink
  rcases h with h | h | h <;> rw [h]

theorem State.leaveLink_ofMember (h : s.member.link = .member) : s.leaveLink =
    if s.host.outcomes.length + s.exch.inits.length ≤ 16 then s.enterLeaving.setCommandStatus .taken
    else s.setCommandStatus .outcomeFull := by
  rw [State.leaveLink, h]
  rfl

/-! ### The port at an entry to LEAVING (R121, R132) -/

/-- The port IDLE, its work ended. -/
def Port.idled (p : Port) : Port := { p with state := .idle, access := none, transfer := none, attention := none, watchdog := none }

/-- The port at the first step of a script (R130). -/
def Port.begun (p : Port) (script : List ScriptStep) : Port := { p with
  state := .maintaining 0, result := .running, watchdog := some 0, access := some (stepAccess script 0) }

/-- The port as the arbiter leaves it where no target record stands: a posted script begins in IDLE. -/
def Port.granted (p : Port) : Port :=
  match p.script with
  | some script => if p.state = .idle ∧ p.result = .posted then p.begun script else p
  | none => p

/-- The port beyond priming, at the work of a record. -/
def Port.atWork (p : Port) : Prop := ∃ x, p.state = .serving x ∧ x ≠ .priming

/-- The port after an entry to LEAVING. -/
def Port.left (p : Port) : Port :=
  match p.state with
  | .serving .priming => p.idled.granted
  | .serving _ => p.resetting
  | _ => p.granted

variable {p : Port}

theorem Port.granted_begun {script : List ScriptStep} (hs : p.state = .idle) (hres : p.result = .posted) (hscript : p.script = some script) :
    p.granted = p.begun script := by
  rw [Port.granted, hscript]
  exact if_pos ⟨hs, hres⟩

theorem Port.granted_stays (h : p.state ≠ .idle ∨ p.result ≠ .posted) : p.granted = p := by
  unfold Port.granted
  split
  · exact if_neg fun ⟨hs, hres⟩ => h.elim (· hs) (· hres)
  · rfl

theorem Port.idled_granted_state (p : Port) (x : Serving) : p.idled.granted.state ≠ .serving x := by
  unfold Port.granted
  split
  · split <;> exact nofun
  · exact nofun

theorem Port.granted_script (p : Port) : p.granted.script = p.script := by
  unfold Port.granted
  split
  · split <;> rfl
  · rfl

theorem Port.left_priming (h : p.state = .serving .priming) : p.left = p.idled.granted := by
  rw [Port.left, h]

theorem Serving.priming_of {q : PortState} {x : Serving} (h : q = .serving x) (hp : q = .serving .priming) : x = .priming :=
  PortState.serving.inj (h.symm.trans hp)

theorem Port.left_atWork (h : p.atWork) : p.left = p.resetting := by
  obtain ⟨x, hs, hx⟩ := h
  unfold Port.left
  split
  · next hp => exact absurd (Serving.priming_of hs hp) hx
  · rfl
  · next hp => exact absurd hs (hp x)

theorem Port.left_elsewhere (h : ∀ x, p.state ≠ .serving x) : p.left = p.granted := by
  unfold Port.left
  split
  · next hs => exact absurd hs (h _)
  · next hs => exact absurd hs (h _)
  · rfl

theorem Port.idle_not_serving (h : p.state = .idle) (x : Serving) : p.state ≠ .serving x := by
  rw [h]
  exact nofun

/-- The three ways the port stands at an entry to LEAVING. -/
theorem Port.phases (p : Port) : p.state = .serving .priming ∨ p.atWork ∨ ∀ x, p.state ≠ .serving x := by
  unfold Port.atWork
  cases hs : p.state with
  | serving x =>
    by_cases hx : x = .priming
    · exact .inl (by rw [hx])
    · exact .inr (.inl ⟨x, rfl, hx⟩)
  | _ => exact .inr (.inr fun x hx => nomatch hx)

theorem Port.left_script (p : Port) : p.left.script = p.script := by
  rcases p.phases with h | h | h
  · rw [Port.left_priming h, Port.granted_script]
    rfl
  · rw [Port.left_atWork h]
    rfl
  · rw [Port.left_elsewhere h, Port.granted_script]

/-- The port changes, or stays as it is. -/
def State.setPort (s : State) (p : Port) : State := if p = s.port then s else s.withPort p

theorem State.setPort_eq (s : State) (p : Port) : s.setPort p = { s with port := p, member := (s.setPort p).member } := by
  unfold State.setPort
  by_cases h : p = s.port
  · rw [if_pos h, h]
  · rw [if_neg h]
    rfl

theorem State.setPort_withPort (s : State) (p q : Port) : (s.withPort p).setPort q = s.withPort q := by
  by_cases h : q = p
  · exact (if_pos h).trans (by rw [h])
  · exact (if_neg h).trans (State.withPort_withPort s p q)

/-- With no target record the arbiter looks at the scripts alone (R121). -/
theorem State.grant_noTargets (h : s.exch.targets = []) : s.grant = s.setPort s.port.granted := by
  have hstays (hport : s.port.granted = s.port) : s.setPort s.port.granted = s := if_pos hport
  have hqueue : ∀ r ∈ s.exch.targets, r.state ≠ .queued := by rw [h]; exact List.forall_mem_nil _
  by_cases hs : s.port.state = .idle
  · by_cases hres : s.port.result = .posted
    · cases hscript : s.port.script with
      | none =>
        rw [hstays (by rw [Port.granted, hscript]), State.grant, if_pos hs, if_pos hres, hscript]
      | some script =>
        rw [State.grant_script hs hres hscript, Port.granted_begun hs hres hscript]
        refine (if_neg fun hport => ?_).symm
        have hstate : PortState.maintaining 0 = .idle := (congrArg Port.state hport).trans hs
        cases hstate
    · rw [State.grant_nothing hres hqueue, hstays (Port.granted_stays (.inr hres))]
  · rw [State.grant_notIdle hs, hstays (Port.granted_stays (.inl hs))]

theorem State.portLeaves_priming (h : s.port.state = .serving .priming) : s.portLeaves = s.withPort s.port.idled := by
  rw [State.portLeaves, h]
  rfl

theorem State.portLeaves_atWork (h : s.port.atWork) : s.portLeaves = s.enterResetting := by
  obtain ⟨x, hs, hx⟩ := h
  unfold State.portLeaves
  split
  · next hp => exact absurd (Serving.priming_of hs hp) hx
  · rfl
  · next hp => exact absurd hs (hp x)

theorem State.portLeaves_elsewhere (h : ∀ x, s.port.state ≠ .serving x) : s.portLeaves = s := by
  unfold State.portLeaves
  split
  · next hs => exact absurd hs (h _)
  · next hs => exact absurd hs (h _)
  · rfl

/-- With no target record the port ends its work, and the arbiter decides. -/
theorem State.portLeaves_grant (h : s.exch.targets = []) :
    (s.port.atWork → s.portLeaves.grant = { s.setPort s.port.left with host := { s.host with flags := s.host.flags ||| 16 } }) ∧
    (¬ s.port.atWork → s.portLeaves.grant = s.setPort s.port.left) := by
  refine ⟨fun hw => ?_, fun hw => ?_⟩
  · have hchanges : s.setPort s.port.resetting = s.withPort s.port.resetting := by
      obtain ⟨x, hs, -⟩ := hw
      refine if_neg fun hport => ?_
      have hstate : PortState.resetting true = .serving x := (congrArg Port.state hport).trans hs
      cases hstate
    rw [State.portLeaves_atWork hw, State.grant_notIdle (s := s.enterResetting) nofun, Port.left_atWork hw, hchanges,
      State.enterResetting_unserved (by rw [h]; exact List.forall_mem_nil _)]
  · rcases s.port.phases with hs | hs | hs
    · rw [State.portLeaves_priming hs, State.grant_noTargets (s := s.withPort s.port.idled) h, Port.left_priming hs]
      have hchanges : s.setPort s.port.idled.granted = s.withPort s.port.idled.granted :=
        if_neg fun hport => s.port.idled_granted_state .priming ((congrArg Port.state hport).trans hs)
      rw [hchanges]
      exact State.setPort_withPort s s.port.idled _
    · exact absurd hs hw
    · rw [State.portLeaves_elsewhere hs, State.grant_noTargets h, Port.left_elsewhere hs]

/-! ### The entry to LEAVING (R78, R108, R189) -/

/-- The station in LEAVING: no record, no item, and every area free. -/
def State.emptied (s : State) (c : Cfg) : State := { s with
  member := { s.member with link := .leaving }
  sched := { s.sched with items := [], loopItems := [] }
  exch := { s.exch with inits := [], delivering := [], targets := [] }
  buf := { s.buf with initFree := initPool c, servFree := servPool c } }

theorem State.emptied_portLeaves (s : State) (c : Cfg) : s.portLeaves.emptied c = (s.emptied c).portLeaves := by
  rcases s.port.phases with h | h | h
  · rw [State.portLeaves_priming h, State.portLeaves_priming (s := s.emptied c) h]
    rfl
  · rw [State.portLeaves_atWork h, State.portLeaves_atWork (s := s.emptied c) h]
    rfl
  · rw [State.portLeaves_elsewhere h, State.portLeaves_elsewhere (s := s.emptied c) h]

theorem State.enterLeaving_eq (hc : s.host.config = some c) : s.enterLeaving = ((s.withdrawAll.emptied c).portLeaves).grant := by
  have hconfig : s.withdrawAll.portLeaves.host.config = some c := by
    have hkept : s.withdrawAll.host.config = s.host.config := congrArg (fun e : EndSide => e.side.config) s.withdrawAll_endSide
    have hleaves : s.withdrawAll.portLeaves.host.config = s.withdrawAll.host.config := by
      unfold State.portLeaves
      split <;> rfl
    exact (hleaves.trans hkept).trans hc
  rw [← State.emptied_portLeaves, State.enterLeaving, State.fullPools, hconfig]
  rfl

/-- The station in LEAVING beside the port: what the endings of the records have left. -/
def State.withdrawn (s : State) (c : Cfg) : State := { s.emptied c with
  host := { s.host with outcomes := s.withdrawAll.host.outcomes, flags := s.withdrawAll.host.flags }
  chanA := s.withdrawAll.chanA
  chanB := s.withdrawAll.chanB }

theorem State.withdrawAll_emptied (s : State) (c : Cfg) : s.withdrawAll.emptied c = s.withdrawn c :=
  congrArg (State.emptied · c) (State.eq_of_endSide s.withdrawAll_endSide)

/-- The station after LEAVE_LINK in MEMBER, with the flags given (R189). -/
def State.leftMember (s : State) (c : Cfg) (flags : BitVec 8) : State := { s.withdrawn c with
  host := { (s.withdrawn c).host with flags := flags, commandStatus := .taken }
  member := { (s.setPort s.port.left).member with link := .leaving }
  port := s.port.left }

theorem State.withdrawn_setPort (s : State) (c : Cfg) (p : Port) : (s.withdrawn c).setPort p =
    { s.withdrawn c with port := p, member := { (s.setPort p).member with link := .leaving } } := by
  unfold State.setPort
  by_cases h : p = s.port
  · rw [if_pos h, if_pos (show p = (s.withdrawn c).port from h), h]
    rfl
  · rw [if_neg h, if_neg (show ¬ p = (s.withdrawn c).port from h)]
    rfl

/-- Flags are set only, and MODULE where the work of a record is cut (R128, R180). -/
structure State.LeavingFlags (s : State) (flags : BitVec 8) : Prop where
  only : s.withdrawAll.host.flags ||| flags = flags
  cut : s.port.atWork → 16 ||| flags = flags
  stand : ¬ s.port.atWork → flags = s.withdrawAll.host.flags

theorem State.leaveLink_leaves (hl : s.member.link = .member) (hc : s.host.config = some c)
    (hroom : s.host.outcomes.length + s.exch.inits.length ≤ 16) : ∃ flags, s.leaveLink = s.leftMember c flags ∧ s.LeavingFlags flags := by
  obtain ⟨hcut, hstands⟩ := State.portLeaves_grant (s := s.withdrawn c) rfl
  have henters := State.enterLeaving_eq hc
  rw [State.withdrawAll_emptied] at henters
  rw [State.leaveLink_ofMember hl, if_pos hroom, henters]
  by_cases hw : s.port.atWork
  · refine ⟨s.withdrawAll.host.flags ||| 16, ?_, ?_, fun _ => ?_, fun h => absurd hw h⟩
    · rw [hcut hw, State.withdrawn_setPort]
      rfl
    · rw [← BitVec.or_assoc, BitVec.or_self]
    · rw [BitVec.or_comm, BitVec.or_assoc, BitVec.or_self]
  · refine ⟨s.withdrawAll.host.flags, ?_, BitVec.or_self, fun h => absurd h hw, fun _ => rfl⟩
    rw [hstands hw, State.withdrawn_setPort]
    rfl

theorem State.leftMember_chan (s : State) (c : Cfg) (flags : BitVec 8) (ch : Channel) :
    (s.leftMember c flags).chan ch = s.withdrawAll.chan ch := by
  cases ch <;> rfl

/-- With no record and the port at rest, LEAVING ends the items and frees the areas, and nothing else changes. -/
theorem State.leftMember_unused {flags : BitVec 8} (hflags : s.LeavingFlags flags) (hinits : s.exch.inits = []) (htargets : s.exch.targets = [])
    (hdelivering : s.exch.delivering = []) (hp : s.port.state = .idle) (hres : s.port.result ≠ .posted) : s.leftMember c flags = { s with
      host := { s.host with commandStatus := .taken }
      member := { s.member with link := .leaving }
      sched := { s.sched with items := [], loopItems := [] }
      buf := { s.buf with initFree := initPool c, servFree := servPool c } } := by
  have hport : s.port.left = s.port := (Port.left_elsewhere (Port.idle_not_serving hp)).trans (Port.granted_stays (.inr hres))
  have hset : s.setPort s.port = s := if_pos rfl
  have hexch : { s.exch with inits := [], delivering := [], targets := [] } = s.exch := by rw [← hinits, ← htargets, ← hdelivering]
  have hkept : flags = s.host.flags := by
    rw [hflags.stand fun ⟨x, hx, _⟩ => Port.idle_not_serving hp x hx, State.withdrawAll_nil s hinits]
  rw [State.leftMember, State.withdrawn, State.emptied, State.withdrawAll_nil s hinits, hport, hset, hexch, hkept]

/-! ### The records and the channels (R97, R108, R175) -/

/-- The outcome record of a withdrawn exchange (R97). -/
theorem InitRec.withdrawn_outcomeRec (r : InitRec) : r.outcomeRec (r.localOutcome .withdrawn) = ⟨r.label, r.op, r.peer, match r.op with
    | .read => ⟨.withdrawn, r.moved, true, none⟩
    | .sync => ⟨.withdrawn, 0, true, none⟩
    | .write => ⟨.withdrawn, if r.asking then 0 else r.flow.base, r.asking, none⟩⟩ := by
  unfold InitRec.outcomeRec InitRec.localOutcome
  cases r.op with
  | write => cases r.asking <;> rfl
  | _ => rfl

/-- The withdrawals with room for every outcome: flags are set only, OUTCOME where a record was live, and each channel with records is
held with the departure of the last of them. -/
theorem State.withdrawAll_channels (hn : (s.exch.inits.map InitRec.tag).Nodup)
    (hroom : s.host.outcomes.length + (s.exch.inits.filter InitRec.live).length ≤ 16) :
    ((∃ r ∈ s.exch.inits, r.live = true) → (1 : BitVec 8) ||| s.withdrawAll.host.flags = s.withdrawAll.host.flags) ∧
    ∀ ch, s.withdrawAll.chan ch = (match (s.channelQueue ch).getLast? with
        | some r => { s.chan ch with held := true, departure := .aborted, lastLabel := r.label }
        | none => s.chan ch) ∧
      (s.channelQueue ch ≠ [] → (chanFlag ch).mask ||| s.withdrawAll.host.flags = s.withdrawAll.host.flags) := by
  obtain ⟨-, houtcome, hchannels⟩ := withdraw_channels s.exch.inits s [] _ RingOrWanted.id (List.map_id' _).symm hn
    (List.forall_mem_nil _) hroom
  exact ⟨houtcome, hchannels⟩

theorem State.withdrawAll_served (hn : (s.exch.inits.map InitRec.tag).Nodup)
    (hroom : s.host.outcomes.length + (s.exch.inits.filter InitRec.live).length ≤ 16) (ch : Channel) :
    (s.channelQueue ch = [] → s.withdrawAll.chan ch = s.chan ch) ∧ ∀ pre r, s.channelQueue ch = pre ++ [r] →
      s.withdrawAll.chan ch = { s.chan ch with held := true, departure := .aborted, lastLabel := r.label } ∧
      (chanFlag ch).mask ||| s.withdrawAll.host.flags = s.withdrawAll.host.flags := by
  obtain ⟨-, hchannels⟩ := State.withdrawAll_channels hn hroom
  obtain ⟨hchan, hflag⟩ := hchannels ch
  refine ⟨fun hq => ?_, fun pre r hq => ⟨?_, hflag (by rw [hq]; simp)⟩⟩
  · rw [hchan, hq]
    rfl
  · rw [hchan, hq, List.getLast?_append]
    rfl

end

/-- Settles O20: the commands by the link state, and the entry to LEAVING by `State.leftMember`. -/
theorem joinAndLeaveCommands : Obligations.JoinAndLeaveCommands := by
  refine ⟨fun s hs => ⟨fun hl => ?_, fun hl => ?_⟩, fun s hs => ⟨fun hl => ?_, fun hl => ?_, fun hl hfull => ?_⟩,
    fun s c hs hc hl hroom => ?_, fun s hs hl hroom hlim => ?_, fun s hs hl hroom => ?_⟩
  · rw [exec_joinLink hs, State.joinLink, hl]
  · rw [exec_joinLink hs, State.joinLink_elsewhere hl]
    rfl
  · rw [exec_leaveLink hs, State.leaveLink_hearing hl]
    rfl
  · rw [exec_leaveLink hs, State.leaveLink_refused hl]
    rfl
  · rw [exec_leaveLink hs, State.leaveLink_ofMember hl, if_neg (Nat.not_le.mpr hfull)]
    rfl
  · obtain ⟨flags, hleaves, hflags⟩ := State.leaveLink_leaves hl hc hroom
    refine ⟨_, (exec_leaveLink hs).trans (congrArg Host.Outcome.next hleaves), rfl, rfl, rfl, rfl, rfl, rfl, rfl, rfl, rfl, rfl, rfl, rfl, rfl,
      s.port.left_script, rfl, fun hinits htargets hdelivering hp hres => ?_, fun hw => ?_, fun hp hres => ?_⟩
    · exact State.leftMember_unused hflags hinits htargets hdelivering hp hres
    · exact ⟨congrArg Port.state (Port.left_atWork hw), State.flagSet_of_or (hflags.cut hw)⟩
    · exact congrArg Port.state ((Port.left_priming hp).trans (Port.granted_stays (.inr hres)))
  · obtain ⟨c, hc⟩ := State.configured_config hs
    obtain ⟨flags, hleaves, hflags⟩ := State.leaveLink_leaves hl hc hroom
    have hlive : s.host.outcomes.length + (s.exch.inits.filter InitRec.live).length ≤ 16 :=
      Nat.le_trans (Nat.add_le_add_left (List.length_filter_le _ _) _) hroom
    obtain ⟨-, hn, -⟩ := hlim
    obtain ⟨houtcome, -⟩ := State.withdrawAll_channels hn hlive
    refine ⟨_, (exec_leaveLink hs).trans (congrArg Host.Outcome.next hleaves), ?_, fun hany => ?_, fun ch => ?_⟩
    · exact (State.withdrawAll_outcomes s hn hlive).trans
        (congrArg (s.host.outcomes ++ ·) (List.map_congr_left fun r _ => r.withdrawn_outcomeRec))
    · exact State.flagSet_of_or (flags_trans (houtcome hany) hflags.only)
    · obtain ⟨hnone, hlast⟩ := State.withdrawAll_served hn hlive ch
      rw [State.leftMember_chan]
      refine ⟨hnone, fun pre r hq => ?_⟩
      obtain ⟨hchan, hflag⟩ := hlast pre r hq
      exact ⟨hchan, State.flagSet_of_or (flags_trans hflag hflags.only)⟩
  · obtain ⟨c, hc⟩ := State.configured_config hs
    obtain ⟨flags, hleaves, hflags⟩ := State.leaveLink_leaves hl hc hroom
    refine ⟨_, (exec_leaveLink hs).trans (congrArg Host.Outcome.next hleaves), rfl, rfl, rfl, rfl, rfl, rfl, rfl, rfl,
      fun hserving hstands => ?_, fun script hp hres hscript => ?_, fun hp => ⟨fun hres => ?_, fun script hres hscript => ?_⟩,
      fun x hp hx => ?_⟩
    · exact (Port.left_elsewhere hserving).trans (Port.granted_stays hstands)
    · exact (Port.left_elsewhere (Port.idle_not_serving hp)).trans (Port.granted_begun hp hres hscript)
    · exact (Port.left_priming hp).trans (Port.granted_stays (.inr hres))
    · exact (Port.left_priming hp).trans (Port.granted_begun rfl hres hscript)
    · exact ⟨Port.left_atWork ⟨x, hp, hx⟩, State.flagSet_of_or (hflags.cut ⟨x, hp, hx⟩)⟩

end Sys2Proof.Machine
end

