-- ==== Sys2Proof/Proofs/SenderCredits.lean ====
section
/-! SUPPORT. The sender counters at a CREDIT (O32): what R88 and R89 make of them, by where the next-expected of the CREDIT lies. -/

namespace Sys2Proof.Machine

section
variable {c : SendCounters} {count ne limit : Nat}

/-- The counters behind steps 1 to 3 of R88, which every CREDIT takes. -/
def SendCounters.heard (c : SendCounters) (count limit : Nat) : SendCounters :=
  { c with stall := 0, limit := max c.limit (min limit count) }

/-- A CREDIT that acknowledges nothing new, with no gap: old, or a repeat with no block on its way. -/
theorem SendCounters.credit_keeps (h : min ne count ≤ c.base) (hgap : min ne count < c.base ∨ c.next = c.base) :
    c.credit count ne limit = (c.heard count limit, false) := by
  have hnext : ¬ (c.base ≤ min ne count ∧ min ne count < c.next) := by omega
  simp only [SendCounters.credit, SendCounters.heard, if_neg (Nat.not_lt.mpr h), if_neg hnext]

/-- A repeat of base with blocks on their way is a gap (R89). -/
theorem SendCounters.credit_rewinds (h : min ne count = c.base) (hnext : c.base < c.next) (hw : c.rewinds < 7) :
    c.credit count ne limit = ({ c.heard count limit with next := c.base, rewinds := c.rewinds + 1 }, false) := by
  have hleft : c.rewinds + 1 < Limit.rewinds := Nat.succ_lt_succ hw
  simp only [SendCounters.credit, SendCounters.heard, h, lt_irrefl, if_false, le_refl, hnext, and_self, if_true, hleft]

/-- The eighth rewind in a row is not carried out (R91, R92). -/
theorem SendCounters.credit_ends (h : min ne count = c.base) (hnext : c.base < c.next) (hw : 7 ≤ c.rewinds) :
    c.credit count ne limit = ({ c.heard count limit with rewinds := 8 }, true) := by
  have hnone : ¬ c.rewinds + 1 < Limit.rewinds := Nat.not_lt.mpr (Nat.succ_le_succ hw)
  simp only [SendCounters.credit, SendCounters.heard, h, lt_irrefl, if_false, le_refl, hnext, and_self, if_true, hnone]
  rfl

/-- An advance that falls short of next-to-send is a gap, the first in a row (R88, R89). -/
theorem SendCounters.credit_advances_short (h : c.base < min ne count) (hnext : min ne count < c.next) :
    c.credit count ne limit =
      ({ c.heard count limit with base := min ne count, next := min ne count, rewinds := 1 }, false) := by
  have hgap : min ne count < max c.next (min ne count) := lt_max_of_lt_left hnext
  have hfirst : 0 + 1 < Limit.rewinds := by decide
  simp only [SendCounters.credit, SendCounters.heard, if_pos h, if_pos (And.intro h.le hgap), if_pos hfirst]

/-- An advance that covers every block sent leaves no gap (R88). -/
theorem SendCounters.credit_advances_whole (h : c.base < min ne count) (hnext : c.next ≤ min ne count) :
    c.credit count ne limit =
      ({ c.heard count limit with base := min ne count, next := min ne count, rewinds := 0 }, false) := by
  simp only [SendCounters.credit, SendCounters.heard, if_pos h, Nat.max_eq_right hnext, lt_irrefl, and_false, if_false]

/-- Base does not fall, and next-to-send stays between base and the block count. -/
theorem SendCounters.credit_bounds (hbase : c.base ≤ c.next) (hnext : c.next ≤ count) :
    c.base ≤ (c.credit count ne limit).1.base ∧ (c.credit count ne limit).1.base ≤ (c.credit count ne limit).1.next ∧
      (c.credit count ne limit).1.next ≤ count := by
  have hle : min ne count ≤ count := Nat.min_le_right _ _
  rcases Nat.lt_trichotomy (min ne count) c.base with h | h | h
  · rw [SendCounters.credit_keeps h.le (.inl h)]
    exact ⟨le_rfl, hbase, hnext⟩
  · rcases hbase.eq_or_lt with hsent | hsent
    · rw [SendCounters.credit_keeps h.le (.inr hsent.symm)]
      exact ⟨le_rfl, hbase, hnext⟩
    · rcases Nat.lt_or_ge c.rewinds 7 with hw | hw
      · rw [SendCounters.credit_rewinds h hsent hw]
        exact ⟨le_rfl, le_rfl, hbase.trans hnext⟩
      · rw [SendCounters.credit_ends h hsent hw]
        exact ⟨le_rfl, hbase, hnext⟩
  · rcases Nat.lt_or_ge (min ne count) c.next with hshort | hwhole
    · rw [SendCounters.credit_advances_short h hshort]
      exact ⟨h.le, le_rfl, hle⟩
    · rw [SendCounters.credit_advances_whole h hwhole]
      exact ⟨h.le, le_rfl, hle⟩

/-- Stall turns and the limit do not depend on the gap test (R88). -/
theorem SendCounters.credit_heard : (c.credit count ne limit).1.stall = 0 ∧
    (c.credit count ne limit).1.limit = max c.limit (min limit count) := by
  unfold SendCounters.credit
  by_cases h : c.base < min ne count
  · simp only [if_pos h]
    split_ifs <;> exact ⟨rfl, rfl⟩
  · simp only [if_neg h]
    split_ifs <;> exact ⟨rfl, rfl⟩

end

/-- Settles O32: the place of next-expected against base and next-to-send decides between keeping, rewinding and advancing. -/
theorem creditAtTheSender : Obligations.CreditAtTheSender := by
  intro c count nextExpected limit hbase hnext hlimit _ ne
  have hbounds := SendCounters.credit_bounds (ne := nextExpected) (limit := limit) hbase hnext
  have hheard := SendCounters.credit_heard (c := c) (count := count) (ne := nextExpected) (limit := limit)
  rcases hcredit : c.credit count nextExpected limit with ⟨d, ends⟩
  rw [hcredit] at hbounds hheard
  obtain ⟨hrise, hsent, hcount⟩ := hbounds
  obtain ⟨hstall, hraised⟩ : d.stall = 0 ∧ d.limit = max c.limit (min limit count) := hheard
  have hlim : max c.limit (min limit count) ≤ count := Nat.max_le.mpr ⟨hlimit, Nat.min_le_right _ _⟩
  have hpair {e : SendCounters} {b : Bool} (h : c.credit count nextExpected limit = (e, b)) : d = e ∧ ends = b :=
    Prod.mk.inj (hcredit.symm.trans h)
  refine ⟨hrise, hsent, hcount, hstall, hraised, hraised.trans_le hlim, fun hold => ?_, fun hsame hidle => ?_, fun hsame hmore hw => ?_,
    fun hsame hmore hw => ?_, fun hnew hshort => ?_, fun hnew hwhole => ?_⟩ <;> rw [hraised]
  · exact hpair (SendCounters.credit_keeps hold.le (.inl hold))
  · exact hpair (SendCounters.credit_keeps hsame.le (.inr hidle))
  · rw [hsame]
    exact hpair (SendCounters.credit_rewinds hsame hmore hw)
  · exact hpair (SendCounters.credit_ends hsame hmore hw.ge)
  · exact hpair (SendCounters.credit_advances_short hnew hshort)
  · exact hpair (SendCounters.credit_advances_whole hnew hwhole)

end Sys2Proof.Machine
end

