-- ==== Sys2Proof/Proofs/Rewinds.lean ====
section
/-! SUPPORT. The rows of the stall watch (O29): the rewind put back in place of the record, and what the eighth rewind ends. -/

namespace Sys2Proof.Machine

/-! ### The rewind (R90) -/

theorem State.initStallWatch_puts {s : State} {r : InitRec} {c d : SendCounters} (hf : r.flow = .sender c) (hruns : s.initStallRuns r = true)
    (hd : c.stallTurn = (d, false)) : s.initStallWatch r = s.setInit (r.counted d) := by
  simp only [State.initStallWatch, hf, hd]
  exact if_pos hruns

theorem State.targetStallWatch_puts {s : State} {r : TargetRec} {i : ExchId} {c d : SendCounters} (hid : r.id = some i)
    (hf : r.flow = .sender c) (hruns : s.targetStallRuns r = true) (hd : c.stallTurn = (d, false)) :
    s.targetStallWatch r = s.mapTarget i.peer i.tag (fun _ => r.counted d) := by
  simp only [State.targetStallWatch, TargetRec.counted, hf, hid, hd]
  exact if_pos hruns

/-! ### The eighth rewind of a WRITE (R91) -/

theorem InitRec.counted_linkFault {r : InitRec} {d : SendCounters} (ho : r.op = .write) (hs : r.state = .waiting ∨ r.state = .moving) :
    (r.counted d).localOutcome .linkFault = ⟨.linkFault, d.base, false, none⟩ := by
  have hask : (r.counted d).asking = false := by
    unfold InitRec.asking
    rcases hs with hs | hs <;> rw [show (r.counted d).state = _ from hs]
  rw [InitRec.localOutcome, show (r.counted d).op = .write from ho]
  dsimp only
  rw [if_neg (by rw [hask]; decide)]
  rfl

/-! ### The record put on its key -/

section
variable {s : State} {r y : TargetRec} {i : ExchId}

theorem State.mapTarget_put_found (hr : s.targetRec i.peer i.tag = some r) (hy : y.id = some i) :
    (s.mapTarget i.peer i.tag (fun _ => y)).targetRec i.peer i.tag = some y := by
  have hkeyed : (fun x : TargetRec => x.keyed i.peer i.tag) ∘ (fun x => if x.keyed i.peer i.tag then y else x) =
      fun x => x.keyed i.peer i.tag := by
    funext x
    by_cases hx : x.keyed i.peer i.tag = true
    · simp [hx, TargetRec.keyed_of_id hy]
    · simp [hx]
  have hfind : s.exch.targets.find? (fun x => x.keyed i.peer i.tag) = some r := hr
  show (s.exch.targets.map _).find? _ = _
  rw [List.find?_map, hkeyed, hfind, Option.map_some, if_pos (State.targetRec_keyed hr)]

theorem State.mapTarget_put_settles (hy : y.id = some i) (o : Outcome) :
    (s.mapTarget i.peer i.tag (fun _ => y)).settle y o false = { s with
      exch := { s.exch with targets := s.exch.targets.map (fun x => if x.keyed i.peer i.tag then y.settled o false else x) }
      buf := { s.buf with servFree := s.buf.servFree ++ y.ring.elim [] (List.map Slot.area) } } := by
  rw [State.settle_released o hy, ← map_keyed_twice s.exch.targets i y hy (fun x => x.settled o false)]
  rfl

/-! ### The eighth rewind of a READ (R92) -/

theorem State.rewindLimitTarget_finishing (hs : r.state = .finishing) :
    s.rewindLimitTarget r = (s.settle r ⟨.linkFault, r.count, true, none⟩ false).grant :=
  congrArg State.grant (State.settleStopped_finishing .linkFault hs)

/-- A record as a run-out leaves it: its FULL slots emptied where the port serves it (R76). -/
def State.dropServed (s : State) (x : TargetRec) : TargetRec :=
  if s.isServed x then { x with ring := x.ring.map Ring.dropFull } else x

theorem State.dropServed_id (s : State) (x : TargetRec) : (s.dropServed x).id = x.id := by
  unfold State.dropServed
  split <;> rfl

theorem State.dropServed_areas (s : State) (x : TargetRec) :
    (s.dropServed x).ring.map (List.map Slot.area) = x.ring.map (List.map Slot.area) := by
  unfold State.dropServed
  split
  · cases x.ring with
    | none => rfl
    | some g => exact congrArg some g.dropFull_slotAreas
  · rfl

theorem State.startRunOut_targetRec {p : Station} {t : Tag} {x : TargetRec} (hx : s.targetRec p t = some x) :
    (s.startRunOut r).targetRec p t = some (s.dropServed x) := by
  rw [State.targetRec_map s (s.startRunOut r) s.dropServed s.dropServed_id rfl p t, hx]
  rfl

/-- An ACTIVE READ in the data or closing phase is run out, its ring held; without the transfer line the mover stands (R92, R127). -/
theorem State.rewindLimitTarget_runsOut (hid : r.id = some i) (ho : r.op = .read) (hs : r.state = .active)
    (hp : s.port.state = .serving .data ∨ s.port.state = .serving .closing) (hx : s.port.xfer = false) :
    s.rewindLimitTarget r = (s.startRunOut r).settledOf r i .linkFault r.moved true := by
  obtain ⟨-, -, hrun⟩ := State.givenUp_read hs hid ho (.inr hp)
  have hmover : ((s.startRunOut r).settledOf r i .linkFault r.moved true).moverCheck =
      (s.startRunOut r).settledOf r i .linkFault r.moved true := State.moverCheck_runOut_idle ⟨r.moved, r.count, rfl⟩ hx
  rw [hrun, hmover]
  exact State.grant_notIdle PortState.noConfusion

theorem State.settledOf_held_found {u : State} {x : TargetRec} (hx : u.targetRec i.peer i.tag = some x) (code : OutcomeCode) (done : Nat) :
    (u.settledOf r i code done true).targetRec i.peer i.tag = some (x.settled ⟨code, done, true, none⟩ true) :=
  State.mapTarget_foundOn (f := fun x => x.settled ⟨code, done, true, none⟩ true) hx (fun _ => rfl)

end

/-- Settles O29: the rewind put in place of its record, and at the eighth the record ended, settled or run out. -/
theorem rewindsAndTheirLimits : Obligations.RewindsAndTheirLimits := by
  refine ⟨fun s c hb hc hw => ⟨fun r hr hf hs hh hp => ?_, fun r i hr hid hf hs hp => ?_⟩,
    fun s c hb hw => ⟨fun r hr hf ho hs => ?_, fun r i hr hid hf hs => ?_, fun r i hr hid hf hs ho hp hx => ?_⟩⟩
  · rw [exec_stallRewind_init hr hf hb hc hw,
      State.initStallWatch_puts hf (State.initStallRuns_of hs hh hp) (SendCounters.stallTurn_rewinds hb hc hw)]
    rfl
  · rw [exec_stallRewind_target hr hf hb hc hw,
      State.targetStallWatch_puts hid hf (State.targetStallRuns_peer hs hid hp) (SendCounters.stallTurn_rewinds hb hc hw)]
    rfl
  · rw [exec_rewindLimitInitiator_due hr hf hs hb hw, State.rewindLimitInit, InitRec.counted_linkFault ho hs]
    rfl
  · refine ⟨_, rfl, ?_⟩
    have hsettles := State.mapTarget_put_settles (s := s) (y := r.counted { c with rewinds := 8 }) hid ⟨.linkFault, r.count, true, none⟩
    have hends := (State.rewindLimitTarget_finishing (s := s.mapTarget i.peer i.tag (fun _ => r.counted { c with rewinds := 8 }))
      (r := r.counted { c with rewinds := 8 }) hs).trans (congrArg State.grant hsettles)
    exact (exec_rewindLimitTarget_due hr hf hb hw (.inr hs)).trans (congrArg Host.Outcome.next hends)
  · have hput := State.mapTarget_put_found (y := r.counted { c with rewinds := 8 }) hr hid
    have hruns := State.rewindLimitTarget_runsOut (s := s.mapTarget i.peer i.tag (fun _ => r.counted { c with rewinds := 8 }))
      (r := r.counted { c with rewinds := 8 }) hid ho hs hp hx
    exact ⟨_, _, (exec_rewindLimitTarget_due hr hf hb hw (.inl hs)).trans (congrArg Host.Outcome.next hruns),
      State.settledOf_held_found (State.startRunOut_targetRec hput) .linkFault r.moved, rfl, rfl, rfl, State.dropServed_areas _ _, rfl⟩

end Sys2Proof.Machine
end

