-- ==== Sys2Proof/Proofs/OutcomeValues.lean ====
section
/-! SUPPORT. Blocks done and confirmed of an initiator outcome (O26), row by row of the table of R97. -/

namespace Sys2Proof.Machine

section
variable {r : InitRec} {code : OutcomeCode}

/-! ### A local ending or a refusing REPLY -/

theorem InitRec.localOutcome_read (ho : r.op = .read) : r.localOutcome code = ⟨code, r.moved, true, none⟩ := by
  rw [InitRec.localOutcome, ho]

theorem InitRec.localOutcome_sync (ho : r.op = .sync) : r.localOutcome code = ⟨code, 0, true, none⟩ := by
  rw [InitRec.localOutcome, ho]

/-- A WRITE in ASKING has sent no block, so 0 is a confirmed count. -/
theorem InitRec.localOutcome_write_asking (ho : r.op = .write) (hs : ∃ n k, r.state = .asking n k) :
    r.localOutcome code = ⟨code, 0, true, none⟩ := by
  obtain ⟨n, k, hs⟩ := hs
  exact InitRec.localOutcome_asking code hs (fun hread => nomatch ho.symm.trans hread)

/-- A WRITE past ASKING knows only what the target has acknowledged into its ring. -/
theorem InitRec.localOutcome_write_past (ho : r.op = .write) (hs : ∀ n k, r.state ≠ .asking n k) :
    r.localOutcome code = ⟨code, r.flow.base, false, none⟩ := by
  rw [InitRec.localOutcome_eq, if_pos ho, InitRec.not_asking hs]
  rfl

/-! ### A matching OUTCOME item -/

variable {done : Nat} {status detail : Word}

/-- A READ or a SYNC disregards the blocks done of the item: its outcome is the local one, with the module pair. -/
theorem InitRec.itemOutcome_not_write (ho : r.op ≠ .write) : r.itemOutcome code done status detail =
    { r.localOutcome code with pair := if code = .moduleFault then some (status, detail) else none } := by
  rw [InitRec.itemOutcome, InitRec.localOutcome]
  cases hop : r.op with
  | read => rfl
  | sync => rfl
  | write => exact absurd hop ho

/-- A WRITE takes the item's blocks done, no more than its block count (R190). -/
theorem InitRec.itemOutcome_write (ho : r.op = .write) (hcode : code ≠ .peerForgot) : r.itemOutcome code done status detail =
    ⟨code, min done r.count, true, if code = .moduleFault then some (status, detail) else none⟩ := by
  rw [InitRec.itemOutcome, ho]
  exact if_neg hcode

/-- PEER_FORGOT tells nothing of the module: a WRITE reports its base, confirmed only in ASKING. -/
theorem InitRec.itemOutcome_write_forgot (ho : r.op = .write) :
    r.itemOutcome .peerForgot done status detail = ⟨.peerForgot, r.flow.base, r.asking, none⟩ := by
  rw [InitRec.itemOutcome, ho]
  rfl

end

/-- Settles O26: each row of R97 by its own lemma; the blocks done of an item are cut at the block count. -/
theorem outcomeTable : Obligations.OutcomeTable := by
  refine fun r code => ⟨InitRec.localOutcome_read, InitRec.localOutcome_sync, InitRec.localOutcome_write_asking,
    InitRec.localOutcome_write_past, fun done status detail => ⟨fun ho => ?_, fun ho => ?_, fun ho hcode hle => ?_,
      fun ho hcode hge => ?_, fun ho hcode hpast => ?_, fun ho hcode ⟨n, k, hasking⟩ => ?_⟩⟩
  · rw [InitRec.itemOutcome_not_write (by rw [ho]; decide), InitRec.localOutcome_read ho]
  · rw [InitRec.itemOutcome_not_write (by rw [ho]; decide), InitRec.localOutcome_sync ho]
  · rw [InitRec.itemOutcome_write ho hcode, Nat.min_eq_left hle]
  · rw [InitRec.itemOutcome_write ho hcode, Nat.min_eq_right hge]
  · rw [hcode, InitRec.itemOutcome_write_forgot ho, InitRec.not_asking hpast]
  · rw [hcode, InitRec.itemOutcome_write_forgot ho, InitRec.asking_of hasking]

end Sys2Proof.Machine
end

