-- ==== Sys2Proof/Proofs/Resets.lean ====
section
/-! SUPPORT. The resets of the station (O4, O10): what a hardware reset and STATION_RESET leave, and the module port after the latter. -/

namespace Sys2Proof.Machine

section
variable {s : State} {c : Cfg}

/-- With no initiator record no channel has a head, so neither asks for an access (R178). -/
theorem State.requestLine_noInits (h : s.exch.inits = []) (ch : Channel) : s.requestLine ch = false := by
  rw [State.requestLine, State.channelHead, State.channelQueue, h]
  rfl

theorem State.irq_noFlags (h : s.host.flags = 0) : s.irq = false := by
  simp [State.irq, h]

theorem State.fullPools_config (hc : s.host.config = some c) : s.fullPools =
    { s.buf with initFree := initPool c, servFree := servPool c } := by
  rw [State.fullPools, hc]

/-! ### The module port after a station reset (R132) -/

variable {p : PortState}

theorem PortState.stationReset_serving {x : Serving} (h : x ≠ .priming) : (PortState.serving x).stationReset = .resetting true := by
  cases x with
  | priming => exact absurd rfl h
  | _ => rfl

/-- A station reset leads no port to STARTING. -/
theorem PortState.stationReset_starting {n : Nat} (h : p.stationReset = .starting n) : p = .starting n := by
  cases p with
  | starting m => exact h
  | serving x => cases x <;> cases h
  | _ => cases h

theorem Port.stationReset_access_starting {p : Port} {n : Nat} (h : p.state = .starting n) : p.stationReset.access = p.access := by
  rw [Port.stationReset, h]
  rfl

theorem Port.stationReset_access_elsewhere {p : Port} (h : ∀ n, p.state ≠ .starting n) : p.stationReset.access = none := by
  unfold Port.stationReset
  dsimp only
  split
  · next n hn => exact absurd (PortState.stationReset_starting hn) (h n)
  · rfl

theorem exec_stationReset (h : s.configured = true) : exec .stationReset s = .next s.stationReset :=
  congrArg Host.Outcome.next (State.hosted_configured h _)

/-- Command code 3 is STATION_RESET. -/
theorem exec_stationReset_code (h : s.configured = true) : exec (.commandInvalidCode 3) s = .next s.stationReset :=
  congrArg Host.Outcome.next (State.hosted_configured h _)

end

/-- Settles O4: every group has its initial value, and the line requests are those of a station without records. -/
theorem hardwareResetState : Obligations.HardwareResetState :=
  fun _ => ⟨_, rfl, rfl, rfl, State.irq_noFlags rfl, State.requestLine_noInits rfl, rfl, rfl⟩

/-- Settles O10: the groups of the station, and the port by the state it stood in. -/
theorem stationResetState : Obligations.StationResetState := by
  intro s c h hc
  have hport {p q : PortState} (hs : s.port.state = p) (hq : p.stationReset = q) : s.stationReset.port.state = q :=
    (congrArg PortState.stationReset hs).trans hq
  refine ⟨s.stationReset, exec_stationReset h, exec_stationReset_code h, rfl, rfl, rfl, rfl, rfl, rfl, rfl, rfl, rfl, rfl,
    State.fullPools_config hc, State.irq_noFlags rfl, State.requestLine_noInits rfl, rfl, rfl, rfl, rfl, rfl, rfl, rfl, rfl, rfl, rfl,
    fun hs => hport hs rfl, fun hs => hport hs rfl, fun p hs => hport hs rfl,
    fun n hs => ⟨hport hs rfl, Port.stationReset_access_starting hs⟩, fun d hs => hport hs rfl, fun hs => hport hs rfl,
    fun x hs hx => hport hs (PortState.stationReset_serving hx), fun i hs => hport hs rfl, fun hs => hport hs rfl,
    Port.stationReset_access_elsewhere⟩

end Sys2Proof.Machine
end

