-- ==== Sys2Proof/Proofs/Scripts.lean ====
section
/-! SUPPORT. RUN_MAINT (O22): the order in which it is judged, and the script that a taken one posts or begins. -/

namespace Sys2Proof.Machine

section
variable {s : State} {script : List ScriptStep}

theorem exec_runMaint (h : s.configured = true) : exec .runMaint s = .next s.runMaint :=
  congrArg Host.Outcome.next (State.hosted_configured h _)

theorem Port.scriptBusy_iff (p : Port) : p.scriptBusy = true ↔ p.result = .posted ∨ p.result = .running := by
  simp [Port.scriptBusy]

/-! ### The judgement (R174) -/

theorem State.runMaint_notAvailable (h : s.port.state = .absent ∨ s.port.state = .failed) :
    s.runMaint = s.setCommandStatus .notAvailable := if_pos h

theorem State.runMaint_busy (hp : ¬ (s.port.state = .absent ∨ s.port.state = .failed)) (h : s.port.result = .posted ∨ s.port.result = .running) :
    s.runMaint = s.setCommandStatus .busy :=
  (if_neg hp).trans (if_pos (s.port.scriptBusy_iff.mpr h))

theorem State.runMaint_noScript (hp : ¬ (s.port.state = .absent ∨ s.port.state = .failed))
    (hres : ¬ (s.port.result = .posted ∨ s.port.result = .running)) (h : s.port.script = none ∨ s.port.spent = true) :
    s.runMaint = s.setCommandStatus .noScript :=
  (if_neg hp).trans ((if_neg (hres ∘ s.port.scriptBusy_iff.mp)).trans (if_pos (h.imp_left Option.isNone_iff_eq_none.mpr)))

/-- The station with its script posted, before the arbiter decides. -/
def State.postsScript (s : State) : State := s.withPort { s.port with result := .posted }

theorem State.runMaint_taken (hp : ¬ (s.port.state = .absent ∨ s.port.state = .failed))
    (hres : ¬ (s.port.result = .posted ∨ s.port.result = .running)) (hscript : s.port.script = some script) (hspent : s.port.spent = false) :
    s.runMaint = s.postsScript.grant.setCommandStatus .taken := by
  refine (if_neg hp).trans ((if_neg (hres ∘ s.port.scriptBusy_iff.mp)).trans (if_neg ?_))
  rw [hscript, hspent]
  exact not_or.mpr ⟨nofun, nofun⟩

/-! ### The grant at the event (R121) -/

theorem State.postsScript_grant_idle (hp : s.port.state = .idle) (hscript : s.port.script = some script) :
    s.postsScript.grant = s.withPort (s.port.begun script) :=
  (State.grant_script (s := s.postsScript) hp rfl hscript).trans (State.withPort_withPort s _ _)

/-- The first slot access of a script; one that begins with a wait reads STATUS. -/
theorem stepAccess_first (script : List ScriptStep) : stepAccess script 0 = match script with
    | .write slot v :: _ => ⟨slot, some v⟩
    | .read slot :: _ => ⟨slot, none⟩
    | _ => ⟨6, none⟩ := by
  cases script with
  | nil => rfl
  | cons step _ => cases step <;> rfl

end

/-- Settles O22: the refusals in their order, and the script taken in IDLE or outside it. -/
theorem runMaint : Obligations.RunMaint := by
  refine fun s h => ⟨fun hp => ?_, fun habsent hfailed => ?_⟩ <;> rw [exec_runMaint h]
  · exact congrArg Host.Outcome.next (State.runMaint_notAvailable hp)
  · have hp : ¬ (s.port.state = .absent ∨ s.port.state = .failed) := not_or.mpr ⟨habsent, hfailed⟩
    refine ⟨fun hres => congrArg Host.Outcome.next (State.runMaint_busy hp hres), fun hposted hrunning => ?_⟩
    have hres : ¬ (s.port.result = .posted ∨ s.port.result = .running) := not_or.mpr ⟨hposted, hrunning⟩
    refine ⟨fun hnone => congrArg Host.Outcome.next (State.runMaint_noScript hp hres hnone),
      fun script hscript hspent => ⟨fun hidle => ?_, fun hidle => ?_⟩⟩ <;> rw [State.runMaint_taken hp hres hscript hspent]
    · rw [State.grant_notIdle (s := s.postsScript) hidle]
      rfl
    · rw [State.postsScript_grant_idle hidle hscript, Port.begun, stepAccess_first]
      rfl

end Sys2Proof.Machine
end

