-- ==== Sys2Proof/Proofs/XferLevels.lean ====
section
/-! SUPPORT. XFER_SHOWN (O54): the level that the port follows, and what the mover, or a script, makes of it. -/

namespace Sys2Proof.Machine

section
variable {s : State} {level : Bool}

/-- The station that sees XFER at a level. -/
def State.seesXfer (s : State) (level : Bool) : State := s.withPort { s.port with xfer := level }

theorem State.xferLevel_script {i : Nat} (hp : s.port.state = .maintaining i) : s.xferLevel level =
    if level then ((s.seesXfer level).endScript .dataRefused).enterResetting else s.seesXfer level := by
  unfold State.xferLevel
  dsimp only
  split
  · rfl
  · next hnot => exact absurd hp (hnot i)

/-- Where no script runs the mover looks at the level (R76). -/
theorem State.xferLevel_mover (hp : ∀ i, s.port.state ≠ .maintaining i) : s.xferLevel level = (s.seesXfer level).moverCheck := by
  unfold State.xferLevel
  dsimp only
  split
  · next i hi => exact absurd hi (hp i)
  · rfl

/-- A shown XFER ends the script DATA_REFUSED, and the module is reset (R131). -/
theorem State.xferLevel_refused {i : Nat} (hp : s.port.state = .maintaining i) : s.xferLevel true =
    { (s.withPort { s.port.resetting with xfer := true, result := .dataRefused, spent := true }) with
      host := { s.host with flags := s.host.flags ||| 8 ||| 16 } } := by
  have hout : ∀ p, (s.seesXfer true).port.state ≠ .serving p := fun p h => nomatch hp.symm.trans h
  rw [State.xferLevel_script hp, if_pos rfl, State.endScript_enterResetting hout, State.seesXfer, State.withPort_withPort]
  rfl

theorem exec_xferShown (s : State) (level : Bool) : exec (.xferShown level) s = .next (s.xferLevel level) := rfl

end

/-- Settles O54: a script, the phases without a mover, and the mover, which begins a transfer, waits, or stays as it is. -/
theorem xferShown : Obligations.XferShown := by
  intro s level
  have hmover {x : Serving} (hp : s.port.state = .serving x) : exec (.xferShown level) s = .next (s.seesXfer level).moverCheck :=
    congrArg Host.Outcome.next (State.xferLevel_mover fun i hi => nomatch hp.symm.trans hi)
  refine ⟨fun hscript hdata hrun => ?_, fun i hp hl => ?_, fun i hp hl => ?_, fun hp hmay => ?_, fun hp ht hmay => ?_, fun hp ht => ?_,
    fun ⟨n, c, hp⟩ hmay => ?_⟩
  · rw [exec_xferShown, State.xferLevel_mover hscript]
    exact congrArg Host.Outcome.next (State.moverCheck_elsewhere (s := s.seesXfer level) hdata hrun)
  · rw [exec_xferShown, State.xferLevel_script hp, if_neg (by rw [hl]; decide)]
    rfl
  · rw [hl, exec_xferShown, State.xferLevel_refused hp]
    rfl
  · rcases hp with hp | ⟨n, c, hp⟩ <;> exact (hmover hp).trans (State.moverCheck_begins hmay)
  · obtain ⟨hring, hmodule⟩ := State.moverCheck_waits (u := s.seesXfer level) hmay hp ht
    refine ⟨fun hl => ?_, fun hl => ?_⟩ <;> rw [hmover hp] <;> refine congrArg Host.Outcome.next ?_
    · exact (hring hl).trans (hl ▸ State.withPort_withPort (s.mapActive _) _ _)
    · exact (hmodule hl).trans (hl ▸ State.withPort_withPort (s.mapActive _) _ _)
  · exact (hmover hp).trans (congrArg Host.Outcome.next (State.moverCheck_busy (s := s.seesXfer level) ht))
  · refine (hmover hp).trans (congrArg Host.Outcome.next (State.moverCheck_stays hmay fun hdata => ?_))
    exact nomatch (show s.port.state = _ from hp).symm.trans hdata

end Sys2Proof.Machine
end

