-- ==== Sys2Proof/Proofs/SlotAccesses.lean ====
section
/-! SUPPORT. SLOT_ACCESS_COMPLETE outside a block transfer (O52): the description, the built script of a record with or without an attention
held, the steps of a maintenance script, and the COMMAND write of a run-out. -/

namespace Sys2Proof.Machine

section
variable {s : State} {v w d : Word} {i k : Nat} {r : TargetRec} {script : List ScriptStep}

/-! ### The completion by the phase of the port (R115) -/

theorem State.slotDone_starting (hp : s.port.state = .starting k) : s.slotDone v = s.startingRead v := by
  rw [State.slotDone, hp]

theorem State.slotDone_describing {x : Describe} (hp : s.port.state = .describing x) : s.slotDone v = s.describeStep x v := by
  rw [State.slotDone, hp]

theorem State.slotDone_maintaining (hp : s.port.state = .maintaining i) : s.slotDone v = s.maintStep i v := by
  rw [State.slotDone, hp]

/-- The station with no attention held. -/
def State.unattended (s : State) : State := s.withPort { s.port with attention := none }

/-- A setup step with an attention held reads it (R124). -/
theorem State.slotDone_attended (hp : s.port.state = .serving (.setup i)) (ha : s.port.attention = some (w, d)) : s.slotDone v =
    if attentionGood w then s.unattended.setupStepDone i else s.unattended.moduleAttention w d := by
  simp only [State.slotDone, hp, ha, State.unattended]

/-- No bad attention is held. -/
def Port.noBadAttention (p : Port) : Prop :=
  p.attention = none ∨ ∃ w d, p.attention = some (w, d) ∧ w.getLsbD 0 = true ∧ w.getLsbD 3 = false

/-- The access that ends a stopped setup leaves the port IDLE (R127). -/
theorem State.slotDone_stopping (hp : s.port.state = .serving .stopping) (ha : s.port.noBadAttention) : s.slotDone v = s.idleAndGrant := by
  rcases ha with ha | ⟨w, d, ha, hgood⟩ <;> simp only [State.slotDone, hp, ha]
  exact if_pos (attentionGood_of hgood)

theorem State.slotDone_stopping_bad (hp : s.port.state = .serving .stopping) (ha : s.port.attention = some (w, d))
    (hbad : ¬ (w.getLsbD 0 = true ∧ w.getLsbD 3 = false)) : s.slotDone v = s.enterResetting := by
  simp only [State.slotDone, hp, ha]
  exact if_neg (attentionGood_not hbad)

/-- The station behind the COMMAND write of a run-out, an attention held over it read. -/
def State.runsOn (s : State) : State := s.withPort { s.port with access := none, attention := none, watchdog := some 0 }

/-- The COMMAND write of a run-out begins its transfers (R127). -/
theorem State.slotDone_runOut {n c : Nat} (hp : s.port.state = .serving (.runOut n c)) (ht : s.port.transfer = none)
    (ha : s.port.noBadAttention) : s.slotDone v = s.runsOn.moverCheck := by
  rcases ha with ha | ⟨w, d, ha, hgood⟩ <;> simp only [State.slotDone, hp, ht, ha, State.runsOn]
  exact if_pos (attentionGood_of hgood)

theorem State.slotDone_runOut_bad {n c : Nat} (hp : s.port.state = .serving (.runOut n c)) (ht : s.port.transfer = none)
    (ha : s.port.attention = some (w, d)) (hbad : ¬ (w.getLsbD 0 = true ∧ w.getLsbD 3 = false)) :
    s.slotDone v = s.runsOn.enterResetting := by
  simp only [State.slotDone, hp, ht, ha, State.runsOn]
  exact if_neg (attentionGood_not hbad)

/-! ### The description (R118) -/

/-- With ADDR_HI read the capacity is known, and the port becomes IDLE. -/
theorem State.describeStep_readHi (s : State) (lo v : Word) : s.describeStep (.readHi lo) v =
    ((s.withPort { s.port.idled with capacity := v ++ lo }).setFlag .module).grant :=
  congrArg (fun u : State => (u.setFlag .module).grant) (State.withPort_withPort s _ _)

/-! ### The built script (R122) -/

/-- The slots that the built script of a record writes, with their values. -/
def TargetRec.slotWrites (r : TargetRec) : List (BitVec 3 × Word) := if r.op = .sync then [(5, 3)] else
  [(1, BitVec.ofNat 16 (r.count % 256)), (2, r.addr.extractLsb' 0 16), (3, r.addr.extractLsb' 16 16), (4, 0),
    (5, if r.op = .read then 1 else 2)]

theorem builtScript_slotWrites (r : TargetRec) : builtScript r = r.slotWrites.map (fun x => ⟨x.1, some x.2⟩) := by
  unfold builtScript TargetRec.slotWrites
  cases r.op <;> rfl

theorem TargetRec.slotWrites_length (h : r.op ≠ .sync) : r.slotWrites.length = 5 := by
  rw [TargetRec.slotWrites, if_neg h]
  rfl

theorem State.setupStepDone_next {slot : BitVec 3} (hr : s.activeRec = some r) (h : r.slotWrites[i + 1]? = some (slot, w)) :
    s.setupStepDone i = s.withPort { s.port with
      state := .serving (.setup (i + 1)), access := some ⟨slot, some w⟩, watchdog := some 0 } := by
  have hwrite : (builtScript r)[i + 1]? = some ⟨slot, some w⟩ := by
    rw [builtScript_slotWrites, List.getElem?_map, h]
    rfl
  simp only [State.setupStepDone, hr, hwrite]

/-- Behind the COMMAND write the closing phase of a SYNC begins, or the data phase. -/
theorem State.setupStepDone_last (hr : s.activeRec = some r) (h : r.slotWrites.length = i + 1) :
    s.setupStepDone i = if r.op = .sync then s.enterClosing else s.enterData := by
  have hend : (builtScript r)[i + 1]? = none := by
    rw [builtScript_slotWrites, List.getElem?_map, List.getElem?_eq_none (Nat.le_of_eq h)]
    rfl
  simp only [State.setupStepDone, hr, hend]

/-- The port at the beginning of the data phase, before the mover looks at its slot. -/
def Port.entersData (p : Port) : Port := { p with state := .serving .data, access := none, transfer := none, watchdog := some 0 }

theorem exec_commandWrite (ha : s.port.access.isSome = true) (hp : s.port.state = .serving (.setup i)) (hatt : s.port.attention = none)
    (hr : s.activeRec = some r) (h : r.slotWrites.length = i + 1) (ho : r.op ≠ .sync) :
    exec (.slotAccessComplete v) s = .next (s.withPort s.port.entersData).moverCheck := by
  rw [exec_slotAccessComplete ha, State.setupStep_ready hp hatt, State.setupStepDone_last hr h, if_neg ho]
  rfl

/-- Behind the COMMAND write a transfer begins, or a wait on the ring or on the module (R123, R126). -/
theorem exec_commandWrite_goesOn (ha : s.port.access.isSome = true) (hp : s.port.state = .serving (.setup i))
    (hatt : s.port.attention = none) (hr : s.activeRec = some r) (h : r.slotWrites.length = i + 1) (ho : r.op ≠ .sync) :
    let data := s.withPort s.port.entersData
    (data.transferMayBegin = true → exec (.slotAccessComplete v) s = exec .blockTransferBegin data) ∧
    (data.transferMayBegin = false → s.port.xfer = true → exec (.slotAccessComplete v) s = .next
      ((s.mapActive (fun x => { x with starvation := some (x.starvation.getD 0) })).withPort { s.port.entersData with watchdog := none })) ∧
    (data.transferMayBegin = false → s.port.xfer = false → exec (.slotAccessComplete v) s = .next
      ((s.mapActive (fun x => { x with starvation := none })).withPort s.port.entersData)) := by
  obtain ⟨hbegins, hring, hmodule⟩ := State.moverCheck_goesOn (u := s.withPort s.port.entersData) (p := { s.port with state := .serving .data })
    rfl rfl (exec_commandWrite (v := v) ha hp hatt hr h ho)
  refine ⟨hbegins, fun hmay hx => ?_, fun hmay hx => ?_⟩
  · exact (hring hmay hx).trans (congrArg Host.Outcome.next (State.withPort_withPort (s.mapActive _) _ _))
  · exact (hmodule hmay hx).trans (congrArg Host.Outcome.next (State.withPort_withPort (s.mapActive _) _ _))

/-! ### An attention held over a setup step (R124) -/

section
variable {pre post : List TargetRec} {j : ExchId}

theorem State.endedBetween_withPort (s : State) (pre post : List TargetRec) (r : TargetRec) (o : Outcome) (p q : Port) :
    (s.withPort p).endedBetween pre post r o q = s.endedBetween pre post r o q := by
  rw [State.endedBetween, State.withPort_withPort]
  rfl

/-- A bad attention ends the record in service, whichever phase serves it. -/
theorem State.moduleAttention_served (h : s.ServesOnly pre post r j) (hp : s.port.state.ServesActive)
    (hbad : ¬ (w.getLsbD 0 = true ∧ w.getLsbD 3 = false)) : s.moduleAttention w d =
      { s.endedBetween pre post r ⟨.moduleFault, 0, true, some (w, d)⟩ s.port.resetting with
        host := { s.host with flags := s.host.flags ||| 16 } } := by
  have hcut : s.enterResetting.exch.targets = pre ++ { r with ring := r.ring.map Ring.cutTransfers } :: post :=
    congrArg (fun u : State => u.exch.targets) (h.mapServed hp fun x => { x with ring := x.ring.map Ring.cutTransfers })
  rw [State.moduleAttention, if_neg (attentionGood_not hbad), h.activeRec]
  exact State.settle_between hcut h.id h.keys _

/-- A good attention is passed over; a bad one ends the record MODULE_FAULT with blocks done 0. -/
theorem exec_setupStep_attended (h : s.ServesOnly pre post r j) (ha : s.port.access.isSome = true) (hp : s.port.state = .serving (.setup i))
    (hatt : s.port.attention = some (w, d)) :
    (w.getLsbD 0 = true ∧ w.getLsbD 3 = false →
      exec (.slotAccessComplete v) s = exec (.slotAccessComplete v) s.unattended) ∧
    (¬ (w.getLsbD 0 = true ∧ w.getLsbD 3 = false) → exec (.slotAccessComplete v) s = .next
      { s.endedBetween pre post r ⟨.moduleFault, 0, true, some (w, d)⟩ s.port.resetting with
        host := { s.host with flags := s.host.flags ||| 16 } }) := by
  rw [exec_slotAccessComplete ha, State.slotDone_attended hp hatt]
  refine ⟨fun hgood => ?_, fun hbad => ?_⟩
  · rw [if_pos (attentionGood_of hgood), exec_slotAccessComplete (s := s.unattended) ha, State.setupStep_ready (s := s.unattended) hp rfl]
  · have hserves : s.unattended.ServesOnly pre post r j := ⟨h.targets, h.active, h.id, h.others⟩
    rw [if_neg (attentionGood_not hbad), State.moduleAttention_served hserves (.inr (.inl ⟨i, hp⟩)) hbad, State.unattended,
      State.endedBetween_withPort]
    rfl

end

/-! ### The steps of a maintenance script (R129, R130) -/

/-- The port at a step of a script, or at its closing wait. -/
def Port.atStep (p : Port) (script : List ScriptStep) (i : Nat) : Port :=
  { p with state := .maintaining i, access := some (stepAccess script i) }

theorem State.maintStep_write {slot : BitVec 3} {x : Word} (hscript : s.port.script = some script) (h : script[i]? = some (.write slot x)) :
    s.maintStep i v = s.withPort (Port.atStep { s.port with watchdog := some 0 } script (i + 1)) := by
  simp only [State.maintStep, hscript, h]
  exact State.withPort_withPort _ _ _

theorem State.maintStep_read {slot : BitVec 3} (hscript : s.port.script = some script) (h : script[i]? = some (.read slot)) :
    s.maintStep i v = s.withPort
      (Port.atStep { s.port with results := s.port.results ++ [v], watchdog := some 0 } script (i + 1)) := by
  simp only [State.maintStep, hscript, h]
  exact State.withPort_withPort _ _ _

/-- STATUS ends a wait: READY set and ENGAGED clear. -/
theorem waitEnds_of (hready : v.getLsbD 0 = true) (hengaged : v.getLsbD 1 = false) : (statusReady v && !statusEngaged v) = true := by
  rw [statusReady, statusEngaged, hready, hengaged]
  rfl

theorem waitEnds_not (h : v.getLsbD 0 = false ∨ v.getLsbD 1 = true) : ¬ (statusReady v && !statusEngaged v) = true := by
  rw [statusReady, statusEngaged]
  rcases h with h | h
  · rw [h, Bool.false_and]
    decide
  · rw [h, Bool.not_true, Bool.and_false]
    decide

theorem State.maintStep_waited (hscript : s.port.script = some script) (h : script[i]? = some .waitReady)
    (hready : v.getLsbD 0 = true) (hengaged : v.getLsbD 1 = false) : s.maintStep i v = s.withPort (s.port.atStep script (i + 1)) := by
  simp only [State.maintStep, hscript, h]
  exact if_pos (waitEnds_of hready hengaged)

/-- A wait, or the closing wait, reads STATUS again. -/
theorem State.maintStep_waits (hscript : s.port.script = some script) (h : script[i]? = some .waitReady ∨ script[i]? = none)
    (hstatus : v.getLsbD 0 = false ∨ v.getLsbD 1 = true) : s.maintStep i v = s.withPort { s.port with access := some ⟨6, none⟩ } := by
  rcases h with h | h <;> simp only [State.maintStep, hscript, h] <;> exact if_neg (waitEnds_not hstatus)

/-- The closing wait ends the script DONE, and the arbiter decides. -/
theorem State.maintStep_done (hscript : s.port.script = some script) (h : script[i]? = none)
    (hready : v.getLsbD 0 = true) (hengaged : v.getLsbD 1 = false) : s.maintStep i v =
      ((s.withPort { s.port.idled with result := .done, spent := true }).setFlag .maint).grant := by
  simp only [State.maintStep, hscript, h]
  exact (if_pos (waitEnds_of hready hengaged)).trans (congrArg State.grant (State.withPort_flags s _ _ _))

/-! ### The COMMAND write of a run-out (R127) -/

/-- A run-out whose COMMAND write is complete begins its transfers, or waits for XFER. -/
theorem exec_runOutCommand {n c : Nat} (ha : s.port.access.isSome = true) (hp : s.port.state = .serving (.runOut n c))
    (ht : s.port.transfer = none) (hatt : s.port.noBadAttention) :
    (s.runsOn.transferMayBegin = true → exec (.slotAccessComplete v) s = exec .blockTransferBegin s.runsOn) ∧
    (s.runsOn.transferMayBegin = false → exec (.slotAccessComplete v) s = .next s.runsOn) := by
  rw [exec_slotAccessComplete ha, State.slotDone_runOut hp ht hatt]
  exact ⟨State.moverCheck_begins, fun hmay => congrArg Host.Outcome.next
    (State.moverCheck_stays hmay fun hdata => nomatch (show s.port.state = _ from hdata).symm.trans hp)⟩

theorem State.runsOn_enterResetting {n c : Nat} (hp : s.port.state = .serving (.runOut n c)) : s.runsOn.enterResetting =
    { (s.withPort s.port.resetting) with
      host := { s.host with flags := s.host.flags ||| 16 }
      exch := { s.exch with targets := s.exch.targets.map (fun x =>
        if x.inRunOut then { x with ring := x.ring.map Ring.cutTransfers } else x) } } := by
  have hreset := s.runsOn.enterResetting_eq
  simp only [State.isServed_runOut (s := s.runsOn) hp] at hreset
  rw [hreset, State.runsOn, State.withPort_withPort]
  rfl

end

/-- Settles O52: the phases of the port one by one, with an attention held or not. -/
theorem slotAccessesOfSetupAndScripts : Obligations.SlotAccessesOfSetupAndScripts := by
  refine ⟨fun s v => ⟨fun hnone => ?_, fun ha => ⟨fun n hp => ⟨fun hready => ?_, fun hready => ?_⟩, fun hp => ?_, fun hp => ?_,
      fun lo hp => ?_, fun i r hp hatt hr => ⟨fun k w hwrite => ?_, fun hlast ho => ?_, fun hlast ho hx => ?_, fun hlast ho hmay => ?_⟩,
      fun i script hp hscript => ⟨fun k w hstep => ?_, fun k hstep => ?_, fun hstep hready hengaged => ?_, fun hstep hstatus => ?_,
        fun hstep hready hengaged => ?_⟩⟩⟩,
    fun s v ha => ⟨fun hp => ?_, fun i w d r j hp hatt ht hr hid => ?_, fun r hp hatt hr ho hx => ?_,
      fun hp hnone => ⟨fun hatt => ?_, fun w d hatt hbad => ?_⟩, fun n c hp ht => ⟨fun hatt => ?_, fun w d hatt hbad => ?_⟩⟩,
    fun s v w d k pre post r i ha hp hatt ht hr hid hothers => ?_⟩
  · exact congrArg Host.Outcome.next (if_neg (by rw [hnone]; decide))
  · rw [exec_slotAccessComplete ha, State.slotDone_starting hp]
    exact congrArg Host.Outcome.next (if_pos hready)
  · rw [exec_slotAccessComplete ha, State.slotDone_starting hp]
    exact congrArg Host.Outcome.next (if_neg (Bool.eq_false_iff.mp hready))
  · rw [exec_slotAccessComplete ha, State.slotDone_describing hp]
    rfl
  · rw [exec_slotAccessComplete ha, State.slotDone_describing hp]
    rfl
  · rw [exec_slotAccessComplete ha, State.slotDone_describing hp, State.describeStep_readHi]
    rfl
  · rw [exec_slotAccessComplete ha, State.setupStep_ready hp hatt, State.setupStepDone_next hr hwrite]
  · rw [exec_slotAccessComplete ha, State.setupStep_ready hp hatt, State.setupStepDone_last hr hlast, if_pos ho]
    rfl
  · obtain ⟨-, -, hmodule⟩ := exec_commandWrite_goesOn (v := v) ha hp hatt hr hlast ho
    exact hmodule (State.transferMayBegin_false (.inl hx)) hx
  · obtain ⟨hbegins, -, -⟩ := exec_commandWrite_goesOn (v := v) ha hp hatt hr hlast ho
    exact hbegins hmay
  · rw [exec_slotAccessComplete ha, State.slotDone_maintaining hp, State.maintStep_write hscript hstep]
    rfl
  · rw [exec_slotAccessComplete ha, State.slotDone_maintaining hp, State.maintStep_read hscript hstep]
    rfl
  · rw [exec_slotAccessComplete ha, State.slotDone_maintaining hp, State.maintStep_waited hscript hstep hready hengaged]
    rfl
  · rw [exec_slotAccessComplete ha, State.slotDone_maintaining hp, State.maintStep_waits hscript hstep hstatus]
  · rw [exec_slotAccessComplete ha, State.slotDone_maintaining hp, State.maintStep_done hscript hstep hready hengaged]
    rfl
  · rw [exec_slotAccessComplete ha, State.slotDone_describing hp]
    rfl
  · exact exec_setupStep_attended (State.servesOnly_single ht hr hid) ha hp hatt
  · obtain ⟨-, hring, -⟩ := exec_commandWrite_goesOn (v := v) ha hp hatt hr (TargetRec.slotWrites_length ho) ho
    exact fun hmay => hring hmay hx
  · rw [exec_slotAccessComplete ha, State.slotDone_stopping hp hatt]
    rfl
  · rw [exec_slotAccessComplete ha, State.slotDone_stopping_bad hp hatt hbad]
    exact congrArg Host.Outcome.next
      (State.enterResetting_unserved fun x hx => (State.isServed_stopping hp x).trans (decide_eq_false (hnone x hx)))
  · exact exec_runOutCommand ha hp ht hatt
  · rw [exec_slotAccessComplete ha, State.slotDone_runOut_bad hp ht hatt hbad, State.runsOn_enterResetting hp]
    rfl
  · exact exec_setupStep_attended ⟨ht, hr, hid, hothers⟩ ha hp hatt

end Sys2Proof.Machine
end

