-- ==== Sys2Proof/Proofs/StoresKept.lean ====
section
/-! SUPPORT. The invariants of the packet RAM, of the queues and of the roster (O58), from what a step can do. -/

namespace Sys2Proof.Machine

/-- Settles O58: each of the three is a property of the tracked part that every change and the hardware reset keep. -/
theorem stepsKeepTheStores : Obligations.StepsKeepTheStores := by
  intro s u hu
  refine ⟨fun h => ?_, fun h => ?_, fun h => ?_⟩
  · rw [State.ramCanonical_iff] at h ⊢
    exact step_keeps Change.ramCanonical Track.reset_ramCanonical (fun _ h => h) h hu
  · rw [State.queuesBounded_iff] at h ⊢
    exact step_keeps Change.queuesBounded (fun _ => Track.reset_queuesBounded _) (fun _ h => h) h hu
  · rw [State.rosterSound_iff] at h ⊢
    exact step_keeps Change.rosterSound (fun _ => Track.reset_rosterSound _) (fun _ h => h) h hu

end Sys2Proof.Machine
end

