-- ==== Sys2Proof/Proofs/HostGate.lean ====
section
/-! SUPPORT. The gate of a part that is not configured or in a hardware reset (O5): what it ignores of the host and of the line. -/

namespace Sys2Proof.Machine

section

variable {s : State}

/-- A part that is not configured ignores a host access (R183, R184). -/
theorem State.hosted_unconfigured (h : s.configured = false) (f : State → State) : s.hosted f = s :=
  if_neg (Bool.eq_false_iff.mp h)

/-- A part that is not configured takes nothing from the line (R134). -/
theorem State.lineGate_shut (h : s.configured = false) : ¬ (s.configured = true ∧ s.line.tx.isNone = true) :=
  fun ⟨hc, _⟩ => Bool.eq_false_iff.mp h hc

theorem exec_registerWrite_unconfigured (h : s.configured = false) {off : BitVec 7} (w : Word) (h0 : off ≠ 0) (h1 : off ≠ 1) :
    exec (.registerWrite off w) s = .next s := by
  have hwrite : exec (.registerWrite off w) s = .next (s.hosted fun s => s.writeWindow off w) := (if_neg h0).trans (if_neg h1)
  rw [hwrite, State.hosted_unconfigured h]

theorem exec_channelAccess_unconfigured (h : s.configured = false) (ch : Channel) :
    (∀ w : Word, exec (.channelAccess ch (.write w)) s = .next s) ∧ exec (.channelAccess ch .read) s = .next (s.giveWord 0) := by
  have hshut := Bool.eq_false_iff.mp h
  exact ⟨fun w => congrArg Host.Outcome.next (if_neg hshut), congrArg Host.Outcome.next (if_neg hshut)⟩

/-- In a hardware reset the configuration writes are ignored, through the rows of their own and as register writes (R183). -/
theorem exec_configWrites_inReset (h : s.inReset = true) (w : Word) :
    exec (.configAWrite w) s = .next s ∧ exec (.configBWrite w) s = .next s ∧
    exec (.registerWrite 0 w) s = .next s ∧ exec (.registerWrite 1 w) s = .next s := by
  have hA : exec (.configAWrite w) s = .next s := congrArg Host.Outcome.next (if_pos h)
  have hB : exec (.configBWrite w) s = .next s := congrArg Host.Outcome.next (if_pos h)
  exact ⟨hA, hB, hA, hB⟩

end

/-- Settles O5: the host's rows by their gate, the line's rows by theirs, and the configuration writes by the reset. -/
theorem gateIgnoresHostAndLine : Obligations.GateIgnoresHostAndLine := by
  intro s h
  have hhosted (f : State → State) : Host.Outcome.next (s.hosted f) = (.next s : Host.Outcome State Fault Refusal) :=
    congrArg Host.Outcome.next (State.hosted_unconfigured h f)
  have hline (u : State) : Host.Outcome.next (if s.configured = true ∧ s.line.tx.isNone = true then u else s) =
      (.next s : Host.Outcome State Fault Refusal) := congrArg Host.Outcome.next (if_neg (State.lineGate_shut h))
  refine ⟨?_, fun w => ⟨hhosted _, hhosted _, hhosted _⟩, fun code => hhosted _,
    fun off w h0 h1 => exec_registerWrite_unconfigured h w h0 h1, fun ch => (exec_channelAccess_unconfigured h ch).1,
    fun ch => (exec_channelAccess_unconfigured h ch).2, fun bytes => congrArg Host.Outcome.next (if_neg (Bool.eq_false_iff.mp h)),
    fun off => if_neg (Bool.eq_false_iff.mp h), exec_configWrites_inReset⟩
  simp only [List.forall_mem_cons]
  exact ⟨hhosted _, hhosted _, hhosted _, hhosted _, hhosted _, hhosted _, hhosted _, hhosted _, hline _, hline _,
    List.forall_mem_nil _⟩

end Sys2Proof.Machine
end

