-- ==== Sys2Proof/Proofs/OwnReadiness.lean ====
section
/-! SUPPORT. The own roster entry under a change of the module port (O9). -/

namespace Sys2Proof.Machine

theorem State.withPort_roster (s : State) (p : Port) : (s.withPort p).member.roster =
    s.member.roster.set s.own { s.member.roster[s.own] with ready := s.member.roster[s.own].present && p.state.ready } := rfl

/-- Settles O9: the port's change writes one entry of the roster. -/
theorem portChangeSetsOwnReadiness : Obligations.PortChangeSetsOwnReadiness := by
  refine fun s p => ⟨rfl, rfl, fun n hn => ?_, ?_, PortState.ready_iff p.state⟩
  · rw [State.withPort_roster]
    exact roster_set_ne _ _ hn
  · rw [State.withPort_roster]
    exact roster_get_set _ _ _

end Sys2Proof.Machine
end

