-- ==== Sys2Proof/Proofs/TurnOrder.lean ====
section
/-! SUPPORT. The next present station and the lowest one (O42), and whose view tells who is present. -/

namespace Sys2Proof.Machine

section

variable {s : State} {n m : Station}

/-- Presence is read from the provisional view in LISTENING and JOINING, from the roster elsewhere (R135). -/
theorem State.inTurn_iff (s : State) (n : Station) : s.inTurn n = true ↔
    if s.member.link = .listening ∨ s.member.link = .joining then s.member.view.getLsbD n.val = true
    else s.member.roster[n].present = true := by
  unfold State.inTurn
  cases s.member.link with
  | listening => exact Iff.rfl
  | joining => exact Iff.rfl
  | _ => exact Iff.rfl

/-- The search of `nextAfter` passes over a station that is not above `n` or does not count. -/
theorem State.passedOver_iff (s : State) (n k : Station) :
    (decide (n < k) && s.inTurn k) = false ↔ (n < k → ¬ s.inTurn k = true) := by
  rw [← Bool.not_eq_true, Bool.and_eq_true, decide_eq_true_eq, not_and]

theorem State.nextAfter_some_iff : s.nextAfter n = some m ↔
    n < m ∧ s.inTurn m = true ∧ ∀ k, n < k → k < m → ¬ s.inTurn k = true := by
  rw [State.nextAfter, Station.all_find, Bool.and_eq_true, decide_eq_true_eq, and_assoc]
  simp only [State.passedOver_iff]
  exact and_congr_right' (and_congr_right' (forall_congr' fun k => imp.swap))

theorem State.nextAfter_none_iff : s.nextAfter n = none ↔ ∀ m, n < m → ¬ s.inTurn m = true := by
  rw [State.nextAfter, Station.all_find_none]
  simp only [State.passedOver_iff]

theorem State.lowest_some_iff : s.lowest = some m ↔ s.inTurn m = true ∧ ∀ k, k < m → ¬ s.inTurn k = true := by
  rw [State.lowest, Station.all_find]
  simp only [Bool.not_eq_true]

theorem State.lowest_none_iff : s.lowest = none ↔ ∀ m, ¬ s.inTurn m = true := by
  rw [State.lowest, Station.all_find_none]
  simp only [Bool.not_eq_true]

end

/-- Settles O42: the four searches, with presence as `State.inTurn_iff` reads it. -/
theorem turnOrder : Obligations.TurnOrder := by
  intro s
  simp only [← State.inTurn_iff]
  exact ⟨fun n m => State.nextAfter_some_iff, fun n => State.nextAfter_none_iff, fun m => State.lowest_some_iff, State.lowest_none_iff⟩

end Sys2Proof.Machine
end

