-- ==== Sys2Proof/Proofs/LineActivity.lean ====
section
/-! SUPPORT. Frame starts and corrupt frames (O41): the activity mark alone, and the bytes that are a corrupt frame. -/

namespace Sys2Proof.Machine

section

variable {s : State}

/-! ### The activity mark (R141, R142) -/

theorem State.tracking_iff (s : State) : s.tracking = true ↔
    s.member.link = .listening ∨ s.member.link = .joining ∨ s.member.link = .member ∨ s.member.link = .leaving := by
  unfold State.tracking
  cases s.member.link <;> simp

/-- The receiver and the activity mark stand so, and nothing else has changed. -/
def State.marked (s : State) (receiving mark : Bool) : State := { s with
  line := { s.line with receiving := receiving }
  member := { s.member with activity := mark } }

theorem State.corrupt_marked (s : State) (receiving : Bool) :
    State.corrupt { s with line := { s.line with receiving := receiving } } = s.marked receiving (s.tracking || s.member.activity) := by
  have hsame : State.tracking { s with line := { s.line with receiving := receiving } } = s.tracking := rfl
  unfold State.corrupt
  rw [hsame]
  cases s.tracking <;> rfl

theorem exec_corruptFrame_heard (hc : s.configured = true) (ht : s.line.tx = none) :
    exec .corruptFrame s = .next (s.marked false (s.tracking || s.member.activity)) := by
  rw [← State.corrupt_marked]
  exact congrArg Host.Outcome.next (if_pos ⟨hc, by rw [ht]; rfl⟩)

theorem exec_receivedFrameStart_heard (hc : s.configured = true) (ht : s.line.tx = none) :
    exec .receivedFrameStart s = .next (s.marked true (s.tracking || s.member.activity)) := by
  rw [← State.corrupt_marked]
  exact congrArg Host.Outcome.next (if_pos ⟨hc, by rw [ht]; rfl⟩)

/-! ### Bytes that are a corrupt frame (R142, R157) -/

theorem receiveFrame_short {own : Station} {bytes : List Byte} (h : bytes.length < 12) : receiveFrame own bytes = .corrupt := by
  have hbody : (bytes.take (bytes.length - 4)).length < 8 := by
    rw [List.length_take]
    omega
  unfold receiveFrame
  simp only [frameOfBody_short hbody, ite_self]

theorem receiveFrame_badCrc {own : Station} {bytes : List Byte}
    (h : bytes.drop (bytes.length - 4) ≠ crcBytes (crc32 (bytes.take (bytes.length - 4)))) : receiveFrame own bytes = .corrupt := if_neg h

theorem receiveFrame_ownSender {own : Station} {f : Frame} (hf : f.fits) (ho : f.sender = own) : receiveFrame own f.encode = .corrupt := by
  obtain ⟨htake, hdrop⟩ := encode_body f
  unfold receiveFrame
  simp only [htake, hdrop, if_true, frameOfBody_body f hf, if_pos ho]

/-! ### While the station drives the line (R165) -/

theorem State.lineGate_driven (h : s.line.tx ≠ none) : ¬ (s.configured = true ∧ s.line.tx.isNone = true) :=
  fun ⟨_, hnone⟩ => h (Option.isNone_iff_eq_none.mp hnone)

theorem State.frameHeard_driven (h : s.line.tx ≠ none) (bytes : List Byte) : s.frameHeard bytes = s :=
  if_pos (Option.isSome_iff_ne_none.mpr h)

end

/-- Settles O41: the mark where turns are tracked, the three causes of a corrupt frame, and the station that drives the line. -/
theorem lineActivity : Obligations.LineActivity := by
  intro s hc tracked heard
  refine ⟨fun ht => ⟨fun htracked => ?_, fun hnot => ?_, fun bytes hbad => ?_, fun f hf ho => ?_⟩,
    fun hdriven => ⟨?_, ?_, fun bytes => ?_⟩⟩
  · have htracking : s.tracking = true := s.tracking_iff.mpr htracked
    rw [exec_corruptFrame_heard hc ht, exec_receivedFrameStart_heard hc ht, htracking, Bool.true_or]
    exact ⟨rfl, rfl⟩
  · have htracking : s.tracking = false := Bool.eq_false_iff.mpr fun h => hnot (s.tracking_iff.mp h)
    rw [exec_corruptFrame_heard hc ht, exec_receivedFrameStart_heard hc ht, htracking, Bool.false_or]
    exact ⟨rfl, rfl⟩
  · exact exec_corrupt hc ht (hbad.elim receiveFrame_short receiveFrame_badCrc)
  · exact exec_corrupt hc ht (receiveFrame_ownSender hf ho)
  · exact congrArg Host.Outcome.next (if_neg (State.lineGate_driven hdriven))
  · exact congrArg Host.Outcome.next (if_neg (State.lineGate_driven hdriven))
  · exact congrArg Host.Outcome.next ((if_pos hc).trans (State.frameHeard_driven hdriven bytes))

end Sys2Proof.Machine
end

