-- ==== Sys2Proof/Proofs/Founding.lean ====
section
/-! SUPPORT. Joining and founding (O48): the OPEN turn of a station that listens or joins, by a silence and by its own row, and the
founding wait. -/

namespace Sys2Proof.Machine

section

variable {s : State} {n : Station}

/-! ### The OPEN turn of a joining station (R138, R140) -/

/-- The JOIN frame of the station (R137, R138): the last of its turn, its bitmap empty. -/
def State.ownJoin (s : State) : Frame := ⟨.join, s.own, true, s.port.state.ready, 0, .none⟩

/-- A station that drives the line with frames of one kind. -/
def State.sending (s : State) (kind : TxKind) (frames : List Frame) : State := { s with
  line := { receiving := false, tx := some ⟨kind, frames⟩ } }

/-- An OPEN turn has begun and is counted (R140). -/
def State.openCounted (s : State) : State := { s with
  member := { s.member with openTurns := s.member.openTurns + 1, holder := none, activity := false } }

theorem State.moveHolder_open_listening (hl : s.member.link = .listening) (hh : s.member.holder ≠ none) :
    s.moveHolder none = (s.held none).joinSending s.member.openTurns :=
  (State.moveHolder_openTurn hh).trans (State.openTurn_listening (s := s.held none) hl)

theorem State.moveHolder_open_joining (hl : s.member.link = .joining) (hh : s.member.holder ≠ none) : s.moveHolder none =
    if s.member.openTurns + 1 = s.own.val % 4 + 3 then s.openCounted.sending .join [s.ownJoin] else s.openCounted := by
  have hsends : (s.held none).joinSending (s.member.openTurns + 1) = s.openCounted.sending .join [s.ownJoin] := by
    rw [State.joinSending, ← hl]
    rfl
  have hcounts : { s.held none with member := { (s.held none).member with link := .joining, openTurns := s.member.openTurns + 1 } } =
      s.openCounted := by
    rw [← hl]
    rfl
  rw [← hsends, ← hcounts, State.moveHolder_openTurn hh]
  exact State.openTurn_joining (s := s.held none) hl

/-! ### The silence event that begins it (R145) -/

theorem State.silence_opens (hl : s.member.link = .listening ∨ s.member.link = .joining) (hh : s.member.holder = some n)
    (hnext : s.nextAfter n = none) : s.silence = s.moveHolder none := by
  rw [State.silence_turn hh, State.silentTurn_hearing hl, hnext]

theorem exec_silenceEvent_opens (ht : s.line.tx = none) (hr : s.line.receiving = false)
    (hl : s.member.link = .listening ∨ s.member.link = .joining) (hh : s.member.holder = some n) (hnext : s.nextAfter n = none) :
    exec .silenceEvent s = .next (s.moveHolder none) := by
  rw [exec_silenceEvent_runs (State.silenceTimerRuns_of ht hr (.inr (.inr hl))), State.silence_opens hl hh hnext]

/-! ### JOIN_RESEND (R140) -/

theorem State.joinResendDue_iff : s.joinResendDue = true ↔ s.member.link = .joining ∧ s.line.tx = none ∧ s.member.holder ≠ none ∧
    s.member.openTurns + 1 = s.own.val % 4 + 3 := by
  simp only [State.joinResendDue, Bool.and_eq_true, decide_eq_true_eq, Option.isNone_iff_eq_none, Option.isSome_iff_ne_none,
    and_assoc]
  exact Iff.rfl

theorem exec_joinResend_due (hl : s.member.link = .joining) (ht : s.line.tx = none) (hh : s.member.holder ≠ none)
    (hdue : s.member.openTurns + 1 = s.own.val % 4 + 3) : exec .joinResend s = .next (s.openCounted.sending .join [s.ownJoin]) := by
  have hruns : exec .joinResend s = .next (s.moveHolder none) :=
    congrArg Host.Outcome.next (if_pos (State.joinResendDue_iff.mpr ⟨hl, ht, hh, hdue⟩))
  rw [hruns, State.moveHolder_open_joining hl hh, if_pos hdue]

theorem exec_joinResend_idle (h : ¬ s.joinResendDue = true) : exec .joinResend s = .next s := congrArg Host.Outcome.next (if_neg h)

/-! ### The founding wait (R136, R137) -/

theorem State.foundingWaitRuns_iff : s.foundingWaitRuns = true ↔ s.member.link = .listening ∨ s.member.link = .joining := by
  unfold State.foundingWaitRuns
  cases s.member.link <;> simp

/-- FOUNDING, its JOIN behind the frames still on the line (log 11). -/
theorem State.found_eq (s : State) : s.found =
    State.sending { s with member := { s.member with link := .founding, view := 0, openTurns := 0 } } .founding
      (s.line.tx.elim [] Transmission.frames ++ [s.ownJoin]) := by
  unfold State.found
  cases s.line.tx <;> rfl

end

/-- Settles O48: the OPEN turn is the move of the holder to OPEN, whichever event makes it. -/
theorem joiningAndFounding : Obligations.JoiningAndFounding := by
  constructor
  · intro s joinFrame
    refine ⟨fun n hl ht hr hh hnext => ?_, fun n hl ht hh => ⟨fun hdue => ?_, fun hearly => ?_⟩, fun hl => ?_, fun hl => ?_,
      fun hlistening hjoining => ?_⟩
    · rw [exec_silenceEvent_opens ht hr (.inl hl) hh hnext,
        State.moveHolder_open_listening hl (by rw [hh]; exact Option.some_ne_none n)]
      rfl
    · exact exec_joinResend_due hl ht (by rw [hh]; exact Option.some_ne_none n) hdue
    · refine exec_joinResend_idle fun h => ?_
      obtain ⟨-, -, -, hdue⟩ := State.joinResendDue_iff.mp h
      exact hearly hdue
    · refine exec_joinResend_idle fun h => ?_
      obtain ⟨hjoining, -⟩ := State.joinResendDue_iff.mp h
      exact hl hjoining
    · exact congrArg Host.Outcome.next ((if_pos (State.foundingWaitRuns_iff.mpr hl)).trans s.found_eq)
    · exact congrArg Host.Outcome.next (if_neg fun h => (State.foundingWaitRuns_iff.mp h).elim hlistening hjoining)
  · intro s n hl ht hr hh hnext counted
    have hheld : s.member.holder ≠ none := by rw [hh]; exact Option.some_ne_none n
    refine ⟨fun hearly => ?_, fun hdue => ?_⟩
    · rw [exec_silenceEvent_opens ht hr (.inr hl) hh hnext, State.moveHolder_open_joining hl hheld, if_neg hearly]
      rfl
    · have hsilence : exec .silenceEvent s = .next (s.openCounted.sending .join [s.ownJoin]) := by
        rw [exec_silenceEvent_opens ht hr (.inr hl) hh hnext, State.moveHolder_open_joining hl hheld, if_pos hdue]
      exact ⟨hsilence.trans (exec_joinResend_due hl ht hheld hdue).symm, hsilence⟩

end Sys2Proof.Machine
end

