-- ==== Sys2Proof/Proofs/HeaderFrames.lean ====
section
/-! SUPPORT. Frames that are taken by their header alone, and items that are passed over (R142, R157, R158, R190), for O43: how the
bytes of a body are heard, and when two frames act alike. -/

namespace Sys2Proof.Machine

section

variable {s : State} {f g : Frame}

/-! ### Frames that act alike -/

/-- The PASS frame of a frame's header. -/
def Frame.bare (f : Frame) : Frame := { f with kind := .pass, payload := .none }

/-- A frame that is neither a JOIN nor a LEAVE. -/
def Frame.plain (f : Frame) : Prop := f.kind ≠ .join ∧ f.kind ≠ .leave

theorem Frame.bare_plain (f : Frame) : f.bare.plain := ⟨nofun, nofun⟩

theorem State.rosterEffect_bare (hf : f.plain) : s.rosterEffect f = s.rosterEffect f.bare := by
  obtain ⟨hj, hl⟩ := hf
  obtain ⟨hj', hl'⟩ := f.bare_plain
  by_cases hp : s.member.roster[f.sender].present = true
  · exact (State.rosterEffect_present hj hl hp).trans (State.rosterEffect_present hj' hl' hp).symm
  · have habsent := Bool.eq_false_of_not_eq_true hp
    exact (State.rosterEffect_absent hj hl habsent).trans (State.rosterEffect_absent hj' hl' habsent).symm

theorem State.frameHolder_bare (hf : f.plain) : s.frameHolder f = s.frameHolder f.bare :=
  (if_neg fun h => hf.1 h.1).trans (if_neg fun h => f.bare_plain.1 h.1 : s.frameHolder f.bare = _).symm

theorem State.memberFrame_bareHeader (hf : f.plain) (hp : ∀ u : State, u.takePayload f = u) : s.memberFrame f = s.memberFrame f.bare := by
  rw [State.memberFrame_bare (f := f.bare) rfl, ← State.rosterEffect_bare hf, ← State.frameHolder_bare hf, State.memberFrame, hp, ite_self]

/-- A frame that is neither a JOIN nor a LEAVE, and of which nothing beside the header is used, acts as the PASS frame of its header. -/
theorem State.intactFrame_bare (hf : f.plain) (hp : ∀ u : State, u.takePayload f = u) : s.intactFrame f = s.intactFrame f.bare := by
  have hmember (u : State) : u.memberFrame f = u.memberFrame f.bare := State.memberFrame_bareHeader hf hp
  have hhearing : s.hearingFrame f = s.hearingFrame f.bare := by
    have hviews (u : State) : u.frameHolder f = u.frameHolder f.bare := State.frameHolder_bare hf
    have hconfirm : s.confirm f = s.confirm f.bare := rfl
    have hjoin : f.bare.kind ≠ .join := nofun
    unfold State.hearingFrame
    simp only [hmember, hviews, hconfirm, ne_eq, hf.1, hjoin]
    rfl
  unfold State.intactFrame
  rw [hhearing, hmember]

/-! ### The bytes of a body -/

/-- What the Link Port reports of a body with a good CRC-32 (R142, R157). -/
def reportOf (own : Station) : Option Frame → LinkReport
  | some f => if f.sender = own then .corrupt else .intact f
  | none => .corrupt

theorem receiveFrame_body (own : Station) (body : List Byte) :
    receiveFrame own (body ++ crcBytes (crc32 body)) = reportOf own (frameOfBody body) := by
  have hlen : (body ++ crcBytes (crc32 body)).length - 4 = body.length := by
    rw [List.length_append, crcBytes_length, Nat.add_sub_cancel]
  unfold receiveFrame
  simp only [hlen, List.take_left, List.drop_left, if_true]
  cases frameOfBody body <;> rfl

/-- The bytes of a body are heard as the frame `g`, where the frame read from them acts as `g` does. -/
theorem exec_heardAs {body : List Byte} (hbody : frameOfBody body = some f) (hg : g.fits) (hsender : f.sender = g.sender)
    (hacts : ∀ u : State, u.intactFrame f = u.intactFrame g) :
    exec (.intactFrameReceived (body ++ crcBytes (crc32 body))) s = exec (.intactFrameReceived g.encode) s := by
  have hheard : s.frameHeard (body ++ crcBytes (crc32 body)) = s.frameHeard g.encode := by
    unfold State.frameHeard
    rw [Frame.encode, receiveFrame_body, receiveFrame_body, hbody, frameOfBody_body g hg, reportOf, reportOf, hsender]
    by_cases ho : g.sender = s.own
    · rw [if_pos ho, if_pos ho]
    · rw [if_neg ho, if_neg ho]
      simp only [hacts]
  exact congrArg (fun u : State => Host.Outcome.next (if s.configured then u else s)) hheard

/-! ### The header of a body -/

theorem hiNibble_eq (b : Byte) : hiNibble b = b.toNat / 16 := by
  have hlt := b.isLt
  simp only [hiNibble, bitField, Nat.shiftRight_eq_div_pow]
  omega

theorem station_loNibble (b : Byte) : (Fin.ofNat 16 (loNibble b) : Station) = Fin.ofNat 16 b.toNat := by
  apply Fin.ext
  simp only [loNibble, bitField, Nat.shiftRight_eq_div_pow, Fin.ofNat]
  omega

theorem ofBe16_append (a b : Byte) : BitVec.ofNat 16 (ofBe16 a b) = a ++ b := by
  apply BitVec.eq_of_toNat_eq
  have ha := a.isLt
  have hb := b.isLt
  rw [BitVec.toNat_append, ← Nat.shiftLeft_add_eq_or_of_lt hb, Nat.shiftLeft_eq, BitVec.toNat_ofNat, ofBe16]
  omega

/-- The frame of the first four header bytes, with a kind and a payload. -/
def headed (b0 b1 b2 b3 : Byte) (k : FrameKind) (x : Payload) : Frame :=
  ⟨k, Fin.ofNat 16 b0.toNat, b1.getLsbD 7, b1.getLsbD 6, b2 ++ b3, x⟩

theorem frameOfBody_headed (b0 b1 b2 b3 b4 b5 b6 b7 : Byte) (rest : List Byte) {k : FrameKind} (hk : frameKindOfCode (b0.toNat / 16) = k) :
    frameOfBody (b0 :: b1 :: b2 :: b3 :: b4 :: b5 :: b6 :: b7 :: rest) =
      some (headed b0 b1 b2 b3 k (framePayload k (rest.length + 12) b4 b5 b6 b7 rest)) := by
  rw [headed, ← station_loNibble, ← ofBe16_append, ← hk, ← hiNibble_eq]
  rfl

theorem frameKindOfCode_reserved {n : Nat} (h : n = 0 ∨ 5 < n) : frameKindOfCode n = .reserved := by
  rcases h with rfl | h
  · rfl
  · obtain ⟨m, rfl⟩ := Nat.exists_eq_add_of_le' h
    rfl

/-! ### The payload that is not used (R157) -/

theorem framePayload_badCount {n : Nat} {b4 : Byte} (b5 b6 b7 : Byte) {rest : List Byte}
    (h : b4.toNat = 0 ∨ 16 < b4.toNat ∨ n ≠ 12 * b4.toNat) : framePayload .control (n + 12) b4 b5 b6 b7 rest = .none := by
  refine if_neg fun ⟨hmin, hmax, hlen⟩ => ?_
  have hmax' : b4.toNat ≤ 16 := hmax
  omega

theorem framePayload_badLength {n : Nat} (b4 b5 b6 b7 : Byte) {rest : List Byte} (h : n ≠ 512) :
    framePayload .data (n + 12) b4 b5 b6 b7 rest = .none := by
  refine if_neg fun hlen => ?_
  have hlen' : n + 12 = 12 + 512 := hlen
  omega

theorem framePayload_items {n : Nat} {b4 : Byte} (b5 b6 b7 : Byte) {rest : List Byte} (hmin : 1 ≤ b4.toNat) (hmax : b4.toNat ≤ 16)
    (h : n = 12 * b4.toNat) : framePayload .control (n + 12) b4 b5 b6 b7 rest = .items (decodeItems b4.toNat rest) :=
  if_pos ⟨hmin, hmax, by omega⟩

theorem State.takePayload_none (h : f.payload = .none) (u : State) : u.takePayload f = u := by rw [State.takePayload, h]

theorem State.takePayload_noItems (h : f.payload = .items []) (u : State) : u.takePayload f = u := by
  rw [State.takePayload, h]
  rfl

/-! ### Items that are passed over (R158, R190) -/

/-- The 12 bytes of an item that is passed over: of a reserved kind, or a REPLY or OUTCOME whose code names nothing. -/
def passedOver (x : List Byte) : Prop := x.length = 12 ∧
  let k : Nat := (x.getD 0 0).toNat / 16
  let c : Nat := (x.getD 3 0).toNat
  k = 0 ∨ 6 < k ∨ (k = 2 ∧ 4 < c) ∨ (k = 4 ∧ (c = 0 ∨ 16 < c))

theorem reasonOfCode_none {c : Nat} (h : 4 < c) : reasonOfCode c = none := by
  obtain ⟨m, rfl⟩ := Nat.exists_eq_add_of_le' h
  rfl

theorem outcomeOfCode_none {c : Nat} (h : c = 0 ∨ 16 < c) : outcomeOfCode c = none := by
  rcases h with rfl | h
  · rfl
  · obtain ⟨m, rfl⟩ := Nat.exists_eq_add_of_le' h
    rfl

theorem itemBodyOf_reserved {k : Nat} (h : k = 0 ∨ 6 < k) (dir : Bool) (b3 b4 b5 b6 b7 b8 b9 : Byte) :
    itemBodyOf k dir b3 b4 b5 b6 b7 b8 b9 = none := by
  rcases h with rfl | h
  · rfl
  · obtain ⟨m, rfl⟩ := Nat.exists_eq_add_of_le' h
    rfl

theorem itemBodyOf_badReply {b3 : Byte} (h : 4 < b3.toNat) (dir : Bool) (b4 b5 b6 b7 b8 b9 : Byte) :
    itemBodyOf 2 dir b3 b4 b5 b6 b7 b8 b9 = none := by
  have hne : b3 ≠ 0 := fun hzero => by
    rw [hzero] at h
    exact absurd h (by decide)
  refine (if_neg hne).trans ?_
  rw [reasonOfCode_none h]
  rfl

theorem itemBodyOf_badOutcome {b3 : Byte} (h : b3.toNat = 0 ∨ 16 < b3.toNat) (dir : Bool) (b4 b5 b6 b7 b8 b9 : Byte) :
    itemBodyOf 4 dir b3 b4 b5 b6 b7 b8 b9 = none := by
  show (outcomeOfCode b3.toNat).map _ = none
  rw [outcomeOfCode_none h]
  rfl

theorem decodeItem_passedOver {x : List Byte} (h : passedOver x) : decodeItem x = none := by
  obtain ⟨hlen, hcode⟩ := h
  match x, hlen with
  | [b0, b1, b2, b3, b4, b5, b6, b7, b8, b9, b10, b11], _ =>
    have hbody : itemBodyOf (hiNibble b0) (b1.getLsbD 3) b3 b4 b5 b6 b7 b8 b9 = none := by
      rw [hiNibble_eq]
      rcases hcode with hk | hk | ⟨hk, hc⟩ | ⟨hk, hc⟩
      · exact itemBodyOf_reserved (.inl hk) ..
      · exact itemBodyOf_reserved (.inr hk) ..
      · exact (congrArg (itemBodyOf · _ _ _ _ _ _ _ _) hk).trans (itemBodyOf_badReply hc ..)
      · exact (congrArg (itemBodyOf · _ _ _ _ _ _ _ _) hk).trans (itemBodyOf_badOutcome hc ..)
    rw [decodeItem, hbody]
    rfl

/-- The 12 bytes of an item, or of one that is passed over. -/
abbrev slotBytes : Sum Item (List Byte) → List Byte := Sum.elim Item.encode id

/-- A slot holds an item whose numbers fit, or one that is passed over. -/
def slotSound : Sum Item (List Byte) → Prop := Sum.elim (fun i => i.body.fits) passedOver

theorem slotBytes_length {x : Sum Item (List Byte)} (h : slotSound x) : (slotBytes x).length = 12 := by
  cases x with
  | inl i => exact i.encode_length
  | inr x => exact h.1

theorem decodeItem_slot {x : Sum Item (List Byte)} (h : slotSound x) : decodeItem (slotBytes x) = x.getLeft? := by
  cases x with
  | inl i => exact decodeItem_encode i h
  | inr x => exact decodeItem_passedOver h

theorem slots_length {l : List (Sum Item (List Byte))} (h : ∀ x ∈ l, slotSound x) : (l.flatMap slotBytes).length = 12 * l.length := by
  induction l with
  | nil => rfl
  | cons x l ih =>
    obtain ⟨hx, hl⟩ := List.forall_mem_cons.mp h
    rw [List.flatMap_cons, List.length_append, slotBytes_length hx, ih hl, List.length_cons]
    omega

/-- Of slots laid out one after another, the items are read back and the others passed over. -/
theorem decodeItems_slots {l : List (Sum Item (List Byte))} (h : ∀ x ∈ l, slotSound x) :
    decodeItems l.length (l.flatMap slotBytes) = l.filterMap Sum.getLeft? := by
  induction l with
  | nil => rfl
  | cons x l ih =>
    obtain ⟨hx, hl⟩ := List.forall_mem_cons.mp h
    have hlen := slotBytes_length hx
    rw [List.flatMap_cons, List.length_cons, decodeItems, List.take_left' hlen, List.drop_left' hlen, decodeItem_slot hx, ih hl,
      List.filterMap_cons]
    cases x <;> rfl

theorem slots_items_fit {l : List (Sum Item (List Byte))} (h : ∀ x ∈ l, slotSound x) : ∀ i ∈ l.filterMap Sum.getLeft?, i.body.fits := by
  intro i hi
  obtain ⟨x, hx, hleft⟩ := List.mem_filterMap.mp hi
  have hsound := h x hx
  rw [Sum.getLeft?_eq_some_iff.mp hleft] at hsound
  exact hsound

end

end Sys2Proof.Machine
end

