-- ==== Sys2Proof/Proofs/FramesOnTheLink.lean ====
section
/-! SUPPORT. An intact frame other than a JOIN and a LEAVE on the link (O43): the roster it leaves, its payload, and the turn after it. -/

namespace Sys2Proof.Machine

section

variable {s : State} {f : Frame}

/-! ### The roster (R143, R150) -/

/-- The state in which the roster has taken the header of a frame, the receiver idle: a station absent before is added. -/
def State.rostered (s : State) (f : Frame) : State :=
  if s.member.roster[f.sender].present then { s with
    line := { s.line with receiving := false }
    member := { s.member with roster := s.member.roster.set f.sender ⟨true, 0, f.ready⟩ } }
  else { s with
    line := { s.line with receiving := false }
    member := { s.member with roster := s.member.roster.set f.sender ⟨true, 0, f.ready⟩, generation := s.member.generation + 1 }
    host := { s.host with flags := s.host.flags ||| 4 } }

theorem State.rosterEffect_plain (hf : f.plain) : s.receiverIdle.rosterEffect f = s.rostered f := by
  unfold State.rostered
  split
  · next hp => exact State.rosterEffect_present (s := s.receiverIdle) hf.1 hf.2 hp
  · next hp => exact State.rosterEffect_absent (s := s.receiverIdle) hf.1 hf.2 (Bool.eq_false_of_not_eq_true hp)

/-- What the roster's part of a frame leaves as it is. -/
theorem State.rostered_keeps (s : State) (f : Frame) : (s.rostered f).own = s.own ∧ (s.rostered f).member.link = s.member.link ∧
    (s.rostered f).port = s.port := by
  unfold State.rostered
  split <;> exact ⟨rfl, rfl, rfl⟩

/-! ### The frame at a MEMBER and at a LEAVING station (R148, R158) -/

theorem exec_plainFrame_member (hc : s.configured = true) (ht : s.line.tx = none) (hl : s.member.link = .member) (hf : f.fits)
    (hn : f.sender ≠ s.own) (hk : f.plain) :
    exec (.intactFrameReceived f.encode) s = .next (((s.rostered f).takePayload f).frameHolder f) := by
  obtain ⟨-, hlink, -⟩ := s.rostered_keeps f
  rw [exec_frame_idle hc ht hf hn, State.intactFrame_onLink (s := s.receiverIdle) (.inl hl), State.memberFrame, State.rosterEffect_plain hk,
    if_pos (hlink.trans hl)]

theorem exec_plainFrame_leaving (hc : s.configured = true) (ht : s.line.tx = none) (hl : s.member.link = .leaving) (hf : f.fits)
    (hn : f.sender ≠ s.own) (hk : f.plain) : exec (.intactFrameReceived f.encode) s = .next ((s.rostered f).frameHolder f) := by
  obtain ⟨-, hlink, -⟩ := s.rostered_keeps f
  have hnot : (s.rostered f).member.link ≠ .member := by rw [hlink, hl]; exact nofun
  rw [exec_frame_idle hc ht hf hn, State.intactFrame_onLink (s := s.receiverIdle) (.inr hl), State.memberFrame, State.rosterEffect_plain hk,
    if_neg hnot]

/-- The turn that comes to a LEAVING station after an event that has kept its number and its port (R148). -/
theorem State.ownTurn_leavesAs {u : State} {w : BitVec 16} (hown : u.own = s.own) (hport : u.port = s.port) (hl : u.member.link = .leaving)
    (hw : ∀ n : Station, w.getLsbD n.val = (u.member.roster[n].present && decide (n ≠ s.own))) : u.ownTurn = { u with
      line := { receiving := false, tx := some ⟨.leave, [⟨.leave, s.own, true, s.port.state.ready, w, .none⟩]⟩ } } := by
  rw [← hown] at hw ⊢
  rw [← hport]
  exact State.ownTurn_leaving hw hl

end

/-! ### The frame of a header (R157, R158, R190) -/

section

variable {s : State} {b0 b1 b2 b3 b4 b5 b6 b7 : Byte} {rest : List Byte}

/-- The bytes act as the frame of their header with the kind `k` and the payload `x`. -/
def HeardAs (s : State) (b0 b1 b2 b3 b4 b5 b6 b7 : Byte) (rest : List Byte) (k : FrameKind) (x : Payload) : Prop :=
  let body : List Byte := b0 :: b1 :: b2 :: b3 :: b4 :: b5 :: b6 :: b7 :: rest
  exec (.intactFrameReceived (body ++ crcBytes (crc32 body))) s = exec (.intactFrameReceived (headed b0 b1 b2 b3 k x).encode) s

/-- A frame is heard as the one that its kind and its usable payload make. -/
theorem heardAs_itself {k : FrameKind} {x : Payload} (hk : frameKindOfCode (b0.toNat / 16) = k)
    (hx : framePayload k (rest.length + 12) b4 b5 b6 b7 rest = x) (hfits : (headed b0 b1 b2 b3 k x).fits) :
    HeardAs s b0 b1 b2 b3 b4 b5 b6 b7 rest k x :=
  exec_heardAs (frameOfBody_headed b0 b1 b2 b3 b4 b5 b6 b7 rest hk) hfits rfl fun u => by rw [hx]

/-- A frame whose payload is not used is heard as the PASS frame of its header. -/
theorem heardAs_pass {k : FrameKind} {x : Payload} (hk : frameKindOfCode (b0.toNat / 16) = k)
    (hx : framePayload k (rest.length + 12) b4 b5 b6 b7 rest = x) (hj : k ≠ .join) (hl : k ≠ .leave)
    (hbare : x = .none ∨ x = .items []) : HeardAs s b0 b1 b2 b3 b4 b5 b6 b7 rest .pass .none := by
  refine exec_heardAs (frameOfBody_headed b0 b1 b2 b3 b4 b5 b6 b7 rest hk) trivial rfl fun u => ?_
  rw [hx]
  exact State.intactFrame_bare (f := headed b0 b1 b2 b3 k x) ⟨hj, hl⟩
    (fun v => hbare.elim (State.takePayload_none · v) (State.takePayload_noItems · v))

/-- A CONTROL frame acts as the one that carries its usable items. -/
theorem heardAs_items {l : List (Sum Item (List Byte))} (hk : b0.toNat / 16 = 4) (hcount : b4.toNat = l.length) (hmin : 1 ≤ l.length)
    (hmax : l.length ≤ 16) (hrest : rest = l.flatMap slotBytes) (hsound : ∀ x ∈ l, slotSound x) :
    (l.filterMap Sum.getLeft? = [] → HeardAs s b0 b1 b2 b3 b4 b5 b6 b7 rest .pass .none) ∧
    (l.filterMap Sum.getLeft? ≠ [] → HeardAs s b0 b1 b2 b3 b4 b5 b6 b7 rest .control (.items (l.filterMap Sum.getLeft?))) := by
  have hkind : frameKindOfCode (b0.toNat / 16) = .control := by rw [hk]; rfl
  have hlen : rest.length = 12 * b4.toNat := by rw [hrest, slots_length hsound, hcount]
  have hitems : framePayload .control (rest.length + 12) b4 b5 b6 b7 rest = .items (l.filterMap Sum.getLeft?) := by
    rw [framePayload_items b5 b6 b7 (hcount ▸ hmin) (hcount ▸ hmax) hlen, hrest, hcount, decodeItems_slots hsound]
  refine ⟨fun hnone => ?_, fun hsome => ?_⟩
  · exact heardAs_pass hkind hitems nofun nofun (.inr (by rw [hnone]))
  · exact heardAs_itself hkind hitems ⟨List.length_pos_iff.mpr hsome, (List.length_filterMap_le _ _).trans hmax, slots_items_fit hsound⟩

end

/-- Settles O43: a frame on the link by the roster, the payload and `turnPasses_frameHolder`; the bytes of a body by what is read from
their header. -/
theorem intactFrameAtAMember : Obligations.IntactFrameAtAMember := by
  refine ⟨?_, ?_, ?_⟩
  · intro s f hc ht hl hf hn hj hleave rostered taken held
    obtain ⟨hown, hlink, -⟩ := s.rostered_keeps f
    have htaken : (s.rostered f).takePayload f = taken := by
      unfold State.takePayload
      rw [hown]
      rfl
    have hexec := exec_plainFrame_member hc ht hl hf hn ⟨hj, hleave⟩
    rw [htaken] at hexec
    refine ⟨fun hlast => ?_, fun hlast hmember => ?_⟩
    · rw [hexec, State.frameHolder_notLast (fun hjoin => absurd hjoin hj) hlast]
      rfl
    · have hstays : taken.member.link = .member := by
        refine hmember.elim (fun hbare => ?_) id
        rw [← htaken, State.takePayload_none hbare, hlink, hl]
      obtain ⟨-, hpasses⟩ := turnPasses_frameHolder (f := f) (own := taken.own) (turn := State.memberTurn) (.inl hstays) rfl
        (fun hjoin => absurd hjoin hj) fun u hu => State.ownTurn_notLeaving (by rw [hu, hstays]; exact nofun)
      obtain ⟨hnext, hopens, hturn⟩ := hpasses hlast
      rw [hexec]
      refine ⟨hnext, hopens, ?_⟩
      rintro m hm rfl
      exact hturn hm
  · intro s f hc ht hl hf hn hj hleave rostered holder
    obtain ⟨hown, hlink, hport⟩ := s.rostered_keeps f
    have hleaving : (s.rostered f).member.link = .leaving := hlink.trans hl
    obtain ⟨hfirst, hpasses⟩ := turnPasses_frameHolder (f := f) (s := s.rostered f) (turn := State.ownTurn) (.inr hleaving) hown
      (fun hjoin => absurd hjoin hj) fun _ _ => rfl
    rw [← exec_plainFrame_leaving hc ht hl hf hn ⟨hj, hleave⟩] at hfirst hpasses
    refine ⟨hfirst, fun hlast => ?_⟩
    obtain ⟨hnext, hopens, hturn⟩ := hpasses hlast
    refine ⟨hnext, hopens, fun hm w hw => (hturn hm).trans (congrArg Host.Outcome.next ?_)⟩
    exact State.ownTurn_leavesAs (u := ((s.rostered f).heardFrom f.sender).held (some s.own)) hown hport hleaving hw
  · intro s b0 b1 b2 b3 b4 b5 b6 b7 rest code body actsAs
    refine ⟨fun hcode => ?_, fun hcode => ?_, fun hcode => ?_, fun hcode hcount => ?_, fun hcode hlen => ?_,
      fun l hcode hcount hmin hmax hrest hitems hothers => ?_⟩
    · rcases hcode with hpass | hreserved
      · exact heardAs_itself (k := .pass) (congrArg frameKindOfCode hpass) rfl trivial
      · exact heardAs_pass (frameKindOfCode_reserved hreserved) rfl nofun nofun (.inl rfl)
    · exact heardAs_itself (k := .join) (congrArg frameKindOfCode hcode) rfl trivial
    · exact heardAs_itself (k := .leave) (congrArg frameKindOfCode hcode) rfl trivial
    · exact heardAs_pass (k := .control) (congrArg frameKindOfCode hcode) (framePayload_badCount b5 b6 b7 hcount) nofun nofun (.inl rfl)
    · exact heardAs_pass (k := .data) (congrArg frameKindOfCode hcode) (framePayload_badLength b4 b5 b6 b7 hlen) nofun nofun (.inl rfl)
    · refine heardAs_items hcode hcount hmin hmax hrest fun x hx => ?_
      cases x with
      | inl i => exact hitems i hx
      | inr x => exact hothers x hx

end Sys2Proof.Machine
end

