-- ==== Sys2Proof/Proofs/FramesReadBack.lean ====
section
/-! SUPPORT. Frames that are laid out read back (O57): the report of a frame's bytes, the length of a frame, and a body under four bytes
that are not its CRC-32 (R155, R156, R157). -/

namespace Sys2Proof.Machine

/-! ### What is heard of a frame that is laid out (R157) -/

theorem receiveFrame_encode (own : Station) {f : Frame} (hf : f.fits) :
    receiveFrame own f.encode = if f.sender = own then .corrupt else .intact f := by
  rw [Frame.encode, receiveFrame_body, frameOfBody_body f hf, reportOf]

/-- The frame is read from the bytes before the CRC-32, so equal bytes are of one frame. -/
theorem Frame.encode_inj {f g : Frame} (hf : f.fits) (hg : g.fits) (h : g.encode = f.encode) : g = f := by
  have hbody : g.body = f.body := List.append_inj_left' h rfl
  have hread : some g = some f := by rw [← frameOfBody_body g hg, ← frameOfBody_body f hf, hbody]
  exact Option.some.inj hread

/-- Any four bytes but the CRC-32 of a body make it corrupt. -/
theorem receiveFrame_otherCrc (own : Station) {body c : List Byte} (hlen : c.length = 4) (hc : c ≠ crcBytes (crc32 body)) :
    receiveFrame own (body ++ c) = .corrupt := by
  have hcut : (body ++ c).length - 4 = body.length := by rw [List.length_append, hlen, Nat.add_sub_cancel]
  apply receiveFrame_badCrc
  rw [hcut, List.take_left, List.drop_left]
  exact hc

/-! ### The length of a frame (R155) -/

theorem Payload.headerBytes_length (p : Payload) : p.headerBytes.length = 4 := by cases p <;> rfl

/-- Eight bytes of header and four of CRC-32 stand around the payload. -/
theorem Frame.encode_length (f : Frame) : f.encode.length = 12 + f.payload.bytes.length := by
  simp only [Frame.encode, Frame.body, be16, List.length_append, List.length_cons, List.length_nil, Payload.headerBytes_length,
    crcBytes_length]
  omega

theorem Frame.fits_blockLength {f : Frame} {d : DataBlock} (hf : f.fits) (hd : f.payload = .data d) :
    d.bytes.length = Limit.blockBytes := by
  unfold Frame.fits at hf
  rw [hd] at hf
  cases hk : f.kind <;> rw [hk] at hf
  case data => exact hf.2
  all_goals exact hf.elim

/-- Settles O57: what is heard of a frame, and that bytes tell their frame, from the reading of its body; its length from its payload's. -/
theorem framesReadBack : Obligations.FramesReadBack := by
  intro own f hf
  refine ⟨receiveFrame_encode own hf, fun g hg h => Frame.encode_inj hf hg h, ?_, fun c hlen hother => ?_⟩
  · rw [f.encode_length]
    cases hp : f.payload with
    | none => rfl
    | items l => exact congrArg (12 + ·) (items_length l)
    | data d => exact congrArg (12 + ·) (Frame.fits_blockLength hf hp)
  · have hcrc : c ≠ crcBytes (crc32 f.body) := fun h => hother (congrArg (f.body ++ ·) h)
    exact receiveFrame_otherCrc own hlen hcrc

end Sys2Proof.Machine
end

