-- ==== Sys2Proof/Proofs/ScriptLoads.lean ====
section
/-! SUPPORT. The load of a maintenance script (O19): how a load is judged, and the script that the staged steps make (R174, R191). -/

namespace Sys2Proof.Machine

section

variable {s : State} {w : Word}

theorem exec_maintLoad (h : s.configured = true) : exec (.maintLoad w) s = .next (s.loadScript w) :=
  congrArg Host.Outcome.next (State.hosted_configured h _)

/-! ### The script of the staged steps -/

/-- What a staged step of a valid kind stands for (13 §13.2). -/
theorem StagedStep.step_valid {x : StagedStep} (h : x.kind ≠ 0) : x.step = some
    (if x.kind = 1 then .write x.slot x.value else if x.kind = 2 then .read x.slot else .waitReady) := by
  obtain ⟨kind, slot, value⟩ := x
  have hkinds : ∀ k : BitVec 2, k = 0 ∨ k = 1 ∨ k = 2 ∨ k = 3 := by decide
  obtain rfl | rfl | rfl | rfl := hkinds kind
  · exact absurd rfl h
  all_goals rfl

/-- Valid steps, as many as the count names, make a script of that length. -/
theorem scriptOf_valid {steps : Vector StagedStep 16} {n : Nat} (h1 : 1 ≤ n) (h16 : n ≤ 16)
    (hkind : ∀ j : Fin 16, j.val < n → steps[j].kind ≠ 0) :
    ∃ script, scriptOf steps n = some script ∧ script.length = n ∧ ∀ j : Fin 16, j.val < n → script[j.val]? = steps[j].step := by
  have hvalid : ∀ x ∈ steps.toList.take n, x.step ≠ none := by
    intro x hx
    obtain ⟨i, hi, rfl⟩ := List.mem_take_iff_getElem.mp hx
    have hin : i < n := (lt_min_iff.mp hi).1
    exact fun hnone => hkind ⟨i, hin.trans_le h16⟩ hin ((StagedStep.step_none _).mp (by simpa using hnone))
  obtain ⟨script, hscript, hlen, hget⟩ := mapM_some StagedStep.step _ hvalid
  refine ⟨script, (if_pos ⟨h1, h16⟩).trans hscript, by simp [hlen, h16], fun j hj => ?_⟩
  rw [hget, List.getElem?_take_of_lt hj, Vector.getElem?_toList, Vector.getElem?_eq_getElem j.isLt]
  rfl

/-! ### How a load is judged (R174) -/

/-- The count a load names is the low field of its word. -/
theorem bitField_count (w : Word) : bitField w 0 5 = (w.truncate 5 : BitVec 5).toNat := by
  simp [bitField]

theorem State.loadScript_busy (h : s.port.result = .posted ∨ s.port.result = .running) : s.loadScript w = s.hostFault .maintBusy :=
  if_pos (s.port.scriptBusy_iff.mpr h)

theorem State.loadScript_bad (hp : s.port.result ≠ .posted) (hr : s.port.result ≠ .running)
    (h : scriptOf s.host.steps (w.truncate 5 : BitVec 5).toNat = none) : s.loadScript w = s.hostFault .badScript := by
  refine (if_neg (mt s.port.scriptBusy_iff.mp (not_or.mpr ⟨hp, hr⟩))).trans ?_
  rw [bitField_count, h]

/-- The station that holds a new script. -/
def State.holdsScript (s : State) (count : BitVec 5) (script : List ScriptStep) : State :=
  ({ s with host := { s.host with stepCount := count } } : State).withPort
    { s.port with script := some script, spent := false, result := .none, results := [] }

theorem State.loadScript_taken {script : List ScriptStep} (hp : s.port.result ≠ .posted) (hr : s.port.result ≠ .running)
    (h : scriptOf s.host.steps (w.truncate 5 : BitVec 5).toNat = some script) : s.loadScript w = s.holdsScript (w.truncate 5) script := by
  refine (if_neg (mt s.port.scriptBusy_iff.mp (not_or.mpr ⟨hp, hr⟩))).trans ?_
  rw [bitField_count, h]
  rfl

end

/-- Settles O19: the valid steps make a script, and the load that finds it holds it. -/
theorem maintenanceLoad : Obligations.MaintenanceLoad := by
  intro s w hs hp hr h1 h16 hkind
  obtain ⟨script, hscript, hlen, hget⟩ := scriptOf_valid h1 h16 hkind
  refine ⟨script, hlen, fun j hj => (hget j hj).trans (StagedStep.step_valid (hkind j hj)), ?_⟩
  rw [exec_maintLoad hs, State.loadScript_taken hp hr hscript]
  rfl

end Sys2Proof.Machine
end

