-- ==== Sys2Proof/Proofs/FlagWrites.lean ====
section
/-! SUPPORT. The interrupt flags (O15): what a write of FLAGS leaves of each flag, of the fault cause and of the holds, and when the
interrupt line is asserted (R177, R180, R181). -/

namespace Sys2Proof.Machine

section

variable {s : State} {w : Word}

theorem exec_flagsWrite (h : s.configured = true) : exec (.flagsWrite w) s = .next (s.writeFlags w) :=
  congrArg Host.Outcome.next (State.hosted_configured h _)

theorem outcomeMask_getLsbD (i : Fin 8) : Flag.outcome.mask.getLsbD i = decide (i.val = 0) := by
  revert i
  decide

/-- A 1 clears its flag; the one flag a 1 may leave set is OUTCOME (R180). -/
theorem clearFlags_getLsbD (flags : BitVec 8) (w : Word) (outcomesEmpty : Bool) (i : Fin 8) : (clearFlags flags w outcomesEmpty).getLsbD i =
    (flags.getLsbD i && !(w.getLsbD i && !(decide (i.val = 0) && !outcomesEmpty))) := by
  have hi : i.val < 8 := i.isLt
  cases outcomesEmpty <;> simp [clearFlags, -BitVec.getLsbD_eq_getElem, outcomeMask_getLsbD, hi]

/-- A write of FLAGS changes the flags, the cause, the repeat mark and the two holds (R177, R180, R181). -/
theorem State.writeFlags_eq (s : State) (w : Word) : s.writeFlags w = { s with
    host := { s.host with flags := clearFlags s.host.flags w s.host.outcomes.isEmpty
                          cause := if w.getLsbD 7 then .none else s.host.cause
                          repeated := if w.getLsbD 7 then false else s.host.repeated }
    chanA := { s.chanA with held := s.chanA.held && !w.getLsbD 5 }
    chanB := { s.chanB with held := s.chanB.held && !w.getLsbD 6 } } := by
  have hheld (c : Chan) (b : Bool) : (if b then { c with held := false } else c) = { c with held := c.held && !b } := by
    cases b <;> simp
  simp only [State.writeFlags, hheld]
  cases w.getLsbD 7 <;> rfl

/-- The interrupt line follows the flags whose enable is set (R180). -/
theorem State.irq_iff (s : State) : s.irq = true ↔ ∃ i : Fin 8, s.host.flags.getLsbD i = true ∧ s.host.enables.getLsbD i = true := by
  have hzero : s.irq = true ↔ s.host.flags &&& s.host.enables ≠ 0 := bne_iff_ne
  rw [hzero, ← not_iff_not, not_not]
  constructor
  · rintro h ⟨i, hflag, henable⟩
    have hbit : (s.host.flags &&& s.host.enables).getLsbD i = true := by rw [BitVec.getLsbD_and, hflag, henable]; rfl
    rw [h] at hbit
    exact absurd hbit (by simp)
  · refine fun h => BitVec.eq_of_getLsbD_eq fun i hi => ?_
    have hbit : ¬ (s.host.flags.getLsbD i = true ∧ s.host.enables.getLsbD i = true) := fun hboth => h ⟨⟨i, hi⟩, hboth⟩
    rw [BitVec.getLsbD_and]
    simpa using hbit

end

/-- Settles O15: the flags bit by bit, the rest of the write as `State.writeFlags_eq` tells, and the line. -/
theorem flagsAndInterruptLine : Obligations.FlagsAndInterruptLine := by
  refine ⟨fun s w hs => ⟨_, exec_flagsWrite hs, ?_⟩, State.irq_iff⟩
  rw [State.writeFlags_eq]
  exact ⟨clearFlags_getLsbD s.host.flags w s.host.outcomes.isEmpty, rfl, rfl⟩

end Sys2Proof.Machine
end

