-- ==== Sys2Proof/Proofs/HostFaults.lean ====
section
/-! SUPPORT. Host misuse (O17): which channel accesses are stray, and what each cause makes of the station (R75, R179, R181). -/

namespace Sys2Proof.Machine

section

variable {s : State} {ch : Channel} {acc : Access} {r : InitRec} {w : Word}

theorem State.configured_inReset (h : s.configured = true) : s.inReset = false := by
  simp only [State.configured, Bool.and_eq_true, Bool.not_eq_true'] at h
  exact h.2

/-! ### Writes of the configuration after the match (R185) -/

theorem exec_configWrites_matched (hs : s.configured = true) (h : s.host.latch = .matched) :
    exec (.configAWrite w) s = .next (s.hostFault .lateConfig) ∧ exec (.configBWrite w) s = .next (s.hostFault .lateConfig) := by
  have hopen : ¬ s.inReset = true := by
    rw [State.configured_inReset hs]
    decide
  have hA : s.writeConfigA w = s.hostFault .lateConfig := by rw [State.writeConfigA, h]
  have hB : s.writeConfigB w = s.hostFault .lateConfig := by rw [State.writeConfigB, h]
  exact ⟨congrArg Host.Outcome.next ((if_neg hopen).trans hA), congrArg Host.Outcome.next ((if_neg hopen).trans hB)⟩

/-! ### Stray accesses (R75, R179) -/

/-- The operation of the heads that an access serves (R179). -/
def servedOp : Access → Op
  | .read => .read
  | .write _ => .write

theorem State.accessChannel_noHead (h : s.channelHead ch = none) : s.accessChannel ch acc = s.strayAccess acc := by
  rw [State.accessChannel, h]

/-- Nothing can be moved: the channel is held, its slot offers no word, or no block remains. -/
theorem State.accessChannel_noWord (hh : s.channelHead ch = some r) (h : (s.chan ch).held = true ∨ r.offered = 0 ∨ r.remaining = 0) :
    s.accessChannel ch acc = s.strayAccess acc := by
  rw [State.accessChannel, hh]
  exact if_pos h

theorem State.accessChannel_held (h : (s.chan ch).held = true) : s.accessChannel ch acc = s.strayAccess acc := by
  cases hh : s.channelHead ch with
  | none => exact State.accessChannel_noHead hh
  | some r => exact State.accessChannel_noWord hh (.inl h)

/-- A head takes only accesses of its own direction. -/
theorem State.accessChannel_wrongWay (hh : s.channelHead ch = some r) (h : r.op ≠ servedOp acc) :
    s.accessChannel ch acc = s.strayAccess acc := by
  rw [State.accessChannel, hh]
  refine ite_eq_left_iff.mpr fun _ => ?_
  split
  · next hop => exact absurd hop h
  · next hop => exact absurd hop h
  · rfl

theorem State.accessChannel_stray (h : s.channelHead ch = none ∨ (s.chan ch).held = true ∨
    ∃ r, s.channelHead ch = some r ∧ (r.offered = 0 ∨ r.remaining = 0)) : s.accessChannel ch acc = s.strayAccess acc := by
  obtain hnone | hheld | ⟨r, hh, hno⟩ := h
  · exact State.accessChannel_noHead hnone
  · exact State.accessChannel_held hheld
  · exact State.accessChannel_noWord hh (.inr hno)

theorem exec_channelAccess_stray (hs : s.configured = true) (h : s.accessChannel ch acc = s.strayAccess acc) :
    exec (.channelAccess ch acc) s = .next (s.strayAccess acc) := by
  rw [exec_channelAccess s ch acc hs, h]

/-! ### The end of a host fault (R181) -/

theorem hostFaultMask_getLsbD (i : Fin 8) : Flag.hostFault.mask.getLsbD i = decide (i = 7) := by
  revert i
  decide

/-- A 1 to HOST_FAULT clears it, whatever the Outcome Queue holds (R180). -/
theorem clearFlags_hostFault (flags : BitVec 8) (outcomesEmpty : Bool) (h : w.getLsbD 7 = true) :
    clearFlags flags w outcomesEmpty &&& Flag.hostFault.mask = 0 := by
  refine BitVec.eq_of_getLsbD_eq fun i hi => ?_
  have hflag := clearFlags_getLsbD flags w outcomesEmpty ⟨i, hi⟩
  have hmask := hostFaultMask_getLsbD ⟨i, hi⟩
  refine (BitVec.getLsbD_and ..).trans ((Bool.and_eq_false_imp.mpr fun hset => ?_).trans BitVec.getLsbD_zero.symm)
  by_cases h7 : i = 7
  · subst h7
    rw [h] at hflag
    exact absurd (hflag.symm.trans hset) (by simp)
  · rw [decide_eq_false (fun hi7 => h7 (congrArg Fin.val hi7))] at hmask
    exact hmask

theorem State.writeFlags_hostFault (h : w.getLsbD 7 = true) : (s.writeFlags w).flagSet .hostFault = false ∧
    (s.writeFlags w).host.cause = .none ∧ (s.writeFlags w).host.repeated = false := by
  rw [State.writeFlags_eq, State.flagSet, h]
  exact ⟨bne_eq_false_iff_eq.mpr (clearFlags_hostFault _ _ h), rfl, rfl⟩

end

/-- Settles O17: each misuse ends in `State.hostFault`, and the write of 1 in `State.writeFlags_hostFault`. -/
theorem hostMisuse : Obligations.HostMisuse := by
  intro s hs
  refine ⟨fun w hl => exec_configWrites_matched hs hl, fun ch h => ?_, fun ch r hh hop => ?_, fun ch r v hh hop => ?_, fun h => ?_,
    fun w h => ?_, fun w hp hr h => ?_, fun w h => ⟨_, exec_flagsWrite hs, State.writeFlags_hostFault h⟩⟩
  · exact ⟨exec_channelAccess_stray hs (State.accessChannel_stray h),
      fun v => exec_channelAccess_stray hs (State.accessChannel_stray h)⟩
  · exact exec_channelAccess_stray hs (State.accessChannel_wrongWay hh hop)
  · exact exec_channelAccess_stray hs (State.accessChannel_wrongWay hh hop)
  · rw [exec_outcomePop hs, State.popOutcome, h]
    rfl
  · rw [exec_maintLoad hs, State.loadScript_busy h]
    rfl
  · rw [exec_maintLoad hs, State.loadScript_bad hp hr (scriptOf_invalid s _ h)]
    rfl

end Sys2Proof.Machine
end

