-- ==== Sys2Proof/Proofs/RegisterWrites.lean ====
section
/-! SUPPORT. Writes of the register window (O11): the words that keep a value, the offsets that ignore a write, and the words that act as a
row of their own (R168, 13 §13.2, log 26). -/

namespace Sys2Proof.Machine

section

variable {s : State} {off : BitVec 7} {w : Word}

/-! ### The words that only keep a value -/

theorem toNat_notMem {l : List (BitVec 7)} (h : off ∉ l) : off.toNat ∉ l.map BitVec.toNat := by
  intro hmem
  obtain ⟨x, hx, heq⟩ := List.mem_map.mp hmem
  exact h (BitVec.eq_of_toNat_eq heq ▸ hx)

/-- A write of a word that is no configuration word and has no row of its own. -/
theorem exec_plainWrite (hs : s.configured = true) (h : off ∉ [0x00, 0x01, 0x03, 0x05, 0x0D, 0x15, 0x1E, 0x28]) :
    exec (.registerWrite off w) s = .next (s.writePlain off.toNat w) := by
  have hrest := List.not_mem_of_not_mem_cons h
  rw [exec_registerWrite s off w hs (List.ne_of_not_mem_cons h) (List.ne_of_not_mem_cons hrest),
    State.writeWindow_plain s off w (toNat_notMem (List.not_mem_of_not_mem_cons hrest))]

/-- The fields of REQ_TARGET (13 §13.2). -/
theorem State.writePlain_target (s : State) (w : Word) : s.writePlain 0x08 w = { s with host := { s.host with
    staging := { s.host.staging with target := Fin.ofNat 16 w.toNat, op := w.extractLsb' 4 3, chan := w.extractLsb' 8 2 } } } := by
  have htarget : Fin.ofNat 16 (bitField w 0 4) = Fin.ofNat 16 w.toNat := Fin.ext (Nat.mod_mod _ 16)
  rw [← htarget]
  rfl

/-- A word that is neither a plain word nor a staged step ignores a write (R168). -/
theorem State.writePlain_ignored (s : State) (w : Word) {n : Nat} (h : n ∉ [0x02, 0x06, 0x08, 0x09, 0x0A, 0x0B, 0x0C])
    (hrange : n < 0x40 ∨ 0x5F < n) : s.writePlain n w = s := by
  unfold State.writePlain
  dsimp only
  split
  case h_8 => exact if_neg (by omega)
  all_goals exact absurd (by decide) h

theorem exec_registerWrite_ignored (hs : s.configured = true)
    (h : off ∉ [0x00, 0x01, 0x02, 0x03, 0x05, 0x06, 0x08, 0x09, 0x0A, 0x0B, 0x0C, 0x0D, 0x15, 0x1E, 0x28])
    (hrange : off.toNat < 0x40 ∨ 0x5F < off.toNat) : exec (.registerWrite off w) s = .next s := by
  have hsub {l : List (BitVec 7)} (hl : l ⊆ _) : off ∉ l := fun hmem => h (hl hmem)
  have hrow : off ∉ [0x00, 0x01, 0x03, 0x05, 0x0D, 0x15, 0x1E, 0x28] := hsub (by decide)
  have hkept : off ∉ [0x02, 0x06, 0x08, 0x09, 0x0A, 0x0B, 0x0C] := hsub (by decide)
  rw [exec_plainWrite hs hrow, State.writePlain_ignored s w (toNat_notMem hkept) hrange]

/-! ### The staged steps (R174) -/

theorem stepOffset_toNat {k : Nat} (hk : k < 32) : (BitVec.ofNat 7 (0x40 + k)).toNat = 0x40 + k :=
  (BitVec.toNat_ofNat ..).trans (Nat.mod_eq_of_lt (by omega))

theorem exec_stepWrite {k : Nat} (hs : s.configured = true) (hk : k < 32) :
    exec (.registerWrite (BitVec.ofNat 7 (0x40 + k)) w) s = .next (s.writeStaging k w) := by
  have hoff := stepOffset_toNat hk
  have hrow : BitVec.ofNat 7 (0x40 + k) ∉ [0x00, 0x01, 0x03, 0x05, 0x0D, 0x15, 0x1E, 0x28] := fun hmem => by
    have hlow : ∀ x ∈ ([0x00, 0x01, 0x03, 0x05, 0x0D, 0x15, 0x1E, 0x28] : List (BitVec 7)), x.toNat < 0x40 := by decide
    have hlt := hlow _ hmem
    omega
  rw [exec_plainWrite hs hrow, hoff, State.writePlain_step s k w hk]

theorem State.writeStaging_even (s : State) (j : Fin 16) (w : Word) : s.writeStaging (2 * j) w = { s with host := { s.host with
    steps := s.host.steps.set j { s.host.steps[j] with kind := w.truncate 2, slot := w.extractLsb' 4 3 } } } := by
  simp [State.writeStaging, BitVec.setWidth_eq_extractLsb']

theorem State.writeStaging_odd (s : State) (j : Fin 16) (w : Word) : s.writeStaging (2 * j + 1) w = { s with host := { s.host with
    steps := s.host.steps.set j { s.host.steps[j] with value := w } } } := by
  have hhalf : (2 * j.val + 1) / 2 = j := by omega
  simp [State.writeStaging, hhalf]

theorem exec_stepWrite_even (hs : s.configured = true) (j : Fin 16) : exec (.registerWrite (BitVec.ofNat 7 (0x40 + 2 * j)) w) s =
    .next { s with host := { s.host with
      steps := s.host.steps.set j { s.host.steps[j] with kind := w.truncate 2, slot := w.extractLsb' 4 3 } } } := by
  rw [exec_stepWrite hs (by omega), State.writeStaging_even]

theorem exec_stepWrite_odd (hs : s.configured = true) (j : Fin 16) : exec (.registerWrite (BitVec.ofNat 7 (0x41 + 2 * j)) w) s =
    .next { s with host := { s.host with steps := s.host.steps.set j { s.host.steps[j] with value := w } } } := by
  have hoff : 0x41 + 2 * j.val = 0x40 + (2 * j + 1) := by omega
  rw [hoff, exec_stepWrite hs (by omega), State.writeStaging_odd]

end

/-- Settles O11: the plain words, the staged steps and the ignored offsets in a configured part, then the words that act as a row, whose meaning
is that row's own. -/
theorem registerWrites : Obligations.RegisterWrites := by
  refine ⟨fun s w hs => ?_, fun s w => ?_⟩
  · refine ⟨exec_plainWrite hs (by decide), exec_plainWrite hs (by decide), ?_, exec_plainWrite hs (by decide),
      exec_plainWrite hs (by decide), exec_plainWrite hs (by decide), exec_plainWrite hs (by decide),
      fun j => ⟨exec_stepWrite_even hs j, exec_stepWrite_odd hs j⟩, fun off h hrange => exec_registerWrite_ignored hs h hrange⟩
    exact (exec_plainWrite hs (by decide)).trans (congrArg Host.Outcome.next (State.writePlain_target s w))
  · exact ⟨rfl, rfl, rfl, rfl, rfl, rfl, rfl, rfl, rfl, rfl, rfl, rfl, rfl⟩

end Sys2Proof.Machine
end

