-- ==== Sys2Proof/Proofs/Posts.lean ====
section
/-! SUPPORT. POST (O13): which staged records are MALFORMED, the request that another one makes, and the order in which a post is judged
(R169). -/

namespace Sys2Proof.Machine

section

variable {s : State} {x : Staging} {q : Request}

/-! ### The staged record -/

theorem opOfCode_none_iff : ∀ n : Nat, opOfCode n = none ↔ n = 0 ∨ 4 ≤ n
  | 0 | 1 | 2 | 3 => by decide
  | n + 4 => ⟨fun _ => .inr (Nat.le_add_left 4 n), fun _ => rfl⟩

theorem opCode_of_opOfCode {n : Nat} {o : Op} (h : opOfCode n = some o) : opCode o = n := by
  unfold opOfCode at h
  split at h
  case h_4 => cases h
  all_goals exact Option.some.inj h ▸ rfl

/-- A staged record that R169 calls MALFORMED. -/
def Staging.Malformed (x : Staging) : Prop :=
  x.op.toNat = 0 ∨ 4 ≤ x.op.toNat ∨ (x.op.toNat ≠ 3 ∧ (x.count.toNat = 0 ∨ 256 < x.count.toNat ∨ 2 ≤ x.chan.toNat)) ∨
    (x.op.toNat = 3 ∧ x.count.toNat ≠ 0)

/-- The counts and channels an operation may have (R169). -/
def Staging.fitsOp (x : Staging) (o : Op) : Prop :=
  (o = .sync ∧ x.count = 0) ∨ (o ≠ .sync ∧ 1 ≤ x.count.toNat ∧ x.count.toNat ≤ 256 ∧ x.chan.toNat ≤ 1)

theorem Staging.malformed_iff {o : Op} (h : opCode o = x.op.toNat) : x.Malformed ↔ ¬ x.fitsOp o := by
  have hcount : x.count = 0 ↔ x.count.toNat = 0 := (BitVec.toNat_inj (x := x.count) (y := 0)).symm
  unfold Staging.Malformed Staging.fitsOp
  rw [← h, hcount]
  cases o with
  | sync => simp [opCode, ← hcount]
  | read => simp [opCode]; omega
  | write => simp [opCode]; omega

theorem Staging.request_malformed (h : x.Malformed) : x.request = none := by
  unfold Staging.request
  cases ho : opOfCode x.op.toNat with
  | none => rfl
  | some o => exact if_neg ((Staging.malformed_iff (opCode_of_opOfCode ho)).mp h)

/-- A record that is not MALFORMED makes a request of its fields. -/
theorem Staging.request_valid (h : ¬ x.Malformed) : ∃ q, x.request = some q ∧ q.target = x.target ∧ opCode q.op = x.op.toNat ∧
    q.chan = x.chan ∧ q.count = x.count.toNat ∧ q.addr = x.addrHi ++ x.addrLo ∧ q.label = x.label := by
  unfold Staging.request
  cases ho : opOfCode x.op.toNat with
  | none => exact absurd (((opOfCode_none_iff _).mp ho).imp_right .inl) h
  | some o =>
    have hcode := opCode_of_opOfCode ho
    exact ⟨_, if_pos (not_not.mp (mt (Staging.malformed_iff hcode).mpr h)), rfl, hcode, rfl, rfl, rfl, rfl⟩

/-! ### The judgement (R169) -/

theorem exec_post (h : s.configured = true) : exec .post s = .next s.postRequest := congrArg Host.Outcome.next (State.hosted_configured h _)

theorem State.postRequest_malformed (h : s.host.staging.Malformed) : s.postRequest = s.setPostStatus .malformed := by
  rw [State.postRequest, Staging.request_malformed h]

theorem State.postRequest_full (hq : s.host.staging.request = some q) (h : 8 ≤ s.host.requests.length) :
    s.postRequest = s.setPostStatus .queueFull := by
  rw [State.postRequest, hq]
  exact if_neg (Nat.not_lt.mpr h)

/-- The station with a request behind those that wait. -/
def State.posted (s : State) (q : Request) : State :=
  { s with host := { s.host with requests := s.host.requests ++ [q], postStatus := .accepted } }

theorem State.postRequest_accepted (hq : s.host.staging.request = some q) (h : s.host.requests.length < 8) :
    s.postRequest = if s.host.requests.isEmpty then (s.posted q).retake else s.posted q := by
  rw [State.postRequest, hq]
  exact if_pos h

theorem State.postRequest_accepted_empty (hq : s.host.staging.request = some q) (h : s.host.requests = []) :
    s.postRequest = (s.posted q).retake := by
  rw [State.postRequest_accepted hq (by rw [h]; decide), h]
  rfl

theorem State.postRequest_accepted_behind (hq : s.host.staging.request = some q) (hroom : s.host.requests.length < 8)
    (h : s.host.requests ≠ []) : s.postRequest = s.posted q := by
  rw [State.postRequest_accepted hq hroom, if_neg (fun hempty => h (List.isEmpty_iff.mp hempty))]

/-- Outside MEMBER no head is taken, so the request waits (R22). -/
theorem State.postRequest_accepted_offLink (hq : s.host.staging.request = some q) (hroom : s.host.requests.length < 8)
    (h : s.member.link ≠ .member) : s.postRequest = s.posted q := by
  rw [State.postRequest_accepted hq hroom, State.retake_offLink (s.posted q) h, ite_self]

end

/-- Settles O13: the three results of a post, and the resets and register writes by the rules of their own. -/
theorem postJudgesTheStagedRecord : Obligations.PostJudgesTheStagedRecord := by
  intro s hs
  dsimp only
  rw [exec_post hs]
  refine ⟨fun hmalformed => ?_, fun hvalid hfull => ?_, fun hvalid hroom => ?_, rfl, ⟨_, exec_stationReset hs, rfl⟩, ?_⟩
  · exact congrArg Host.Outcome.next (State.postRequest_malformed hmalformed)
  · obtain ⟨q, hq, -⟩ := Staging.request_valid hvalid
    exact congrArg Host.Outcome.next (State.postRequest_full hq hfull)
  · obtain ⟨q, hq, htarget, hop, hchan, hcount, haddr, hlabel⟩ := Staging.request_valid hvalid
    exact ⟨q, htarget, hop, hchan, hcount, haddr, hlabel, fun h => congrArg Host.Outcome.next (State.postRequest_accepted_empty hq h),
      fun h => congrArg Host.Outcome.next (State.postRequest_accepted_behind hq hroom h),
      fun h => congrArg Host.Outcome.next (State.postRequest_accepted_offLink hq hroom h),
      congrArg TargetSide.staging (s.posted q).retake_targetSide⟩
  · simp only [List.forall_mem_cons]
    refine ⟨fun w => ?_, fun w => ?_, fun w => ?_, fun w => ?_, fun w => ?_, List.forall_mem_nil _⟩
    all_goals exact ⟨_, exec_plainWrite hs (by decide)⟩

end Sys2Proof.Machine
end

