-- ==== Sys2Proof/Proofs/WindowReads.lean ====
section
/-! SUPPORT. Reads of the register window (O12): a field of a word under its mask, the words that are read back after a write, and what each
read-only word shows (R168, R171, R174, R177, R181, 13 §13.2). -/

namespace Sys2Proof.Machine

/-! ### Fields and masks -/

/-- A field in its place is the word under the field's mask. -/
theorem field_masked (w : Word) (lo len : Nat) :
    BitVec.ofNat 16 (2 ^ lo * (w.extractLsb' lo len).toNat) = w &&& BitVec.ofNat 16 (2 ^ lo * (2 ^ len - 1)) := by
  refine BitVec.eq_of_getLsbD_eq fun i hi => ?_
  rw [BitVec.getLsbD_and, BitVec.getLsbD_ofNat, BitVec.getLsbD_ofNat, Nat.testBit_two_pow_mul, Nat.testBit_two_pow_mul,
    Nat.testBit_two_pow_sub_one, BitVec.testBit_toNat, BitVec.getLsbD_extractLsb']
  by_cases hlo : lo ≤ i
  · rw [Nat.add_sub_cancel' hlo]
    simp [hi, hlo, Bool.and_comm]
  · simp [hlo]

/-- A word under two masks that share no bit is the sum of its parts. -/
theorem masked_add (w : Word) {m n : Word} (h : m &&& n = 0) : (w &&& m) + (w &&& n) = w &&& (m ||| n) := by
  have hzero : (w &&& m) &&& (w &&& n) = 0 := by
    calc (w &&& m) &&& (w &&& n) = w &&& w &&& (m &&& n) := by ac_rfl
      _ = 0 := by rw [h]; exact BitVec.and_zero
  rw [BitVec.add_eq_or_of_and_eq_zero _ _ hzero, BitVec.and_or_distrib_left]

theorem lowBits_masked (w : Word) (len : Nat) : BitVec.ofNat 16 (w.extractLsb' 0 len).toNat = w &&& BitVec.ofNat 16 (2 ^ len - 1) := by
  have hfield := field_masked w 0 len
  rwa [pow_zero, one_mul, one_mul] at hfield

/-- The low bits of a word, kept in a register of their own. -/
theorem truncate_masked (w : Word) {len : Nat} (h : len ≤ 16) :
    (w.truncate len : BitVec len).zeroExtend 16 = w &&& BitVec.ofNat 16 (2 ^ len - 1) := by
  rw [← lowBits_masked, BitVec.ofNat_toNat, ← BitVec.setWidth_eq_extractLsb' h]

/-- The words of several fields: REQ_TARGET, a staged step, THRESHOLDS (13 §13.2). -/
theorem targetWord_masked (w : Word) : BitVec.ofNat 16 ((Fin.ofNat 16 (bitField w 0 4)).val + 16 * (w.extractLsb' 4 3).toNat +
    256 * (w.extractLsb' 8 2).toNat) = w &&& 0x037F := by
  have hstation : (Fin.ofNat 16 (bitField w 0 4)).val = (w.extractLsb' 0 4).toNat := Nat.mod_eq_of_lt (bitField_lt w 0 4)
  have htarget : BitVec.ofNat 16 (Fin.ofNat 16 (bitField w 0 4)).val = w &&& 0x000F := hstation ▸ lowBits_masked w 4
  have hop : BitVec.ofNat 16 (16 * (w.extractLsb' 4 3).toNat) = w &&& 0x0070 := field_masked w 4 3
  have hchan : BitVec.ofNat 16 (256 * (w.extractLsb' 8 2).toNat) = w &&& 0x0300 := field_masked w 8 2
  rw [BitVec.ofNat_add, BitVec.ofNat_add, htarget, hop, hchan, masked_add w (by decide), masked_add w (by decide)]
  rfl

theorem stepWord_masked (w value : Word) : (⟨w.truncate 2, w.extractLsb' 4 3, value⟩ : StagedStep).word = w &&& 0x0073 := by
  have hkind : BitVec.ofNat 16 (w.truncate 2).toNat = w &&& 0x0003 :=
    (BitVec.ofNat_toNat _ _).trans (truncate_masked w (by decide))
  have hslot : BitVec.ofNat 16 (16 * (w.extractLsb' 4 3).toNat) = w &&& 0x0070 := field_masked w 4 3
  rw [StagedStep.word, BitVec.ofNat_add, hkind, hslot, masked_add w (by decide)]
  rfl

theorem thresholdsWord_masked (w : Word) : BitVec.ofNat 16 ((w.extractLsb' 0 2).toNat + 4 * (w.extractLsb' 2 2).toNat) = w &&& 0x000F := by
  have hA : BitVec.ofNat 16 (w.extractLsb' 0 2).toNat = w &&& 0x0003 := lowBits_masked w 2
  have hB : BitVec.ofNat 16 (4 * (w.extractLsb' 2 2).toNat) = w &&& 0x000C := field_masked w 2 2
  rw [BitVec.ofNat_add, hA, hB, masked_add w (by decide)]
  rfl

section

variable {s t u : State} {w : Word} {off : BitVec 7}

/-! ### The offsets of the result list and of the staged steps, and the offsets that read 0 -/

/-- The offsets above the single words of 13 §13.2. -/
theorem State.windowWord_lists (s : State) (h : 0x2B ≤ off.toNat) : s.windowWord off =
    if 0x30 ≤ off.toNat ∧ off.toNat ≤ 0x3F then s.port.results.getD (off.toNat - 0x30) 0
    else if 0x40 ≤ off.toNat ∧ off.toNat ≤ 0x5F then s.stagingWord (off.toNat - 0x40)
    else 0 := by
  unfold State.windowWord
  split
  case h_35 => rfl
  all_goals omega

theorem State.windowWord_result (s : State) (j : Fin 16) : s.windowWord (BitVec.ofNat 7 (0x30 + j)) = s.port.results.getD j 0 := by
  have hoff : (BitVec.ofNat 7 (0x30 + j)).toNat = 0x30 + j := (BitVec.toNat_ofNat ..).trans (Nat.mod_eq_of_lt (by omega))
  rw [s.windowWord_lists (by omega), if_pos (by omega), hoff, Nat.add_sub_cancel_left]

theorem State.windowWord_step (s : State) {k : Nat} (hk : k < 32) : s.windowWord (BitVec.ofNat 7 (0x40 + k)) = s.stagingWord k := by
  have hoff := stepOffset_toNat hk
  rw [s.windowWord_lists (by omega), if_neg (by omega), if_pos (by omega), hoff, Nat.add_sub_cancel_left]

/-- Write-only and unlisted offsets (R168). -/
theorem State.windowWord_unlisted (s : State) (h : off.toNat ∈ [0x00, 0x01, 0x03, 0x0D, 0x15, 0x16, 0x17, 0x1F, 0x27] ∨
    (0x2B ≤ off.toNat ∧ off.toNat < 0x30) ∨ 0x60 ≤ off.toNat) : s.windowWord off = 0 := by
  obtain hlisted | hhigh := h
  · have hoffs : ∀ x : BitVec 7, x.toNat ∈ [0x00, 0x01, 0x03, 0x0D, 0x15, 0x16, 0x17, 0x1F, 0x27] →
        x ∈ ([0x00, 0x01, 0x03, 0x0D, 0x15, 0x16, 0x17, 0x1F, 0x27] : List (BitVec 7)) := by decide
    have hzero : ∀ x ∈ ([0x00, 0x01, 0x03, 0x0D, 0x15, 0x16, 0x17, 0x1F, 0x27] : List (BitVec 7)), s.windowWord x = 0 := by
      simp only [List.forall_mem_cons]
      exact ⟨rfl, rfl, rfl, rfl, rfl, rfl, rfl, rfl, rfl, List.forall_mem_nil _⟩
    exact hzero off (hoffs off hlisted)
  · rw [s.windowWord_lists (by omega), if_neg (by omega), if_neg (by omega)]

/-! ### Reading back -/

/-- A read behind a command shows the state that the command is known to leave. -/
theorem windowRead_after {i : Instr} (hu : exec i s = .next u) (hc : u.configured = true) (ht : exec i s = .next t) (off : BitVec 7) :
    t.windowRead off = u.windowWord off := by
  obtain rfl := Host.Outcome.next.inj (ht.symm.trans hu)
  exact t.windowRead_configured hc off

theorem State.stagingWord_even (s : State) (j : Fin 16) : s.stagingWord (2 * j) = s.host.steps[j].word := by
  simp [State.stagingWord]

theorem State.stagingWord_odd (s : State) (j : Fin 16) : s.stagingWord (2 * j + 1) = s.host.steps[j].value := by
  have hhalf : (2 * j.val + 1) / 2 = j := by omega
  simp [State.stagingWord, hhalf]

theorem exec_thresholdsWrite (hs : s.configured = true) : exec (.thresholdsWrite w) s = .next (s.writeThresholds w) :=
  congrArg Host.Outcome.next (State.hosted_configured hs _)

theorem stepWrite_even_readBack (hs : s.configured = true) (j : Fin 16)
    (ht : exec (.registerWrite (BitVec.ofNat 7 (0x40 + 2 * j)) w) s = .next t) :
    t.windowRead (BitVec.ofNat 7 (0x40 + 2 * j)) = w &&& 0x0073 := by
  rw [windowRead_after (exec_stepWrite_even hs j) hs ht, State.windowWord_step _ (by omega), State.stagingWord_even]
  exact (congrArg StagedStep.word (Vector.getElem_set_self j.isLt)).trans (stepWord_masked w _)

theorem stepWrite_odd_readBack (hs : s.configured = true) (j : Fin 16)
    (ht : exec (.registerWrite (BitVec.ofNat 7 (0x41 + 2 * j)) w) s = .next t) :
    t.windowRead (BitVec.ofNat 7 (0x41 + 2 * j)) = w := by
  have hoff : 0x41 + 2 * j.val = 0x40 + (2 * j + 1) := by omega
  rw [windowRead_after (exec_stepWrite_odd hs j) hs ht, hoff, State.windowWord_step _ (by omega), State.stagingWord_odd]
  exact congrArg StagedStep.value (Vector.getElem_set_self j.isLt)

/-! ### MAINT_COUNT, whose write is a load (R174) -/

theorem State.loadScript_ignored (h : s.port.result = .posted ∨ s.port.result = .running ∨ (w.truncate 5 : BitVec 5).toNat = 0 ∨
    16 < (w.truncate 5 : BitVec 5).toNat ∨ ∃ j : Fin 16, j.val < (w.truncate 5 : BitVec 5).toNat ∧ s.host.steps[j].kind = 0) :
    ∃ c, s.loadScript w = s.hostFault c := by
  by_cases hbusy : s.port.result = .posted ∨ s.port.result = .running
  · exact ⟨_, State.loadScript_busy hbusy⟩
  · obtain ⟨hp, hr⟩ := not_or.mp hbusy
    exact ⟨_, State.loadScript_bad hp hr (scriptOf_invalid s _ ((h.resolve_left hp).resolve_left hr))⟩

theorem maintLoad_taken_readBack (hs : s.configured = true) (hp : s.port.result ≠ .posted) (hr : s.port.result ≠ .running)
    (h1 : 1 ≤ (w.truncate 5 : BitVec 5).toNat) (h16 : (w.truncate 5 : BitVec 5).toNat ≤ 16)
    (hkind : ∀ j : Fin 16, j.val < (w.truncate 5 : BitVec 5).toNat → s.host.steps[j].kind ≠ 0)
    (ht : exec (.maintLoad w) s = .next t) : t.windowRead 0x28 = w &&& 0x001F := by
  obtain ⟨script, hscript, -, -⟩ := scriptOf_valid h1 h16 hkind
  have hexec := exec_maintLoad (w := w) hs
  rw [State.loadScript_taken hp hr hscript] at hexec
  exact (windowRead_after hexec hs ht _).trans (truncate_masked w (by decide))

theorem maintLoad_ignored_readBack (hs : s.configured = true) (h : s.port.result = .posted ∨ s.port.result = .running ∨
    (w.truncate 5 : BitVec 5).toNat = 0 ∨ 16 < (w.truncate 5 : BitVec 5).toNat ∨
    ∃ j : Fin 16, j.val < (w.truncate 5 : BitVec 5).toNat ∧ s.host.steps[j].kind = 0)
    (ht : exec (.maintLoad w) s = .next t) : t.windowRead 0x28 = s.windowRead 0x28 := by
  obtain ⟨c, hload⟩ := State.loadScript_ignored h
  have hexec := exec_maintLoad (w := w) hs
  rw [hload] at hexec
  rw [windowRead_after hexec hs ht, s.windowRead_configured hs]
  rfl

/-! ### What the read-only words show -/

theorem mul_bitOf (n : Nat) (b : Bool) : n * bitOf b = if b then n else 0 := by
  cases b
  · rfl
  · exact Nat.mul_one n

theorem State.windowWord_fault (s : State) : s.windowWord 0x07 =
    BitVec.ofNat 16 (faultCauseCode s.host.cause + if s.host.repeated then 32768 else 0) := by
  rw [← mul_bitOf]
  rfl

theorem flags_word (flags : BitVec 8) (n : Fin 16) : (flags.zeroExtend 16).getLsbD n = flags.getLsbD n := by
  rw [BitVec.getLsbD_setWidth, decide_eq_true n.isLt, Bool.true_and]

theorem stationSet_getLsbD (p : Station → Bool) (n : Station) : (stationSet p).getLsbD n.val = p n := by
  have hbits (m : Station) : (BitVec.ofFnLE p).getLsbD m.val = p m := (BitVec.getLsbD_ofFnLE p m.val).trans (dif_pos m.isLt)
  rw [stationSet_eq p (BitVec.ofFnLE p) hbits, hbits]

theorem halves_append (x : BitVec 32) : x.extractLsb' 16 16 ++ x.extractLsb' 0 16 = x := by
  rw [BitVec.extractLsb'_append_extractLsb'_eq_extractLsb' (show 16 = 0 + 16 from rfl)]
  exact BitVec.extractLsb'_eq_self

/-- While the Outcome Queue is empty its head reads as zeros (R171). -/
theorem State.headWord_empty (h : s.host.outcomes = []) (f : OutcomeRec → Word) : s.headWord f = 0 := by
  rw [State.headWord, h]
  rfl

theorem State.headWord_head {o : OutcomeRec} {rest : List OutcomeRec} (h : s.host.outcomes = o :: rest) (f : OutcomeRec → Word) :
    s.headWord f = f o := by
  rw [State.headWord, h]
  rfl

theorem outCodeWord_eq (o : OutcomeRec) : outCodeWord o = BitVec.ofNat 16 (outcomeCode o.outcome.code + 32 * opCode o.op +
    (if o.outcome.confirmed then 128 else 0) + 256 * o.peer.val) := by
  rw [← mul_bitOf]
  rfl

/-! ### The channels (R177) -/

theorem State.windowWord_chan (s : State) (ch : Channel) : s.windowWord (if ch = .a then 0x18 else 0x1B) = s.chanStateWord ch ∧
    s.windowWord (if ch = .a then 0x19 else 0x1C) = (s.channelHead ch).elim 0 InitRec.label ∧
    s.windowWord (if ch = .a then 0x1A else 0x1D) = (s.chan ch).lastLabel := by
  cases ch
  · exact ⟨rfl, rfl, rfl⟩
  · exact ⟨rfl, rfl, rfl⟩

/-- The bits of CHAN_STATE that are there with and without a head: the hold and the last departure. -/
def Chan.lastBits (c : Chan) : Nat := (if c.held then 2 else 0) + 16 * departureCode c.departure

theorem State.chanStateWord_empty {ch : Channel} (h : s.channelHead ch = none) :
    s.chanStateWord ch = BitVec.ofNat 16 (s.chan ch).lastBits := by
  rw [State.chanStateWord, h, Chan.lastBits, ← mul_bitOf]
  simp [bitOf]

theorem State.chanStateWord_head {ch : Channel} {r : InitRec} (h : s.channelHead ch = some r) :
    s.chanStateWord ch = BitVec.ofNat 16 (1 + 4 * opCode r.op + (s.chan ch).lastBits) := by
  rw [State.chanStateWord, h, Chan.lastBits, ← mul_bitOf]
  refine congrArg (BitVec.ofNat 16) ?_
  simp only [Option.isSome_some, Option.elim_some, bitOf, if_true]
  omega

end

/-- Settles O12: each written word by the state its write leaves, and each read-only word by what it is made of. -/
theorem writtenWordsReadBack : Obligations.WrittenWordsReadBack := by
  refine ⟨fun s t w hs => ?_, fun s hs => ?_⟩
  · have hkept (off : BitVec 7) (h : off ∉ [0x00, 0x01, 0x03, 0x05, 0x0D, 0x15, 0x1E, 0x28])
        (hc : (s.writePlain off.toNat w).configured = true) (ht : exec (.registerWrite off w) s = .next t) :=
      windowRead_after (exec_plainWrite hs h) hc ht off
    refine ⟨hkept 0x02 (by decide) hs, fun ht => ?_, fun ht => ?_, fun ht => ?_, hkept 0x0A (by decide) hs, hkept 0x0B (by decide) hs,
      hkept 0x0C (by decide) hs, fun ht => ?_, fun j => ⟨stepWrite_even_readBack hs j, stepWrite_odd_readBack hs j⟩,
      maintLoad_taken_readBack hs, maintLoad_ignored_readBack hs, fun off h => ?_⟩
    · exact (hkept 0x06 (by decide) hs ht).trans (truncate_masked w (len := 8) (by decide))
    · exact (hkept 0x08 (by decide) hs ht).trans (targetWord_masked w)
    · exact (hkept 0x09 (by decide) hs ht).trans (truncate_masked w (len := 9) (by decide))
    · exact (windowRead_after (exec_thresholdsWrite hs) hs ht _).trans (thresholdsWord_masked w)
    · exact (s.windowRead_configured hs off).trans (s.windowWord_unlisted h)
  · simp only [s.windowRead_configured hs]
    refine ⟨rfl, fun n => flags_word s.host.flags n, s.windowWord_fault, rfl, rfl, fun h => ?_, fun o rest h => ?_, fun ch => ?_, rfl,
      fun n => ⟨stationSet_getLsbD _ n, stationSet_getLsbD _ n⟩, rfl, rfl, halves_append s.port.capacity, rfl, rfl,
      s.windowWord_result⟩
    · exact ⟨State.headWord_empty h _, State.headWord_empty h _, State.headWord_empty h _, State.headWord_empty h _,
        State.headWord_empty h _⟩
    · refine ⟨(State.headWord_head h _).trans (outCodeWord_eq o), State.headWord_head h _, State.headWord_head h _, fun hp => ?_,
        fun p hp => ?_⟩
      all_goals exact ⟨(State.headWord_head h _).trans (congrArg (Option.elim · 0 Prod.fst) hp),
        (State.headWord_head h _).trans (congrArg (Option.elim · 0 Prod.snd) hp)⟩
    · obtain ⟨hstate, hlabel, hlast⟩ := s.windowWord_chan ch
      exact ⟨fun h => ⟨hstate.trans (State.chanStateWord_empty h), hlabel.trans (congrArg (Option.elim · 0 InitRec.label) h)⟩,
        fun r h => ⟨hstate.trans (State.chanStateWord_head h), hlabel.trans (congrArg (Option.elim · 0 InitRec.label) h)⟩, hlast⟩

end Sys2Proof.Machine
end

