-- ==== Sys2Proof/Proofs/InvariantsAtReset.lean ====
section
/-! SUPPORT. The state after reset and a hardware reset (O60): both leave the tracked part as a reset does, which has every invariant. -/

namespace Sys2Proof.Machine

/-- A state whose tracked part a reset has left has every invariant; only the packet RAM is as it stood before (R58, R183). -/
theorem State.invariants_of_reset {u : State} {t : Track} (h : u.track = t.reset) (hram : t.ramCanonical) :
    u.ramCanonical ∧ u.queuesBounded ∧ u.rosterSound ∧ u.areasSafe ∧ u.linkSound := by
  rw [State.ramCanonical_iff, State.queuesBounded_iff, State.rosterSound_iff, State.areasSafe_iff, State.linkSound_iff, h]
  exact ⟨Track.reset_ramCanonical hram, t.reset_queuesBounded, t.reset_rosterSound, t.reset_areasSafe, t.reset_linkSound⟩

/-- Settles O60: the state after reset is what a reset leaves of itself, with no byte of the packet RAM listed; a hardware reset leaves
the packet RAM as it stood. -/
theorem invariantsHoldAtReset : Obligations.InvariantsHoldAtReset :=
  ⟨State.invariants_of_reset (t := State.reset.track) rfl rfl,
    fun _ hram => ⟨_, rfl, State.invariants_of_reset rfl ((State.ramCanonical_iff _).1 hram)⟩⟩

end Sys2Proof.Machine
end

