-- ==== Sys2Proof/Proofs/ConfigurationLatch.lean ====
section
/-! SUPPORT. The configuration latch (O6, O8): what each position makes of each configuration write, and that it stands once it has
matched. -/

namespace Sys2Proof.Machine

section
variable {s : State} {w a b : Word}

/-! ### The configuration writes outside a hardware reset (R183, R185) -/

theorem exec_configAWrite (hs : s.inReset = false) (w : Word) : exec (.configAWrite w) s = .next (s.writeConfigA w) :=
  congrArg Host.Outcome.next (if_neg (Bool.eq_false_iff.mp hs))

theorem exec_configBWrite (hs : s.inReset = false) (w : Word) : exec (.configBWrite w) s = .next (s.writeConfigB w) :=
  congrArg Host.Outcome.next (if_neg (Bool.eq_false_iff.mp hs))

/-! ### Writes of CONFIG_A by the position of the latch (R185) -/

theorem State.writeConfigA_awaitA1 (h : s.host.latch = .awaitA1) : s.writeConfigA w = s.setLatch (.awaitB1 (maskA w)) := by
  rw [State.writeConfigA, h]

theorem State.writeConfigA_awaitB1 (h : s.host.latch = .awaitB1 a) : s.writeConfigA w = s.setLatch (.awaitB1 (maskA w)) := by
  rw [State.writeConfigA, h]

theorem State.writeConfigA_awaitA2 (h : s.host.latch = .awaitA2 a b) :
    s.writeConfigA w = s.setLatch (if maskA w = a then .awaitB2 a b else .awaitA1) := by
  rw [State.writeConfigA, h]

theorem State.writeConfigA_awaitB2 (h : s.host.latch = .awaitB2 a b) : s.writeConfigA w = s.setLatch .awaitA1 := by
  rw [State.writeConfigA, h]

/-! ### Writes of CONFIG_B by the position of the latch (R185) -/

theorem State.writeConfigB_awaitA1 (h : s.host.latch = .awaitA1) : s.writeConfigB w = s := by
  rw [State.writeConfigB, h]

theorem State.writeConfigB_awaitB1 (h : s.host.latch = .awaitB1 a) : s.writeConfigB w = s.setLatch (.awaitA2 a (maskB w)) := by
  rw [State.writeConfigB, h]

theorem State.writeConfigB_awaitA2 (h : s.host.latch = .awaitA2 a b) : s.writeConfigB w = s.setLatch .awaitA1 := by
  rw [State.writeConfigB, h]

/-- Two words whose line rate code is 0 carry no configuration (R186). -/
theorem configOf_rateZero (b : Word) (h : bitField a 4 2 = 0) : configOf a b = none := by
  rw [configOf, rateOf, h]
  rfl

/-- The fourth write begins the sequence again where it differs from the second, or where the words are out of range (R185). -/
theorem State.writeConfigB_noMatch (h : s.host.latch = .awaitB2 a b) (hw : maskB w ≠ b ∨ bitField a 4 2 = 0) :
    s.writeConfigB w = s.setLatch .awaitA1 := by
  simp only [State.writeConfigB, h]
  rcases hw with hdiffers | hrate
  · exact if_neg hdiffers
  · simp only [configOf_rateZero b hrate, ite_self]

end

/-- Settles O6: the position of the latch decides what each of the two writes makes of it. -/
theorem configurationLatch : Obligations.ConfigurationLatch := by
  intro s w hs
  rw [exec_configAWrite hs, exec_configBWrite hs]
  have moves {u v : State} (h : u = v) : (Host.Outcome.next u : Host.Outcome State Fault Refusal) = .next v :=
    congrArg Host.Outcome.next h
  refine ⟨fun h => ⟨moves (State.writeConfigA_awaitA1 h), moves (State.writeConfigB_awaitA1 h)⟩,
    fun a h => ⟨moves (State.writeConfigA_awaitB1 h), moves (State.writeConfigB_awaitB1 h)⟩, fun a b h => ⟨?_, ?_, ?_⟩,
    fun a b h => ⟨moves (State.writeConfigA_awaitB2 h), fun hw => moves (State.writeConfigB_noMatch h hw)⟩⟩
  · exact fun hagrees => moves ((State.writeConfigA_awaitA2 h).trans (congrArg s.setLatch (if_pos hagrees)))
  · exact fun hdiffers => moves ((State.writeConfigA_awaitA2 h).trans (congrArg s.setLatch (if_neg hdiffers)))
  · exact moves (State.writeConfigB_awaitA2 h)

/-- Settles O8: every command but a hardware reset is a sequence of changes, none of which alters a latch that has matched. -/
theorem configurationFixedUntilReset : Obligations.ConfigurationFixedUntilReset :=
  fun c s t hc hl ht => Changes.configured (exec_answers c s hc t ht) hl

end Sys2Proof.Machine
end

