-- ==== Sys2Proof/Proofs/InvalidCodes.lean ====
section
/-! SUPPORT. Codes that name nothing (O18): the rule of each field that judges them (R191). -/

namespace Sys2Proof.Machine

section

variable {s : State}

/-! ### COMMAND and REQ_TARGET (R169, R173) -/

theorem exec_commandCode (h : s.configured = true) (code : BitVec 3) :
    exec (.commandInvalidCode code) s = .next (s.writeCommand code) :=
  congrArg Host.Outcome.next (State.hosted_configured h _)

theorem State.writeCommand_invalid (s : State) : ∀ code ∈ ([0, 6, 7] : List (BitVec 3)),
    s.writeCommand code = s.setCommandStatus .wrongState := by
  simp only [List.forall_mem_cons]
  exact ⟨rfl, rfl, rfl, List.forall_mem_nil _⟩

/-- A code of REQ_TARGET that names no operation, or no channel where one is asked, makes the record MALFORMED. -/
theorem Staging.malformed_of_code {x : Staging}
    (h : x.op.toNat = 0 ∨ 4 ≤ x.op.toNat ∨ (x.op.toNat ≠ 3 ∧ 2 ≤ x.chan.toNat)) : x.Malformed := by
  obtain hnone | habove | ⟨hop, hchan⟩ := h
  · exact .inl hnone
  · exact .inr (.inl habove)
  · exact .inr (.inr (.inl ⟨hop, .inr (.inr hchan)⟩))

/-! ### FLAGS (R180) -/

theorem lowByte_getLsbD (w : Word) (i : Fin 8) : (w &&& 0x00FF).getLsbD i = w.getLsbD i := by
  have hmask : ∀ j : Fin 8, (0x00FF : Word).getLsbD j = true := by decide
  rw [BitVec.getLsbD_and, hmask, Bool.and_true]

theorem clearFlags_lowByte (flags : BitVec 8) (w : Word) (outcomesEmpty : Bool) :
    clearFlags flags (w &&& 0x00FF) outcomesEmpty = clearFlags flags w outcomesEmpty := by
  have hbits (i : Fin 8) : (clearFlags flags (w &&& 0x00FF) outcomesEmpty).getLsbD i = (clearFlags flags w outcomesEmpty).getLsbD i := by
    rw [clearFlags_getLsbD, clearFlags_getLsbD, lowByte_getLsbD]
  exact BitVec.eq_of_getLsbD_eq fun i hi => hbits ⟨i, hi⟩

/-- Bits above bit 7 of a write of FLAGS do nothing (R191). -/
theorem State.writeFlags_lowByte (s : State) (w : Word) : s.writeFlags (w &&& 0x00FF) = s.writeFlags w := by
  have hbit5 : (w &&& 0x00FF).getLsbD 5 = w.getLsbD 5 := lowByte_getLsbD w 5
  have hbit6 : (w &&& 0x00FF).getLsbD 6 = w.getLsbD 6 := lowByte_getLsbD w 6
  have hbit7 : (w &&& 0x00FF).getLsbD 7 = w.getLsbD 7 := lowByte_getLsbD w 7
  rw [State.writeFlags_eq, State.writeFlags_eq, clearFlags_lowByte, hbit5, hbit6, hbit7]

/-! ### The fields all of whose codes are valid -/

theorem thresholdWords_valid : ∀ k : BitVec 2, thresholdWords k ∈ [1, 8, 32, 256] := by decide

theorem poolOf_valid (b : Word) : (poolOf b).areas ∈ [8, 12, 16, 24] := by
  rw [poolOf_areas, List.getD_eq_getElem _ _ (bitField_lt b 0 2)]
  exact List.getElem_mem _

end

/-- Settles O18: each code by the rule of its field; a step of kind 0 leaves no script, a line rate code of 0 no configuration. -/
theorem invalidCodes : Obligations.InvalidCodes := by
  intro s hs
  refine ⟨fun code hcode => ?_, fun hcode => ?_, fun w j hidle hj hkind => ?_, fun w => ?_, thresholdWords_valid, poolOf_valid,
    fun u a b w hu hlatch hrate => ?_⟩
  · rw [exec_commandCode hs, s.writeCommand_invalid code hcode]
    rfl
  · rw [exec_post hs, State.postRequest_malformed (Staging.malformed_of_code hcode)]
    rfl
  · obtain ⟨hposted, hrunning⟩ := not_or.mp (mt s.port.scriptBusy_iff.mpr (Bool.eq_false_iff.mp hidle))
    rw [exec_maintLoad hs, State.loadScript_bad hposted hrunning (scriptOf_invalid s _ (.inr (.inr ⟨j, hj, hkind⟩)))]
  · rw [exec_flagsWrite hs, exec_flagsWrite hs, State.writeFlags_lowByte]
  · rw [exec_configBWrite hu, State.writeConfigB_noMatch hlatch (.inr hrate)]
    rfl

end Sys2Proof.Machine
end

