-- ==== Sys2Proof/Proofs/CommandQueue.lean ====
section
/-! SUPPORT. The queue of waiting commands (O1, O2): a step takes its front, and every command answers a next state with the rest as it
stood (log 28). -/

namespace Sys2Proof.Machine

/-- Every command answers a next state, in each branch of the meanings that look up a record, an offset or the state of the port. -/
theorem exec_completes (c : Instr) (s : State) : ∃ t, exec c s = .next t := by
  cases c
  case registerWrite | askResend | noReply | stallRewind | rewindLimitInitiator | rewindLimitTarget | primingCredit | primingLimit |
      starvationLimit | outcomeResend | startingTimeout =>
    simp only [exec, execRegisterWrite, execAskResend, execNoReply, execStallRewind, execRewindLimitInitiator, execRewindLimitTarget,
      execPrimingCredit, execPrimingLimit, execStarvationLimit, execOutcomeResend, execStartingTimeout]
    repeat' split
    all_goals exact ⟨_, rfl⟩
  all_goals exact ⟨_, rfl⟩

/-- Neither the changes of a command nor a hardware reset touch the waiting commands. -/
theorem Stepped.pending_eq {t u : Track} (m : Stepped t u) : u.pending = t.pending := by
  obtain m | rfl := m
  · exact m.pending_eq
  · rfl

/-- Settles O1: a queue with a front command is the first case of a step. -/
theorem stepRunsFrontCommand : Obligations.StepRunsFrontCommand := fun _ _ _ => rfl

/-- Settles O2: the next state exists by `exec_completes`, and what a command does to the tracked part keeps the queue. -/
theorem commandsCompleteAndKeepTheQueue : Obligations.CommandsCompleteAndKeepTheQueue := by
  intro c s
  obtain ⟨t, ht⟩ := exec_completes c s
  exact ⟨t, ht, (exec_stepped c s ht).pending_eq⟩

end Sys2Proof.Machine
end
